-- ==== Sys2Proof/Word.lean ====
section
/-! DEFINITION. The word and byte types of the block. -/

namespace Sys2Proof

/-- A register, a command word, a DMEM address or an ARGB pixel: 32 bits (00_scope.md R7 `ADDR_W`, `CMD_W`; 10_state.md R22). -/
abbrev Word := BitVec 32

/-- One byte of DMEM (20_memory.md R60). -/
abbrev Byte := BitVec 8

end Sys2Proof
end

