-- ==== Sys2Proof/Config.lean ====
section
/-! DEFINITION. The implementation parameters of 00_scope.md R7, and the source of free values. -/

namespace Sys2Proof

/-- `RD_EOF_POLICY` (R7, 41_range_decoder.md R116): what a range-decoder byte fetch past the end does. -/
inductive EofPolicy where
  | fault
  | zeroFill
  deriving DecidableEq, Repr

/-- The open parameters of R7, fixed for one block. `dmemLast` is the last DMEM address, so that
`DMEM_SIZE = dmemLast + 1` lies in 1 .. 2^32, the range R7 allows, whatever value is held. -/
structure Params where
  dmemLast : Word
  rdEof    : EofPolicy
  xfWrap16 : Bool
  deriving DecidableEq, Repr

/-- `DMEM_SIZE` (R7, 20_memory.md R60). -/
def Params.dmemSize (p : Params) : Nat := p.dmemLast.toNat + 1

/-- The parameters `State.reset` takes: the spec's defaults for `RD_EOF_POLICY` and `XF_WRAP16` (R7).
DESIGN CHOICE, unsafe (log entry 1): `DMEM_SIZE` is open and has no default; 2^32, the whole address space. -/
def Config.params : Params := { dmemLast := 0xFFFFFFFF#32, rdEof := .fault, xfWrap16 := true }

/-- `HT_SLOTS` (R7). -/
def Config.htSlots : Nat := 1280
/-- `ALPHA_MAX` (R7). -/
def Config.alphaMax : Nat := 2328
/-- `MAX_CODE_LEN` (R7). -/
def Config.maxCodeLen : Nat := 15
/-- `CC_BITS_MAX` (R7). -/
def Config.ccBitsMax : Nat := 11
/-- The number of colour-cache entries (10_state.md R47). -/
def Config.cacheSize : Nat := 2048
/-- `MAX_GROUPS` (R7). -/
def Config.maxGroups : Nat := 256
/-- `IMG_DIM_MAX` (R7). -/
def Config.imgDimMax : Nat := 16384
/-- `TREE_READ_MAX` (R7). -/
def Config.treeReadMax : Nat := 255

/-- Where the spec says that the model draws a value of a width freely (60_exceptions.md R249, 10_state.md R52,
40_control.md R110), the model takes `Config.freeBits width draw index`: `draw` counts the draws of a run
(`State.drawn`), `index` tells the values of one draw apart. It has no body, so no proof can know a value
of it (log entry 6). -/
opaque Config.freeBits (width draw index : Nat) : BitVec width

/-- The DMEM bytes that power-on leaves (70_reset_and_hazards.md R272): the distance of each byte that is not 0 from the
one before, and its value less 1; `powerOnMem` (Machine/State.lean) lays them out. Every content of DMEM is one such list
(`Obligations.ResetInv`), and this one has no body, so no proof can know a byte of it (log entry 2). -/
opaque Config.powerOn : List (Nat × Fin 255)

end Sys2Proof
end

