-- ==== Sys2Proof/Syntax.lean ====
section
/-! DEFINITION. The commands of the block as syntax: one constructor for each row of 30_encoding.md R92. -/

namespace Sys2Proof

/-- A range-decoder context, the CTX operand (30_encoding.md R91: every CTX value names a context). -/
inductive Ctx where
  | c0
  | c1
  deriving DecidableEq, Repr

/-- The commands. `n` is the bit count N (5 bits in the word), `p` the probability and `start` the tree index P8,
`t` the Huffman slot index SLOT (12 bits in the word); `Instr.WellFormed` holds `n` and `t` to their fields. -/
inductive Instr where
  | nop
  | rdInit (c : Ctx)
  | rdBool (c : Ctx) (p : Byte)
  | rdUint (c : Ctx) (n : Nat)
  | rdSint (c : Ctx) (n : Nat)
  | rdTree (c : Ctx) (start : Byte)
  | brPeek (n : Nat)
  | brSkip (n : Nat)
  | brRead (n : Nat)
  | xfIdctAdd
  | xfIdct
  | xfIwht
  | cvConvert
  | hfBuild (t : Nat)
  | hfDecode (t : Nat)
  | hfReadLengths
  | hfFree (t : Nat)
  | pxDecode
  deriving DecidableEq, Repr

end Sys2Proof
end

