-- ==== Sys2Proof/Machine/State.lean ====
section
/-! DEFINITION. The state of the block as plain data (10_state.md), the host's turns, the reasons a step can
stop, and the state after reset. -/

namespace Sys2Proof.Machine

/-- The error kinds the block raises (00_scope.md R12; the other kinds of 60_exceptions.md R245 are never raised). -/
inductive ErrKind where
  | invalidArgument
  | invalidData
  | endOfInput
  | unsupported
  deriving DecidableEq, Repr

/-- A range-decoder context (10_state.md R31 to R33). -/
structure RdCtx where
  ptr    : Word
  stop   : Word         -- RD_END(c)
  value  : BitVec 16
  range  : BitVec 8
  bitcnt : BitVec 3
  valid  : Bool
  deriving DecidableEq, Repr

/-- The inverse-transform registers (10_state.md R35). -/
structure XfRegs where
  coefAddr  : Word
  pixAddr   : Word
  pixStride : Word
  outAddr   : Word
  outStride : Word
  deriving DecidableEq, Repr

/-- The VP8L bit reader (10_state.md R36, R37). -/
structure BrRegs where
  ptr   : Word
  stop  : Word          -- BR_END
  acc   : BitVec 64
  nbits : BitVec 7
  deriving DecidableEq, Repr

/-- The Huffman-engine registers (10_state.md R38). -/
structure HfRegs where
  lenAddr : Word
  alpha   : BitVec 12
  deriving DecidableEq, Repr

/-- The pixel-decoder registers (10_state.md R39 to R42). -/
structure PxRegs where
  dstAddr   : Word
  width     : BitVec 15
  height    : BitVec 15
  groupBase : BitVec 11
  numGroups : BitVec 9
  himgAddr  : Word
  hbits     : BitVec 4   -- PX_HIMG_CTRL bits 3:0
  hen       : Bool       -- PX_HIMG_CTRL bit 8
  ccBits    : BitVec 4
  pos       : Word
  deriving DecidableEq, Repr

/-- The colour-converter registers (10_state.md R43, R44). -/
structure CvRegs where
  yAddr     : Word
  yStride   : Word
  uAddr     : Word
  vAddr     : Word
  uvStride  : Word
  dstAddr   : Word
  dstStride : Word
  width     : BitVec 15
  height    : BitVec 15
  nearest   : Bool       -- CV_MODE bit 0
  ky        : BitVec 16
  krv       : BitVec 16
  kgu       : BitVec 16
  kgv       : BitVec 16
  kbu       : BitVec 16
  yoff      : BitVec 8
  shift     : BitVec 5
  rnd       : Word
  deriving DecidableEq, Repr

/-- A canonical code (10_state.md R45, 45_huffman.md R185): the code length of each symbol in order, so the alphabet
size A is the list's length. -/
abbrev HCode := List Nat

/-- Data by index in one canonical form: pairs with strictly rising indexes, none holding what an unlisted index reads
as. DMEM, the slot file and the colour cache are held so. -/
abbrev Sparse (β : Type) := List (Nat × β)

/-- DMEM (20_memory.md R60): the listed bytes; an unlisted byte is `unlistedByte` (Machine/Ops.lean), which is 0, so that the
list of a content is its bytes that are not 0. -/
abbrev Memory := List Host.Cell

/-- The width of a host access. R61 gives window accesses one legal width, 32 bits, and names no other. DESIGN CHOICE (log
entry 5): the widths a host can use, of the window and of DMEM, are 8, 16 and 32 bits. -/
inductive AccessWidth where
  | byte
  | half
  | word
  deriving DecidableEq, Repr

/-- One turn of the host (10_state.md R20): an access of the register window at a byte offset, an access of DMEM at an
address, or none, which leaves the turn to the sequencer. -/
inductive HostTurn where
  | wait
  | readReg  (off : BitVec 12) (width : AccessWidth)
  | writeReg (off : BitVec 12) (width : AccessWidth) (v : Word)
  | readMem  (addr : Word) (width : AccessWidth)
  | writeMem (addr : Word) (width : AccessWidth) (v : Word)
  deriving DecidableEq, Repr

/-- Why a step stops: what the host did has no defined effect. No command faults. The first three are the host protocol
violations of 60_exceptions.md R262, whose fault mark no later step clears; all are safe (log entries 4 and 5). -/
inductive Fault where
  /-- R262 (a): a write of CMD or of a register other than CTRL, STATUS, IRQ_EN while BUSY = 1. Raised by a host turn. Safe. -/
  | hostWriteWhileBusy
  /-- R262 (b): a host access of DMEM while BUSY = 1. Raised by a host turn. Safe. -/
  | hostMemWhileBusy
  /-- R262 (c): a window access that is not a 32-bit access at a word-aligned offset. Raised by a host turn. Safe. -/
  | hostBadAccess
  /-- A host access of DMEM beyond `DMEM_SIZE`, which the spec does not describe. Raised by a host turn. Safe. -/
  | hostMemOutside
  deriving DecidableEq, Repr

/-- Why a command has no meaning in the model. -/
inductive Refusal where
  /-- A command that the model gives no meaning yet; raised by its arm of `exec`. Safe. No arm raises it now. -/
  | notModelled (mnemonic : String)
  deriving DecidableEq, Repr

/-- The state: the registers of 10_state.md R50, the internal stores of R45 to R48, DMEM (20_memory.md R60), the fixed
parameters of R7, and three fields of the model's own (log entries 3 and 6). BUSY is that a command is pending (R48). -/
structure State where
  params     : Params
  pending    : Option Word        -- R48; STATUS.BUSY
  done       : Bool               -- STATUS.DONE
  err        : BitVec 4           -- STATUS.ERR
  errOp      : Byte               -- STATUS.ERR_OP
  doneIe     : Bool               -- IRQ_EN.DONE_IE
  errIe      : Bool               -- IRQ_EN.ERR_IE
  result     : Word
  rd0        : RdCtx
  rd1        : RdCtx
  rdTreeAddr : Word
  rdProbAddr : Word
  xf         : XfRegs
  br         : BrRegs
  hf         : HfRegs
  px         : PxRegs
  cv         : CvRegs
  slots      : Sparse (Option HCode)  -- SLOT; an unlisted slot is EMPTY
  scratchCl  : Option HCode           -- SCRATCH_CL
  cache      : Sparse Word            -- CACHE; an unlisted entry is 0
  mem        : Memory                 -- DMEM
  host       : List HostTurn          -- the model's own: the host's turns to come
  hostData   : Word                   -- the model's own: what the host's last read returned
  drawn      : Nat                    -- the model's own: how many draws of free values were made
  deriving DecidableEq, Repr

/-- The reset value of a range-decoder context (R50). -/
def RdCtx.reset : RdCtx :=
  { ptr := 0, stop := 0, value := 0, range := 0, bitcnt := 0, valid := false }

/-- The reset values of R50 for the transform registers: XF_OUT_STRIDE is 32. -/
def XfRegs.reset : XfRegs :=
  { coefAddr := 0, pixAddr := 0, pixStride := 0, outAddr := 0, outStride := 32 }

/-- The reset values of R50 for the bit reader. -/
def BrRegs.reset : BrRegs := { ptr := 0, stop := 0, acc := 0, nbits := 0 }

/-- The reset values of R50 for the Huffman registers. -/
def HfRegs.reset : HfRegs := { lenAddr := 0, alpha := 0 }

/-- The reset values of R50 for the pixel decoder. -/
def PxRegs.reset : PxRegs :=
  { dstAddr := 0, width := 0, height := 0, groupBase := 0, numGroups := 0, himgAddr := 0, hbits := 0, hen := false,
    ccBits := 0, pos := 0 }

/-- The reset values of R50 for the colour converter, the coefficients of 44_color_convert.md R175 among them. -/
def CvRegs.reset : CvRegs :=
  { yAddr := 0, yStride := 0, uAddr := 0, vAddr := 0, uvStride := 0, dstAddr := 0, dstStride := 0, width := 0,
    height := 0, nearest := false, ky := 298, krv := 409, kgu := -100, kgv := -208, kbu := 516, yoff := 16, shift := 8,
    rnd := 128 }

/-- The bytes `free` from address `a` on, in the canonical form of DMEM, as far as they lie below `size`: each pair is
the distance from the byte before and the value less 1. -/
def powerOnMem (size : Nat) : Nat → List (Nat × Fin 255) → Memory
  | _, [] => []
  | a, (gap, v) :: free =>
    if a + gap < size then (a + gap, BitVec.ofNat 8 (v.val + 1)) :: powerOnMem size (a + gap + 1) free else []

/-- The state right after a reset (10_state.md R50, R51; 70_reset_and_hazards.md R270, R271) of a block with the parameters
`p` and the DMEM content `m`, which no reset initialises (R272). DESIGN CHOICE (log entries 3 and 6): the model's own
fields start empty and 0. -/
def State.resetWith (p : Params) (m : Memory) : State :=
  { params := p, pending := none, done := false, err := 0, errOp := 0, doneIe := false, errIe := false, result := 0,
    rd0 := .reset, rd1 := .reset, rdTreeAddr := 0, rdProbAddr := 0, xf := .reset, br := .reset, hf := .reset,
    px := .reset, cv := .reset, slots := [], scratchCl := none, cache := [], mem := m, host := [], hostData := 0,
    drawn := 0 }

/-- The state right after power-on, with the parameters of `Config.params`: every byte of DMEM holds any value (R272,
93_implementation_defined.md U6; log entry 2). -/
def State.reset : State := State.resetWith Config.params (powerOnMem Config.params.dmemSize 0 Config.powerOn)

end Sys2Proof.Machine
end

