-- ==== Sys2Proof/Machine/Ops.lean ====
section
/-! DEFINITION. The named operations over memory, registers and stores; completing a command; entering and leaving
the error state; drawing the free values of a failed command's write set. -/

namespace Sys2Proof.Machine

/-- What a command or a host turn answers. -/
abbrev Res := Host.Outcome State Fault Refusal

/-! ### Sparse data in canonical form -/

/-- What index `k` holds; an unlisted index holds `d`. -/
def Sparse.get {β : Type} (d : β) : Sparse β → Nat → β
  | [], _ => d
  | (a, b) :: m, k => if a = k then b else Sparse.get d m k

/-- Takes index `k` out of a rising list. -/
def Sparse.erase {β : Type} : Sparse β → Nat → Sparse β
  | [], _ => []
  | (a, b) :: m, k => if k < a then (a, b) :: m else if a = k then m else (a, b) :: Sparse.erase m k

/-- Puts `(k, v)` at its place in a rising list. -/
def Sparse.insert {β : Type} : Sparse β → Nat → β → Sparse β
  | [], k, v => [(k, v)]
  | (a, b) :: m, k, v =>
    if k < a then (k, v) :: (a, b) :: m else if a = k then (k, v) :: m else (a, b) :: Sparse.insert m k v

/-- Index `k` becomes `v`; writing what an unlisted index holds takes the entry out. -/
def Sparse.set {β : Type} [DecidableEq β] (d : β) (m : Sparse β) (k : Nat) (v : β) : Sparse β :=
  if v = d then Sparse.erase m k else Sparse.insert m k v

/-- The canonical form: indexes strictly rising, no entry equal to what an unlisted index holds. -/
abbrev Sparse.Canonical {β : Type} (d : β) (m : Sparse β) : Prop :=
  m.Pairwise (fun x y => x.1 < y.1) ∧ ∀ c ∈ m, c.2 ≠ d

/-! ### DMEM (20_memory.md) -/

/-- What a DMEM byte reads as that the list does not hold: 0. This is how a content is written down, not a choice of the
content: power-on leaves any list (`State.reset`, log entry 2). -/
def unlistedByte : Byte := 0#8

/-- The canonical form of DMEM. -/
abbrev Memory.wf (m : Memory) : Prop := Sparse.Canonical unlistedByte m

/-- One byte of DMEM. -/
def memByte (m : Memory) (a : Nat) : Byte := Sparse.get unlistedByte m a

/-- `MemWrite(a, 1, b)` (00_scope.md R11). -/
def memStore (m : Memory) (a : Nat) (b : Byte) : Memory := Sparse.set unlistedByte m a b

/-- Two bytes, little-endian (R11, R64). -/
def memHalf (m : Memory) (a : Nat) : BitVec 16 := memByte m (a + 1) ++ memByte m a

/-- Four bytes, little-endian (R11, R64). -/
def memWord (m : Memory) (a : Nat) : Word :=
  memByte m (a + 3) ++ memByte m (a + 2) ++ memByte m (a + 1) ++ memByte m a

/-- `MemReadS16(a)` (R11). -/
def memReadS16 (m : Memory) (a : Nat) : Int := (memHalf m a).toInt

/-- `MemWrite(a, 2, v)` (R11): the low byte at `a`. -/
def memStore16 (m : Memory) (a : Nat) (v : BitVec 16) : Memory :=
  memStore (memStore m a (v.extractLsb' 0 8)) (a + 1) (v.extractLsb' 8 8)

/-- `MemWrite(a, 4, v)` (R11): the low byte at `a`. -/
def memStore32 (m : Memory) (a : Nat) (v : Word) : Memory :=
  memStore16 (memStore16 m a (v.extractLsb' 0 16)) (a + 2) (v.extractLsb' 16 16)

/-- Bytes in order at rising addresses. -/
def memStoreList (m : Memory) (a : Nat) : List Byte → Memory
  | [] => m
  | b :: bs => memStoreList (memStore m a b) (a + 1) bs

/-- The `n` bytes from `a` become `f` of their addresses. -/
def memFill (f : Nat → Byte) (a : Nat) : Nat → Memory → Memory
  | 0, m => m
  | n + 1, m => memStore (memFill f a n m) (a + n) (f (a + n))

/-- An access or region of `n` bytes at `a` is in bounds (R62), computed without wrapping. -/
def inDmem (p : Params) (a n : Nat) : Bool := a + n ≤ p.dmemSize

/-- `MemRead(a, 1)` with its check (R11, R62): the reads whose address depends on decoded data. -/
def memReadChecked (p : Params) (m : Memory) (a : Nat) : Except ErrKind Byte :=
  if inDmem p a 1 then .ok (memByte m a) else .error .invalidArgument

/-! ### Registers and internal stores -/

/-- The registers of context `c` (10_state.md R31). -/
def State.rd (s : State) : Ctx → RdCtx
  | .c0 => s.rd0
  | .c1 => s.rd1

/-- Context `c` becomes `x`. -/
def State.setRd (s : State) (c : Ctx) (x : RdCtx) : State :=
  match c with
  | .c0 => { s with rd0 := x }
  | .c1 => { s with rd1 := x }

/-- The bit reader becomes `b`. -/
def State.setBr (s : State) (b : BrRegs) : State := { s with br := b }

/-- DMEM becomes `m`. -/
def State.setMem (s : State) (m : Memory) : State := { s with mem := m }

/-- RESULT becomes `v` (10_state.md R28). -/
def State.setResult (s : State) (v : Word) : State := { s with result := v }

/-- `SLOT[t]` (10_state.md R45); `none` is EMPTY. -/
def State.slot (s : State) (t : Nat) : Option HCode := Sparse.get none s.slots t

/-- `SLOT[t]` becomes `x`. -/
def State.setSlot (s : State) (t : Nat) (x : Option HCode) : State :=
  { s with slots := Sparse.set none s.slots t x }

/-- One entry of the colour cache (10_state.md R47). -/
def cacheEntry (c : Sparse Word) (i : Nat) : Word := Sparse.get 0#32 c i

/-- One entry of the colour cache becomes `p`. -/
def cacheStore (c : Sparse Word) (i : Nat) (p : Word) : Sparse Word := Sparse.set 0#32 c i p

/-- The first `n` entries of the colour cache become 0 (46_lz77_pixel.md R219). -/
def cacheClear (c : Sparse Word) (n : Nat) : Sparse Word := c.filter (fun e => n ≤ e.1)

/-! ### Completion, error entry and error exit -/

/-- STATUS.ERR's code of a kind (60_exceptions.md R245). -/
def ErrKind.code : ErrKind → BitVec 4
  | .invalidArgument => 1#4
  | .invalidData => 2#4
  | .endOfInput => 4#4
  | .unsupported => 5#4

/-- Completion (40_control.md R105): BUSY becomes 0, no command is pending, DONE becomes 1. -/
def State.complete (s : State) : State := { s with pending := none, done := true }

/-- Error entry (60_exceptions.md R248): `raise e` in the command with OP `op`. -/
def State.raiseError (s : State) (op : Byte) (e : ErrKind) : State :=
  { s with err := e.code, errOp := op }.complete

/-- Error exit (40_control.md R111): CLEAR_ERR. -/
def State.clearErr (s : State) : State := { s with err := 0, errOp := 0 }

/-- The end of a command that succeeded. -/
def succeed (s : State) : Res := .next s.complete

/-- The end of a command that raised `e`, in the state that holds its unspecified write set. -/
def failed (op : Byte) (e : ErrKind) (s : State) : Res := .next (s.raiseError op e)

/-- The argument checks of a command (40_control.md R106 (3)): one that fails raises `InvalidArgument` and nothing else
has changed (60_exceptions.md R249). -/
def withChecks (op : Byte) (ok : Bool) (s : State) (run : Res) : Res :=
  if ok then run else failed op .invalidArgument s

/-! ### Free values of a failed or abandoned command's write set (60_exceptions.md R249, log entry 6) -/

/-- Counts one draw. -/
def State.countDraw (s : State) : State := { s with drawn := s.drawn + 1 }

/-- The write set of RD commands: RD_PTR(c), RD_VALUE(c), RD_RANGE(c), RD_STATE(c).BITCNT hold any value. -/
def State.drawRd (s : State) (c : Ctx) : State :=
  (s.setRd c { s.rd c with ptr := Config.freeBits 32 s.drawn 0, value := Config.freeBits 16 s.drawn 0,
                           range := Config.freeBits 8 s.drawn 0, bitcnt := Config.freeBits 3 s.drawn 0 }).countDraw

/-- The bit reader with any value in BR_PTR, BR_ACC and BR_NBITS. -/
def BrRegs.drawn (b : BrRegs) (d : Nat) : BrRegs :=
  { b with ptr := Config.freeBits 32 d 0, acc := Config.freeBits 64 d 0, nbits := Config.freeBits 7 d 0 }

/-- The write set of BR_SKIP, BR_READ and HF_DECODE. -/
def State.drawBr (s : State) : State := (s.setBr (s.br.drawn s.drawn)).countDraw

/-- DMEM with any value in the `n` bytes from `a`. -/
def memDrawn (d a n : Nat) (m : Memory) : Memory := memFill (fun i => Config.freeBits 8 d i) a n m

/-- Any content of SCRATCH_CL: nothing, or any 19 lengths of 4 bits. -/
def scratchDrawn (d : Nat) : Option HCode :=
  if Config.freeBits 1 d 0 = 0#1 then none
  else some ((List.range 19).map (fun i => (Config.freeBits 4 d i).toNat))

/-- Any content of the first `n` entries of the colour cache. -/
def cacheDrawn (d : Nat) : Nat → Sparse Word → Sparse Word
  | 0, c => c
  | n + 1, c => cacheStore (cacheDrawn d n c) n (Config.freeBits 32 d (n + 2))

/-- The write set of HF_READ_LENGTHS: the bit reader, the `n` bytes of the array at `a`, SCRATCH_CL. -/
def State.drawLengths (s : State) (a n : Nat) : State :=
  { s with br := s.br.drawn s.drawn, mem := memDrawn s.drawn a n s.mem, scratchCl := scratchDrawn s.drawn,
           drawn := s.drawn + 1 }

/-- The write set of PX_DECODE: the bit reader, the `n` bytes of the output at `a`, the colour cache, PX_POS. -/
def State.drawPixels (s : State) (a n : Nat) : State :=
  { s with br := s.br.drawn s.drawn, mem := memDrawn s.drawn a n s.mem,
           cache := cacheDrawn s.drawn Config.cacheSize s.cache,
           px := { s.px with pos := Config.freeBits 32 s.drawn 1 }, drawn := s.drawn + 1 }

end Sys2Proof.Machine
end

