-- ==== Sys2Proof/Machine/Operands.lean ====
section
/-! DEFINITION. The operands a command takes from registers, and its argument checks over them (20_memory.md R62, R63).
The operands in the word (CTX, N, P8, SLOT, 30_encoding.md R91) come from Decode. -/

namespace Sys2Proof.Machine

/-- BR stream check (42_bit_reader.md R136): BR_END lies within DMEM. -/
def brStreamOk (s : State) : Bool := s.br.stop.toNat ≤ s.params.dmemSize

/-- RD_INIT's check (41_range_decoder.md R119): RD_END(c) lies within DMEM. -/
def rdEndOk (s : State) (c : Ctx) : Bool := (s.rd c).stop.toNat ≤ s.params.dmemSize

/-- A slot index names a slot (45_huffman.md R185). -/
def slotIndexOk (t : Nat) : Bool := t < Config.htSlots

/-- Alphabet size check (45_huffman.md R187). -/
def alphaOk (s : State) : Bool := 1 ≤ s.hf.alpha.toNat && s.hf.alpha.toNat ≤ Config.alphaMax

/-- Length array check (45_huffman.md R186). -/
def lenArrayOk (s : State) : Bool := inDmem s.params s.hf.lenAddr.toNat s.hf.alpha.toNat

/-- Coefficient block check (43_inverse_transforms.md R150): even, within DMEM. -/
def xfCoefOk (s : State) : Bool := s.xf.coefAddr.toNat % 2 = 0 && inDmem s.params s.xf.coefAddr.toNat 32

/-- The 16 coefficients in raster order (R150, R73: read before any write). -/
def xfCoefs (s : State) : List Int :=
  (List.range 16).map (fun i => memReadS16 s.mem (s.xf.coefAddr.toNat + 2 * i))

/-- The address of pixel (row `r`, column `k`) of the prediction block (10_state.md R35). -/
def xfPixAddr (s : State) (r k : Nat) : Nat := s.xf.pixAddr.toNat + r * s.xf.pixStride.toNat + k

/-- XF_IDCT_ADD's pixel region check (43_inverse_transforms.md R153). -/
def xfPixOk (s : State) : Bool := inDmem s.params (s.xf.pixAddr.toNat + 3 * s.xf.pixStride.toNat) 4

/-- XF_IDCT's output region check (R154). -/
def xfOutOk (s : State) : Bool := s.xf.outAddr.toNat % 2 = 0 && inDmem s.params s.xf.outAddr.toNat 32

/-- XF_IWHT's output region check (R156). -/
def xfWhtOutOk (s : State) : Bool :=
  s.xf.outAddr.toNat % 2 = 0 && s.xf.outStride.toNat % 2 = 0 &&
    inDmem s.params (s.xf.outAddr.toNat + 15 * s.xf.outStride.toNat) 2

/-- A width or height is legal (00_scope.md R7 `IMG_DIM_MAX`). -/
def dimOk (n : Nat) : Bool := 1 ≤ n && n ≤ Config.imgDimMax

/-- Chroma columns (44_color_convert.md R170). -/
def cvCw (v : CvRegs) : Nat := (v.width.toNat + 1) / 2
/-- Chroma rows (R170). -/
def cvCh (v : CvRegs) : Nat := (v.height.toNat + 1) / 2

/-- The address of luma sample (x, y) (R170). -/
def cvYAddr (v : CvRegs) (x y : Nat) : Nat := v.yAddr.toNat + y * v.yStride.toNat + x
/-- The address of U sample (i, j) (R170). -/
def cvUAddr (v : CvRegs) (i j : Nat) : Nat := v.uAddr.toNat + j * v.uvStride.toNat + i
/-- The address of V sample (i, j) (R170). -/
def cvVAddr (v : CvRegs) (i j : Nat) : Nat := v.vAddr.toNat + j * v.uvStride.toNat + i
/-- The address of output pixel (x, y) (R170). -/
def cvDstAddr (v : CvRegs) (x y : Nat) : Nat := v.dstAddr.toNat + y * v.dstStride.toNat + 4 * x

/-- The argument checks of CV_CONVERT, in the order of R173. -/
def cvArgsOk (s : State) : Bool :=
  let v := s.cv
  let w := v.width.toNat
  let h := v.height.toNat
  dimOk w && dimOk h && inDmem s.params (cvYAddr v 0 (h - 1)) w && inDmem s.params (cvUAddr v 0 (cvCh v - 1)) (cvCw v) &&
    inDmem s.params (cvVAddr v 0 (cvCh v - 1)) (cvCw v) && inDmem s.params (cvDstAddr v 0 (h - 1)) (4 * w)

/-- Words in a row of the huffman image: the width over 2^HBITS, rounded up (46_lz77_pixel.md R218). -/
def himgWords (hb w : Nat) : Nat := (w + 2 ^ hb - 1) / 2 ^ hb

/-- The slot of table `t` of group `g` (46_lz77_pixel.md R218). -/
def pxSlot (v : PxRegs) (g t : Nat) : Nat := v.groupBase.toNat + 5 * g + t

/-- No slot of the groups is EMPTY (R226). -/
def pxSlotsBuilt (s : State) : Bool :=
  (List.range (5 * s.px.numGroups.toNat)).all (fun i => (s.slot (s.px.groupBase.toNat + i)).isSome)

/-- The output check of PX_DECODE: aligned, within DMEM (R226). -/
def pxDstOk (s : State) : Bool :=
  s.px.dstAddr.toNat % 4 = 0 && inDmem s.params s.px.dstAddr.toNat (4 * s.px.width.toNat * s.px.height.toNat)

/-- The huffman-image check of PX_DECODE (R226). -/
def pxHimgOk (s : State) : Bool :=
  let hb := s.px.hbits.toNat
  !s.px.hen || (2 ≤ hb && hb ≤ 9 && s.px.himgAddr.toNat % 4 = 0 &&
    inDmem s.params s.px.himgAddr.toNat (4 * himgWords hb s.px.width.toNat * himgWords hb s.px.height.toNat))

/-- The argument checks of PX_DECODE, in the order of R226. -/
def pxArgsOk (s : State) : Bool :=
  let v := s.px
  dimOk v.width.toNat && dimOk v.height.toNat && 1 ≤ v.numGroups.toNat && v.numGroups.toNat ≤ Config.maxGroups &&
    v.ccBits.toNat ≤ Config.ccBitsMax && v.groupBase.toNat + 5 * v.numGroups.toNat ≤ Config.htSlots &&
    pxSlotsBuilt s && pxDstOk s && pxHimgOk s && brStreamOk s

end Sys2Proof.Machine
end

