-- ==== Sys2Proof/Machine/BitReader.lean ====
section
/-! DEFINITION. The VP8L bit reader BR (42_bit_reader.md). -/

namespace Sys2Proof.Machine

/-- One byte of the stream goes above the buffered bits (R137). -/
def brLoad (m : Memory) (b : BrRegs) : BrRegs :=
  { b with acc := b.acc ||| ((memByte m b.ptr.toNat).setWidth 64 <<< b.nbits.toNat), nbits := b.nbits + 8,
           ptr := b.ptr + 1 }

/-- Loads bytes until `n` bits are held or the stream ends, at most `k` bytes. -/
def brFillLoop (m : Memory) (n : Nat) : Nat → BrRegs → BrRegs
  | 0, b => b
  | k + 1, b =>
    if b.nbits.toNat < n ∧ b.ptr.toNat < b.stop.toNat then brFillLoop m n k (brLoad m b) else b

/-- `BrFill(n)`, n at most 31 (R137): 4 bytes always suffice (40_control.md R113). -/
def brFill (m : Memory) (n : Nat) (b : BrRegs) : BrRegs := brFillLoop m n 4 b

/-- `BrPeek(n)` (R138): the next `n` bits and the filled reader. -/
def brPeek (m : Memory) (n : Nat) (b : BrRegs) : Nat × BrRegs :=
  ((brFill m n b).acc.toNat % 2 ^ n, brFill m n b)

/-- `BrSkip(n)` (R139). -/
def brSkip (m : Memory) (n : Nat) (b : BrRegs) : Except ErrKind BrRegs :=
  let f := brFill m n b
  if f.nbits.toNat < n then .error .invalidData
  else .ok { f with acc := f.acc >>> n, nbits := BitVec.ofNat 7 (f.nbits.toNat - n) }

/-- `BrRead(n)` (R140). -/
def brRead (m : Memory) (n : Nat) (b : BrRegs) : Except ErrKind (Nat × BrRegs) :=
  match brSkip m n (brPeek m n b).2 with
  | .error e => .error e
  | .ok c => .ok ((brPeek m n b).1, c)

/-- BR_PEEK (R141). -/
def execBrPeek (n : Nat) (s : State) : Res :=
  withChecks 0x10#8 (brStreamOk s) s <|
    succeed ((s.setBr (brPeek s.mem n s.br).2).setResult (BitVec.ofNat 32 (brPeek s.mem n s.br).1))

/-- BR_SKIP (R142). -/
def execBrSkip (n : Nat) (s : State) : Res :=
  withChecks 0x11#8 (brStreamOk s) s <|
    match brSkip s.mem n s.br with
    | .error e => failed 0x11#8 e s.drawBr
    | .ok b => succeed (s.setBr b)

/-- BR_READ (R143). -/
def execBrRead (n : Nat) (s : State) : Res :=
  withChecks 0x12#8 (brStreamOk s) s <|
    match brRead s.mem n s.br with
    | .error e => failed 0x12#8 e s.drawBr
    | .ok (v, b) => succeed ((s.setBr b).setResult (BitVec.ofNat 32 v))

end Sys2Proof.Machine
end

