-- ==== Sys2Proof/Machine/Transform.lean ====
section
/-! DEFINITION. The inverse transforms XF (43_inverse_transforms.md). Arithmetic is in the integers; `v / 2^n` is the
floor shift of 00_scope.md R9. -/

namespace Sys2Proof.Machine

/-- `wrap16` (00_scope.md R9). -/
def wrap16 (v : Int) : Int := (BitVec.ofInt 16 v).toInt

/-- `W` (43_inverse_transforms.md R158). -/
def xfW (wrap : Bool) (v : Int) : Int := if wrap then wrap16 v else v

/-- `MulC1` (R151). -/
def mulC1 (v : Int) : Int := v + v * 20091 / 65536

/-- `MulC2` (R151). -/
def mulC2 (v : Int) : Int := v * 35468 / 65536

/-- Four values of a row or column. -/
structure Quad where
  x0 : Int
  x1 : Int
  x2 : Int
  x3 : Int
  deriving DecidableEq, Repr

/-- The inverse-DCT butterfly on one row or column (R152), before rounding and `W`. -/
def idctQuad (q : Quad) : Quad :=
  let a := q.x0 + q.x2
  let b := q.x0 - q.x2
  let c := mulC2 q.x1 - mulC1 q.x3
  let d := mulC1 q.x1 + mulC2 q.x3
  { x0 := a + d, x1 := b + c, x2 := b - c, x3 := a - d }

/-- The inverse-WHT butterfly on one row or column (R155), before rounding and `W`. -/
def iwhtQuad (q : Quad) : Quad :=
  let a := q.x0 + q.x3
  let b := q.x1 + q.x2
  let c := q.x1 - q.x2
  let d := q.x0 - q.x3
  { x0 := a + b, x1 := c + d, x2 := a - b, x3 := d - c }

/-- `f` on each of the four. -/
def Quad.map (f : Int → Int) (q : Quad) : Quad := { x0 := f q.x0, x1 := f q.x1, x2 := f q.x2, x3 := f q.x3 }

/-- Element `k` of a block in raster order; 0 past its end. -/
def blockAt (c : List Int) (k : Nat) : Int := c.getD k 0

/-- Column `k` of a block in raster order. -/
def colQuad (c : List Int) (k : Nat) : Quad :=
  { x0 := blockAt c k, x1 := blockAt c (4 + k), x2 := blockAt c (8 + k), x3 := blockAt c (12 + k) }

/-- Row `r` of four columns. -/
def rowOfCols (q0 q1 q2 q3 : Quad) : Nat → Quad
  | 0 => { x0 := q0.x0, x1 := q1.x0, x2 := q2.x0, x3 := q3.x0 }
  | 1 => { x0 := q0.x1, x1 := q1.x1, x2 := q2.x1, x3 := q3.x1 }
  | 2 => { x0 := q0.x2, x1 := q1.x2, x2 := q2.x2, x3 := q3.x2 }
  | _ => { x0 := q0.x3, x1 := q1.x3, x2 := q2.x3, x3 := q3.x3 }

/-- The four as a list. -/
def Quad.toList (q : Quad) : List Int := [q.x0, q.x1, q.x2, q.x3]

/-- The two passes of R152 and R155: the butterfly `f` on each column with `W`, then on each row with the rounding
`(v + r) >> 3` and `W`. -/
def xfTwoPass (f : Quad → Quad) (r : Int) (wrap : Bool) (c : List Int) : List Int :=
  let m := fun k => (f (colQuad c k)).map (xfW wrap)
  let row := fun i => ((f (rowOfCols (m 0) (m 1) (m 2) (m 3) i)).map (fun v => xfW wrap ((v + r) / 8))).toList
  row 0 ++ row 1 ++ row 2 ++ row 3

/-- `IdctCore` (R152). -/
def idctCore (wrap : Bool) (c : List Int) : List Int := xfTwoPass idctQuad 4 wrap c

/-- `IwhtCore` (R155). -/
def iwhtCore (wrap : Bool) (c : List Int) : List Int := xfTwoPass iwhtQuad 3 wrap c

/-- `clamp255` (00_scope.md R9), as a byte. -/
def clamp255 (v : Int) : Byte := BitVec.ofInt 8 (min (max v 0) 255)

/-- The residuals `o` of indexes `i`, `i+1`, … added with saturation to the pixels in raster order, one pixel after the
other (R153, 20_memory.md R73); `addr` gives the address of pixel (row, column). -/
def xfAddPixels (addr : Nat → Nat → Nat) (i : Nat) (o : List Int) (m : Memory) : Memory :=
  match o with
  | [] => m
  | v :: vs =>
    let a := addr (i / 4) (i % 4)
    xfAddPixels addr (i + 1) vs (memStore m a (clamp255 ((memByte m a).toNat + v)))

/-- The values `o` of indexes `i`, `i+1`, … stored modulo 2^16 (R154, R156); `addr` gives the address of an index. -/
def xfStoreHalves (addr : Nat → Nat) (i : Nat) (o : List Int) (m : Memory) : Memory :=
  match o with
  | [] => m
  | v :: vs => xfStoreHalves addr (i + 1) vs (memStore16 m (addr i) (BitVec.ofInt 16 v))

/-- XF_IDCT_ADD (R153). -/
def execXfIdctAdd (s : State) : Res :=
  withChecks 0x20#8 (xfCoefOk s && xfPixOk s) s <|
    succeed (s.setMem (xfAddPixels (xfPixAddr s) 0 (idctCore s.params.xfWrap16 (xfCoefs s)) s.mem))

/-- XF_IDCT (R154). -/
def execXfIdct (s : State) : Res :=
  withChecks 0x21#8 (xfCoefOk s && xfOutOk s) s <|
    succeed (s.setMem
      (xfStoreHalves (fun i => s.xf.outAddr.toNat + 2 * i) 0 (idctCore s.params.xfWrap16 (xfCoefs s)) s.mem))

/-- XF_IWHT (R156). -/
def execXfIwht (s : State) : Res :=
  withChecks 0x22#8 (xfCoefOk s && xfWhtOutOk s) s <|
    succeed (s.setMem
      (xfStoreHalves (fun i => s.xf.outAddr.toNat + i * s.xf.outStride.toNat) 0
        (iwhtCore s.params.xfWrap16 (xfCoefs s)) s.mem))

end Sys2Proof.Machine
end

