-- ==== Sys2Proof/Machine/ColorConvert.lean ====
section
/-! DEFINITION. The colour-space converter CV (44_color_convert.md). -/

namespace Sys2Proof.Machine

/-- `Chroma(P, px, py)` (R171) of the plane `p`. -/
def cvChroma (v : CvRegs) (p : Nat → Nat → Nat) (px py : Nat) : Nat :=
  let i0 := px / 2
  let j0 := py / 2
  if v.nearest then p i0 j0
  else
    let i1 := min (i0 + px % 2) (cvCw v - 1)
    let j1 := min (j0 + py % 2) (cvCh v - 1)
    (p i0 j0 + p i1 j0 + p i0 j1 + p i1 j1 + 2) / 4

/-- One channel of `Convert` (R172): the sum of products rounded, shifted and clamped. -/
def cvChannel (v : CvRegs) (sum : Int) : Byte := clamp255 ((sum + v.rnd.toInt) / 2 ^ v.shift.toNat)

/-- `Convert(Yv, Uv, Vv)` (R172) and the opaque alpha (R174), in the order R, G, B, A (R170). -/
def cvPixel (v : CvRegs) (y u w : Nat) : List Byte :=
  let c : Int := (y : Int) - v.yoff.toNat
  let d : Int := (u : Int) - 128
  let e : Int := (w : Int) - 128
  [cvChannel v (v.ky.toInt * c + v.krv.toInt * e),
   cvChannel v (v.ky.toInt * c + v.kgu.toInt * d + v.kgv.toInt * e),
   cvChannel v (v.ky.toInt * c + v.kbu.toInt * d), 255#8]

/-- The four bytes of output pixel (x, y), from the planes as `m` holds them (R170 to R174). -/
def cvOutput (v : CvRegs) (m : Memory) (x y : Nat) : List Byte :=
  cvPixel v (memByte m (cvYAddr v x y)).toNat
    (cvChroma v (fun i j => (memByte m (cvUAddr v i j)).toNat) x y)
    (cvChroma v (fun i j => (memByte m (cvVAddr v i j)).toNat) x y)

/-- Reads the inputs of pixel (x, y), then writes its four bytes (20_memory.md R74). -/
def cvStep (v : CvRegs) (y x : Nat) (m : Memory) : Memory := memStoreList m (cvDstAddr v x y) (cvOutput v m x y)

/-- The first `n` pixels of row `y`, left to right. -/
def cvRow (v : CvRegs) (y : Nat) : Nat → Memory → Memory
  | 0, m => m
  | n + 1, m => cvStep v y n (cvRow v y n m)

/-- The first `n` rows, top to bottom. -/
def cvRows (v : CvRegs) : Nat → Memory → Memory
  | 0, m => m
  | n + 1, m => cvRow v n v.width.toNat (cvRows v n m)

/-- CV_CONVERT (R173). -/
def execCvConvert (s : State) : Res :=
  withChecks 0x30#8 (cvArgsOk s) s <|
    succeed (s.setMem (cvRows s.cv s.cv.height.toNat s.mem))

end Sys2Proof.Machine
end

