-- ==== Sys2Proof/Machine/Control.lean ====
section
/-! DEFINITION. The control command NOP (40_control.md). -/

namespace Sys2Proof.Machine

/-- NOP (R107): nothing but the completion. -/
def execNop (s : State) : Res := succeed s

end Sys2Proof.Machine
end

