-- ==== Sys2Proof/Machine/Huffman.lean ====
section
/-! DEFINITION. The canonical-Huffman engine HF (45_huffman.md). -/

namespace Sys2Proof.Machine

/-! ### Canonical codes -/

/-- `count[n]` (R188): how many symbols have length `n`; symbols of length 0 do not occur. -/
def lenCount (l : HCode) (n : Nat) : Nat := if n = 0 then 0 else l.count n

/-- `next[n]` of R188 before any symbol of length `n` has its code: the first code of length `n`. -/
def firstCode (l : HCode) : Nat → Nat
  | 0 => 0
  | n + 1 => (firstCode l n + lenCount l n) * 2

/-- The symbol at or after `i` in the lengths that is the `r`-th of length `n`, counting from 0. -/
def nthOfLen (n : Nat) : HCode → Nat → Nat → Option Nat
  | [], _, _ => none
  | x :: l, i, r =>
    if x = n then (if r = 0 then some i else nthOfLen n l (i + 1) (r - 1)) else nthOfLen n l (i + 1) r

/-- The symbol with length `n` and code `code` (R188, R192): codes of one length are consecutive in symbol order. -/
def symbolWith (l : HCode) (n code : Nat) : Option Nat :=
  if code < firstCode l n then none else nthOfLen n l 0 (code - firstCode l n)

/-- The code of symbol `s` (R188): the first code of its length plus the number of earlier symbols of that length. -/
def codeOf (l : HCode) (s : Nat) : Nat := firstCode l (l.getD s 0) + (l.take s).count (l.getD s 0)

/-- The sum over the symbols that occur of 2^(15 - length) (R190 (4)). -/
def kraftSum : HCode → Nat
  | [] => 0
  | x :: l => (if x = 0 then 0 else 2 ^ (15 - x)) + kraftSum l

/-- How many symbols occur. -/
def usedCount (l : HCode) : Nat := l.countP (fun x => x != 0)

/-- Validity of a length list (R190): no length above 15, some symbol, and one symbol only or a complete code. -/
def lensValid (l : HCode) : Bool :=
  l.all (fun x => x ≤ Config.maxCodeLen) && usedCount l != 0 && (usedCount l == 1 || kraftSum l == 2 ^ 15)

/-- The symbol of a single-symbol code (R190 (3)). -/
def singleSymbol (l : HCode) : Option Nat := if usedCount l = 1 then l.findIdx? (fun x => x != 0) else none

/-- The search of R192 from length `n` on, `k` lengths left: `code` holds the first `n - 1` bits of `v`, the first
stream bit the most significant (R191). Answers the length and the symbol. -/
def hfMatch (l : HCode) (v : Nat) : Nat → Nat → Nat → Option (Nat × Nat)
  | 0, _, _ => none
  | k + 1, n, code =>
    let next := 2 * code + v / 2 ^ (n - 1) % 2
    match symbolWith l n next with
    | some s => some (n, s)
    | none => hfMatch l v k (n + 1) next

/-- `HfDecode` (R192) with the code `l`. A search that finds nothing, which no valid code allows, raises `InvalidData`:
DESIGN CHOICE (log entry 8). -/
def hfDecode (l : HCode) (m : Memory) (b : BrRegs) : Except ErrKind (Nat × BrRegs) :=
  match singleSymbol l with
  | some s => .ok (s, b)
  | none =>
    match hfMatch l (brPeek m 15 b).1 15 1 0 with
    | none => .error .invalidData
    | some (n, s) =>
      match brSkip m n (brPeek m 15 b).2 with
      | .error e => .error e
      | .ok c => .ok (s, c)

/-! ### Code-length lists in the stream -/

/-- `CL_ORDER` (R196). -/
def clOrder : List Nat := [17, 18, 0, 1, 2, 3, 4, 5, 16, 6, 7, 8, 9, 10, 11, 12, 13, 14, 15]

/-- `ReadSimple(A)` (R197). -/
def readSimple (m : Memory) (a : Nat) (b : BrRegs) : Except ErrKind (HCode × BrRegs) :=
  match brRead m 1 b with
  | .error e => .error e
  | .ok (two, b1) =>
    match brRead m 1 b1 with
    | .error e => .error e
    | .ok (first8, b2) =>
      match brRead m (if first8 = 1 then 8 else 1) b2 with
      | .error e => .error e
      | .ok (s0, b3) =>
        if a ≤ s0 then .error .invalidData
        else if two = 0 then .ok ((List.replicate a 0).set s0 1, b3)
        else
          match brRead m 8 b3 with
          | .error e => .error e
          | .ok (s1, b4) =>
            if a ≤ s1 then .error .invalidData else .ok (((List.replicate a 0).set s0 1).set s1 1, b4)

/-- `k` lengths of 3 bits, put at the places `order` names in the list `cl` (R198). -/
def readClLens (m : Memory) : Nat → List Nat → HCode → BrRegs → Except ErrKind (HCode × BrRegs)
  | 0, _, cl, b => .ok (cl, b)
  | _ + 1, [], cl, b => .ok (cl, b)
  | k + 1, o :: order, cl, b =>
    match brRead m 3 b with
    | .error e => .error e
    | .ok (x, b') => readClLens m k order (cl.set o x) b'

/-- The limit on the number of code-length symbols (R198): the flag, the width selector, the limit. -/
def readMaxSymbol (m : Memory) (a : Nat) (b : BrRegs) : Except ErrKind (Nat × BrRegs) :=
  match brRead m 1 b with
  | .error e => .error e
  | .ok (flag, b1) =>
    if flag = 1 then
      match brRead m 3 b1 with
      | .error e => .error e
      | .ok (sel, b2) =>
        match brRead m (2 + 2 * sel) b2 with
        | .error e => .error e
        | .ok (x, b3) => if a < 2 + x then .error .invalidData else .ok (2 + x, b3)
    else .ok (a, b1)

/-- Extra bits and offset of the repeat symbols 16, 17, 18 (R196, R198). -/
def repeatCode (c : Nat) : Nat × Nat := if c = 16 then (2, 3) else if c = 17 then (3, 3) else (7, 11)

/-- The loop of R198 over the code-length symbols: `acc` holds the lengths set so far, `limit` the symbols still
allowed, `prev` the previous nonzero length; `k` bounds the loop, which sets a length each time round. -/
def readLens (cl : HCode) (m : Memory) (a : Nat) :
    Nat → Nat → HCode → Nat → BrRegs → Except ErrKind (HCode × BrRegs)
  | 0, _, acc, _, b => .ok (acc, b)
  | k + 1, limit, acc, prev, b =>
    if a ≤ acc.length ∨ limit = 0 then .ok (acc, b)
    else
      match hfDecode cl m b with
      | .error e => .error e
      | .ok (c, b1) =>
        if c < 16 then readLens cl m a k (limit - 1) (acc ++ [c]) (if c = 0 then prev else c) b1
        else
          match brRead m (repeatCode c).1 b1 with
          | .error e => .error e
          | .ok (x, b2) =>
            let rep := x + (repeatCode c).2
            if a < acc.length + rep then .error .invalidData
            else readLens cl m a k (limit - 1) (acc ++ List.replicate rep (if c = 16 then prev else 0)) prev b2

/-- `ReadNormal(A)` (R198): the lengths, those not reached 0, and the code-length code built on the way. -/
def readNormal (m : Memory) (a : Nat) (b : BrRegs) : Except ErrKind (HCode × HCode × BrRegs) :=
  match brRead m 4 b with
  | .error e => .error e
  | .ok (ncl, b1) =>
    match readClLens m (ncl + 4) clOrder (List.replicate 19 0) b1 with
    | .error e => .error e
    | .ok (cl, b2) =>
      if lensValid cl then
        match readMaxSymbol m a b2 with
        | .error e => .error e
        | .ok (limit, b3) =>
          match readLens cl m a a limit [] 8 b3 with
          | .error e => .error e
          | .ok (l, b4) => .ok (l ++ List.replicate (a - l.length) 0, cl, b4)
      else .error .invalidData

/-- One code-length list (R199): the lengths, SCRATCH_CL if it was built, and the bit reader. -/
def readLengthList (m : Memory) (a : Nat) (b : BrRegs) : Except ErrKind (HCode × Option HCode × BrRegs) :=
  match brRead m 1 b with
  | .error e => .error e
  | .ok (flag, b1) =>
    if flag = 1 then
      match readSimple m a b1 with
      | .error e => .error e
      | .ok (l, b2) => .ok (l, none, b2)
    else
      match readNormal m a b1 with
      | .error e => .error e
      | .ok (l, cl, b2) => .ok (l, some cl, b2)

/-! ### Commands -/

/-- The length array (R186). -/
def lenArray (s : State) : HCode :=
  (List.range s.hf.alpha.toNat).map (fun i => (memByte s.mem (s.hf.lenAddr.toNat + i)).toNat)

/-- HF_BUILD (R193): an invalid list leaves the slot EMPTY. -/
def execHfBuild (t : Nat) (s : State) : Res :=
  withChecks 0x40#8 (slotIndexOk t && alphaOk s && lenArrayOk s) s <|
    if lensValid (lenArray s) then succeed (s.setSlot t (some (lenArray s)))
    else failed 0x40#8 .invalidData (s.setSlot t none)

/-- HF_DECODE (R194). -/
def execHfDecode (t : Nat) (s : State) : Res :=
  withChecks 0x41#8 (slotIndexOk t && (s.slot t).isSome && brStreamOk s) s <|
    match hfDecode ((s.slot t).getD []) s.mem s.br with
    | .error e => failed 0x41#8 e s.drawBr
    | .ok (v, b) => succeed ((s.setBr b).setResult (BitVec.ofNat 32 v))

/-- HF_READ_LENGTHS (R199). -/
def execHfReadLengths (s : State) : Res :=
  withChecks 0x42#8 (alphaOk s && lenArrayOk s && brStreamOk s) s <|
    match readLengthList s.mem s.hf.alpha.toNat s.br with
    | .error e => failed 0x42#8 e (s.drawLengths s.hf.lenAddr.toNat s.hf.alpha.toNat)
    | .ok (l, cl, b) =>
      succeed { s with mem := memStoreList s.mem s.hf.lenAddr.toNat (l.map (BitVec.ofNat 8)), br := b,
                       scratchCl := cl.or s.scratchCl }

/-- HF_FREE (R195). -/
def execHfFree (t : Nat) (s : State) : Res :=
  withChecks 0x43#8 (slotIndexOk t) s <| succeed (s.setSlot t none)

end Sys2Proof.Machine
end

