-- ==== Sys2Proof/Machine/PixelDecode.lean ====
section
/-! DEFINITION. The LZ77 pixel decoder PX with its colour cache (46_lz77_pixel.md). -/

namespace Sys2Proof.Machine

/-- What PX_DECODE changes while it runs: the position, DMEM, the colour cache and the bit reader. -/
structure PxRun where
  pos   : Nat
  mem   : Memory
  cache : Sparse Word
  br    : BrRegs
  deriving DecidableEq, Repr

/-- `Hash(p, b)` (R219). -/
def pxHash (p : Word) (b : Nat) : Nat := p.toNat * 0x1E35A7BD % 2 ^ 32 / 2 ^ (32 - b)

/-- `Emit(p)` (R222). -/
def pxEmit (v : PxRegs) (p : Word) (r : PxRun) : PxRun :=
  { r with mem := memStore32 r.mem (v.dstAddr.toNat + 4 * r.pos) p,
           cache := if v.ccBits = 0 then r.cache else cacheStore r.cache (pxHash p v.ccBits.toNat) p,
           pos := r.pos + 1 }

/-- Rows 1 to 64 of DIST_TABLE (R221), as (dx, dy). -/
def distTableLo : List (Int × Int) :=
  [(0,1), (1,0), (1,1), (-1,1), (0,2), (2,0), (1,2), (-1,2)] ++
  [(2,1), (-2,1), (2,2), (-2,2), (0,3), (3,0), (1,3), (-1,3)] ++
  [(3,1), (-3,1), (2,3), (-2,3), (3,2), (-3,2), (0,4), (4,0)] ++
  [(1,4), (-1,4), (4,1), (-4,1), (3,3), (-3,3), (2,4), (-2,4)] ++
  [(4,2), (-4,2), (0,5), (3,4), (-3,4), (4,3), (-4,3), (5,0)] ++
  [(1,5), (-1,5), (5,1), (-5,1), (2,5), (-2,5), (5,2), (-5,2)] ++
  [(4,4), (-4,4), (3,5), (-3,5), (5,3), (-5,3), (0,6), (6,0)] ++
  [(1,6), (-1,6), (6,1), (-6,1), (2,6), (-2,6), (6,2), (-6,2)]

/-- Rows 65 to 120 of DIST_TABLE (R221). -/
def distTableHi : List (Int × Int) :=
  [(4,5), (-4,5), (5,4), (-5,4), (3,6), (-3,6), (6,3), (-6,3)] ++
  [(0,7), (7,0), (1,7), (-1,7), (5,5), (-5,5), (7,1), (-7,1)] ++
  [(4,6), (-4,6), (6,4), (-6,4), (2,7), (-2,7), (7,2), (-7,2)] ++
  [(3,7), (-3,7), (7,3), (-7,3), (5,6), (-5,6), (6,5), (-6,5)] ++
  [(8,0), (4,7), (-4,7), (7,4), (-7,4), (8,1), (8,2), (6,6)] ++
  [(-6,6), (8,3), (5,7), (-5,7), (7,5), (-7,5), (8,4), (6,7)] ++
  [(-6,7), (7,6), (-7,6), (8,5), (7,7), (-7,7), (8,6), (8,7)]

/-- DIST_TABLE (R221). -/
def distTable : List (Int × Int) := distTableLo ++ distTableHi

/-- `Prefix(c)` (R220). -/
def pxPrefix (m : Memory) (c : Nat) (b : BrRegs) : Except ErrKind (Nat × BrRegs) :=
  if c < 4 then .ok (c + 1, b)
  else
    match brRead m ((c - 2) / 2) b with
    | .error e => .error e
    | .ok (x, b1) => .ok ((2 + c % 2) * 2 ^ ((c - 2) / 2) + x + 1, b1)

/-- `Plane(d)` (R221) for width `w`. -/
def pxPlane (w d : Nat) : Nat :=
  if 120 < d then d - 120
  else
    let e := distTable.getD (d - 1) (0, 0)
    (max (e.1 + e.2 * (w : Int)) 1).toNat

/-- `Group(pos)` (R218). -/
def pxGroup (v : PxRegs) (m : Memory) (pos : Nat) : Except ErrKind Nat :=
  if v.hen then
    let w := v.width.toNat
    let hb := v.hbits.toNat
    let word := memWord m (v.himgAddr.toNat + 4 * (pos / w / 2 ^ hb * himgWords hb w + pos % w / 2 ^ hb))
    if word.extractLsb' 16 8 ≠ 0 then .error .unsupported
    else
      let g := (word.extractLsb' 8 8).toNat
      if v.numGroups.toNat ≤ g then .error .invalidData else .ok g
  else .ok 0

/-- `HfDecode` with table `t` of group `g` (R218). The argument checks leave no slot of a group EMPTY. -/
def pxDecodeWith (v : PxRegs) (slots : Sparse (Option HCode)) (g t : Nat) (r : PxRun) : Except ErrKind (Nat × PxRun) :=
  match hfDecode ((Sparse.get none slots (pxSlot v g t)).getD []) r.mem r.br with
  | .error e => .error e
  | .ok (x, b) => .ok (x, { r with br := b })

/-- The ARGB word of four channels (R216, R223). -/
def argb (a r g b : Nat) : Word := BitVec.ofNat 8 a ++ BitVec.ofNat 8 r ++ BitVec.ofNat 8 g ++ BitVec.ofNat 8 b

/-- A literal pixel with green `g` (R223): red, blue and alpha follow from tables 1, 2 and 3. -/
def pxLiteral (v : PxRegs) (slots : Sparse (Option HCode)) (grp g : Nat) (r : PxRun) : Except ErrKind PxRun :=
  match pxDecodeWith v slots grp 1 r with
  | .error e => .error e
  | .ok (red, r1) =>
    match pxDecodeWith v slots grp 2 r1 with
    | .error e => .error e
    | .ok (blue, r2) =>
      match pxDecodeWith v slots grp 3 r2 with
      | .error e => .error e
      | .ok (alpha, r3) =>
        if 255 < red ∨ 255 < blue ∨ 255 < alpha then .error .invalidData
        else .ok (pxEmit v (argb alpha red g blue) r3)

/-- Emits `n` copies, each of the pixel `dist` back, read when it is emitted (R224). -/
def pxCopy (v : PxRegs) (dist : Nat) : Nat → PxRun → PxRun
  | 0, r => r
  | n + 1, r => pxCopy v dist n (pxEmit v (memWord r.mem (v.dstAddr.toNat + 4 * (r.pos - dist))) r)

/-- A backward copy with length code `c` (R224). -/
def pxBackward (v : PxRegs) (slots : Sparse (Option HCode)) (grp c : Nat) (r : PxRun) : Except ErrKind PxRun :=
  match pxPrefix r.mem c r.br with
  | .error e => .error e
  | .ok (len, b1) =>
    match pxDecodeWith v slots grp 4 { r with br := b1 } with
    | .error e => .error e
    | .ok (dsym, r2) =>
      if 40 ≤ dsym then .error .invalidData
      else
        match pxPrefix r2.mem dsym r2.br with
        | .error e => .error e
        | .ok (d, b3) =>
          let dist := pxPlane v.width.toNat d
          if r2.pos < dist ∨ v.width.toNat * v.height.toNat < r2.pos + len then .error .invalidData
          else .ok (pxCopy v dist len { r2 with br := b3 })

/-- A colour-cache pixel with index `i` (R225). -/
def pxCached (v : PxRegs) (i : Nat) (r : PxRun) : Except ErrKind PxRun :=
  if v.ccBits = 0 ∨ 2 ^ v.ccBits.toNat ≤ i then .error .invalidData
  else .ok (pxEmit v (cacheEntry r.cache i) r)

/-- One time round the decode loop (R226): a main symbol and what it stands for (R217). -/
def pxPixel (v : PxRegs) (slots : Sparse (Option HCode)) (r : PxRun) : Except ErrKind PxRun :=
  match pxGroup v r.mem r.pos with
  | .error e => .error e
  | .ok g =>
    match pxDecodeWith v slots g 0 r with
    | .error e => .error e
    | .ok (x, r1) =>
      if x < 256 then pxLiteral v slots g x r1
      else if x < 280 then pxBackward v slots g (x - 256) r1
      else pxCached v (x - 280) r1

/-- The decode loop until all pixels are emitted, at most `k` times round; each time emits at least one (R228). -/
def pxLoop (v : PxRegs) (slots : Sparse (Option HCode)) : Nat → PxRun → Except ErrKind PxRun
  | 0, r => .ok r
  | k + 1, r =>
    if r.pos < v.width.toNat * v.height.toNat then
      match pxPixel v slots r with
      | .error e => .error e
      | .ok r1 => pxLoop v slots k r1
    else .ok r

/-- Where PX_DECODE starts: position 0, the cache entries in use cleared (R219). -/
def pxStart (s : State) : PxRun :=
  { pos := 0, mem := s.mem, br := s.br,
    cache := if s.px.ccBits = 0 then s.cache else cacheClear s.cache (2 ^ s.px.ccBits.toNat) }

/-- PX_DECODE (R226). -/
def execPxDecode (s : State) : Res :=
  withChecks 0x50#8 (pxArgsOk s) s <|
    let n := s.px.width.toNat * s.px.height.toNat
    match pxLoop s.px s.slots n (pxStart s) with
    | .error e => failed 0x50#8 e (s.drawPixels s.px.dstAddr.toNat (4 * n))
    | .ok r =>
      succeed { s with mem := r.mem, cache := r.cache, br := r.br, px := { s.px with pos := BitVec.ofNat 32 n },
                       result := BitVec.ofNat 32 n }

end Sys2Proof.Machine
end

