-- ==== Sys2Proof/Machine/RangeDecoder.lean ====
section
/-! DEFINITION. The range decoder RD (41_range_decoder.md). The functions work on one context, so a command on one
context cannot touch the other (R115). -/

namespace Sys2Proof.Machine

/-- `RdNextByte(c)` (R116). -/
def rdNextByte (p : Params) (m : Memory) (x : RdCtx) : Except ErrKind (Byte × RdCtx) :=
  if x.ptr.toNat < x.stop.toNat then
    match memReadChecked p m x.ptr.toNat with
    | .error e => .error e
    | .ok b => .ok (b, { x with ptr := x.ptr + 1 })
  else
    match p.rdEof with
    | .fault => .error .endOfInput
    | .zeroFill => .ok (0, x)

/-- One shift of `RdBool`'s renormalisation (R117): value and range move left; at the 8th shift, where the 3-bit
BITCNT returns to 0, the next byte is merged into the low 8 bits of the window. -/
def rdShift (p : Params) (m : Memory) (x : RdCtx) : Except ErrKind RdCtx :=
  let y := { x with value := x.value <<< 1, range := x.range <<< 1, bitcnt := x.bitcnt + 1 }
  if y.bitcnt = 0 then
    match rdNextByte p m y with
    | .error e => .error e
    | .ok (b, z) => .ok { z with value := z.value ||| b.setWidth 16 }
  else .ok y

/-- Shifts until RANGE is 128 or more, at most `k` times. -/
def rdRenorm (p : Params) (m : Memory) : Nat → RdCtx → Except ErrKind RdCtx
  | 0, x => .ok x
  | k + 1, x =>
    if x.range.toNat < 128 then
      match rdShift p m x with
      | .error e => .error e
      | .ok y => rdRenorm p m k y
    else .ok x

/-- The split point of `RdBool` (R117), computed in the integers (00_scope.md R9). -/
def rdSplit (range : BitVec 8) (p8 : Byte) : Int := 1 + ((range.toNat : Int) - 1) * (p8.toNat : Int) / 256

/-- The decision of `RdBool` before renormalisation (R117): the bit, and the narrowed context. -/
def rdDecide (x : RdCtx) (p8 : Byte) : Bool × RdCtx :=
  let split := rdSplit x.range p8
  let bigsplit := split * 256
  if bigsplit ≤ (x.value.toNat : Int) then
    (true, { x with range := BitVec.ofInt 8 (x.range.toNat - split), value := BitVec.ofInt 16 (x.value.toNat - bigsplit) })
  else (false, { x with range := BitVec.ofInt 8 split })

/-- `RdBool(c, p)` (R117). At most 7 shifts (40_control.md R113); DEDUCED for a window outside R125 (log entry 7). -/
def rdBool (p : Params) (m : Memory) (p8 : Byte) (x : RdCtx) : Except ErrKind (Bool × RdCtx) :=
  match rdRenorm p m 7 (rdDecide x p8).2 with
  | .error e => .error e
  | .ok y => .ok ((rdDecide x p8).1, y)

/-- `n` flags read after the number `v`, the first read the most significant (R121). -/
def rdBits (p : Params) (m : Memory) : Nat → Nat → RdCtx → Except ErrKind (Nat × RdCtx)
  | 0, v, x => .ok (v, x)
  | n + 1, v, x =>
    match rdBool p m 128#8 x with
    | .error e => .error e
    | .ok (b, y) => rdBits p m n (2 * v + b.toNat) y

/-- `n` flags, then a sign flag that negates (R122). -/
def rdSigned (p : Params) (m : Memory) (n : Nat) (x : RdCtx) : Except ErrKind (Int × RdCtx) :=
  match rdBits p m n 0 x with
  | .error e => .error e
  | .ok (v, y) =>
    match rdBool p m 128#8 y with
    | .error e => .error e
    | .ok (sign, z) => .ok (if sign then -(v : Int) else (v : Int), z)

/-- The walk of RD_TREE (R123, R124) with `k` boolean reads left, at index `i`: the tree is at `tree`, the probabilities
at `prob`. -/
def rdTreeWalk (p : Params) (m : Memory) (tree prob : Nat) : Nat → Nat → RdCtx → Except ErrKind (Nat × RdCtx)
  | 0, _, _ => .error .invalidArgument
  | k + 1, i, x =>
    match memReadChecked p m (prob + i / 2) with
    | .error e => .error e
    | .ok p8 =>
      match rdBool p m p8 x with
      | .error e => .error e
      | .ok (b, y) =>
        match memReadChecked p m (tree + i + b.toNat) with
        | .error e => .error e
        | .ok e => if e.toInt ≤ 0 then .ok ((-e.toInt).toNat, y) else rdTreeWalk p m tree prob k e.toNat y

/-- RD_INIT's load of the window (R119). -/
def rdLoad (p : Params) (m : Memory) (x : RdCtx) : Except ErrKind RdCtx :=
  match rdNextByte p m x with
  | .error e => .error e
  | .ok (hi, y) =>
    match rdNextByte p m y with
    | .error e => .error e
    | .ok (lo, z) => .ok { z with value := hi ++ lo, range := 255, bitcnt := 0, valid := true }

/-- The command of an RD read (R118): VALID is checked first; the context and RESULT are written on success; a later
raise leaves the write set of 60_exceptions.md R249. -/
def rdCommand (op : Byte) (c : Ctx) (s : State) (read : RdCtx → Except ErrKind (Word × RdCtx)) : Res :=
  withChecks op (s.rd c).valid s <|
    match read (s.rd c) with
    | .error e => failed op e (s.drawRd c)
    | .ok (v, x) => succeed ((s.setRd c x).setResult v)

/-- RD_INIT (R119). After `EndOfInput` VALID is 0 and the rest of the write set is any value (60_exceptions.md R249). -/
def execRdInit (c : Ctx) (s : State) : Res :=
  withChecks 0x01#8 (rdEndOk s c) s <|
    match rdLoad s.params s.mem { s.rd c with valid := false } with
    | .error e => failed 0x01#8 e ((s.setRd c { s.rd c with valid := false }).drawRd c)
    | .ok x => succeed (s.setRd c x)

/-- RD_BOOL (R120). -/
def execRdBool (c : Ctx) (p : Byte) (s : State) : Res :=
  rdCommand 0x02#8 c s fun x =>
    match rdBool s.params s.mem p x with
    | .error e => .error e
    | .ok (b, y) => .ok (BitVec.ofNat 32 b.toNat, y)

/-- RD_UINT (R121). -/
def execRdUint (c : Ctx) (n : Nat) (s : State) : Res :=
  rdCommand 0x03#8 c s fun x =>
    match rdBits s.params s.mem n 0 x with
    | .error e => .error e
    | .ok (v, y) => .ok (BitVec.ofNat 32 v, y)

/-- RD_SINT (R122). -/
def execRdSint (c : Ctx) (n : Nat) (s : State) : Res :=
  rdCommand 0x04#8 c s fun x =>
    match rdSigned s.params s.mem n x with
    | .error e => .error e
    | .ok (v, y) => .ok (BitVec.ofInt 32 v, y)

/-- RD_TREE (R123). -/
def execRdTree (c : Ctx) (start : Byte) (s : State) : Res :=
  rdCommand 0x05#8 c s fun x =>
    match rdTreeWalk s.params s.mem s.rdTreeAddr.toNat s.rdProbAddr.toNat Config.treeReadMax start.toNat x with
    | .error e => .error e
    | .ok (v, y) => .ok (BitVec.ofNat 32 v, y)

end Sys2Proof.Machine
end

