-- ==== Sys2Proof/Machine/Dispatch.lean ====
section
/-! DEFINITION. The meaning of each command, one arm each. -/

namespace Sys2Proof.Machine

def exec (i : Instr) (s : State) : Host.Outcome State Fault Refusal :=
  match i with
  | .nop => Sys2Proof.Machine.execNop s
  | .rdInit c => Sys2Proof.Machine.execRdInit c s
  | .rdBool c p => Sys2Proof.Machine.execRdBool c p s
  | .rdUint c n => Sys2Proof.Machine.execRdUint c n s
  | .rdSint c n => Sys2Proof.Machine.execRdSint c n s
  | .rdTree c start => Sys2Proof.Machine.execRdTree c start s
  | .brPeek n => Sys2Proof.Machine.execBrPeek n s
  | .brSkip n => Sys2Proof.Machine.execBrSkip n s
  | .brRead n => Sys2Proof.Machine.execBrRead n s
  | .xfIdctAdd => Sys2Proof.Machine.execXfIdctAdd s
  | .xfIdct => Sys2Proof.Machine.execXfIdct s
  | .xfIwht => Sys2Proof.Machine.execXfIwht s
  | .cvConvert => Sys2Proof.Machine.execCvConvert s
  | .hfBuild t => Sys2Proof.Machine.execHfBuild t s
  | .hfDecode t => Sys2Proof.Machine.execHfDecode t s
  | .hfReadLengths => Sys2Proof.Machine.execHfReadLengths s
  | .hfFree t => Sys2Proof.Machine.execHfFree t s
  | .pxDecode => Sys2Proof.Machine.execPxDecode s

end Sys2Proof.Machine
end

