-- ==== Sys2Proof/WellFormed.lean ====
section
/-! DEFINITION. Which commands have an encoding: the operands fit their fields (30_encoding.md R88 to R91). -/

namespace Sys2Proof

/-- N fits bits 13:9 and SLOT fits bits 31:20. A slot of 1280 or more is well formed: it has an encoding, and
the command that uses it raises an error (R91). -/
def Instr.WellFormed : Instr → Bool
  | .nop => true
  | .rdInit _ => true
  | .rdBool _ _ => true
  | .rdUint _ n => n < 32
  | .rdSint _ n => n < 32
  | .rdTree _ _ => true
  | .brPeek n => n < 32
  | .brSkip n => n < 32
  | .brRead n => n < 32
  | .xfIdctAdd => true
  | .xfIdct => true
  | .xfIwht => true
  | .cvConvert => true
  | .hfBuild t => t < 4096
  | .hfDecode t => t < 4096
  | .hfReadLengths => true
  | .hfFree t => t < 4096
  | .pxDecode => true

end Sys2Proof
end

