-- ==== Sys2Proof/Decode.lean ====
section
/-! DEFINITION. Decoding of command words, total and rejecting by name, and the encoder (30_encoding.md). -/

namespace Sys2Proof

/-- Why a word is no command: no row has its OP (R93), or a reserved or zero field is not 0 (R94). -/
inductive Reject where
  | undefinedOp
  | reservedField
  deriving DecidableEq, Repr

/-- OP, bits 7:0 (R86). -/
def opField (w : Word) : Byte := w.extractLsb' 0 8
/-- CTX, bit 8 (R88, R91). -/
def ctxField (w : Word) : Ctx := if w.extractLsb' 8 1 = 1#1 then .c1 else .c0
/-- N, bits 13:9 (R88, R89, R91). -/
def nField (w : Word) : Nat := (w.extractLsb' 9 5).toNat
/-- P8, bits 23:16 (R88, R91). -/
def p8Field (w : Word) : Byte := w.extractLsb' 16 8
/-- SLOT, bits 31:20 (R90, R91). -/
def slotField (w : Word) : Nat := (w.extractLsb' 20 12).toNat

/-- A row of the opcode map R92: its OP, its mask, and the command its operand fields give. The match of every row is
its OP with zeros above. -/
structure Row where
  op   : Byte
  mask : Word
  make : Word → Instr

/-- The rows of formats N and R (R92). -/
def rowsNR : List Row :=
  [⟨0x00#8, 0xFFFFFFFF#32, fun _ => .nop⟩,
   ⟨0x01#8, 0xFFFFFEFF#32, fun w => .rdInit (ctxField w)⟩,
   ⟨0x02#8, 0xFF00FEFF#32, fun w => .rdBool (ctxField w) (p8Field w)⟩,
   ⟨0x03#8, 0xFFFFC0FF#32, fun w => .rdUint (ctxField w) (nField w)⟩,
   ⟨0x04#8, 0xFFFFC0FF#32, fun w => .rdSint (ctxField w) (nField w)⟩,
   ⟨0x05#8, 0xFF00FEFF#32, fun w => .rdTree (ctxField w) (p8Field w)⟩]

/-- The rows of format B, of XF and of CV (R92). -/
def rowsB : List Row :=
  [⟨0x10#8, 0xFFFFC1FF#32, fun w => .brPeek (nField w)⟩,
   ⟨0x11#8, 0xFFFFC1FF#32, fun w => .brSkip (nField w)⟩,
   ⟨0x12#8, 0xFFFFC1FF#32, fun w => .brRead (nField w)⟩,
   ⟨0x20#8, 0xFFFFFFFF#32, fun _ => .xfIdctAdd⟩,
   ⟨0x21#8, 0xFFFFFFFF#32, fun _ => .xfIdct⟩,
   ⟨0x22#8, 0xFFFFFFFF#32, fun _ => .xfIwht⟩,
   ⟨0x30#8, 0xFFFFFFFF#32, fun _ => .cvConvert⟩]

/-- The rows of HF and PX (R92). -/
def rowsH : List Row :=
  [⟨0x40#8, 0x000FFFFF#32, fun w => .hfBuild (slotField w)⟩,
   ⟨0x41#8, 0x000FFFFF#32, fun w => .hfDecode (slotField w)⟩,
   ⟨0x42#8, 0xFFFFFFFF#32, fun _ => .hfReadLengths⟩,
   ⟨0x43#8, 0x000FFFFF#32, fun w => .hfFree (slotField w)⟩,
   ⟨0x50#8, 0xFFFFFFFF#32, fun _ => .pxDecode⟩]

/-- The opcode map R92, all 18 rows. -/
def rows : List Row := rowsNR ++ rowsB ++ rowsH

/-- Decoding of a command word (R93, R94): the row whose OP is w[7:0], then its mask. -/
def decode (w : Word) : Except Reject Instr :=
  match rows.find? (fun r => r.op == opField w) with
  | none => .error .undefinedOp
  | some r => if w &&& r.mask = r.op.setWidth 32 then .ok (r.make w) else .error .reservedField

/-- The OP of a command (R92). -/
def Instr.op : Instr → Byte
  | .nop => 0x00#8
  | .rdInit _ => 0x01#8
  | .rdBool _ _ => 0x02#8
  | .rdUint _ _ => 0x03#8
  | .rdSint _ _ => 0x04#8
  | .rdTree _ _ => 0x05#8
  | .brPeek _ => 0x10#8
  | .brSkip _ => 0x11#8
  | .brRead _ => 0x12#8
  | .xfIdctAdd => 0x20#8
  | .xfIdct => 0x21#8
  | .xfIwht => 0x22#8
  | .cvConvert => 0x30#8
  | .hfBuild _ => 0x40#8
  | .hfDecode _ => 0x41#8
  | .hfReadLengths => 0x42#8
  | .hfFree _ => 0x43#8
  | .pxDecode => 0x50#8

/-- The bit of a context in CTX (R91). -/
def Ctx.bit : Ctx → BitVec 1
  | .c0 => 0#1
  | .c1 => 1#1

/-- Format R (R88): bits 31:24 zero, P8, bits 15:14 zero, N, CTX, OP. -/
def formatR (p : Byte) (n : Nat) (c : Ctx) (op : Byte) : Word :=
  0#8 ++ p ++ 0#2 ++ BitVec.ofNat 5 n ++ c.bit ++ op

/-- Format B (R89): bits 31:14 zero, N, bit 8 zero, OP. -/
def formatB (n : Nat) (op : Byte) : Word := 0#18 ++ BitVec.ofNat 5 n ++ 0#1 ++ op

/-- Format H (R90): SLOT, bits 19:8 zero, OP. -/
def formatH (t : Nat) (op : Byte) : Word := BitVec.ofNat 12 t ++ 0#12 ++ op

/-- Format N (R87): bits 31:8 zero, OP. -/
def formatN (op : Byte) : Word := 0#24 ++ op

/-- The word of a command (R87 to R90, R97); a field that the command's row does not use is 0. -/
def encode : Instr → Word
  | .nop => formatN 0x00#8
  | .rdInit c => formatR 0#8 0 c 0x01#8
  | .rdBool c p => formatR p 0 c 0x02#8
  | .rdUint c n => formatR 0#8 n c 0x03#8
  | .rdSint c n => formatR 0#8 n c 0x04#8
  | .rdTree c start => formatR start 0 c 0x05#8
  | .brPeek n => formatB n 0x10#8
  | .brSkip n => formatB n 0x11#8
  | .brRead n => formatB n 0x12#8
  | .xfIdctAdd => formatN 0x20#8
  | .xfIdct => formatN 0x21#8
  | .xfIwht => formatN 0x22#8
  | .cvConvert => formatN 0x30#8
  | .hfBuild t => formatH t 0x40#8
  | .hfDecode t => formatH t 0x41#8
  | .hfReadLengths => formatN 0x42#8
  | .hfFree t => formatH t 0x43#8
  | .pxDecode => formatN 0x50#8

/-- The command word that the `nbits` low bits of `w` give: a command is one 32-bit word written whole to CMD
(R85), so no byte order enters; bits from `nbits` up are 0. -/
def tableWord (nbits w : Nat) : Word := BitVec.ofNat 32 (w % 2 ^ nbits)

/-- What the decoder reads from an opcode-table word. -/
def decodeTableWord (nbits w : Nat) : Option Instr :=
  match decode (tableWord nbits w) with
  | .ok i => some i
  | .error _ => none

end Sys2Proof
end

