-- ==== Sys2Proof/Machine/Flags.lean ====
section
/-! DEFINITION. The flags of the block (10_state.md R49): STATUS, IRQ_EN and the interrupt line. The block has no
condition codes. -/

namespace Sys2Proof.Machine

/-- STATUS.BUSY (R25, R48): a command is pending. -/
def State.busy (s : State) : Bool := s.pending.isSome

/-- A Boolean as one bit. -/
def bit1 (b : Bool) : BitVec 1 := BitVec.ofBool b

/-- What STATUS reads (R25): ERR_OP in 23:16, ERR in 11:8, DONE in bit 1, BUSY in bit 0. -/
def State.statusWord (s : State) : Word :=
  0#8 ++ s.errOp ++ 0#4 ++ s.err ++ 0#6 ++ bit1 s.done ++ bit1 s.busy

/-- What IRQ_EN reads (R26). -/
def State.irqEnWord (s : State) : Word := 0#30 ++ bit1 s.errIe ++ bit1 s.doneIe

/-- What HW_CFG reads (R29). -/
def State.hwCfgWord (s : State) : Word :=
  0#12 ++ 1#2 ++ bit1 s.params.xfWrap16 ++ bit1 (s.params.rdEof == .zeroFill) ++ 0#5 ++
    BitVec.ofNat 11 Config.htSlots

/-- A write of STATUS (40_control.md R112): bit 1 set clears DONE; the other bits ignore writes. -/
def State.writeStatus (s : State) (v : Word) : State :=
  if v.getLsbD 1 then { s with done := false } else s

/-- A write of IRQ_EN (R26). -/
def State.writeIrqEn (s : State) (v : Word) : State :=
  { s with doneIe := v.getLsbD 0, errIe := v.getLsbD 1 }

/-- The interrupt line (60_exceptions.md R253). -/
def State.irq (s : State) : Bool := (s.done && s.doneIe) || (s.err != 0 && s.errIe)

end Sys2Proof.Machine
end

