-- ==== Sys2Proof/Machine/Window.lean ====
section
/-! DEFINITION. The register window (10_state.md R22 to R50): the register map, what a register reads, what a write
does, and the soft reset (40_control.md R110). -/

namespace Sys2Proof.Machine

/-- The registers of R50 by name. -/
inductive Reg where
  | id
  | ctrl
  | status
  | irqEn
  | cmd
  | result
  | hwCfg
  | dmemSize
  | rdPtr (c : Ctx)
  | rdEnd (c : Ctx)
  | rdValue (c : Ctx)
  | rdRange (c : Ctx)
  | rdState (c : Ctx)
  | rdTreeAddr
  | rdProbAddr
  | xfCoefAddr
  | xfPixAddr
  | xfPixStride
  | xfOutAddr
  | xfOutStride
  | brPtr
  | brEnd
  | brAccLo
  | brAccHi
  | brNbits
  | hfLenAddr
  | hfAlpha
  | pxDstAddr
  | pxWidth
  | pxHeight
  | pxGroupBase
  | pxNumGroups
  | pxHimgAddr
  | pxHimgCtrl
  | pxCcBits
  | pxPos
  | cvYAddr
  | cvYStride
  | cvUAddr
  | cvVAddr
  | cvUvStride
  | cvDstAddr
  | cvDstStride
  | cvWidth
  | cvHeight
  | cvMode
  | cvKy
  | cvKrv
  | cvKgu
  | cvKgv
  | cvKbu
  | cvYoff
  | cvShift
  | cvRnd
  deriving DecidableEq, Repr

/-- The control registers and the range decoder's (R50). -/
def regMapLo : List (BitVec 12 × Reg) :=
  [(0x000#12, .id), (0x004#12, .ctrl), (0x008#12, .status), (0x00C#12, .irqEn)] ++
  [(0x010#12, .cmd), (0x014#12, .result), (0x018#12, .hwCfg), (0x01C#12, .dmemSize)] ++
  [(0x040#12, .rdPtr .c0), (0x044#12, .rdEnd .c0), (0x048#12, .rdValue .c0), (0x04C#12, .rdRange .c0)] ++
  [(0x050#12, .rdState .c0), (0x060#12, .rdPtr .c1), (0x064#12, .rdEnd .c1), (0x068#12, .rdValue .c1)] ++
  [(0x06C#12, .rdRange .c1), (0x070#12, .rdState .c1)]

/-- The registers of XF, BR, HF, PX and the tree reads (R50). -/
def regMapMid : List (BitVec 12 × Reg) :=
  [(0x080#12, .rdTreeAddr), (0x084#12, .rdProbAddr), (0x100#12, .xfCoefAddr), (0x104#12, .xfPixAddr)] ++
  [(0x108#12, .xfPixStride), (0x10C#12, .xfOutAddr), (0x110#12, .xfOutStride), (0x180#12, .brPtr)] ++
  [(0x184#12, .brEnd), (0x188#12, .brAccLo), (0x18C#12, .brAccHi), (0x190#12, .brNbits)] ++
  [(0x200#12, .hfLenAddr), (0x204#12, .hfAlpha), (0x280#12, .pxDstAddr), (0x284#12, .pxWidth)] ++
  [(0x288#12, .pxHeight), (0x28C#12, .pxGroupBase), (0x290#12, .pxNumGroups), (0x294#12, .pxHimgAddr)] ++
  [(0x298#12, .pxHimgCtrl), (0x29C#12, .pxCcBits), (0x2A0#12, .pxPos)]

/-- The registers of CV (R50). -/
def regMapHi : List (BitVec 12 × Reg) :=
  [(0x300#12, .cvYAddr), (0x304#12, .cvYStride), (0x308#12, .cvUAddr), (0x30C#12, .cvVAddr)] ++
  [(0x310#12, .cvUvStride), (0x314#12, .cvDstAddr), (0x318#12, .cvDstStride), (0x31C#12, .cvWidth)] ++
  [(0x320#12, .cvHeight), (0x324#12, .cvMode), (0x328#12, .cvKy), (0x32C#12, .cvKrv)] ++
  [(0x330#12, .cvKgu), (0x334#12, .cvKgv), (0x338#12, .cvKbu), (0x33C#12, .cvYoff)] ++
  [(0x340#12, .cvShift), (0x344#12, .cvRnd)]

/-- The register map of R50. -/
def regMap : List (BitVec 12 × Reg) := regMapLo ++ regMapMid ++ regMapHi

/-- The register at an offset of the window, if one is there. -/
def regAt (off : BitVec 12) : Option Reg := (regMap.find? (fun e => e.1 == off)).map Prod.snd

/-- What ID reads (R23). -/
def idWord : Word := 0x57500001#32

/-- What RD_STATE(c) reads (R33). -/
def rdStateWord (x : RdCtx) : Word := 0#23 ++ bit1 x.valid ++ 0#5 ++ x.bitcnt

/-- What a register reads while the block is idle (R22 to R44); bits that are no field read 0. -/
def readReg (s : State) : Reg → Word
  | .id => idWord
  | .ctrl => 0
  | .status => s.statusWord
  | .irqEn => s.irqEnWord
  | .cmd => 0
  | .result => s.result
  | .hwCfg => s.hwCfgWord
  | .dmemSize => BitVec.ofNat 32 s.params.dmemSize
  | .rdPtr c => (s.rd c).ptr
  | .rdEnd c => (s.rd c).stop
  | .rdValue c => (s.rd c).value.setWidth 32
  | .rdRange c => (s.rd c).range.setWidth 32
  | .rdState c => rdStateWord (s.rd c)
  | .rdTreeAddr => s.rdTreeAddr
  | .rdProbAddr => s.rdProbAddr
  | .xfCoefAddr => s.xf.coefAddr
  | .xfPixAddr => s.xf.pixAddr
  | .xfPixStride => s.xf.pixStride
  | .xfOutAddr => s.xf.outAddr
  | .xfOutStride => s.xf.outStride
  | .brPtr => s.br.ptr
  | .brEnd => s.br.stop
  | .brAccLo => s.br.acc.extractLsb' 0 32
  | .brAccHi => s.br.acc.extractLsb' 32 32
  | .brNbits => s.br.nbits.setWidth 32
  | .hfLenAddr => s.hf.lenAddr
  | .hfAlpha => s.hf.alpha.setWidth 32
  | .pxDstAddr => s.px.dstAddr
  | .pxWidth => s.px.width.setWidth 32
  | .pxHeight => s.px.height.setWidth 32
  | .pxGroupBase => s.px.groupBase.setWidth 32
  | .pxNumGroups => s.px.numGroups.setWidth 32
  | .pxHimgAddr => s.px.himgAddr
  | .pxHimgCtrl => 0#23 ++ bit1 s.px.hen ++ 0#4 ++ s.px.hbits
  | .pxCcBits => s.px.ccBits.setWidth 32
  | .pxPos => s.px.pos
  | .cvYAddr => s.cv.yAddr
  | .cvYStride => s.cv.yStride
  | .cvUAddr => s.cv.uAddr
  | .cvVAddr => s.cv.vAddr
  | .cvUvStride => s.cv.uvStride
  | .cvDstAddr => s.cv.dstAddr
  | .cvDstStride => s.cv.dstStride
  | .cvWidth => s.cv.width.setWidth 32
  | .cvHeight => s.cv.height.setWidth 32
  | .cvMode => (bit1 s.cv.nearest).setWidth 32
  | .cvKy => s.cv.ky.setWidth 32
  | .cvKrv => s.cv.krv.setWidth 32
  | .cvKgu => s.cv.kgu.setWidth 32
  | .cvKgv => s.cv.kgv.setWidth 32
  | .cvKbu => s.cv.kbu.setWidth 32
  | .cvYoff => s.cv.yoff.setWidth 32
  | .cvShift => s.cv.shift.setWidth 32
  | .cvRnd => s.cv.rnd

/-! ### Soft reset -/

/-- The DMEM regions, as address and length, that the command `i` may have written when it is abandoned: the regions its
rule says it writes, none if its argument checks fail (60_exceptions.md R249). DEDUCED for XF and CV (log entry 9). -/
def writtenRegions (s : State) : Instr → List (Nat × Nat)
  | .xfIdctAdd => if xfCoefOk s && xfPixOk s then (List.range 4).map (fun r => (xfPixAddr s r 0, 4)) else []
  | .xfIdct => if xfCoefOk s && xfOutOk s then [(s.xf.outAddr.toNat, 32)] else []
  | .xfIwht =>
    if xfCoefOk s && xfWhtOutOk s then
      (List.range 16).map (fun i => (s.xf.outAddr.toNat + i * s.xf.outStride.toNat, 2))
    else []
  | .cvConvert =>
    if cvArgsOk s then
      (List.range s.cv.height.toNat).map (fun y => (cvDstAddr s.cv 0 y, 4 * s.cv.width.toNat))
    else []
  | .hfReadLengths =>
    if alphaOk s && lenArrayOk s && brStreamOk s then [(s.hf.lenAddr.toNat, s.hf.alpha.toNat)] else []
  | .pxDecode =>
    if pxArgsOk s then [(s.px.dstAddr.toNat, 4 * (s.px.width.toNat * s.px.height.toNat))] else []
  | .nop | .rdInit _ | .rdBool _ _ | .rdUint _ _ | .rdSint _ _ | .rdTree _ _ | .brPeek _ | .brSkip _ | .brRead _ => []
  | .hfBuild _ | .hfDecode _ | .hfFree _ => []

/-- The regions the pending command may have written (R110): none while idle, while ERR is not 0 (the command would be
discarded, R108), or for a word that is no command. -/
def abandonedRegions (s : State) : List (Nat × Nat) :=
  match s.pending with
  | none => []
  | some w =>
    if s.err ≠ 0 then []
    else
      match decode w with
      | .error _ => []
      | .ok i => writtenRegions s i

/-- Any value in every byte of the regions. -/
def memDrawnAll (d : Nat) : List (Nat × Nat) → Memory → Memory
  | [], m => m
  | (a, n) :: rs, m => memDrawnAll d rs (memDrawn d a n m)

/-- CTRL.SOFT_RESET (R110; 70_reset_and_hazards.md R270 to R273): every register and internal store takes its reset value;
DMEM keeps its bytes but for those an abandoned command may have written, which hold any value. -/
def State.softReset (s : State) : State :=
  { State.resetWith s.params (memDrawnAll s.drawn (abandonedRegions s) s.mem) with
    host := s.host, hostData := s.hostData, drawn := s.drawn + 1 }

/-! ### Writes -/

/-- A write of CMD while idle (40_control.md R105). -/
def State.writeCmd (s : State) (w : Word) : State := { s with pending := some w, done := false }

/-- A write of CTRL (R24, R110, R111): SOFT_RESET wins over CLEAR_ERR. -/
def State.writeCtrl (s : State) (v : Word) : State :=
  if v.getLsbD 0 then s.softReset else if v.getLsbD 1 then s.clearErr else s

/-- A write of a register while the block is idle (R22 to R44): a field keeps the bits it has, read-only registers and
bits that are no field ignore writes, a write of RD_PTR(c) or RD_END(c) clears VALID (R31), a write of BR_PTR empties
the accumulator (R36). -/
def writeReg (s : State) (v : Word) : Reg → State
  | .id => s
  | .ctrl => s.writeCtrl v
  | .status => s.writeStatus v
  | .irqEn => s.writeIrqEn v
  | .cmd => s.writeCmd v
  | .result => s
  | .hwCfg => s
  | .dmemSize => s
  | .rdPtr c => s.setRd c { s.rd c with ptr := v, valid := false }
  | .rdEnd c => s.setRd c { s.rd c with stop := v, valid := false }
  | .rdValue _ => s
  | .rdRange _ => s
  | .rdState _ => s
  | .rdTreeAddr => { s with rdTreeAddr := v }
  | .rdProbAddr => { s with rdProbAddr := v }
  | .xfCoefAddr => { s with xf := { s.xf with coefAddr := v } }
  | .xfPixAddr => { s with xf := { s.xf with pixAddr := v } }
  | .xfPixStride => { s with xf := { s.xf with pixStride := v } }
  | .xfOutAddr => { s with xf := { s.xf with outAddr := v } }
  | .xfOutStride => { s with xf := { s.xf with outStride := v } }
  | .brPtr => { s with br := { s.br with ptr := v, acc := 0, nbits := 0 } }
  | .brEnd => { s with br := { s.br with stop := v } }
  | .brAccLo => s
  | .brAccHi => s
  | .brNbits => s
  | .hfLenAddr => { s with hf := { s.hf with lenAddr := v } }
  | .hfAlpha => { s with hf := { s.hf with alpha := v.setWidth 12 } }
  | .pxDstAddr => { s with px := { s.px with dstAddr := v } }
  | .pxWidth => { s with px := { s.px with width := v.setWidth 15 } }
  | .pxHeight => { s with px := { s.px with height := v.setWidth 15 } }
  | .pxGroupBase => { s with px := { s.px with groupBase := v.setWidth 11 } }
  | .pxNumGroups => { s with px := { s.px with numGroups := v.setWidth 9 } }
  | .pxHimgAddr => { s with px := { s.px with himgAddr := v } }
  | .pxHimgCtrl => { s with px := { s.px with hbits := v.setWidth 4, hen := v.getLsbD 8 } }
  | .pxCcBits => { s with px := { s.px with ccBits := v.setWidth 4 } }
  | .pxPos => s
  | .cvYAddr => { s with cv := { s.cv with yAddr := v } }
  | .cvYStride => { s with cv := { s.cv with yStride := v } }
  | .cvUAddr => { s with cv := { s.cv with uAddr := v } }
  | .cvVAddr => { s with cv := { s.cv with vAddr := v } }
  | .cvUvStride => { s with cv := { s.cv with uvStride := v } }
  | .cvDstAddr => { s with cv := { s.cv with dstAddr := v } }
  | .cvDstStride => { s with cv := { s.cv with dstStride := v } }
  | .cvWidth => { s with cv := { s.cv with width := v.setWidth 15 } }
  | .cvHeight => { s with cv := { s.cv with height := v.setWidth 15 } }
  | .cvMode => { s with cv := { s.cv with nearest := v.getLsbD 0 } }
  | .cvKy => { s with cv := { s.cv with ky := v.setWidth 16 } }
  | .cvKrv => { s with cv := { s.cv with krv := v.setWidth 16 } }
  | .cvKgu => { s with cv := { s.cv with kgu := v.setWidth 16 } }
  | .cvKgv => { s with cv := { s.cv with kgv := v.setWidth 16 } }
  | .cvKbu => { s with cv := { s.cv with kbu := v.setWidth 16 } }
  | .cvYoff => { s with cv := { s.cv with yoff := v.setWidth 8 } }
  | .cvShift => { s with cv := { s.cv with shift := v.setWidth 5 } }
  | .cvRnd => { s with cv := { s.cv with rnd := v } }

/-- The registers a host may write while BUSY = 1 (R53). -/
def writableWhileBusy : Reg → Bool
  | .ctrl | .status | .irqEn => true
  | _ => false

end Sys2Proof.Machine
end

