-- ==== Sys2Proof/Machine/Sequencer.lean ====
section
/-! DEFINITION. The host's turns and the sequencer's (10_state.md R20, R48, R52, R53; 40_control.md R105, R106). -/

namespace Sys2Proof.Machine

/-- Bytes of a host access. -/
def AccessWidth.bytes : AccessWidth → Nat
  | .byte => 1
  | .half => 2
  | .word => 4

/-- A window access has the one legal form (20_memory.md R61): 32 bits at a word-aligned offset. -/
def windowAccessOk (off : BitVec 12) (w : AccessWidth) : Bool := w == .word && off.extractLsb' 0 2 == 0#2

/-- A host read of the window (R22, R52). While BUSY = 1 STATUS reads as it is, any other register reads any value (log
entry 6), and an offset that names no register reads 0 (log entry 11). -/
def hostReadReg (off : BitVec 12) (w : AccessWidth) (s : State) : Res :=
  if windowAccessOk off w then
    match regAt off with
    | none => .next { s with hostData := 0 }
    | some r =>
      if s.busy && r != .status then .next { s with hostData := Config.freeBits 32 s.drawn 0 }.countDraw
      else .next { s with hostData := readReg s r }
  else .fault .hostBadAccess

/-- A host write of the window (R22, R53, R262). An offset that names no register ignores the write (log entry 11). -/
def hostWriteReg (off : BitVec 12) (w : AccessWidth) (v : Word) (s : State) : Res :=
  if windowAccessOk off w then
    match regAt off with
    | none => .next s
    | some r => if s.busy && !writableWhileBusy r then .fault .hostWriteWhileBusy else .next (writeReg s v r)
  else .fault .hostBadAccess

/-- A host read of DMEM between commands (20_memory.md R60), little-endian (R64). -/
def hostReadMem (addr : Word) (w : AccessWidth) (s : State) : Res :=
  if s.busy then .fault .hostMemWhileBusy
  else if inDmem s.params addr.toNat w.bytes then
    .next { s with hostData :=
      match w with
      | .byte => (memByte s.mem addr.toNat).setWidth 32
      | .half => (memHalf s.mem addr.toNat).setWidth 32
      | .word => memWord s.mem addr.toNat }
  else .fault .hostMemOutside

/-- A host write of DMEM between commands (R60), little-endian (R64). -/
def hostWriteMem (addr : Word) (w : AccessWidth) (v : Word) (s : State) : Res :=
  if s.busy then .fault .hostMemWhileBusy
  else if inDmem s.params addr.toNat w.bytes then
    .next (s.setMem
      (match w with
       | .byte => memStore s.mem addr.toNat (v.extractLsb' 0 8)
       | .half => memStore16 s.mem addr.toNat (v.extractLsb' 0 16)
       | .word => memStore32 s.mem addr.toNat v))
  else .fault .hostMemOutside

/-- The sequencer executes the command word `w` (40_control.md R106, R108; 30_encoding.md R93, R94), `run` giving the
commands their meanings. -/
def execute (run : Instr → State → Res) (w : Word) (s : State) : Res :=
  if s.err ≠ 0 then succeed s
  else
    match decode w with
    | .error _ => failed (opField w) .invalidArgument s
    | .ok i => run i s

/-- The sequencer's turn: the pending command runs; with none the block keeps its state (60_exceptions.md R261). -/
def sequencerTurn (run : Instr → State → Res) (s : State) : Res :=
  match s.pending with
  | none => .next s
  | some w => execute run w s

/-- One turn. -/
def takeTurn (run : Instr → State → Res) (t : HostTurn) (s : State) : Res :=
  match t with
  | .wait => sequencerTurn run s
  | .readReg off w => hostReadReg off w s
  | .writeReg off w v => hostWriteReg off w v s
  | .readMem a w => hostReadMem a w s
  | .writeMem a w v => hostWriteMem a w v s

/-- A step takes the first of the host's turns; when the host has none left it waits (log entry 3). -/
def stepWith (run : Instr → State → Res) (s : State) : Res :=
  match s.host with
  | [] => sequencerTurn run s
  | t :: ts => takeTurn run t { s with host := ts }

/-- The state in which the next step executes the command word `w`: as if the host had just written it to CMD, with no
error latched, and lets the sequencer run (log entry 3). -/
def State.loadCommand (s : State) (w : Word) : State :=
  { (s.clearErr).writeCmd w with host := .wait :: s.host }

end Sys2Proof.Machine
end

