-- ==== Sys2Proof/Machine/Step.lean ====
section
/-! DEFINITION. One step of the block, and placing a command for the next step. -/

namespace Sys2Proof.Machine

/-- One step (40_control.md R106, 10_state.md R48): the host's next turn, or the sequencer's. -/
def step (s : State) : Host.Outcome State Fault Refusal := stepWith exec s

/-- The state whose next step runs the command word that the `nbits` low bits of `w` give. -/
def State.withFetchWord (s : State) (nbits w : Nat) : State := s.loadCommand (tableWord nbits w)

end Sys2Proof.Machine
end

