-- ==== Sys2Proof/Safety.lean ====
section
/-! DEFINITION. What counts as a safe run, in the terms the statements use: the invariant of the block, the stream
invariants, and a host that keeps the protocol. -/

namespace Sys2Proof.Machine

/-- The state in which the sequencer takes its turn in a step of `s`, if the turn is the sequencer's. -/
def State.seqTurn (s : State) : Option State :=
  match s.host with
  | [] => some s
  | .wait :: ts => some { s with host := ts }
  | _ :: _ => none

/-- A built slot (10_state.md R45): a valid code over an alphabet of 1 to `ALPHA_MAX` symbols. -/
def CodeOk (l : HCode) : Prop := lensValid l = true ∧ 1 ≤ l.length ∧ l.length ≤ Config.alphaMax

/-- VALID implies that RD_END lies within DMEM (41_range_decoder.md R119, 10_state.md R31). -/
def RdCtx.StopOk (p : Params) (x : RdCtx) : Prop := x.valid = true → x.stop.toNat ≤ p.dmemSize

/-- The invariant that every step keeps. Memory, cache and slot file are canonical and within their sizes (R45, R47, R60);
built slots hold valid codes; ERR is one of the codes the block raises (60_exceptions.md R245), and ERR_OP is 0 when
it is 0 (R25); DONE is 0 while BUSY (R105). -/
structure State.Inv (s : State) : Prop where
  memWf     : Memory.wf s.mem
  memIn     : ∀ c ∈ s.mem, c.1 < s.params.dmemSize
  cacheWf   : Sparse.Canonical 0#32 s.cache
  cacheIn   : ∀ c ∈ s.cache, c.1 < Config.cacheSize
  slotsWf   : Sparse.Canonical none s.slots
  slotsIn   : ∀ c ∈ s.slots, c.1 < Config.htSlots
  slotsOk   : ∀ t l, s.slot t = some l → CodeOk l
  errCode   : s.err = 0 ∨ s.err = 1 ∨ s.err = 2 ∨ s.err = 4 ∨ s.err = 5
  errOpZero : s.err = 0 → s.errOp = 0
  busyDone  : s.busy = true → s.done = false
  rdStop    : ∀ c, (s.rd c).StopOk s.params

/-- What a valid context keeps between commands that succeed (41_range_decoder.md R125): RANGE in 128 .. 255, and the bits
of VALUE still to be shifted out before the next byte lands are 0, so that byte lands in 8 bits that are 0. R125's
other half, VALUE below RANGE × 256, is `RdCtx.Below`: RD_INIT does not always give it (log entry 7). -/
def RdCtx.Window (x : RdCtx) : Prop := 128 ≤ x.range.toNat ∧ x.value.toNat % 2 ^ x.bitcnt.toNat = 0

/-- VALUE below RANGE × 256 (R125, R32). -/
def RdCtx.Below (x : RdCtx) : Prop := x.value.toNat < x.range.toNat * 256

/-- The accumulator of the bit reader (10_state.md R37): at most 64 bits are held and nothing lies above them. -/
def BrRegs.AccOk (b : BrRegs) : Prop := b.nbits.toNat ≤ 64 ∧ b.acc.toNat < 2 ^ b.nbits.toNat

/-- The host's next turn keeps the protocol (60_exceptions.md R262) and stays within DMEM. -/
def State.HostObeys (s : State) : Prop :=
  match s.host with
  | [] => True
  | .wait :: _ => True
  | .readReg off w :: _ => windowAccessOk off w = true
  | .writeReg off w _ :: _ =>
    windowAccessOk off w = true ∧ (s.busy = true → ∀ r, regAt off = some r → writableWhileBusy r = true)
  | .readMem a w :: _ => s.busy = false ∧ a.toNat + w.bytes ≤ s.params.dmemSize
  | .writeMem a w _ :: _ => s.busy = false ∧ a.toNat + w.bytes ≤ s.params.dmemSize

/-- A run of `k` steps from `s` meets no host fault. -/
def SafeRun (k : Nat) (s : State) : Prop := ∀ f, Host.Core.run Sys2Proof.core k s ≠ .fault f

end Sys2Proof.Machine
end

