-- ==== Sys2Proof/Certificates/Slice0/Obligations.lean ====
section
/-! DEFINITION. The statements about the block, and the words they are written in: transcriptions of the spec's own
formulas, kept apart from the model's definitions. -/

namespace Sys2Proof.Claim

open Sys2Proof.Machine

/-! ### Encoding (30_encoding.md R91, R92) -/

/-- CTX of a word, from its number. -/
def ctxOf (w : Word) : Ctx := if w.toNat / 2 ^ 8 % 2 = 1 then .c1 else .c0
/-- N of a word. -/
def nOf (w : Word) : Nat := w.toNat / 2 ^ 9 % 32
/-- P8 of a word. -/
def p8Of (w : Word) : Byte := BitVec.ofNat 8 (w.toNat / 2 ^ 16)
/-- SLOT of a word. -/
def slotOf (w : Word) : Nat := w.toNat / 2 ^ 20

/-- The row of R92 for each command: `(w & mask) = match`, with the operands R91 gives. -/
def RowOf (w : Word) : Instr → Prop
  | .nop => w &&& 0xFFFFFFFF#32 = 0x00000000#32
  | .rdInit c => w &&& 0xFFFFFEFF#32 = 0x00000001#32 ∧ c = ctxOf w
  | .rdBool c p => w &&& 0xFF00FEFF#32 = 0x00000002#32 ∧ c = ctxOf w ∧ p = p8Of w
  | .rdUint c n => w &&& 0xFFFFC0FF#32 = 0x00000003#32 ∧ c = ctxOf w ∧ n = nOf w
  | .rdSint c n => w &&& 0xFFFFC0FF#32 = 0x00000004#32 ∧ c = ctxOf w ∧ n = nOf w
  | .rdTree c p => w &&& 0xFF00FEFF#32 = 0x00000005#32 ∧ c = ctxOf w ∧ p = p8Of w
  | .brPeek n => w &&& 0xFFFFC1FF#32 = 0x00000010#32 ∧ n = nOf w
  | .brSkip n => w &&& 0xFFFFC1FF#32 = 0x00000011#32 ∧ n = nOf w
  | .brRead n => w &&& 0xFFFFC1FF#32 = 0x00000012#32 ∧ n = nOf w
  | .xfIdctAdd => w &&& 0xFFFFFFFF#32 = 0x00000020#32
  | .xfIdct => w &&& 0xFFFFFFFF#32 = 0x00000021#32
  | .xfIwht => w &&& 0xFFFFFFFF#32 = 0x00000022#32
  | .cvConvert => w &&& 0xFFFFFFFF#32 = 0x00000030#32
  | .hfBuild t => w &&& 0x000FFFFF#32 = 0x00000040#32 ∧ t = slotOf w
  | .hfDecode t => w &&& 0x000FFFFF#32 = 0x00000041#32 ∧ t = slotOf w
  | .hfReadLengths => w &&& 0xFFFFFFFF#32 = 0x00000042#32
  | .hfFree t => w &&& 0x000FFFFF#32 = 0x00000043#32 ∧ t = slotOf w
  | .pxDecode => w &&& 0xFFFFFFFF#32 = 0x00000050#32

/-- The OP values of R92. -/
def opValues : List Nat :=
  [0x00, 0x01, 0x02, 0x03, 0x04, 0x05, 0x10, 0x11, 0x12, 0x20, 0x21, 0x22, 0x30, 0x40, 0x41, 0x42, 0x43, 0x50]

/-! ### Commands and their ends -/

/-- `s` with the completion of 40_control.md R105. -/
def finished (s : State) : State := { s with pending := none, done := true }

/-- `s` with the error entry of 60_exceptions.md R248: code `e`, OP `op`. -/
def raised (s : State) (e : BitVec 4) (op : Byte) : State := finished { s with err := e, errOp := op }

/-- The argument checks of each command, as its rule writes them. -/
def ArgsOk (s : State) : Instr → Prop
  | .nop => True
  | .rdInit c => (s.rd c).stop.toNat ≤ s.params.dmemSize
  | .rdBool c _ | .rdUint c _ | .rdSint c _ | .rdTree c _ => (s.rd c).valid = true
  | .brPeek _ | .brSkip _ | .brRead _ => s.br.stop.toNat ≤ s.params.dmemSize
  | .xfIdctAdd =>
    (s.xf.coefAddr.toNat % 2 = 0 ∧ s.xf.coefAddr.toNat + 32 ≤ s.params.dmemSize) ∧
      s.xf.pixAddr.toNat + 3 * s.xf.pixStride.toNat + 4 ≤ s.params.dmemSize
  | .xfIdct =>
    (s.xf.coefAddr.toNat % 2 = 0 ∧ s.xf.coefAddr.toNat + 32 ≤ s.params.dmemSize) ∧
      s.xf.outAddr.toNat % 2 = 0 ∧ s.xf.outAddr.toNat + 32 ≤ s.params.dmemSize
  | .xfIwht =>
    (s.xf.coefAddr.toNat % 2 = 0 ∧ s.xf.coefAddr.toNat + 32 ≤ s.params.dmemSize) ∧
      s.xf.outAddr.toNat % 2 = 0 ∧ s.xf.outStride.toNat % 2 = 0 ∧
      s.xf.outAddr.toNat + 15 * s.xf.outStride.toNat + 2 ≤ s.params.dmemSize
  | .cvConvert =>
    let w := s.cv.width.toNat
    let h := s.cv.height.toNat
    (1 ≤ w ∧ w ≤ 16384 ∧ 1 ≤ h ∧ h ≤ 16384) ∧
      s.cv.yAddr.toNat + (h - 1) * s.cv.yStride.toNat + w ≤ s.params.dmemSize ∧
      s.cv.uAddr.toNat + ((h + 1) / 2 - 1) * s.cv.uvStride.toNat + (w + 1) / 2 ≤ s.params.dmemSize ∧
      s.cv.vAddr.toNat + ((h + 1) / 2 - 1) * s.cv.uvStride.toNat + (w + 1) / 2 ≤ s.params.dmemSize ∧
      s.cv.dstAddr.toNat + (h - 1) * s.cv.dstStride.toNat + 4 * w ≤ s.params.dmemSize
  | .hfBuild t =>
    t < 1280 ∧ (1 ≤ s.hf.alpha.toNat ∧ s.hf.alpha.toNat ≤ 2328) ∧
      s.hf.lenAddr.toNat + s.hf.alpha.toNat ≤ s.params.dmemSize
  | .hfDecode t => t < 1280 ∧ s.slot t ≠ none ∧ s.br.stop.toNat ≤ s.params.dmemSize
  | .hfReadLengths =>
    (1 ≤ s.hf.alpha.toNat ∧ s.hf.alpha.toNat ≤ 2328) ∧
      s.hf.lenAddr.toNat + s.hf.alpha.toNat ≤ s.params.dmemSize ∧ s.br.stop.toNat ≤ s.params.dmemSize
  | .hfFree t => t < 1280
  | .pxDecode =>
    let w := s.px.width.toNat
    let h := s.px.height.toNat
    let n := s.px.numGroups.toNat
    let hb := s.px.hbits.toNat
    (1 ≤ w ∧ w ≤ 16384 ∧ 1 ≤ h ∧ h ≤ 16384) ∧ (1 ≤ n ∧ n ≤ 256) ∧ s.px.ccBits.toNat ≤ 11 ∧
      s.px.groupBase.toNat + 5 * n ≤ 1280 ∧
      (∀ g < n, ∀ t < 5, s.slot (s.px.groupBase.toNat + 5 * g + t) ≠ none) ∧
      (s.px.dstAddr.toNat % 4 = 0 ∧ s.px.dstAddr.toNat + 4 * w * h ≤ s.params.dmemSize) ∧
      (s.px.hen = true →
        (2 ≤ hb ∧ hb ≤ 9) ∧ s.px.himgAddr.toNat % 4 = 0 ∧
          s.px.himgAddr.toNat + 4 * ((w + 2 ^ hb - 1) / 2 ^ hb) * ((h + 2 ^ hb - 1) / 2 ^ hb) ≤ s.params.dmemSize) ∧
      s.br.stop.toNat ≤ s.params.dmemSize

/-- The error codes each command may raise (60_exceptions.md R246). -/
def codesOf : Instr → List (BitVec 4)
  | .nop => []
  | .rdInit _ | .rdBool _ _ | .rdUint _ _ | .rdSint _ _ | .rdTree _ _ => [1, 4]
  | .brPeek _ => [1]
  | .brSkip _ | .brRead _ => [1, 2]
  | .xfIdctAdd | .xfIdct | .xfIwht | .cvConvert => [1]
  | .hfBuild _ | .hfDecode _ | .hfReadLengths => [1, 2]
  | .hfFree _ => [1]
  | .pxDecode => [1, 2, 5]

/-- The range-decoder context a command works on. -/
def ctxUsed : Instr → Option Ctx
  | .rdInit c | .rdBool c _ | .rdUint c _ | .rdSint c _ | .rdTree c _ => some c
  | _ => none

/-- The commands that read the VP8L bit stream (42_bit_reader.md R135). -/
def usesBr : Instr → Bool
  | .brPeek _ | .brSkip _ | .brRead _ | .hfDecode _ | .hfReadLengths | .pxDecode => true
  | _ => false

/-- The commands that produce a result (40_control.md R109). -/
def hasResult : Instr → Bool
  | .rdBool _ _ | .rdUint _ _ | .rdSint _ _ | .rdTree _ _ | .brPeek _ | .brRead _ | .hfDecode _ | .pxDecode => true
  | _ => false

/-- Address `a` is one that a successful command `i` stores to, by the address computations of its rule. -/
def StoresTo (s : State) (a : Nat) : Instr → Prop
  | .xfIdctAdd => ∃ r < 4, ∃ k < 4, a = s.xf.pixAddr.toNat + r * s.xf.pixStride.toNat + k
  | .xfIdct => ∃ i < 16, ∃ k < 2, a = s.xf.outAddr.toNat + 2 * i + k
  | .xfIwht => ∃ i < 16, ∃ k < 2, a = s.xf.outAddr.toNat + i * s.xf.outStride.toNat + k
  | .cvConvert =>
    ∃ y < s.cv.height.toNat, ∃ x < s.cv.width.toNat, ∃ k < 4,
      a = s.cv.dstAddr.toNat + y * s.cv.dstStride.toNat + 4 * x + k
  | .hfReadLengths => ∃ k < s.hf.alpha.toNat, a = s.hf.lenAddr.toNat + k
  | .pxDecode => ∃ k < 4 * s.px.width.toNat * s.px.height.toNat, a = s.px.dstAddr.toNat + k
  | _ => False

/-! ### Range decoder (41_range_decoder.md) -/

/-- The split point of R117 for a range of 1 or more. -/
def split (range p : Nat) : Nat := 1 + (range - 1) * p / 256

/-- The bit of `RdBool(p)` on `x`. -/
def readBit (x : RdCtx) (p : Byte) : Bool := split x.range.toNat p.toNat * 256 ≤ x.value.toNat

/-- The range after the decision, before renormalisation. -/
def narrowed (x : RdCtx) (p : Byte) : Nat :=
  if readBit x p then x.range.toNat - split x.range.toNat p.toNat else split x.range.toNat p.toNat

/-- How many shifts bring the narrowed range to 128 or more. -/
def shiftsOf (x : RdCtx) (p : Byte) : Nat := 7 - Nat.log2 (narrowed x p)

/-- The next byte of the stream of `x`; past the end, the 0 of `ZERO_FILL` (R116). -/
def streamByte (m : Memory) (x : RdCtx) : Nat := if x.ptr.toNat < x.stop.toNat then (memByte m x.ptr.toNat).toNat else 0

/-- The context after `RdBool(p)` in closed form. -/
def afterBool (m : Memory) (x : RdCtx) (p : Byte) : RdCtx :=
  let k := shiftsOf x p
  let n := x.bitcnt.toNat + k
  let v := if readBit x p then x.value.toNat - split x.range.toNat p.toNat * 256 else x.value.toNat
  { x with
    range := BitVec.ofNat 8 (narrowed x p * 2 ^ k)
    value := BitVec.ofNat 16 (v * 2 ^ k + if 8 ≤ n then streamByte m x * 2 ^ (n - 8) else 0)
    bitcnt := BitVec.ofNat 3 (n % 8)
    ptr := if 8 ≤ n ∧ x.ptr.toNat < x.stop.toNat then x.ptr + 1 else x.ptr }

/-- The byte that `RdBool(p)` may need can be had: none is needed, or the stream has one, or `ZERO_FILL` gives 0. -/
def ByteReady (s : State) (c : Ctx) (p : Byte) : Prop :=
  (s.rd c).bitcnt.toNat + shiftsOf (s.rd c) p < 8 ∨ (s.rd c).ptr.toNat < (s.rd c).stop.toNat ∨
    s.params.rdEof = .zeroFill

/-- Context `c` is valid and as R125 leaves it (`RdCtx.Window`), its end lies in DMEM, and the `k` bytes, if any, are left
(or `ZERO_FILL` holds). -/
structure RdReady (s : State) (c : Ctx) (k : Nat) : Prop where
  valid  : (s.rd c).valid = true
  window : (s.rd c).Window
  inside : (s.rd c).stop.toNat ≤ s.params.dmemSize
  bytes  : k = 0 ∨ (s.rd c).ptr.toNat + k ≤ (s.rd c).stop.toNat ∨ s.params.rdEof = .zeroFill

/-- Where a read of RD_TREE at index `q.1` finds its probability (R124). -/
def treeProb (s : State) (q : Nat × RdCtx) : Nat := s.rdProbAddr.toNat + q.1 / 2

/-- Where a read of RD_TREE at index `q.1` in context `q.2` finds its entry, taken by the bit (R124). -/
def treeEntry (s : State) (q : Nat × RdCtx) : Nat :=
  s.rdTreeAddr.toNat + q.1 + if readBit q.2 (memByte s.mem (treeProb s q)) then 1 else 0

/-- The walk of RD_TREE from index `start` in context `x` after `k` reads that all found an inner node: the index and the
context (R123). -/
def treeWalk (s : State) (start : Nat) (x : RdCtx) : Nat → Nat × RdCtx
  | 0 => (start, x)
  | k + 1 =>
    let q := treeWalk s start x k
    ((memByte s.mem (treeEntry s q)).toNat, afterBool s.mem q.2 (memByte s.mem (treeProb s q)))

/-- The flag of read `q` can be had: it needs no byte, or the byte can be had. -/
def FlagReady (s : State) (c : Ctx) (q : Nat × RdCtx) : Prop :=
  ByteReady (s.setRd c q.2) c (memByte s.mem (treeProb s q))

/-- Read `q` finds both its bytes in DMEM and its entry is an inner node. -/
def InnerRead (s : State) (q : Nat × RdCtx) : Prop :=
  treeProb s q < s.params.dmemSize ∧ treeEntry s q < s.params.dmemSize ∧ 0 < (memByte s.mem (treeEntry s q)).toInt

/-! ### Bit reader (42_bit_reader.md) -/

/-- `k` bytes from `a` as one little-endian number. -/
def bytesNat (m : Memory) : Nat → Nat → Nat
  | _, 0 => 0
  | a, k + 1 => (memByte m a).toNat + 256 * bytesNat m (a + 1) k

/-- All the bits still to come, buffered or in DMEM, as one number whose bit 0 is the next stream bit (R138). -/
def stream (m : Memory) (b : BrRegs) : Nat :=
  b.acc.toNat + 2 ^ b.nbits.toNat * bytesNat m b.ptr.toNat (b.stop.toNat - b.ptr.toNat)

/-- How many bits are still to come. -/
def avail (b : BrRegs) : Nat := b.nbits.toNat + 8 * (b.stop.toNat - b.ptr.toNat)

/-- `b'` is `b` after `n` bits are consumed with a fill for `f` bits: the stream, the count, and exactly the bytes that the
fill needs are taken (R137, R139). -/
structure Consumed (m : Memory) (b b' : BrRegs) (f n : Nat) : Prop where
  bits  : stream m b' = stream m b / 2 ^ n
  left  : avail b' = avail b - n
  taken : b'.ptr.toNat = b.ptr.toNat + min ((f - b.nbits.toNat + 7) / 8) (b.stop.toNat - b.ptr.toNat)
  stop  : b'.stop = b.stop
  acc   : b'.AccOk

/-- A stream as a number and a count of bits, bit 0 the next. -/
structure Src where
  num : Nat
  len : Nat

/-- The stream of `s`. -/
def srcOf (s : State) : Src := ⟨stream s.mem s.br, avail s.br⟩

/-- A place in a stream: the bits consumed, and the furthest bit that a fill has asked for. -/
structure Place where
  pos   : Nat
  reach : Nat

/-- `BrRead(n)` at `q` (R140): the number and the place after it; none where the stream has fewer bits. -/
def bitsAt (v : Src) (n : Nat) (q : Place) : Option (Nat × Place) :=
  if q.pos + n ≤ v.len then some (v.num / 2 ^ q.pos % 2 ^ n, ⟨q.pos + n, max q.reach (q.pos + n)⟩) else none

/-- The BR stream check passes and the accumulator is as R37 says. -/
structure BrReady (s : State) : Prop where
  inside : s.br.stop.toNat ≤ s.params.dmemSize
  acc    : s.br.AccOk

/-! ### Transforms (43_inverse_transforms.md), transcribed from the rules' pseudocode -/

/-- `W` (R158). -/
def w16 (wrap : Bool) (v : Int) : Int := if wrap then (v + 32768) % 65536 - 32768 else v
/-- `MulC1` (R151). -/
def c1 (v : Int) : Int := v + v * 20091 / 65536
/-- `MulC2` (R151). -/
def c2 (v : Int) : Int := v * 35468 / 65536

/-- Pass 1 of R152: `m[i]`. -/
def idctPass1 (wrap : Bool) (c : Nat → Int) (i : Nat) : Int :=
  let k := i % 4
  let a := c k + c (8 + k)
  let b := c k - c (8 + k)
  let cc := c2 (c (4 + k)) - c1 (c (12 + k))
  let d := c1 (c (4 + k)) + c2 (c (12 + k))
  w16 wrap (match i / 4 with
    | 0 => a + d
    | 1 => b + cc
    | 2 => b - cc
    | _ => a - d)

/-- `IdctCore` (R152): `o[i]`. -/
def idct (wrap : Bool) (c : Nat → Int) (i : Nat) : Int :=
  let m := idctPass1 wrap c
  let r := i / 4
  let a := m (4 * r) + m (4 * r + 2)
  let b := m (4 * r) - m (4 * r + 2)
  let cc := c2 (m (4 * r + 1)) - c1 (m (4 * r + 3))
  let d := c1 (m (4 * r + 1)) + c2 (m (4 * r + 3))
  w16 wrap ((match i % 4 with
    | 0 => a + d + 4
    | 1 => b + cc + 4
    | 2 => b - cc + 4
    | _ => a - d + 4) / 8)

/-- Pass 1 of R155: `m[i]`. -/
def iwhtPass1 (wrap : Bool) (c : Nat → Int) (i : Nat) : Int :=
  let k := i % 4
  let a := c k + c (12 + k)
  let b := c (4 + k) + c (8 + k)
  let cc := c (4 + k) - c (8 + k)
  let d := c k - c (12 + k)
  w16 wrap (match i / 4 with
    | 0 => a + b
    | 1 => cc + d
    | 2 => a - b
    | _ => d - cc)

/-- `IwhtCore` (R155): `o[i]`. -/
def iwht (wrap : Bool) (c : Nat → Int) (i : Nat) : Int :=
  let m := iwhtPass1 wrap c
  let r := i / 4
  let a := m (4 * r) + m (4 * r + 3)
  let b := m (4 * r + 1) + m (4 * r + 2)
  let cc := m (4 * r + 1) - m (4 * r + 2)
  let d := m (4 * r) - m (4 * r + 3)
  w16 wrap ((match i % 4 with
    | 0 => a + b + 3
    | 1 => cc + d + 3
    | 2 => a - b + 3
    | _ => d - cc + 3) / 8)

/-- Coefficient `i` as the command finds it (R150): two bytes, little-endian, two's complement. -/
def coef (s : State) (i : Nat) : Int :=
  let a := s.xf.coefAddr.toNat + 2 * i
  let v : Int := (memByte s.mem a).toNat + 256 * (memByte s.mem (a + 1)).toNat
  if v < 32768 then v else v - 65536

/-- `clamp255` (00_scope.md R9). -/
def clamp (v : Int) : Int := min (max v 0) 255

/-- The low and the high byte of `v` modulo 2^16. -/
def loByte (v : Int) : Byte := BitVec.ofInt 8 v
/-- See `loByte`. -/
def hiByte (v : Int) : Byte := BitVec.ofInt 8 (v / 256)

/-- The byte at `a` after residuals `o` are added with saturation to the pixels in raster order (R153). -/
def addedByte (s : State) (o : Nat → Int) (a : Nat) : Byte :=
  (List.range 16).foldl
    (fun b i =>
      if a = s.xf.pixAddr.toNat + i / 4 * s.xf.pixStride.toNat + i % 4 then BitVec.ofInt 8 (clamp (b.toNat + o i)) else b)
    (memByte s.mem a)

/-- The byte at `a` after the halfwords `o` are stored at `addr`, index 0 first (R154, R156). -/
def storedByte (m : Memory) (addr : Nat → Nat) (o : Nat → Int) (a : Nat) : Byte :=
  (List.range 16).foldl
    (fun b i => if a = addr i then loByte (o i) else if a = addr i + 1 then hiByte (o i) else b) (memByte m a)

/-! ### Colour conversion (44_color_convert.md) -/

/-- `Chroma` (R171) of the plane at `base`. -/
def chroma (v : CvRegs) (m : Memory) (base x y : Nat) : Nat :=
  let p := fun i j => (memByte m (base + j * v.uvStride.toNat + i)).toNat
  let cw := (v.width.toNat + 1) / 2
  let ch := (v.height.toNat + 1) / 2
  if v.nearest then p (x / 2) (y / 2)
  else
    let i1 := min (x / 2 + x % 2) (cw - 1)
    let j1 := min (y / 2 + y % 2) (ch - 1)
    (p (x / 2) (y / 2) + p i1 (y / 2) + p (x / 2) j1 + p i1 j1 + 2) / 4

/-- `Convert` (R172) and alpha (R174) of pixel (x, y), read from `m`: channel `k` of R, G, B, A. -/
def rgba (v : CvRegs) (m : Memory) (x y k : Nat) : Byte :=
  let c : Int := (memByte m (v.yAddr.toNat + y * v.yStride.toNat + x)).toNat - v.yoff.toNat
  let d : Int := (chroma v m v.uAddr.toNat x y : Int) - 128
  let e : Int := (chroma v m v.vAddr.toNat x y : Int) - 128
  let out := fun sum : Int => BitVec.ofInt 8 (clamp ((sum + v.rnd.toInt) / 2 ^ v.shift.toNat))
  match k with
  | 0 => out (v.ky.toInt * c + v.krv.toInt * e)
  | 1 => out (v.ky.toInt * c + v.kgu.toInt * d + v.kgv.toInt * e)
  | 2 => out (v.ky.toInt * c + v.kbu.toInt * d)
  | _ => 255#8

/-- The address of channel 0 of output pixel (x, y) (R170). -/
def dstAt (v : CvRegs) (x y : Nat) : Nat := v.dstAddr.toNat + y * v.dstStride.toNat + 4 * x

/-- Address `a` is a sample CV_CONVERT may read (R170). -/
def IsSample (v : CvRegs) (a : Nat) : Prop :=
  (∃ y < v.height.toNat, ∃ x < v.width.toNat, a = v.yAddr.toNat + y * v.yStride.toNat + x) ∨
    (∃ j < (v.height.toNat + 1) / 2, ∃ i < (v.width.toNat + 1) / 2,
      a = v.uAddr.toNat + j * v.uvStride.toNat + i ∨ a = v.vAddr.toNat + j * v.uvStride.toNat + i)

/-- The output lies apart from every sample, and its rows lie apart from each other. -/
structure CvApart (s : State) : Prop where
  samples : ∀ a, IsSample s.cv a → ¬ StoresTo s a .cvConvert
  rows    : s.cv.height = 1 ∨ 4 * s.cv.width.toNat ≤ s.cv.dstStride.toNat

/-- The pixels of an image of `w` by `h` in raster order. -/
def raster (w h : Nat) : List (Nat × Nat) := (List.range h).flatMap fun y => (List.range w).map fun x => (x, y)

/-! ### Huffman (45_huffman.md) -/

/-- The conditions of R190 on a length list. -/
abbrev ValidLens (l : List Nat) : Prop :=
  (∀ x ∈ l, x ≤ 15) ∧ (∃ x ∈ l, x ≠ 0) ∧
    ((l.filter (fun x => x != 0)).length = 1 ∨
      ((l.filter (fun x => x != 0)).map (fun x => 2 ^ (15 - x))).sum = 2 ^ 15)

/-- The lengths HF_BUILD reads (R186). -/
def lensAt (m : Memory) (a n : Nat) : List Nat := (List.range n).map fun i => (memByte m (a + i)).toNat

/-- `l` is the single-symbol code of `y` (R190 (3)). -/
def OnlySymbol (l : List Nat) (y : Nat) : Prop := ∀ j, l.getD j 0 ≠ 0 ↔ j = y

/-- At least two symbols occur. -/
def ManySymbols (l : List Nat) : Prop := ∃ j k, j ≠ k ∧ l.getD j 0 ≠ 0 ∧ l.getD k 0 ≠ 0

/-- The next `n` bits of the stream number `v` are the code of symbol `y`, its most significant bit first (R191). -/
abbrev CodeAhead (l : List Nat) (y n v : Nat) : Prop :=
  ∀ j < n, v / 2 ^ j % 2 = codeOf l y / 2 ^ (n - 1 - j) % 2

/-- Symbol `y` occurs and its code is next in the stream number `v`. -/
def codeHere (l : List Nat) (v y : Nat) : Bool := decide (0 < l.getD y 0 ∧ CodeAhead l y (l.getD y 0) v)

/-- `HfDecode` of the code `l` at `q` (R192): the only symbol, from no bits; else the symbol whose code stands there, found
by looking 15 bits ahead; none where the stream ends inside the code. -/
def symbolAt (l : List Nat) (v : Src) (q : Place) : Option (Nat × Place) :=
  if (l.filter (fun x => x != 0)).length = 1 then (l.findIdx? (fun x => x != 0)).map fun y => (y, q)
  else
    ((List.range l.length).find? (codeHere l (v.num / 2 ^ q.pos))).bind fun y =>
      if q.pos + l.getD y 0 ≤ v.len then some (y, ⟨q.pos + l.getD y 0, max q.reach (q.pos + 15)⟩) else none

/-- The order of the code-length code's lengths (R196). -/
def lengthOrder : List Nat := [17, 18] ++ List.range 6 ++ [16] ++ (List.range 10).map (· + 6)

/-- The lengths of the code-length code, of 3 bits each, for the symbols listed (R198). -/
def clLensAt (v : Src) : List Nat → List Nat → Place → Option (List Nat × Place)
  | [], cl, q => some (cl, q)
  | y :: ys, cl, q => (bitsAt v 3 q).bind fun (x, q) => clLensAt v ys (cl.set y x) q

/-- The limit on the code-length symbols of a list of `n` lengths (R198). -/
def limitAt (v : Src) (n : Nat) (q : Place) : Option (Nat × Place) :=
  (bitsAt v 1 q).bind fun (flag, q) =>
    if flag = 0 then some (n, q)
    else
      (bitsAt v 3 q).bind fun (sel, q) =>
        (bitsAt v (2 + 2 * sel) q).bind fun (x, q) => if 2 + x ≤ n then some (2 + x, q) else none

/-- The lengths that at most `k` code-length symbols add to the lengths `l` of a list of `n`, `prev` the last one that is
not 0 (R196, R198). -/
def lengthsAt (cl : List Nat) (v : Src) (n : Nat) : Nat → List Nat → Nat → Place → Option (List Nat × Place)
  | 0, l, _, q => some (l, q)
  | k + 1, l, prev, q =>
    if n ≤ l.length then some (l, q)
    else
      (symbolAt cl v q).bind fun (c, q) =>
        if c < 16 then lengthsAt cl v n k (l ++ [c]) (if c = 0 then prev else c) q
        else
          (bitsAt v (if c = 16 then 2 else if c = 17 then 3 else 7) q).bind fun (x, q) =>
            let rep := x + if c < 18 then 3 else 11
            if l.length + rep ≤ n then
              lengthsAt cl v n k (l ++ List.replicate rep (if c = 16 then prev else 0)) prev q
            else none

/-- A normal list of `n` lengths after its flag (R198): the lengths, those not reached 0, and the code-length code; none
where R198 raises `InvalidData`. -/
def normalAt (v : Src) (n : Nat) (q : Place) : Option (List Nat × List Nat × Place) :=
  (bitsAt v 4 q).bind fun (ncl, q) =>
    (clLensAt v (lengthOrder.take (ncl + 4)) (List.replicate 19 0) q).bind fun (cl, q) =>
      if ValidLens cl then
        (limitAt v n q).bind fun (limit, q) =>
          (lengthsAt cl v n limit [] 8 q).map fun (l, q) => (l ++ List.replicate (n - l.length) 0, cl, q)
      else none

/-! ### Pixels (46_lz77_pixel.md) -/

/-- Slot `t` of `s` holds the single-symbol code of `y`. -/
def SingleIn (s : State) (t y : Nat) : Prop := ∃ l, s.slot t = some l ∧ OnlySymbol l y

/-- The huffman-image word of the block of pixel (x, y) (R218). -/
def himgWord (s : State) (x y : Nat) : Word :=
  let hb := s.px.hbits.toNat
  let hw := (s.px.width.toNat + 2 ^ hb - 1) / 2 ^ hb
  memWord s.mem (s.px.himgAddr.toNat + 4 * (y / 2 ^ hb * hw + x / 2 ^ hb))

/-- The group of pixel `pos` (R218). -/
def groupAt (s : State) (pos : Nat) : Nat :=
  if s.px.hen then (himgWord s (pos % s.px.width.toNat) (pos / s.px.width.toNat)).toNat / 2 ^ 8 % 256 else 0

/-- Every group's main, red, blue and alpha tables are single-symbol codes of the literals `col g 0` to `col g 3`; each
block of the huffman image names a group, and the huffman image lies apart from the output. -/
structure Solid (s : State) (col : Nat → Nat → Nat) : Prop where
  tables : ∀ g < s.px.numGroups.toNat, ∀ t < 4,
    SingleIn s (s.px.groupBase.toNat + 5 * g + t) (col g t) ∧ col g t < 256
  groups : ∀ pos < s.px.width.toNat * s.px.height.toNat, s.px.hen = true →
    (himgWord s (pos % s.px.width.toNat) (pos / s.px.width.toNat)).toNat / 2 ^ 16 % 256 = 0 ∧
      groupAt s pos < s.px.numGroups.toNat
  apart  : s.px.hen = true →
    let hb := s.px.hbits.toNat
    let n := (s.px.width.toNat + 2 ^ hb - 1) / 2 ^ hb * ((s.px.height.toNat + 2 ^ hb - 1) / 2 ^ hb)
    s.px.himgAddr.toNat + 4 * n ≤ s.px.dstAddr.toNat ∨
      s.px.dstAddr.toNat + 4 * s.px.width.toNat * s.px.height.toNat ≤ s.px.himgAddr.toNat

/-- DIST_TABLE (R221), copied row by row from the rule, as (dx, dy). -/
def distPairs : List (Int × Int) :=
    [(0, 1), (1, 0), (1, 1), (-1, 1), (0, 2), (2, 0), (1, 2), (-1, 2)] ++
    [(2, 1), (-2, 1), (2, 2), (-2, 2), (0, 3), (3, 0), (1, 3), (-1, 3)] ++
    [(3, 1), (-3, 1), (2, 3), (-2, 3), (3, 2), (-3, 2), (0, 4), (4, 0)] ++
    [(1, 4), (-1, 4), (4, 1), (-4, 1), (3, 3), (-3, 3), (2, 4), (-2, 4)] ++
    [(4, 2), (-4, 2), (0, 5), (3, 4), (-3, 4), (4, 3), (-4, 3), (5, 0)] ++
    [(1, 5), (-1, 5), (5, 1), (-5, 1), (2, 5), (-2, 5), (5, 2), (-5, 2)] ++
    [(4, 4), (-4, 4), (3, 5), (-3, 5), (5, 3), (-5, 3), (0, 6), (6, 0)] ++
    [(1, 6), (-1, 6), (6, 1), (-6, 1), (2, 6), (-2, 6), (6, 2), (-6, 2)] ++
    [(4, 5), (-4, 5), (5, 4), (-5, 4), (3, 6), (-3, 6), (6, 3), (-6, 3)] ++
    [(0, 7), (7, 0), (1, 7), (-1, 7), (5, 5), (-5, 5), (7, 1), (-7, 1)] ++
    [(4, 6), (-4, 6), (6, 4), (-6, 4), (2, 7), (-2, 7), (7, 2), (-7, 2)] ++
    [(3, 7), (-3, 7), (7, 3), (-7, 3), (5, 6), (-5, 6), (6, 5), (-6, 5)] ++
    [(8, 0), (4, 7), (-4, 7), (7, 4), (-7, 4), (8, 1), (8, 2), (6, 6)] ++
    [(-6, 6), (8, 3), (5, 7), (-5, 7), (7, 5), (-7, 5), (8, 4), (6, 7)] ++
    [(-6, 7), (7, 6), (-7, 6), (8, 5), (7, 7), (-7, 7), (8, 6), (8, 7)]

/-- `Plane(d)` (R221) for an image `w` wide. -/
def planeOf (w d : Nat) : Nat :=
  if 120 < d then d - 120 else (max ((distPairs.getD (d - 1) (0, 0)).1 + (distPairs.getD (d - 1) (0, 0)).2 * w) 1).toNat

/-- `Prefix(c)` at `q` (R220). -/
def prefixAt (v : Src) (c : Nat) (q : Place) : Option (Nat × Place) :=
  if c < 4 then some (c + 1, q)
  else (bitsAt v (c / 2 - 1) q).map fun (x, q) => ((2 + c % 2) * 2 ^ (c / 2 - 1) + x + 1, q)

/-- `Hash(p, b)` (R219). -/
def hashOf (b : Nat) (p : Word) : Nat := p.toNat * 0x1E35A7BD % 2 ^ 32 / 2 ^ (32 - b)

/-- CACHE[i] after the pixels `pix` (R219): the last of them whose hash is `i`, and 0 where there is none. -/
def cachedAt (b : Nat) (pix : List Word) (i : Nat) : Word := (pix.reverse.find? fun p => hashOf b p = i).getD 0

/-- `n` more pixels, each the one `dist` back, the new ones among them (R224). -/
def copied (dist : Nat) : Nat → List Word → List Word
  | 0, pix => pix
  | n + 1, pix => copied dist n (pix ++ [pix.getD (pix.length - dist) 0])

/-- The pixels after one more main symbol at `q` with the tables of group `g` (R217, R223 to R225); none where those rules
raise `InvalidData` (R227). -/
def pixelsAt (s : State) (v : Src) (g : Nat) (pix : List Word) (q : Place) : Option (List Word × Place) :=
  let table := fun t => symbolAt ((s.slot (s.px.groupBase.toNat + 5 * g + t)).getD []) v
  (table 0 q).bind fun (x, q) =>
    if x < 256 then
      (table 1 q).bind fun (red, q) =>
        (table 2 q).bind fun (blue, q) =>
          (table 3 q).bind fun (alpha, q) =>
            if red < 256 ∧ blue < 256 ∧ alpha < 256 then
              some (pix ++ [BitVec.ofNat 32 (2 ^ 24 * alpha + 2 ^ 16 * red + 2 ^ 8 * x + blue)], q)
            else none
    else if x < 280 then
      (prefixAt v (x - 256) q).bind fun (len, q) =>
        (table 4 q).bind fun (d, q) =>
          if d < 40 then
            (prefixAt v d q).bind fun (c, q) =>
              if planeOf s.px.width.toNat c ≤ pix.length ∧ pix.length + len ≤ s.px.width.toNat * s.px.height.toNat then
                some (copied (planeOf s.px.width.toNat c) len pix, q)
              else none
          else none
    else if s.px.ccBits ≠ 0 ∧ x - 280 < 2 ^ s.px.ccBits.toNat then
      some (pix ++ [cachedAt s.px.ccBits.toNat pix (x - 280)], q)
    else none

/-- The pixels of PX_DECODE and the place in the stream after them, or the code of the error it raises, from the pixels
`pix` on, with at most `k` more main symbols (R218, R226, R227). -/
def imageAt (s : State) (v : Src) : Nat → List Word → Place → Except (BitVec 4) (List Word × Place)
  | 0, pix, q => .ok (pix, q)
  | k + 1, pix, q =>
    if s.px.width.toNat * s.px.height.toNat ≤ pix.length then .ok (pix, q)
    else
      let word := himgWord s (pix.length % s.px.width.toNat) (pix.length / s.px.width.toNat)
      if s.px.hen = true ∧ word.toNat / 2 ^ 16 % 256 ≠ 0 then .error 5
      else if s.px.numGroups.toNat ≤ groupAt s pix.length then .error 2
      else
        match pixelsAt s v (groupAt s pix.length) pix q with
        | none => .error 2
        | some (pix, q) => imageAt s v k pix q

/-- What PX_DECODE decodes from `s`: each main symbol emits a pixel or more, so W·H of them suffice (R228). -/
def imageOf (s : State) : Except (BitVec 4) (List Word × Place) :=
  imageAt s (srcOf s) (s.px.width.toNat * s.px.height.toNat) [] ⟨0, 0⟩

/-- PX_DECODE may run, its slots hold valid codes, and its output lies apart from the stream still to be loaded and from the
huffman image, so that what it reads is what stood there before (70_reset_and_hazards.md R279). -/
structure PxReady (s : State) : Prop where
  args   : ArgsOk s .pxDecode
  mem    : Memory.wf s.mem
  cache  : Sparse.Canonical 0#32 s.cache
  br     : s.br.AccOk
  codes  : ∀ k l, s.slot k = some l → CodeOk l
  stream : ∀ a, s.br.ptr.toNat ≤ a → a < s.br.stop.toNat → ¬ StoresTo s a .pxDecode
  himg   : s.px.hen = true →
    let hb := s.px.hbits.toNat
    let n := (s.px.width.toNat + 2 ^ hb - 1) / 2 ^ hb * ((s.px.height.toNat + 2 ^ hb - 1) / 2 ^ hb)
    ∀ a, s.px.himgAddr.toNat ≤ a → a < s.px.himgAddr.toNat + 4 * n → ¬ StoresTo s a .pxDecode

/-! ### The register window (10_state.md) -/

/-- The offset of each register, from the table of R50. -/
def offsetOf : Reg → BitVec 12
  | .id => 0x000#12 | .ctrl => 0x004#12 | .status => 0x008#12 | .irqEn => 0x00C#12
  | .cmd => 0x010#12 | .result => 0x014#12 | .hwCfg => 0x018#12 | .dmemSize => 0x01C#12
  | .rdPtr c => match c with | .c0 => 0x040#12 | .c1 => 0x060#12
  | .rdEnd c => match c with | .c0 => 0x044#12 | .c1 => 0x064#12
  | .rdValue c => match c with | .c0 => 0x048#12 | .c1 => 0x068#12
  | .rdRange c => match c with | .c0 => 0x04C#12 | .c1 => 0x06C#12
  | .rdState c => match c with | .c0 => 0x050#12 | .c1 => 0x070#12
  | .rdTreeAddr => 0x080#12 | .rdProbAddr => 0x084#12
  | .xfCoefAddr => 0x100#12 | .xfPixAddr => 0x104#12 | .xfPixStride => 0x108#12
  | .xfOutAddr => 0x10C#12 | .xfOutStride => 0x110#12
  | .brPtr => 0x180#12 | .brEnd => 0x184#12 | .brAccLo => 0x188#12 | .brAccHi => 0x18C#12 | .brNbits => 0x190#12
  | .hfLenAddr => 0x200#12 | .hfAlpha => 0x204#12
  | .pxDstAddr => 0x280#12 | .pxWidth => 0x284#12 | .pxHeight => 0x288#12 | .pxGroupBase => 0x28C#12
  | .pxNumGroups => 0x290#12 | .pxHimgAddr => 0x294#12 | .pxHimgCtrl => 0x298#12 | .pxCcBits => 0x29C#12
  | .pxPos => 0x2A0#12
  | .cvYAddr => 0x300#12 | .cvYStride => 0x304#12 | .cvUAddr => 0x308#12 | .cvVAddr => 0x30C#12
  | .cvUvStride => 0x310#12 | .cvDstAddr => 0x314#12 | .cvDstStride => 0x318#12 | .cvWidth => 0x31C#12
  | .cvHeight => 0x320#12 | .cvMode => 0x324#12 | .cvKy => 0x328#12 | .cvKrv => 0x32C#12 | .cvKgu => 0x330#12
  | .cvKgv => 0x334#12 | .cvKbu => 0x338#12 | .cvYoff => 0x33C#12 | .cvShift => 0x340#12 | .cvRnd => 0x344#12

/-- What a host read of a register gives, as a number (R23 to R44): its fields at their bits, each from the part of the
state that the commands use, and 0 for the write-only registers. -/
def shownValue (s : State) : Reg → Nat
  | .id => 0x57500001
  | .ctrl | .cmd => 0
  | .status => (if s.pending = none then 0 else 1) + 2 * (if s.done then 1 else 0) + 2 ^ 8 * s.err.toNat +
      2 ^ 16 * s.errOp.toNat
  | .irqEn => (if s.doneIe then 1 else 0) + 2 * if s.errIe then 1 else 0
  | .result => s.result.toNat
  | .hwCfg => 1280 + 2 ^ 16 * (if s.params.rdEof = .zeroFill then 1 else 0) +
      2 ^ 17 * (if s.params.xfWrap16 then 1 else 0) + 2 ^ 18
  | .dmemSize => s.params.dmemSize
  | .rdPtr c => (s.rd c).ptr.toNat
  | .rdEnd c => (s.rd c).stop.toNat
  | .rdValue c => (s.rd c).value.toNat
  | .rdRange c => (s.rd c).range.toNat
  | .rdState c => (s.rd c).bitcnt.toNat + 2 ^ 8 * if (s.rd c).valid then 1 else 0
  | .rdTreeAddr => s.rdTreeAddr.toNat
  | .rdProbAddr => s.rdProbAddr.toNat
  | .xfCoefAddr => s.xf.coefAddr.toNat
  | .xfPixAddr => s.xf.pixAddr.toNat
  | .xfPixStride => s.xf.pixStride.toNat
  | .xfOutAddr => s.xf.outAddr.toNat
  | .xfOutStride => s.xf.outStride.toNat
  | .brPtr => s.br.ptr.toNat
  | .brEnd => s.br.stop.toNat
  | .brAccLo => s.br.acc.toNat % 2 ^ 32
  | .brAccHi => s.br.acc.toNat / 2 ^ 32
  | .brNbits => s.br.nbits.toNat
  | .hfLenAddr => s.hf.lenAddr.toNat
  | .hfAlpha => s.hf.alpha.toNat
  | .pxDstAddr => s.px.dstAddr.toNat
  | .pxWidth => s.px.width.toNat
  | .pxHeight => s.px.height.toNat
  | .pxGroupBase => s.px.groupBase.toNat
  | .pxNumGroups => s.px.numGroups.toNat
  | .pxHimgAddr => s.px.himgAddr.toNat
  | .pxHimgCtrl => s.px.hbits.toNat + 2 ^ 8 * if s.px.hen then 1 else 0
  | .pxCcBits => s.px.ccBits.toNat
  | .pxPos => s.px.pos.toNat
  | .cvYAddr => s.cv.yAddr.toNat
  | .cvYStride => s.cv.yStride.toNat
  | .cvUAddr => s.cv.uAddr.toNat
  | .cvVAddr => s.cv.vAddr.toNat
  | .cvUvStride => s.cv.uvStride.toNat
  | .cvDstAddr => s.cv.dstAddr.toNat
  | .cvDstStride => s.cv.dstStride.toNat
  | .cvWidth => s.cv.width.toNat
  | .cvHeight => s.cv.height.toNat
  | .cvMode => if s.cv.nearest then 1 else 0
  | .cvKy => s.cv.ky.toNat
  | .cvKrv => s.cv.krv.toNat
  | .cvKgu => s.cv.kgu.toNat
  | .cvKgv => s.cv.kgv.toNat
  | .cvKbu => s.cv.kbu.toNat
  | .cvYoff => s.cv.yoff.toNat
  | .cvShift => s.cv.shift.toNat
  | .cvRnd => s.cv.rnd.toNat

/-- The other registers that a write of a register also changes: VALID (R31), the accumulator (R36). -/
def alsoCleared : Reg → List Reg
  | .rdPtr c | .rdEnd c => [.rdState c]
  | .brPtr => [.brAccLo, .brAccHi, .brNbits]
  | _ => []

/-- The bits a host write of a read-write register stores (R50); `none` for the others. -/
def rwBits : Reg → Option Word
  | .irqEn => some 0x3#32
  | .rdPtr _ | .rdEnd _ | .rdTreeAddr | .rdProbAddr => some 0xFFFFFFFF#32
  | .xfCoefAddr | .xfPixAddr | .xfPixStride | .xfOutAddr | .xfOutStride => some 0xFFFFFFFF#32
  | .brPtr | .brEnd | .hfLenAddr | .pxDstAddr | .pxHimgAddr => some 0xFFFFFFFF#32
  | .hfAlpha => some 0xFFF#32
  | .pxWidth | .pxHeight | .cvWidth | .cvHeight => some 0x7FFF#32
  | .pxGroupBase => some 0x7FF#32
  | .pxNumGroups => some 0x1FF#32
  | .pxHimgCtrl => some 0x10F#32
  | .pxCcBits => some 0xF#32
  | .cvYAddr | .cvYStride | .cvUAddr | .cvVAddr | .cvUvStride | .cvDstAddr | .cvDstStride | .cvRnd => some 0xFFFFFFFF#32
  | .cvMode => some 0x1#32
  | .cvKy | .cvKrv | .cvKgu | .cvKgv | .cvKbu => some 0xFFFF#32
  | .cvYoff => some 0xFF#32
  | .cvShift => some 0x1F#32
  | _ => none

/-- The read-only registers (R50). -/
def readOnly : Reg → Bool
  | .id | .result | .hwCfg | .dmemSize | .rdValue _ | .rdRange _ | .rdState _ | .brAccLo | .brAccHi | .brNbits
  | .pxPos => true
  | _ => false

/-- The reset value of a register (R50); HW_CFG and DMEM_SIZE follow the parameters. -/
def resetValue (p : Params) : Reg → Word
  | .id => 0x57500001#32
  | .hwCfg =>
    BitVec.ofNat 32 (1280 + 2 ^ 16 * (if p.rdEof = .zeroFill then 1 else 0) + 2 ^ 17 * (if p.xfWrap16 then 1 else 0) +
      2 ^ 18)
  | .dmemSize => BitVec.ofNat 32 p.dmemSize
  | .xfOutStride => 32#32
  | .cvKy => 298#32
  | .cvKrv => 409#32
  | .cvKgu => 0xFF9C#32
  | .cvKgv => 0xFF30#32
  | .cvKbu => 516#32
  | .cvYoff => 16#32
  | .cvShift => 8#32
  | .cvRnd => 128#32
  | _ => 0#32

/-- The host's turn `t` breaks the protocol (60_exceptions.md R262) in state `s`, or reaches past DMEM (log entry 5). -/
def Violates (s : State) : HostTurn → Prop
  | .wait => False
  | .readReg off w => w ≠ .word ∨ off.toNat % 4 ≠ 0
  | .writeReg off w _ =>
    (w ≠ .word ∨ off.toNat % 4 ≠ 0) ∨
      (s.pending ≠ none ∧ ∃ r, regAt off = some r ∧ r ≠ .ctrl ∧ r ≠ .status ∧ r ≠ .irqEn)
  | .readMem a w => s.pending ≠ none ∨ s.params.dmemSize < a.toNat + w.bytes
  | .writeMem a w _ => s.pending ≠ none ∨ s.params.dmemSize < a.toNat + w.bytes

end Sys2Proof.Claim

open Sys2Proof Sys2Proof.Machine Sys2Proof.Claim

/-! ### Encoding -/

/-- Decoding the word of a well-formed command gives the command, whatever its operands (30_encoding.md R87 to R92, R97). -/
def Obligations.DecodeEncode : Prop := ∀ i : Instr, i.WellFormed = true → decode (encode i) = .ok i

/-- A word that decodes is the word of its command: no bit is dropped or ignored (R94, R97). -/
def Obligations.EncodeDecode : Prop := ∀ w i, decode w = .ok i → encode i = w ∧ i.WellFormed = true

/-- R92: a word is the command of a row exactly when `(w & mask) = match`, with the operands of R91. -/
def Obligations.OpcodeMap : Prop := ∀ w i, decode w = .ok i ↔ RowOf w i

/-- Words of 95_test_vectors.md decode to the commands written beside them. -/
def Obligations.SpecWords : Prop :=
  decode 0x00000101#32 = .ok (.rdInit .c1) ∧ decode 0x00C80002#32 = .ok (.rdBool .c0 200#8) ∧
    decode 0x00000804#32 = .ok (.rdSint .c0 4) ∧ decode 0x00001812#32 = .ok (.brRead 12) ∧
    decode 0x00000021#32 = .ok .xfIdct ∧ decode 0x00000030#32 = .ok .cvConvert ∧
    decode 0x00700041#32 = .ok (.hfDecode 7) ∧ decode 0x00000050#32 = .ok .pxDecode

/-! ### The life of a command -/

/-- On the sequencer's turn (the model's form of the block at work between host accesses, log entry 3), with no error
latched, a step is the meaning of the pending command (40_control.md R106); with no command pending the block keeps its
state (60_exceptions.md R261). -/
def Obligations.StepRunsCommand : Prop :=
  ∀ s u, s.seqTurn = some u →
    (∀ w i, s.pending = some w → s.err = 0 → decode w = .ok i → step s = exec i u) ∧
      (s.pending = none → step s = .next u)

/-- Placing a table word makes the next step run its command, as a CMD write with no error latched does (40_control.md R105,
R106; the placing is the model's: log entry 3). -/
def Obligations.FetchWordRuns : Prop :=
  ∀ (s : State) w i, decodeTableWord 32 w = some i →
    step (s.withFetchWord 32 w) =
      exec i { s with pending := some (BitVec.ofNat 32 w), done := false, err := 0, errOp := 0 }

/-- R93: a word whose OP is in no row raises `InvalidArgument` with ERR_OP = w[7:0] and has no other effect. -/
def Obligations.UndefinedOpRaises : Prop :=
  ∀ s u w, s.seqTurn = some u → s.pending = some w → s.err = 0 → w.toNat % 256 ∉ opValues →
    step s = .next (raised u 1#4 (BitVec.ofNat 8 w.toNat))

/-- R94: a word whose OP names a row but that does not match it raises `InvalidArgument` with ERR_OP = w[7:0] and has no
other effect. -/
def Obligations.ReservedFieldRaises : Prop :=
  ∀ s u w, s.seqTurn = some u → s.pending = some w → s.err = 0 → w.toNat % 256 ∈ opValues → (∀ i, ¬ RowOf w i) →
    step s = .next (raised u 1#4 (BitVec.ofNat 8 w.toNat))

/-- R108: a command executed while ERR is not 0 is discarded; nothing changes but the completion. -/
def Obligations.DiscardUnderError : Prop :=
  ∀ s u w, s.seqTurn = some u → s.pending = some w → s.err ≠ 0 → step s = .next (finished u)

/-- R105: a host write of CMD while idle clears DONE, sets BUSY and holds the word, at once and nothing else; the pending
command, whatever its word, then completes with BUSY 0 and DONE 1 in one step. -/
def Obligations.CommandLife : Prop :=
  (∀ s w ts, s.host = .writeReg 0x010#12 .word w :: ts → s.pending = none →
      step s = .next { s with host := ts, pending := some w, done := false }) ∧
    ∀ s u w, s.seqTurn = some u → s.pending = some w → ∃ t, step s = .next t ∧ t.pending = none ∧ t.done = true

/-! ### Errors -/

/-- A command that raises latches a code of its row of R246 and its own OP, and completes (60_exceptions.md R248;
the table R246 is an inference the spec marks as its own). -/
def Obligations.ErrorEntry : Prop :=
  ∀ i s t, s.err = 0 → exec i s = .next t → t.err ≠ 0 →
    t.err ∈ codesOf i ∧ t.errOp = BitVec.ofNat 8 (encode i).toNat ∧ t.pending = none ∧ t.done = true

/-- A command whose argument checks fail raises `InvalidArgument` and changes nothing else (60_exceptions.md R248, R249; the
checks of each command's rule). -/
def Obligations.ArgumentChecks : Prop :=
  ∀ i s, ¬ ArgsOk s i → exec i s = .next (raised s 1#4 (BitVec.ofNat 8 (encode i).toNat))

/-- The state after a command that raised (60_exceptions.md R249): RESULT is kept; VALID is kept, but RD_INIT, which keeps
it after `InvalidArgument` and of the other context, leaves it 0 in its own context after `EndOfInput`; HF_BUILD leaves its
slot EMPTY after `InvalidData`; the commands that raise only in their argument checks change nothing else. -/
def Obligations.FailedCommand : Prop :=
  ∀ i s t, Sparse.Canonical none s.slots → s.err = 0 → exec i s = .next t → t.err ≠ 0 →
    t.result = s.result ∧
      (∀ c, (∀ k, i ≠ .rdInit k) → (t.rd c).valid = (s.rd c).valid) ∧
      (∀ c k, i = .rdInit k → c ≠ k ∨ t.err = 1 → (t.rd c).valid = (s.rd c).valid) ∧
      (∀ c, i = .rdInit c → t.err = 4 → (t.rd c).valid = false) ∧
      (∀ k, i = .hfBuild k → t.err = 2 → t.slot k = none) ∧
      ((i = .xfIdctAdd ∨ i = .xfIdct ∨ i = .xfIwht ∨ i = .cvConvert ∨ (∃ n, i = .brPeek n) ∨ i = .nop ∨
          ∃ k, i = .hfFree k) →
        t = raised s 1#4 (BitVec.ofNat 8 (encode i).toNat))

/-- R109: RESULT is written only by a command that completes without error and produces a result. -/
def Obligations.ResultRule : Prop :=
  (∀ i s t, exec i s = .next t → (hasResult i = false ∨ (s.err = 0 ∧ t.err ≠ 0)) → t.result = s.result) ∧
    ∀ s u w t, s.seqTurn = some u → s.pending = some w → (s.err ≠ 0 ∨ ∀ i, ¬ RowOf w i) → step s = .next t →
      t.result = s.result

/-! ### Frames -/

/-- What no command changes, and what only some commands change, whether they succeed or raise (the 'State written' of each
command's rule, 60_exceptions.md R249): every byte of DMEM outside the command's output is kept; each context, the bit
reader, the slots, SCRATCH_CL, the cache and PX_POS change only under the commands that name them; ERR and ERR_OP change
only together and only to a code of the command and its OP. What becomes of RESULT says `Obligations.ResultRule`; DONE,
BUSY and the pending word, `Obligations.CommandLife`. -/
def Obligations.Frame : Prop :=
  ∀ i s t, Memory.wf s.mem → Sparse.Canonical none s.slots → exec i s = .next t →
    (t.params = s.params ∧ t.doneIe = s.doneIe ∧ t.errIe = s.errIe ∧ t.rdTreeAddr = s.rdTreeAddr ∧
        t.rdProbAddr = s.rdProbAddr ∧ t.xf = s.xf ∧ t.hf = s.hf ∧ t.cv = s.cv ∧ t.host = s.host ∧
        t.hostData = s.hostData) ∧
      (∀ c, (t.rd c).stop = (s.rd c).stop ∧ (ctxUsed i ≠ some c → t.rd c = s.rd c)) ∧
      (t.br.stop = s.br.stop ∧ (usesBr i = false → t.br = s.br)) ∧
      (∀ k, i ≠ .hfBuild k → i ≠ .hfFree k → t.slot k = s.slot k) ∧
      (i ≠ .hfReadLengths → t.scratchCl = s.scratchCl) ∧
      (i ≠ .pxDecode → t.cache = s.cache ∧ t.px = s.px) ∧ { t.px with pos := s.px.pos } = s.px ∧
      ((t.err = s.err ∧ t.errOp = s.errOp) ∨ (t.err ∈ codesOf i ∧ t.errOp = BitVec.ofNat 8 (encode i).toNat)) ∧
      ∀ a, ¬ StoresTo s a i → memByte t.mem a = memByte s.mem a

/-- R115: the two contexts are independent. A command that does not work on context `c` neither reads nor writes it: with
another content of `c` before, it does the same and leaves that content after. -/
def Obligations.ContextsIndependent : Prop :=
  ∀ i s t c x, ctxUsed i ≠ some c → exec i s = .next t → exec i (s.setRd c x) = .next (t.setRd c x)

/-! ### Commands: control and range decoder -/

/-- R107: NOP does nothing but complete. -/
def Obligations.NopCompletes : Prop := ∀ s, exec .nop s = .next (finished s)

/-- RD_INIT (41_range_decoder.md R119): with two bytes left, or under `ZERO_FILL`, the window is the next two bytes (0 past
the end), RANGE 255, BITCNT 0, VALID 1, RD_PTR moved past the bytes there are. Under `FAULT` with fewer than two bytes
it raises `EndOfInput` and leaves VALID 0. -/
def Obligations.RdInit : Prop :=
  ∀ s c, (s.rd c).stop.toNat ≤ s.params.dmemSize →
    let x := s.rd c
    let byte := fun k => if x.ptr.toNat + k < x.stop.toNat then (memByte s.mem (x.ptr.toNat + k)).toNat else 0
    (x.ptr.toNat + 2 ≤ x.stop.toNat ∨ s.params.rdEof = .zeroFill →
        exec (.rdInit c) s = .next (finished (s.setRd c
          { x with
            ptr := BitVec.ofNat 32 (x.ptr.toNat + min 2 (x.stop.toNat - x.ptr.toNat))
            value := BitVec.ofNat 16 (256 * byte 0 + byte 1)
            range := 255
            bitcnt := 0
            valid := true }))) ∧
      (x.stop.toNat < x.ptr.toNat + 2 → s.params.rdEof = .fault →
        ∃ t, exec (.rdInit c) s = .next t ∧ t.err = 4 ∧ t.errOp = 0x01#8 ∧ (t.rd c).valid = false ∧ t.result = s.result)

/-- RD_BOOL (41_range_decoder.md R116, R117, R120) on a context as R125 leaves it: the bit is 1 exactly when VALUE is at or
above split × 256; RANGE and VALUE are narrowed and shifted left until RANGE is 128 or more, with the next byte merged
at the 8th shift. If that byte is past the end under `FAULT`, `EndOfInput` is raised and VALID stays 1. -/
def Obligations.RdBool : Prop :=
  ∀ s c p, (s.rd c).valid = true → (s.rd c).Window → (s.rd c).stop.toNat ≤ s.params.dmemSize →
    (ByteReady s c p →
        exec (.rdBool c p) s = .next (finished
          { s.setRd c (afterBool s.mem (s.rd c) p) with result := if readBit (s.rd c) p then 1#32 else 0#32 })) ∧
      (¬ ByteReady s c p →
        ∃ t, exec (.rdBool c p) s = .next t ∧ t.err = 4 ∧ t.errOp = 0x02#8 ∧ (t.rd c).valid = true ∧
          t.result = s.result)

/-- RD_UINT (R121): no flag gives 0; n + 1 flags are n flags and then one more, the first read the most significant; from a
ready context with the bytes that n shifts can need, 4 at most, it completes with a number below 2^n. Where a flag raises, the read of n
flags and every longer one raise what the flag raises, `EndOfInput` on a stream that ends in DMEM, with VALID and RESULT
kept. -/
def Obligations.RdUint : Prop :=
  (∀ s c, (s.rd c).valid = true → exec (.rdUint c 0) s = .next (finished { s with result := 0 })) ∧
    (∀ s c n t u, s.err = 0 → exec (.rdUint c n) s = .next t → t.err = 0 → exec (.rdBool c 128#8) t = .next u →
      (u.err = 0 → exec (.rdUint c (n + 1)) s = .next { u with result := 2#32 * t.result + u.result }) ∧
        (u.err ≠ 0 → ∃ v, exec (.rdUint c (n + 1)) s = .next v ∧ v.err = u.err ∧ v.errOp = 0x03#8 ∧
          ((s.rd c).stop.toNat ≤ s.params.dmemSize → v.err = 4) ∧ (v.rd c).valid = true ∧ v.result = s.result)) ∧
    (∀ s c n t, s.err = 0 → exec (.rdUint c n) s = .next t → t.err ≠ 0 → exec (.rdUint c (n + 1)) s = .next t) ∧
    ∀ s c n, RdReady s c (((s.rd c).bitcnt.toNat + n) / 8) → n ≤ 31 →
      ∃ t, exec (.rdUint c n) s = .next t ∧ t.err = s.err ∧ t.result.toNat < 2 ^ n ∧ (t.rd c).valid = true ∧
        (t.rd c).Window

/-- RD_SINT (R122): the magnitude of RD_UINT, then one flag that negates it when 1; from a ready context with the bytes
that n + 1 shifts can need, 4 at most, it completes. Where the magnitude or the flag raises, it raises the same, `EndOfInput` for a flag of a
stream that ends in DMEM, with VALID and RESULT kept. -/
def Obligations.RdSint : Prop :=
  (∀ s c n t u, s.err = 0 → exec (.rdUint c n) s = .next t → t.err = 0 → exec (.rdBool c 128#8) t = .next u →
      (u.err = 0 → exec (.rdSint c n) s = .next { u with result := if u.result = 1 then -t.result else t.result }) ∧
        (u.err ≠ 0 → ∃ v, exec (.rdSint c n) s = .next v ∧ v.err = u.err ∧ v.errOp = 0x04#8 ∧
          ((s.rd c).stop.toNat ≤ s.params.dmemSize → v.err = 4) ∧ (v.rd c).valid = true ∧ v.result = s.result)) ∧
    (∀ s c n t, s.err = 0 → exec (.rdUint c n) s = .next t → t.err ≠ 0 →
      exec (.rdSint c n) s = .next { t with errOp := 0x04#8 }) ∧
    ∀ s c n, RdReady s c (((s.rd c).bitcnt.toNat + n + 1) / 8) → n ≤ 31 →
      ∃ t, exec (.rdSint c n) s = .next t ∧ t.err = s.err ∧ (t.rd c).valid = true ∧ (t.rd c).Window

/-- RD_TREE's first read (R123, R124): the probability is byte start / 2, the entry is taken by the bit; an entry at or below
0 is a leaf whose negative is the result. Whether or not the flag needs a byte. -/
def Obligations.RdTreeLeaf : Prop :=
  ∀ s c start, RdReady s c 0 →
    let prob := s.rdProbAddr.toNat + start.toNat / 2
    let p := memByte s.mem prob
    let entry := s.rdTreeAddr.toNat + start.toNat + if readBit (s.rd c) p then 1 else 0
    ByteReady s c p → prob < s.params.dmemSize → entry < s.params.dmemSize → (memByte s.mem entry).toInt ≤ 0 →
      exec (.rdTree c start) s = .next (finished
        { s.setRd c (afterBool s.mem (s.rd c) p) with result := BitVec.ofInt 32 (-(memByte s.mem entry).toInt) })

/-- RD_TREE's walk (R123, R124): after `n` reads of inner nodes, fewer than 255, each giving the index of the next node, a
read whose entry is at or below 0 ends it with the negative of that entry, the context as `n + 1` flags leave it; and a
read whose flag needs a byte past the end under `FAULT` raises `EndOfInput`, with VALID and RESULT kept. The reads before
need only the bytes that their flags need. -/
def Obligations.RdTreeNode : Prop :=
  ∀ s c start n, RdReady s c 0 → n < 255 →
    let walk := treeWalk s start.toNat (s.rd c)
    (∀ k < n, InnerRead s (walk k) ∧ FlagReady s c (walk k)) → treeProb s (walk n) < s.params.dmemSize →
      (FlagReady s c (walk n) → treeEntry s (walk n) < s.params.dmemSize →
        (memByte s.mem (treeEntry s (walk n))).toInt ≤ 0 →
          exec (.rdTree c start) s = .next (finished
            { s.setRd c (walk (n + 1)).2 with
              result := BitVec.ofInt 32 (-(memByte s.mem (treeEntry s (walk n))).toInt) })) ∧
        (¬ FlagReady s c (walk n) →
          ∃ t, exec (.rdTree c start) s = .next t ∧ t.err = 4 ∧ t.errOp = 0x05#8 ∧ (t.rd c).valid = true ∧
            t.result = s.result)

/-- RD_TREE that finds no leaf (R123): it raises `InvalidArgument` when its 255 reads have all found inner nodes, as on a
cyclic tree, and when after fewer of them a probability lies outside DMEM, or, the flag read, an entry does. The reads need
only the bytes that their flags need. -/
def Obligations.RdTreeCyclic : Prop :=
  ∀ s c start n, RdReady s c 0 →
    let walk := treeWalk s start.toNat (s.rd c)
    (∀ k < n, InnerRead s (walk k) ∧ FlagReady s c (walk k)) →
      n = 255 ∨ n < 255 ∧ (s.params.dmemSize ≤ treeProb s (walk n) ∨
          FlagReady s c (walk n) ∧ s.params.dmemSize ≤ treeEntry s (walk n)) →
        ∃ t, exec (.rdTree c start) s = .next t ∧ t.err = 1 ∧ t.errOp = 0x05#8 ∧ (t.rd c).valid = true ∧
          t.result = s.result

/-- Between commands that succeed a valid context has RANGE in 128 .. 255 and takes its next byte into bits that are 0; every
command but RD_INIT keeps VALUE below RANGE × 256, which RD_INIT gives exactly when the stream's first byte is not FF (log
entry 7); and within `RdBool` the split leaves both outcomes a range of 1 or more (41_range_decoder.md R125, an inference the
spec marks as its own). -/
def Obligations.RdWindowKept : Prop :=
  (∀ i s t, (∀ c, (s.rd c).valid = true → (s.rd c).Window) → s.err = 0 → exec i s = .next t → t.err = 0 →
      (∀ c, (t.rd c).valid = true → (t.rd c).Window) ∧
        ∀ c, i ≠ .rdInit c → (s.rd c).valid = true → (s.rd c).Below → (t.rd c).Below) ∧
    (∀ s c t, s.err = 0 → exec (.rdInit c) s = .next t → t.err = 0 → (s.rd c).ptr.toNat < (s.rd c).stop.toNat →
      ((t.rd c).Below ↔ memByte s.mem (s.rd c).ptr.toNat ≠ 255#8)) ∧
    ∀ (x : RdCtx) p, x.Window → 1 ≤ rdSplit x.range p ∧ rdSplit x.range p ≤ x.range.toNat - 1

/-! ### Commands: bit reader -/

/-- BR_PEEK (42_bit_reader.md R137, R138, R141): RESULT is the next n bits of the stream, 0 past its end; no bit is consumed
and only the bytes needed are loaded. -/
def Obligations.BrPeek : Prop :=
  ∀ s n, BrReady s → n < 32 →
    ∃ b, exec (.brPeek n) s =
        .next (finished { s with br := b, result := BitVec.ofNat 32 (stream s.mem s.br % 2 ^ n) }) ∧
      Consumed s.mem s.br b n 0

/-- BR_SKIP (R139, R142): n bits are consumed if the stream has them, else `InvalidData`. -/
def Obligations.BrSkip : Prop :=
  ∀ s n, BrReady s → n < 32 →
    (n ≤ avail s.br → ∃ b, exec (.brSkip n) s = .next (finished { s with br := b }) ∧ Consumed s.mem s.br b n n) ∧
      (avail s.br < n → ∃ t, exec (.brSkip n) s = .next t ∧ t.err = 2 ∧ t.errOp = 0x11#8 ∧ t.result = s.result)

/-- BR_READ (R143; R140, an inference the spec marks as its own): RESULT is the next n bits, first bit least significant, and they are consumed; if the stream has
fewer, `InvalidData`. -/
def Obligations.BrRead : Prop :=
  ∀ s n, BrReady s → n < 32 →
    (n ≤ avail s.br →
        ∃ b, exec (.brRead n) s =
            .next (finished { s with br := b, result := BitVec.ofNat 32 (stream s.mem s.br % 2 ^ n) }) ∧
          Consumed s.mem s.br b n n) ∧
      (avail s.br < n → ∃ t, exec (.brRead n) s = .next t ∧ t.err = 2 ∧ t.errOp = 0x12#8 ∧ t.result = s.result)

/-- Between commands that succeed the accumulator is as 10_state.md R37 says, an inference the spec marks as its own: at most
64 bits are held, and the accumulator is below 2 to their number. -/
def Obligations.BrAccKept : Prop :=
  ∀ i s t, i.WellFormed = true → s.br.AccOk → s.err = 0 → exec i s = .next t → t.err = 0 → t.br.AccOk

/-! ### Commands: transforms -/

/-- XF_IDCT_ADD (43_inverse_transforms.md R150, R152, R153; 20_memory.md R73): every pixel of the block becomes itself plus
the residual of its place, saturated, in raster order; the residuals come from the coefficients as they were; every
other byte is kept. For every stride. -/
def Obligations.XfIdctAdd : Prop :=
  ∀ s, ArgsOk s .xfIdctAdd → Memory.wf s.mem →
    ∃ m, exec .xfIdctAdd s = .next (finished { s with mem := m }) ∧
      ∀ a, memByte m a = addedByte s (idct s.params.xfWrap16 (coef s)) a

/-- XF_IDCT (R152, R154): the 16 residuals as halfwords in raster order at XF_OUT_ADDR; every other byte is kept. -/
def Obligations.XfIdct : Prop :=
  ∀ s, ArgsOk s .xfIdct → Memory.wf s.mem →
    ∃ m, exec .xfIdct s = .next (finished { s with mem := m }) ∧
      ∀ a, memByte m a =
        storedByte s.mem (fun i => s.xf.outAddr.toNat + 2 * i) (idct s.params.xfWrap16 (coef s)) a

/-- XF_IWHT (R155, R156): the 16 outputs as halfwords, XF_OUT_STRIDE apart, in order, for every stride; every other byte is
kept. -/
def Obligations.XfIwht : Prop :=
  ∀ s, ArgsOk s .xfIwht → Memory.wf s.mem →
    ∃ m, exec .xfIwht s = .next (finished { s with mem := m }) ∧
      ∀ a, memByte m a =
        storedByte s.mem (fun i => s.xf.outAddr.toNat + i * s.xf.outStride.toNat)
          (iwht s.params.xfWrap16 (coef s)) a

/-- R157, an inference the spec marks as its own: with c[i] = 0 for every i ≠ 0, `IdctCore` gives (c[0] + 4) >> 3 and
`IwhtCore` (c[0] + 3) >> 3 everywhere; an all-zero block gives all-zero outputs, so XF_IDCT_ADD leaves the prediction
unchanged. -/
def Obligations.XfDcOnly : Prop :=
  (∀ wrap c0, -32768 ≤ c0 → c0 ≤ 32767 →
      idctCore wrap (c0 :: List.replicate 15 0) = List.replicate 16 ((c0 + 4) / 8) ∧
        iwhtCore wrap (c0 :: List.replicate 15 0) = List.replicate 16 ((c0 + 3) / 8)) ∧
    ∀ s, ArgsOk s .xfIdctAdd → Memory.wf s.mem → (∀ i < 16, coef s i = 0) → exec .xfIdctAdd s = .next (finished s)

/-- The two settings of `XF_WRAP16` store the same when every coefficient lies in -2048 .. 2047 (an inference
of R158 that the spec marks as its own). -/
def Obligations.XfWrapAgrees : Prop :=
  ∀ c : List Int, c.length = 16 → (∀ v ∈ c, -2048 ≤ v ∧ v ≤ 2047) →
    idctCore true c = idctCore false c ∧ iwhtCore true c = iwhtCore false c

/-! ### Commands: colour conversion -/

/-- CV_CONVERT (44_color_convert.md R170 to R174; 20_memory.md R74): the pixels in raster order, each one's samples read
before its four bytes R, G, B, 255 are written. For every layout, overlapping ones too. -/
def Obligations.CvRaster : Prop :=
  ∀ s, ArgsOk s .cvConvert →
    exec .cvConvert s = .next (finished { s with
      mem := (raster s.cv.width.toNat s.cv.height.toNat).foldl
        (fun m q => (List.range 4).foldl
          (fun m' k => memStore m' (dstAt s.cv q.1 q.2 + k) (rgba s.cv m q.1 q.2 k)) m) s.mem })

/-- CV_CONVERT with its output apart from its samples and its rows apart (R170 to R174): every output pixel holds the
conversion of the samples as they were before the command, with alpha 255; every other byte is kept. -/
def Obligations.CvPixels : Prop :=
  ∀ s, ArgsOk s .cvConvert → Memory.wf s.mem → CvApart s →
    ∃ m, exec .cvConvert s = .next (finished { s with mem := m }) ∧
      (∀ y < s.cv.height.toNat, ∀ x < s.cv.width.toNat, ∀ k < 4,
        memByte m (dstAt s.cv x y + k) = rgba s.cv s.mem x y k) ∧
      ∀ a, ¬ StoresTo s a .cvConvert → memByte m a = memByte s.mem a

/-! ### Commands: Huffman -/

/-- HF_BUILD (45_huffman.md R186, R190, R193): a valid list fills the slot; any other list raises `InvalidData` and leaves it
EMPTY; no other slot changes. -/
def Obligations.HfBuild : Prop :=
  ∀ s t, ArgsOk s (.hfBuild t) → Sparse.Canonical none s.slots →
    let l := lensAt s.mem s.hf.lenAddr.toNat s.hf.alpha.toNat
    ∃ u, (∀ k, k ≠ t → Sparse.get none u k = s.slot k) ∧
      (ValidLens l → exec (.hfBuild t) s = .next (finished { s with slots := u }) ∧ Sparse.get none u t = some l) ∧
      (¬ ValidLens l → exec (.hfBuild t) s = .next (raised { s with slots := u } 2#4 0x40#8) ∧
        Sparse.get none u t = none)

/-- HF_FREE (R195): the slot becomes EMPTY, also when it is EMPTY already; no other slot changes. -/
def Obligations.HfFree : Prop :=
  ∀ s t, t < 1280 → Sparse.Canonical none s.slots →
    ∃ u, exec (.hfFree t) s = .next (finished { s with slots := u }) ∧ Sparse.get none u t = none ∧
      ∀ k, k ≠ t → Sparse.get none u k = s.slot k

/-- The code assignment (45_huffman.md R188): codes of one length are consecutive in symbol order, codes of length n precede,
as n-bit prefixes, all longer codes, and in a valid code every code fits its length. -/
def Obligations.CanonicalCodes : Prop :=
  ∀ l : HCode,
    (∀ y z, y < z → z < l.length → l.getD y 0 = l.getD z 0 → (∀ x, y < x → x < z → l.getD x 0 ≠ l.getD y 0) →
        codeOf l z = codeOf l y + 1) ∧
      (∀ y z, 0 < l.getD y 0 → l.getD y 0 < l.getD z 0 →
        (codeOf l y + 1) * 2 ^ (l.getD z 0 - l.getD y 0) ≤ codeOf l z) ∧
      (ValidLens l → ManySymbols l → ∀ y, 0 < l.getD y 0 → codeOf l y < 2 ^ l.getD y 0)

/-- HF_DECODE with two or more symbols (R191, R192, R194): when the next bits are the code of a symbol, first bit most
significant, RESULT is the symbol and its code is consumed; when the stream ends inside that code, `InvalidData`. -/
def Obligations.HfDecode : Prop :=
  ∀ s t l y, BrReady s → t < 1280 → s.slot t = some l → CodeOk l → ManySymbols l → 0 < l.getD y 0 →
    CodeAhead l y (l.getD y 0) (stream s.mem s.br) →
    (l.getD y 0 ≤ avail s.br →
        ∃ b, exec (.hfDecode t) s = .next (finished { s with br := b, result := BitVec.ofNat 32 y }) ∧
          Consumed s.mem s.br b 15 (l.getD y 0)) ∧
      (avail s.br < l.getD y 0 →
        ∃ u, exec (.hfDecode t) s = .next u ∧ u.err = 2 ∧ u.errOp = 0x41#8 ∧ u.result = s.result)

/-- HF_DECODE with a single-symbol code (R190 (3), R192): the symbol, and the bit reader untouched. -/
def Obligations.HfDecodeSingle : Prop :=
  ∀ s t l y, s.br.stop.toNat ≤ s.params.dmemSize → t < 1280 → s.slot t = some l → OnlySymbol l y →
    exec (.hfDecode t) s = .next (finished { s with result := BitVec.ofNat 32 y })

/-- A complete code matches within 15 bits (R192): with 15 bits left HF_DECODE of any valid slot succeeds, with a symbol of
the alphabet whose code the stream holds. -/
def Obligations.HfDecodeTotal : Prop :=
  ∀ s t l, BrReady s → t < 1280 → s.slot t = some l → CodeOk l → 15 ≤ avail s.br →
    ∃ u y, exec (.hfDecode t) s = .next u ∧ u.err = s.err ∧ u.result = BitVec.ofNat 32 y ∧ y < l.length ∧
      0 < l.getD y 0 ∧ (ManySymbols l → CodeAhead l y (l.getD y 0) (stream s.mem s.br))

/-- HF_READ_LENGTHS on a simple list (R197, R199), one or two symbols, the first of 1 or 8 bits: each listed symbol gets
length 1, every other 0, the list's bits are consumed; a symbol outside the alphabet, and a stream that ends inside the
list, raise `InvalidData`. That SCRATCH_CL keeps its content is the model's choice (log entry 13; 10_state.md R46 leaves it
open). -/
def Obligations.HfReadSimple : Prop :=
  ∀ s, ArgsOk s .hfReadLengths → BrReady s → Memory.wf s.mem →
    let v := stream s.mem s.br
    let two := v / 2 % 2 = 1
    let n0 := if v / 4 % 2 = 1 then 8 else 1
    let s0 := v / 8 % 2 ^ n0
    let s1 := v / 2 ^ (3 + n0) % 256
    let n := 3 + n0 + if two then 8 else 0
    v % 2 = 1 →
      (n ≤ avail s.br → s0 < s.hf.alpha.toNat → (two → s1 < s.hf.alpha.toNat) →
        ∃ m b, exec .hfReadLengths s = .next (finished { s with mem := m, br := b }) ∧
          (∀ k < s.hf.alpha.toNat,
            memByte m (s.hf.lenAddr.toNat + k) = if k = s0 ∨ (two ∧ k = s1) then 1#8 else 0#8) ∧
          (∀ a, ¬ StoresTo s a .hfReadLengths → memByte m a = memByte s.mem a) ∧ Consumed s.mem s.br b n n) ∧
      (avail s.br < n ∨ s.hf.alpha.toNat ≤ s0 ∨ (two ∧ s.hf.alpha.toNat ≤ s1) →
        ∃ t, exec .hfReadLengths s = .next t ∧ t.err = 2 ∧ t.errOp = 0x42#8 ∧ t.result = s.result)

/-- HF_READ_LENGTHS on any normal list (R196, R198, R199), `normalAt` being R198 over the stream as a number: with or without
a limit, with literal lengths and the repeat codes 16, 17, 18, the array gets the lengths and the list's bits are
consumed; an invalid code-length code, a limit above the alphabet, a repeat past its end, and the end of the stream
raise `InvalidData`. What SCRATCH_CL holds afterwards is the model's choice (log entry 13). -/
def Obligations.HfReadNormal : Prop :=
  ∀ s, ArgsOk s .hfReadLengths → BrReady s → Memory.wf s.mem → stream s.mem s.br % 2 = 0 →
    match (bitsAt (srcOf s) 1 ⟨0, 0⟩).bind fun (_, q) => normalAt (srcOf s) s.hf.alpha.toNat q with
    | some (l, cl, q) =>
      ∃ m b, exec .hfReadLengths s = .next (finished { s with mem := m, br := b, scratchCl := some cl }) ∧
        (∀ k < s.hf.alpha.toNat, memByte m (s.hf.lenAddr.toNat + k) = BitVec.ofNat 8 (l.getD k 0)) ∧
        (∀ a, ¬ StoresTo s a .hfReadLengths → memByte m a = memByte s.mem a) ∧ Consumed s.mem s.br b q.reach q.pos
    | none => ∃ t, exec .hfReadLengths s = .next t ∧ t.err = 2 ∧ t.errOp = 0x42#8 ∧ t.result = s.result

/-- Every length HF_READ_LENGTHS writes is a code length, at most 15, whatever the list (R196 to R199). -/
def Obligations.HfReadLengthsRange : Prop :=
  ∀ s t, Memory.wf s.mem → s.err = 0 → exec .hfReadLengths s = .next t → t.err = 0 →
    ∀ k < s.hf.alpha.toNat, (memByte t.mem (s.hf.lenAddr.toNat + k)).toNat ≤ 15

/-! ### Commands: pixels -/

/-- PX_DECODE of an image whose groups hold single-symbol literals (46_lz77_pixel.md R215, R216, R218, R223, R226), with or
without a huffman image: every pixel is the ARGB word of its group's symbols, the bit reader is untouched, PX_POS and
RESULT are W·H, every other byte is kept. The source's 1×1 example (95_test_vectors.md E1) is a case. -/
def Obligations.PxSolid : Prop :=
  ∀ s col, ArgsOk s .pxDecode → Memory.wf s.mem → Solid s col →
    let n := s.px.width.toNat * s.px.height.toNat
    ∃ m cache, exec .pxDecode s = .next (finished { s with
        mem := m, cache := cache, px := { s.px with pos := BitVec.ofNat 32 n }, result := BitVec.ofNat 32 n }) ∧
      (∀ pos < n,
        let g := groupAt s pos
        (memWord m (s.px.dstAddr.toNat + 4 * pos)).toNat =
          2 ^ 24 * col g 3 + 2 ^ 16 * col g 1 + 2 ^ 8 * col g 0 + col g 2) ∧
      ∀ a, ¬ StoresTo s a .pxDecode → memByte m a = memByte s.mem a

/-- PX_DECODE where its output lies apart from what it reads (46_lz77_pixel.md R215 to R226), `imageOf` being the decode loop
over the stream as a number and over the list of the pixels emitted: literals of any codes, copies with the lengths and
distances of R220 and R221, cache pixels, groups from the huffman image. The output holds the pixels, the cache the last
pixel of each hash, the bits are consumed, PX_POS and RESULT are W·H, every other byte is kept. For every layout: in a
backward copy (R224) each of the n pixels emitted equals the pixel `dist` before it in the memory after the copy, so a copy
longer than its distance repeats what it has itself written; the pixels before are kept. -/
def Obligations.PxPixels : Prop :=
  (∀ s pix q, PxReady s → imageOf s = .ok (pix, q) →
    let n := s.px.width.toNat * s.px.height.toNat
    ∃ m cache b, exec .pxDecode s = .next (finished { s with
        mem := m, cache := cache, br := b, px := { s.px with pos := BitVec.ofNat 32 n }, result := BitVec.ofNat 32 n }) ∧
      pix.length = n ∧ (∀ pos < n, memWord m (s.px.dstAddr.toNat + 4 * pos) = pix.getD pos 0) ∧
      (∀ a, ¬ StoresTo s a .pxDecode → memByte m a = memByte s.mem a) ∧
      (∀ i, cacheEntry cache i =
        if s.px.ccBits ≠ 0 ∧ i < 2 ^ s.px.ccBits.toNat then cachedAt s.px.ccBits.toNat pix i else cacheEntry s.cache i) ∧
      Consumed s.mem s.br b q.reach q.pos) ∧
    ∀ v dist n r, 1 ≤ dist → dist ≤ r.pos → Memory.wf r.mem →
      let r' := pxCopy v dist n r
      r'.pos = r.pos + n ∧
        (∀ j < n, memWord r'.mem (v.dstAddr.toNat + 4 * (r.pos + j)) =
          memWord r'.mem (v.dstAddr.toNat + 4 * (r.pos + j - dist))) ∧
        ∀ a, (a < v.dstAddr.toNat + 4 * r.pos ∨ v.dstAddr.toNat + 4 * (r.pos + n) ≤ a) →
          memByte r'.mem a = memByte r.mem a

/-- Prefix-coded values (R220): a code below 4 is its value; a code from 4 on reads its extra bits, and length codes 0 to 23
give 1 to 4096, distance codes 0 to 39 give 1 to 1048576. The distance of a value (R221): 120 less above 120; else from
DIST_TABLE, here copied again from the rule, and never below 1. -/
def Obligations.PxPrefix : Prop :=
  (∀ w d, 1 ≤ d → pxPlane w d = planeOf w d ∧ 1 ≤ pxPlane w d) ∧
    ∀ m b c, b.AccOk → c < 40 → c / 2 - 1 ≤ avail b →
      ∃ x b', pxPrefix m c b = .ok (x, b') ∧
        (c < 4 → x = c + 1 ∧ b' = b) ∧
        (4 ≤ c → x = (2 + c % 2) * 2 ^ (c / 2 - 1) + stream m b % 2 ^ (c / 2 - 1) + 1 ∧
          Consumed m b b' (c / 2 - 1) (c / 2 - 1)) ∧
        1 ≤ x ∧ (c < 24 → x ≤ 4096) ∧ x ≤ 1048576

/-- The colour cache (R219, R222, R225): an emitted pixel is stored at its hash, below 2^b, and nowhere else; without a cache
nothing is stored. -/
def Obligations.PxCache : Prop :=
  ∀ v p r, Sparse.Canonical 0#32 r.cache →
    (v.ccBits = 0 → (pxEmit v p r).cache = r.cache) ∧
      (v.ccBits ≠ 0 → v.ccBits.toNat ≤ 11 →
        let h := p.toNat * 0x1E35A7BD % 2 ^ 32 / 2 ^ (32 - v.ccBits.toNat)
        h < 2 ^ v.ccBits.toNat ∧
          ∀ i, cacheEntry (pxEmit v p r).cache i = if i = h then p else cacheEntry r.cache i)

/-- What PX_DECODE refuses (R218, R223 to R227), where its output lies apart from what it reads: `Unsupported` when the word
of a pixel's block in the huffman image has red not 0; `InvalidData` for a group that is not there, a channel above 255,
a distance symbol of 40 or more, a copy from before the image or past its end, a cache index without a cache or past its
end, and the end of the stream, at whatever pixel `imageOf` meets them. For every layout: a copy at the first pixel, and
a cache index without a cache. -/
def Obligations.PxRefuses : Prop :=
  (∀ s e, PxReady s → imageOf s = .error e →
    ∃ t, exec .pxDecode s = .next t ∧ t.err = e ∧ t.errOp = 0x50#8 ∧ t.result = s.result) ∧
    ∀ s y, ArgsOk s .pxDecode → s.px.hen = false → SingleIn s s.px.groupBase.toNat y →
      (256 ≤ y ∧ y < 280) ∨ (280 ≤ y ∧ s.px.ccBits = 0) →
        ∃ t, exec .pxDecode s = .next t ∧ t.err = 2 ∧ t.errOp = 0x50#8 ∧ t.result = s.result

/-! ### Invariants -/

/-- The invariant holds after reset, whatever the parameters and whatever DMEM holds (70_reset_and_hazards.md R272); every
content of DMEM is one that power-on may leave (log entry 2). -/
def Obligations.ResetInv : Prop :=
  (∀ p m, Memory.wf m → (∀ c ∈ m, c.1 < p.dmemSize) →
      (State.resetWith p m).Inv ∧ ∃ free, powerOnMem p.dmemSize 0 free = m) ∧ State.reset.Inv

/-- Every step keeps the invariant: DMEM, cache and slot file stay canonical and within their sizes, so no command writes
outside DMEM (20_memory.md R62); built slots hold valid codes (10_state.md R45); ERR stays a code the block raises
(60_exceptions.md R245); DONE is 0 while BUSY. -/
def Obligations.StepKeepsInv : Prop := ∀ s t, s.Inv → step s = .next t → t.Inv

/-! ### The register window and the host -/

/-- After reset every register reads its reset value, every slot is EMPTY, the cache is 0, nothing is pending, the interrupt
line is deasserted (70_reset_and_hazards.md R271), and the block waits. That a step then keeps the state is the model's
choice: the host has no turn yet (log entry 3). Whatever DMEM holds (R272). -/
def Obligations.ResetState : Prop :=
  ∀ p m, let s := State.resetWith p m
    (∀ r, readReg s r = resetValue p r) ∧ (∀ t, s.slot t = none) ∧ (∀ i, cacheEntry s.cache i = 0) ∧
      s.scratchCl = none ∧ s.pending = none ∧ s.irq = false ∧ step s = .next s

/-- SOFT_RESET through CTRL (40_control.md R110; 70_reset_and_hazards.md R270 to R273), also with CLEAR_ERR set beside it
(10_state.md R24) and also while BUSY: every register and store takes its reset value; DMEM keeps every byte but those
of the command abandoned (log entry 9 says which those are). -/
def Obligations.SoftReset : Prop :=
  ∀ s v ts, s.host = .writeReg 0x004#12 .word v :: ts → v.toNat % 2 = 1 → Memory.wf s.mem →
    ∃ m, step s = .next { State.resetWith s.params m with host := ts, hostData := s.hostData, drawn := s.drawn + 1 } ∧
      (s.pending = none → m = s.mem) ∧
      ∀ a, (∀ w i, s.pending = some w → decode w = .ok i → ¬ StoresTo s a i) → memByte m a = memByte s.mem a

/-- R111: CLEAR_ERR sets ERR and ERR_OP to 0 and changes nothing else; while ERR = 0 (and so ERR_OP = 0) it has no effect. -/
def Obligations.ClearErr : Prop :=
  ∀ s v ts, s.host = .writeReg 0x004#12 .word v :: ts → v.toNat % 4 = 2 →
    step s = .next { s with host := ts, err := 0, errOp := 0 } ∧ (s.Inv → s.err = 0 → step s = .next { s with host := ts })

/-- R112: a write of STATUS with bit 1 set clears DONE; with bit 1 clear DONE is kept; nothing else changes. -/
def Obligations.DoneWriteOneToClear : Prop :=
  ∀ s v ts, s.host = .writeReg 0x008#12 .word v :: ts →
    step s = .next { s with host := ts, done := if v.toNat / 2 % 2 = 1 then false else s.done }

/-- R253: the interrupt line is (DONE and DONE_IE) or (ERR not 0 and ERR_IE), whatever else the state holds; so a W1C of DONE
or a CMD write takes DONE's part away, CLEAR_ERR takes ERR's, and a reset deasserts it. -/
def Obligations.InterruptLine : Prop :=
  (∀ s : State, s.irq = true ↔ (s.done = true ∧ s.doneIe = true) ∨ (s.err ≠ 0 ∧ s.errIe = true)) ∧
    (∀ (s : State) (w v : Word), (s.writeCmd w).irq = (s.err != 0 && s.errIe) ∧ s.clearErr.irq = (s.done && s.doneIe) ∧
      (v.getLsbD 1 = true → (s.writeStatus v).irq = (s.err != 0 && s.errIe)) ∧ (s.writeIrqEn 0).irq = false ∧
      s.softReset.irq = false)

/-- The register window (10_state.md R22 to R53). Each register stands at its offset of R50, and nowhere else. While idle, a
host write of a read-write register stores the bits it has, in the fields the commands use; it changes no other register
but those its rule clears, and no store; a write of a read-only register changes nothing. A write of IRQ_EN takes effect
also while BUSY. A read gives the fields at their bits, of STATUS also while BUSY; that it then gives the latched ERR and
ERR_OP, also where they are not 0, is the model's choice (log entry 10; R52 takes ERR to be 0 there). An offset that names
no register reads 0 and ignores writes; that it does so while BUSY too is the model's choice (log entry 11). -/
def Obligations.RegisterReadBack : Prop :=
  (∀ off r, regAt off = some r ↔ off = offsetOf r) ∧
    (∀ s r v ts, s.pending = none → s.host = .writeReg (offsetOf r) .word v :: ts →
      (∀ bits, rwBits r = some bits →
        ∃ u, step s = .next u ∧ shownValue u r = (v &&& bits).toNat ∧
          (∀ r', r' ≠ r → r' ∉ alsoCleared r → shownValue u r' = shownValue s r') ∧
          u = { s with host := ts, doneIe := u.doneIe, errIe := u.errIe, rd0 := u.rd0, rd1 := u.rd1,
                       rdTreeAddr := u.rdTreeAddr, rdProbAddr := u.rdProbAddr, xf := u.xf, br := u.br, hf := u.hf,
                       px := u.px, cv := u.cv }) ∧
      (readOnly r = true → step s = .next { s with host := ts })) ∧
    (∀ s v ts, s.host = .writeReg (offsetOf .irqEn) .word v :: ts →
      step s = .next { s with host := ts, doneIe := decide (v.toNat % 2 = 1), errIe := decide (v.toNat / 2 % 2 = 1) }) ∧
    (∀ s r ts, s.host = .readReg (offsetOf r) .word :: ts → s.pending = none ∨ r = .status →
      step s = .next { s with host := ts, hostData := BitVec.ofNat 32 (shownValue s r) }) ∧
    ∀ s off ts, off.toNat % 4 = 0 → (∀ r, off ≠ offsetOf r) →
      (s.host = .readReg off .word :: ts → step s = .next { s with host := ts, hostData := 0 }) ∧
        ∀ v, s.host = .writeReg off .word v :: ts → step s = .next { s with host := ts }

/-- The host's accesses (20_memory.md R64, R69; 10_state.md R31, R36). A read changes nothing but what the host gets (and the
model's count of free values). While idle: a write of RD_PTR(c) or RD_END(c) clears VALID, a write of BR_PTR empties the
accumulator, and nothing else changes; a DMEM write of 1, 2 or 4 bytes stores them lowest byte first and keeps every other
byte, and a DMEM read gets them in the same order, zero-extended (that the host may use any width at any address is the
model's choice: log entry 5). -/
def Obligations.HostAccess : Prop :=
  (∀ s ts u, (∃ off w, s.host = .readReg off w :: ts) ∨ (∃ a w, s.host = .readMem a w :: ts) → step s = .next u →
      u = { s with host := ts, hostData := u.hostData, drawn := u.drawn }) ∧
    ∀ s ts v, s.pending = none →
      (∀ c, s.host = .writeReg (match c with | .c0 => 0x040#12 | .c1 => 0x060#12) .word v :: ts →
          step s = .next (({ s with host := ts } : State).setRd c { s.rd c with ptr := v, valid := false })) ∧
        (∀ c, s.host = .writeReg (match c with | .c0 => 0x044#12 | .c1 => 0x064#12) .word v :: ts →
          step s = .next (({ s with host := ts } : State).setRd c { s.rd c with stop := v, valid := false })) ∧
        (s.host = .writeReg 0x180#12 .word v :: ts →
          step s = .next { s with host := ts, br := { s.br with ptr := v, acc := 0, nbits := 0 } }) ∧
        (s.host = .writeReg 0x184#12 .word v :: ts →
          step s = .next { s with host := ts, br := { s.br with stop := v } }) ∧
        (∀ a w, s.host = .writeMem a w v :: ts → a.toNat + w.bytes ≤ s.params.dmemSize → Memory.wf s.mem →
          ∃ m, step s = .next { s with host := ts, mem := m } ∧
            ∀ b, memByte m b =
              if a.toNat ≤ b ∧ b < a.toNat + w.bytes then v.extractLsb' (8 * (b - a.toNat)) 8 else memByte s.mem b) ∧
        ∀ a w, s.host = .readMem a w :: ts → a.toNat + w.bytes ≤ s.params.dmemSize →
          ∃ d, step s = .next { s with host := ts, hostData := d } ∧
            ∀ k < 4, d.extractLsb' (8 * k) 8 = if k < w.bytes then memByte s.mem (a.toNat + k) else 0#8

/-- A host turn faults exactly when it breaks the protocol (60_exceptions.md R262) or reaches past DMEM (the model's choice,
log entry 5); a step without a host turn never does. Also the model's: that a violation ends the run (log entry 4), and
that a write to an offset that names no register is none while BUSY (log entry 11). -/
def Obligations.HostViolations : Prop :=
  (∀ s t ts, s.host = t :: ts → ((∃ f, step s = .fault f) ↔ Violates s t)) ∧
    (∀ s f, s.host = [] → step s ≠ .fault f) ∧ ∀ s r, step s ≠ .refused r
end

