-- ==== Sys2Proof/Laws/BitReader.lean ====
section
/-! SUPPORT. The bit reader: a fill keeps the stream, a skip divides it, a read takes it modulo; what each raises. -/

namespace Sys2Proof.Machine

open Sys2Proof.Claim

variable {m : Memory}

/-- `b'` is `b` after a fill for `f` bits: the same stream, the bytes needed are taken, and `f` bits are held unless the
stream ended. -/
structure Filled (m : Memory) (b b' : BrRegs) (f : Nat) : Prop where
  bits  : stream m b' = stream m b
  left  : avail b' = avail b
  taken : b'.ptr.toNat = b.ptr.toNat + min ((f - b.nbits.toNat + 7) / 8) (b.stop.toNat - b.ptr.toNat)
  stop  : b'.stop = b.stop
  acc   : b'.AccOk
  held  : f ≤ b'.nbits.toNat ∨ b'.stop.toNat ≤ b'.ptr.toNat

theorem ptr_add_one {x y : Word} (h : x.toNat < y.toNat) : (x + 1).toNat = x.toNat + 1 := by
  have := y.isLt
  rw [BitVec.toNat_add]; simp; omega

/-- One byte goes above the buffered bits. -/
theorem brLoad_spec {b : BrRegs} (ha : b.AccOk) (hn : b.nbits.toNat ≤ 56) (hp : b.ptr.toNat < b.stop.toNat) :
    stream m (brLoad m b) = stream m b ∧ (brLoad m b).AccOk ∧ (brLoad m b).nbits.toNat = b.nbits.toNat + 8 ∧
      (brLoad m b).ptr.toNat = b.ptr.toNat + 1 ∧ (brLoad m b).stop = b.stop := by
  obtain ⟨h1, h2⟩ := ha
  have hb := (memByte m b.ptr.toNat).isLt
  have e1 : (b.nbits + 8).toNat = b.nbits.toNat + 8 := by rw [BitVec.toNat_add]; simp; omega
  have e2 := ptr_add_one hp
  have hlt : (memByte m b.ptr.toNat).toNat * 2 ^ b.nbits.toNat < 2 ^ (b.nbits.toNat + 8) := by
    rw [Nat.pow_add, Nat.mul_comm]
    exact Nat.mul_lt_mul_of_pos_left hb (Nat.two_pow_pos _)
  have hle : 2 ^ (b.nbits.toNat + 8) ≤ 2 ^ 64 := Nat.pow_le_pow_right (by omega) (by omega)
  have e3 : (brLoad m b).acc.toNat = b.acc.toNat + 2 ^ b.nbits.toNat * (memByte m b.ptr.toNat).toNat := by
    simp only [brLoad, BitVec.toNat_or, BitVec.toNat_shiftLeft, BitVec.toNat_setWidth, Nat.shiftLeft_eq]
    rw [Nat.mod_eq_of_lt (by omega : (memByte m b.ptr.toNat).toNat < 2 ^ 64),
      Nat.mod_eq_of_lt (Nat.lt_of_lt_of_le hlt hle), Nat.or_comm, Nat.mul_comm, ← Nat.two_pow_add_eq_or_of_lt h2,
      Nat.add_comm]
  refine ⟨?_, ⟨?_, ?_⟩, e1, e2, rfl⟩
  · unfold stream
    rw [e3]
    simp only [brLoad, e1, e2]
    rw [show b.stop.toNat - b.ptr.toNat = b.stop.toNat - (b.ptr.toNat + 1) + 1 by omega, bytesNat, Nat.mul_add, Nat.add_assoc,
      Nat.pow_add, Nat.mul_assoc]
  · simp only [brLoad, e1]; omega
  · rw [e3]
    simp only [brLoad, e1]
    have h3 : 2 ^ b.nbits.toNat * ((memByte m b.ptr.toNat).toNat + 1) ≤ 2 ^ b.nbits.toNat * 2 ^ 8 := Nat.mul_le_mul_left _ hb
    rw [Nat.mul_add, Nat.mul_one, ← Nat.pow_add] at h3
    omega

/-- A fill with enough turns. -/
theorem brFillLoop_spec {n : Nat} (hn : n ≤ 57) : ∀ {k : Nat} {b : BrRegs}, b.AccOk → n ≤ b.nbits.toNat + 8 * k →
    Filled m b (brFillLoop m n k b) n := by
  intro k
  induction k with
  | zero =>
    intro b ha hk
    exact ⟨rfl, rfl, by simp only [brFillLoop]; omega, rfl, ha, .inl (by simp only [brFillLoop]; omega)⟩
  | succ k ih =>
    intro b ha hk
    simp only [brFillLoop]
    split
    · rename_i h
      obtain ⟨g1, g2, g3, g4, g5⟩ := brLoad_spec (m := m) ha (by omega) h.2
      have f := ih g2 (by omega)
      refine ⟨f.bits.trans g1, f.left.trans ?_, ?_, f.stop.trans g5, f.acc, f.held⟩
      · unfold avail; rw [g3, g4, g5]; omega
      · rw [f.taken, g3, g4, g5]; omega
    · rename_i h
      refine ⟨rfl, rfl, ?_, rfl, ha, ?_⟩ <;> omega

/-- `BrFill(n)` for n of 31 or less. -/
theorem brFill_spec {n : Nat} {b : BrRegs} (hn : n < 32) (ha : b.AccOk) : Filled m b (brFill m n b) n :=
  brFillLoop_spec (by omega) ha (by omega)

theorem bytesNat_zero (m : Memory) (a : Nat) : bytesNat m a 0 = 0 := rfl

/-- The bits held after a fill, zeros past the end, are the next bits of the stream. -/
theorem Filled.low {b b' : BrRegs} {f n : Nat} (h : Filled m b b' f) (hn : n ≤ f) :
    b'.acc.toNat % 2 ^ n = stream m b % 2 ^ n := by
  rw [← h.bits]
  unfold stream
  rcases h.held with hh | hh
  · rw [show b'.nbits.toNat = n + (b'.nbits.toNat - n) by omega, Nat.pow_add, Nat.mul_assoc, Nat.add_mul_mod_self_left]
  · rw [show b'.stop.toNat - b'.ptr.toNat = 0 by omega, bytesNat_zero, Nat.mul_zero, Nat.add_zero]

/-- The bits held after a fill are enough exactly when the stream has them. -/
theorem Filled.enough {b b' : BrRegs} {f n : Nat} (h : Filled m b b' f) (hn : n ≤ f) :
    n ≤ b'.nbits.toNat ↔ n ≤ avail b := by
  rw [← h.left]
  unfold avail
  rcases h.held with hh | hh <;> omega

/-- Filled once for `f` bits, a fill for fewer changes nothing. -/
theorem Filled.again {b b' : BrRegs} {f n : Nat} (h : Filled m b b' f) (hn : n ≤ f) : brFill m n b' = b' := by
  have : ¬ (b'.nbits.toNat < n ∧ b'.ptr.toNat < b'.stop.toNat) := by
    rcases h.held with hh | hh <;> omega
  simp only [brFill, brFillLoop, if_neg this]

/-- Dropping the low bits of a filled reader consumes them. -/
theorem Filled.consume {b b' : BrRegs} {f n : Nat} (h : Filled m b b' f) (hn : n ≤ b'.nbits.toNat) :
    Consumed m b { b' with acc := b'.acc >>> n, nbits := BitVec.ofNat 7 (b'.nbits.toNat - n) } f n := by
  have h64 := h.acc.1
  have e1 : (BitVec.ofNat 7 (b'.nbits.toNat - n)).toNat = b'.nbits.toNat - n := by simp; omega
  have hp : 2 ^ b'.nbits.toNat = 2 ^ n * 2 ^ (b'.nbits.toNat - n) := by
    rw [← Nat.pow_add, show n + (b'.nbits.toNat - n) = b'.nbits.toNat by omega]
  refine ⟨?_, ?_, h.taken, h.stop, ⟨by simp only [e1]; omega, ?_⟩⟩
  · rw [← h.bits]
    unfold stream
    simp only [e1, BitVec.toNat_ushiftRight, Nat.shiftRight_eq_div_pow]
    rw [hp, Nat.mul_assoc, Nat.add_mul_div_left _ _ (Nat.two_pow_pos n)]
  · rw [← h.left]
    unfold avail
    simp only [e1]
    omega
  · simp only [e1, BitVec.toNat_ushiftRight, Nat.shiftRight_eq_div_pow]
    rw [Nat.div_lt_iff_lt_mul (Nat.two_pow_pos n), Nat.mul_comm, ← hp]
    exact h.acc.2

theorem Filled.consume_zero {b b' : BrRegs} {f : Nat} (h : Filled m b b' f) : Consumed m b b' f 0 :=
  ⟨by rw [h.bits]; simp, by rw [h.left]; rfl, h.taken, h.stop, h.acc⟩

/-- `BrSkip(n)` (R139). -/
theorem brSkip_ok {n : Nat} {b : BrRegs} (hn : n < 32) (ha : b.AccOk) (h : n ≤ avail b) :
    ∃ b', brSkip m n b = .ok b' ∧ Consumed m b b' n n := by
  have f := brFill_spec (m := m) hn ha
  have he := (f.enough (Nat.le_refl n)).2 h
  refine ⟨_, ?_, f.consume he⟩
  simp only [brSkip]
  rw [if_neg (by omega)]

theorem brSkip_error {n : Nat} {b : BrRegs} (hn : n < 32) (ha : b.AccOk) (h : avail b < n) :
    brSkip m n b = .error .invalidData := by
  have f := brFill_spec (m := m) hn ha
  have he := f.enough (Nat.le_refl n)
  simp only [brSkip]
  rw [if_pos (by omega)]

/-- `BrRead(n)` (R140). -/
theorem brRead_eq (n : Nat) (b : BrRegs) : brRead m n b =
    match brSkip m n (brFill m n b) with
    | .error e => .error e
    | .ok c => .ok ((brFill m n b).acc.toNat % 2 ^ n, c) := rfl

theorem brRead_ok {n : Nat} {b : BrRegs} (hn : n < 32) (ha : b.AccOk) (h : n ≤ avail b) :
    ∃ b', brRead m n b = .ok (stream m b % 2 ^ n, b') ∧ Consumed m b b' n n := by
  have f := brFill_spec (m := m) hn ha
  have he := (f.enough (Nat.le_refl n)).2 h
  refine ⟨_, ?_, f.consume he⟩
  rw [brRead_eq, brSkip, f.again (Nat.le_refl n), f.low (Nat.le_refl n)]
  rw [if_neg (by omega)]

theorem brRead_error {n : Nat} {b : BrRegs} (hn : n < 32) (ha : b.AccOk) (h : avail b < n) :
    brRead m n b = .error .invalidData := by
  have f := brFill_spec (m := m) hn ha
  have he := f.enough (Nat.le_refl n)
  rw [brRead_eq, brSkip, f.again (Nat.le_refl n)]
  rw [if_pos (by omega)]

/-- Consuming `n` bits and then `k` is consuming `n + k`. -/
theorem consumed_trans {b b' b'' : BrRegs} {n k : Nat} (h : Consumed m b b' n n) (g : Consumed m b' b'' k k)
    (hn : n + k ≤ avail b) : Consumed m b b'' (n + k) (n + k) := by
  have h1 := h.left
  have h2 := g.left
  have h3 := h.taken
  have h4 := g.taken
  refine ⟨by rw [g.bits, h.bits, Nat.div_div_eq_div_mul, Nat.pow_add], by omega, ?_, g.stop.trans h.stop, g.acc⟩
  unfold avail at *
  rw [g.stop, h.stop] at *
  omega

theorem consumed_zero {b : BrRegs} (h : b.AccOk) : Consumed m b b 0 0 := ⟨by simp, rfl, by omega, rfl, h⟩

/-! ### What every read keeps, and what it raises, for any reader -/

theorem brFillLoop_stop (n : Nat) : ∀ (k : Nat) (b : BrRegs), (brFillLoop m n k b).stop = b.stop := by
  intro k
  induction k with
  | zero => intro b; rfl
  | succ k ih =>
    intro b
    simp only [brFillLoop]
    split
    · rw [ih]; rfl
    · rfl

theorem brFill_stop (n : Nat) (b : BrRegs) : (brFill m n b).stop = b.stop := brFillLoop_stop n 4 b

theorem brSkip_stop {n : Nat} {b b' : BrRegs} (h : brSkip m n b = .ok b') : b'.stop = b.stop := by
  simp only [brSkip] at h
  split at h <;> cases h
  exact brFill_stop n b

theorem brSkip_raises {n : Nat} {b : BrRegs} {e : ErrKind} (h : brSkip m n b = .error e) : e = .invalidData := by
  simp only [brSkip] at h
  split at h <;> cases h
  rfl

theorem brRead_stop {n v : Nat} {b b' : BrRegs} (h : brRead m n b = .ok (v, b')) : b'.stop = b.stop := by
  rw [brRead_eq] at h
  split at h <;> cases h
  rw [brSkip_stop ‹_›, brFill_stop]

theorem brRead_raises {n : Nat} {b : BrRegs} {e : ErrKind} (h : brRead m n b = .error e) : e = .invalidData := by
  rw [brRead_eq] at h
  split at h <;> cases h
  exact brSkip_raises ‹_›

/-- A successful skip or read of fewer than 32 bits keeps the accumulator as R37 says. -/
theorem brSkip_acc {n : Nat} {b b' : BrRegs} (hn : n < 32) (ha : b.AccOk) (h : brSkip m n b = .ok b') : b'.AccOk := by
  by_cases hc : n ≤ avail b
  · obtain ⟨c, h1, h2⟩ := brSkip_ok (m := m) hn ha hc
    rw [h1] at h; cases h; exact h2.acc
  · rw [brSkip_error hn ha (by omega)] at h; cases h

theorem brRead_acc {n v : Nat} {b b' : BrRegs} (hn : n < 32) (ha : b.AccOk) (h : brRead m n b = .ok (v, b')) :
    b'.AccOk := by
  by_cases hc : n ≤ avail b
  · obtain ⟨c, h1, h2⟩ := brRead_ok (m := m) hn ha hc
    rw [h1] at h; cases h; exact h2.acc
  · rw [brRead_error hn ha (by omega)] at h; cases h

end Sys2Proof.Machine
end

