-- ==== Sys2Proof/Laws/Sparse.lean ====
section
/-! SUPPORT. Sparse data: read after write, writes leave other indexes alone, every operation keeps the canonical form
and the range of indexes. -/

namespace Sys2Proof.Machine

variable {β : Type} {d : β} {m : Sparse β}

@[simp] theorem Sparse.get_nil (d : β) (k : Nat) : Sparse.get d [] k = d := rfl

/-- An index below every listed one is unlisted. -/
theorem Sparse.get_below {m : Sparse β} {k : Nat} (h : ∀ c ∈ m, k < c.1) : Sparse.get d m k = d := by
  induction m with
  | nil => rfl
  | cons e m ih =>
    obtain ⟨a, b⟩ := e
    have ha : k < a := h (a, b) (by simp)
    simp only [Sparse.get]
    rw [if_neg (by omega)]
    exact ih fun c hc => h c (by simp [hc])

theorem Sparse.get_insert (d : β) (m : Sparse β) (k : Nat) (v : β) (j : Nat) :
    Sparse.get d (Sparse.insert m k v) j = if j = k then v else Sparse.get d m j := by
  induction m with
  | nil =>
    by_cases h : j = k
    · simp [Sparse.insert, Sparse.get, h]
    · simp [Sparse.insert, Sparse.get, h, Ne.symm h]
  | cons e m ih =>
    obtain ⟨a, b⟩ := e
    by_cases h1 : k < a
    · by_cases h : j = k
      · subst h; simp [Sparse.insert, Sparse.get, h1]
      · simp [Sparse.insert, Sparse.get, h1, h, Ne.symm h]
    · by_cases h2 : a = k
      · subst h2
        by_cases h : j = a
        · subst h; simp [Sparse.insert, Sparse.get]
        · simp [Sparse.insert, Sparse.get, h, Ne.symm h]
      · by_cases h : j = k
        · subst h; simp [Sparse.insert, Sparse.get, h1, h2, ih]
        · simp [Sparse.insert, Sparse.get, h1, h2, ih, h]

theorem Sparse.get_erase {m : Sparse β} (hm : m.Pairwise (fun x y => x.1 < y.1)) (k j : Nat) :
    Sparse.get d (Sparse.erase m k) j = if j = k then d else Sparse.get d m j := by
  induction m with
  | nil => simp [Sparse.erase]
  | cons e m ih =>
    obtain ⟨a, b⟩ := e
    rw [List.pairwise_cons] at hm
    by_cases h1 : k < a
    · simp only [Sparse.erase, if_pos h1]
      by_cases h : j = k
      · subst h
        rw [if_pos rfl]
        refine Sparse.get_below fun c hc => ?_
        rcases List.mem_cons.mp hc with rfl | hc
        · exact h1
        · exact Nat.lt_trans h1 (hm.1 c hc)
      · rw [if_neg h]
    · by_cases h2 : a = k
      · subst h2
        simp only [Sparse.erase, if_neg h1, if_true]
        by_cases h : j = a
        · subst h; rw [if_pos rfl]; exact Sparse.get_below hm.1
        · simp [Sparse.get, h, Ne.symm h]
      · simp only [Sparse.erase, if_neg h1, if_neg h2, Sparse.get, ih hm.2]
        by_cases h : a = j
        · subst h; simp [h2]
        · simp [h]

/-- Read after write, for a list in canonical form. -/
theorem Sparse.get_set [DecidableEq β] (hm : Sparse.Canonical d m) (k : Nat) (v : β) (j : Nat) :
    Sparse.get d (Sparse.set d m k v) j = if j = k then v else Sparse.get d m j := by
  unfold Sparse.set
  split
  · next h => rw [Sparse.get_erase hm.1, h]
  · exact Sparse.get_insert d m k v j

theorem Sparse.mem_erase {m : Sparse β} {k : Nat} {c : Nat × β} (h : c ∈ Sparse.erase m k) : c ∈ m := by
  induction m with
  | nil => simp [Sparse.erase] at h
  | cons e m ih =>
    obtain ⟨a, b⟩ := e
    simp only [Sparse.erase] at h
    split at h
    · exact h
    · split at h
      · exact List.mem_cons_of_mem _ h
      · rcases List.mem_cons.mp h with rfl | h
        · exact List.mem_cons_self ..
        · exact List.mem_cons_of_mem _ (ih h)

theorem Sparse.mem_insert {m : Sparse β} {k : Nat} {v : β} {c : Nat × β} (h : c ∈ Sparse.insert m k v) :
    c = (k, v) ∨ c ∈ m := by
  induction m with
  | nil => simpa [Sparse.insert] using h
  | cons e m ih =>
    obtain ⟨a, b⟩ := e
    simp only [Sparse.insert] at h
    split at h
    · simpa using h
    · split at h
      · rcases List.mem_cons.mp h with rfl | h
        · exact .inl rfl
        · exact .inr (List.mem_cons_of_mem _ h)
      · rcases List.mem_cons.mp h with rfl | h
        · exact .inr (List.mem_cons_self ..)
        · exact (ih h).imp_right (List.mem_cons_of_mem _)

theorem Sparse.erase_rising {m : Sparse β} (hm : m.Pairwise (fun x y => x.1 < y.1)) (k : Nat) :
    (Sparse.erase m k).Pairwise (fun x y => x.1 < y.1) := by
  induction m with
  | nil => simp [Sparse.erase]
  | cons e m ih =>
    obtain ⟨a, b⟩ := e
    have hm' := List.pairwise_cons.mp hm
    simp only [Sparse.erase]
    split
    · exact hm
    · split
      · exact hm'.2
      · exact List.pairwise_cons.mpr ⟨fun c hc => hm'.1 c (Sparse.mem_erase hc), ih hm'.2⟩

theorem Sparse.insert_rising {m : Sparse β} (hm : m.Pairwise (fun x y => x.1 < y.1)) (k : Nat) (v : β) :
    (Sparse.insert m k v).Pairwise (fun x y => x.1 < y.1) := by
  induction m with
  | nil => simp [Sparse.insert]
  | cons e m ih =>
    obtain ⟨a, b⟩ := e
    have hm' := List.pairwise_cons.mp hm
    simp only [Sparse.insert]
    split
    · next h =>
      refine List.pairwise_cons.mpr ⟨fun c hc => ?_, hm⟩
      rcases List.mem_cons.mp hc with rfl | hc
      · exact h
      · exact Nat.lt_trans h (hm'.1 c hc)
    · split
      · next h2 => subst h2; exact List.pairwise_cons.mpr hm'
      · refine List.pairwise_cons.mpr ⟨fun c hc => ?_, ih hm'.2⟩
        rcases Sparse.mem_insert hc with rfl | hc
        · simp only; omega
        · exact hm'.1 c hc

/-- Every write keeps the canonical form. -/
theorem Sparse.set_canonical [DecidableEq β] (hm : Sparse.Canonical d m) (k : Nat) (v : β) :
    Sparse.Canonical d (Sparse.set d m k v) := by
  unfold Sparse.set
  split
  · exact ⟨Sparse.erase_rising hm.1 k, fun c hc => hm.2 c (Sparse.mem_erase hc)⟩
  · next h =>
    refine ⟨Sparse.insert_rising hm.1 k v, fun c hc => ?_⟩
    rcases Sparse.mem_insert hc with rfl | hc
    · exact h
    · exact hm.2 c hc

/-- Every write below `n` keeps the listed indexes below `n`. -/
theorem Sparse.set_below [DecidableEq β] {n k : Nat} (hm : ∀ c ∈ m, c.1 < n) (hk : k < n) (v : β) :
    ∀ c ∈ Sparse.set d m k v, c.1 < n := by
  intro c hc
  unfold Sparse.set at hc
  split at hc
  · exact hm c (Sparse.mem_erase hc)
  · rcases Sparse.mem_insert hc with rfl | hc
    · exact hk
    · exact hm c hc

/-- A listed entry is what its index holds. -/
theorem Sparse.get_of_mem {m : Sparse β} (hm : m.Pairwise (fun x y => x.1 < y.1)) {c : Nat × β} (hc : c ∈ m) :
    Sparse.get d m c.1 = c.2 := by
  induction m with
  | nil => simp at hc
  | cons e m ih =>
    obtain ⟨a, b⟩ := e
    have hm' := List.pairwise_cons.mp hm
    rcases List.mem_cons.mp hc with rfl | hc
    · simp [Sparse.get]
    · have := hm'.1 c hc
      simp only [Sparse.get]
      rw [if_neg (by simp only at this; omega), ih hm'.2 hc]

/-- What is not the default is listed. -/
theorem Sparse.mem_of_get {m : Sparse β} {k : Nat} {v : β} (h : Sparse.get d m k = v) (hv : v ≠ d) : (k, v) ∈ m := by
  induction m with
  | nil => exact absurd h.symm (by simpa [Sparse.get] using hv)
  | cons e m ih =>
    obtain ⟨a, b⟩ := e
    simp only [Sparse.get] at h
    split at h
    · next hk => subst hk h; exact List.mem_cons_self ..
    · exact List.mem_cons_of_mem _ (ih h)

/-- An index past every listed one is unlisted. -/
theorem Sparse.get_above {m : Sparse β} {n k : Nat} (hm : ∀ c ∈ m, c.1 < n) (hk : n ≤ k) : Sparse.get d m k = d := by
  refine Classical.byContradiction fun h => ?_
  have := hm _ (Sparse.mem_of_get rfl h)
  simp only at this
  omega

/-- Data in canonical form is determined by what its indexes hold. -/
theorem Sparse.ext {m n : Sparse β} (hm : Sparse.Canonical d m) (hn : Sparse.Canonical d n)
    (h : ∀ k, Sparse.get d m k = Sparse.get d n k) : m = n := by
  induction m generalizing n with
  | nil =>
    cases n with
    | nil => rfl
    | cons e n => exact absurd ((h e.1).trans (Sparse.get_of_mem hn.1 (by simp))).symm (hn.2 e (by simp))
  | cons e m ih =>
    cases n with
    | nil => exact absurd ((h e.1).symm.trans (Sparse.get_of_mem hm.1 (by simp))).symm (hm.2 e (by simp))
    | cons f n =>
      have hm' := List.pairwise_cons.mp hm.1
      have hn' := List.pairwise_cons.mp hn.1
      have he := Sparse.mem_of_get ((h e.1).symm.trans (Sparse.get_of_mem hm.1 (List.mem_cons_self ..)))
        (hm.2 e (List.mem_cons_self ..))
      have hf := Sparse.mem_of_get ((h f.1).trans (Sparse.get_of_mem hn.1 (List.mem_cons_self ..)))
        (hn.2 f (List.mem_cons_self ..))
      have hef : e = f := by
        rcases List.mem_cons.mp he with h1 | h1
        · exact h1
        · rcases List.mem_cons.mp hf with h2 | h2
          · exact h2.symm
          · have l1 := hn'.1 _ h1
            have l2 := hm'.1 _ h2
            simp only at l1 l2
            omega
      subst hef
      refine congrArg _ (ih ⟨hm'.2, fun c hc => hm.2 c (by simp [hc])⟩ ⟨hn'.2, fun c hc => hn.2 c (by simp [hc])⟩
        fun k => ?_)
      have hk := h k
      obtain ⟨a, b⟩ := e
      simp only [Sparse.get] at hk
      by_cases hak : a = k
      · subst hak
        rw [Sparse.get_below hm'.1, Sparse.get_below hn'.1]
      · rwa [if_neg hak, if_neg hak] at hk

theorem cacheClear_canonical {c : Sparse Word} (h : Sparse.Canonical 0#32 c) (n : Nat) :
    Sparse.Canonical 0#32 (cacheClear c n) :=
  ⟨h.1.filter _, fun e he => h.2 e (List.mem_filter.mp he).1⟩

theorem cacheClear_below {c : Sparse Word} {k : Nat} (h : ∀ e ∈ c, e.1 < k) (n : Nat) :
    ∀ e ∈ cacheClear c n, e.1 < k := fun e he => h e (List.mem_filter.mp he).1

/-- The cleared entries hold 0, the others what they held. -/
theorem cacheEntry_clear (c : Sparse Word) (n i : Nat) :
    cacheEntry (cacheClear c n) i = if i < n then 0#32 else cacheEntry c i := by
  induction c with
  | nil => simp [cacheEntry, cacheClear]
  | cons e c ih =>
    obtain ⟨a, b⟩ := e
    simp only [cacheEntry, cacheClear, List.filter_cons] at ih ⊢
    by_cases h : n ≤ a
    · by_cases h2 : a = i
      · subst h2; simp [h, Sparse.get, Nat.not_lt.mpr h]
      · simp [h, Sparse.get, h2, ih]
    · by_cases h2 : a = i
      · subst h2; simp [h, ih, show a < n by omega]
      · simp [h, Sparse.get, h2, ih]

end Sys2Proof.Machine
end

