-- ==== Sys2Proof/Laws/Memory.lean ====
section
/-! SUPPORT. DMEM: what each store does to each byte; every store keeps the canonical form and the range. -/

namespace Sys2Proof.Machine

/-- Both facts a memory must keep: the canonical form, and no listed byte at `n` or above. -/
def Memory.Good (n : Nat) (m : Memory) : Prop := Memory.wf m ∧ ∀ c ∈ m, c.1 < n

theorem Memory.good_nil (n : Nat) : Memory.Good n [] := ⟨⟨.nil, by simp⟩, by simp⟩

theorem memByte_store {m : Memory} (hm : Memory.wf m) (a : Nat) (b : Byte) (j : Nat) :
    memByte (memStore m a b) j = if j = a then b else memByte m j := Sparse.get_set hm a b j

theorem memStore_wf {m : Memory} (hm : Memory.wf m) (a : Nat) (b : Byte) : Memory.wf (memStore m a b) :=
  Sparse.set_canonical hm a b

theorem memStore_good {n a : Nat} {m : Memory} (hm : Memory.Good n m) (ha : a < n) (b : Byte) :
    Memory.Good n (memStore m a b) := ⟨memStore_wf hm.1 a b, Sparse.set_below hm.2 ha b⟩

theorem memory_ext {m n : Memory} (hm : Memory.wf m) (hn : Memory.wf n) (h : ∀ a, memByte m a = memByte n a) : m = n :=
  Sparse.ext hm hn h

/-- Writing the byte that is there changes nothing. -/
theorem memStore_same {m : Memory} (hm : Memory.wf m) (a : Nat) : memStore m a (memByte m a) = m :=
  memory_ext (memStore_wf hm a _) hm fun j => by
    rw [memByte_store hm]; split
    · next h => rw [h]
    · rfl

theorem memStore16_wf {m : Memory} (hm : Memory.wf m) (a : Nat) (v : BitVec 16) : Memory.wf (memStore16 m a v) :=
  memStore_wf (memStore_wf hm _ _) _ _

theorem memStore16_good {n a : Nat} {m : Memory} (hm : Memory.Good n m) (ha : a + 1 < n) (v : BitVec 16) :
    Memory.Good n (memStore16 m a v) := memStore_good (memStore_good hm (by omega) _) ha _

theorem memByte_store16 {m : Memory} (hm : Memory.wf m) (a : Nat) (v : BitVec 16) (j : Nat) :
    memByte (memStore16 m a v) j =
      if j = a then v.extractLsb' 0 8 else if j = a + 1 then v.extractLsb' 8 8 else memByte m j := by
  rw [memStore16, memByte_store (memStore_wf hm _ _), memByte_store hm]
  by_cases h : j = a
  · subst h; simp
  · simp [h]

theorem memStore32_wf {m : Memory} (hm : Memory.wf m) (a : Nat) (v : Word) : Memory.wf (memStore32 m a v) :=
  memStore16_wf (memStore16_wf hm _ _) _ _

theorem memStore32_good {n a : Nat} {m : Memory} (hm : Memory.Good n m) (ha : a + 3 < n) (v : Word) :
    Memory.Good n (memStore32 m a v) :=
  memStore16_good (memStore16_good hm (by omega) _) (by omega) _

theorem memByte_store32_outside {m : Memory} (hm : Memory.wf m) (a : Nat) (v : Word) {j : Nat}
    (h : j < a ∨ a + 4 ≤ j) : memByte (memStore32 m a v) j = memByte m j := by
  rw [memStore32, memByte_store16 (memStore16_wf hm _ _), memByte_store16 hm]
  rw [if_neg (by omega), if_neg (by omega), if_neg (by omega), if_neg (by omega)]

/-- A word reads back. -/
theorem memWord_store32 {m : Memory} (hm : Memory.wf m) (a : Nat) (v : Word) : memWord (memStore32 m a v) a = v := by
  unfold memWord memStore32
  simp only [memByte_store16 (memStore16_wf hm _ _), memByte_store16 hm]
  simp only [show a + 3 ≠ a + 2 by omega, show a + 1 ≠ a + 2 by omega, show a ≠ a + 2 by omega,
    show a + 1 ≠ a + 2 + 1 by omega, show a ≠ a + 2 + 1 by omega, show a + 3 = a + 2 + 1 by omega,
    show a + 1 ≠ a by omega, if_true, if_false]
  apply BitVec.eq_of_getLsbD_eq
  intro i hi
  simp only [BitVec.getLsbD_append, BitVec.getLsbD_extractLsb']
  by_cases h1 : i < 8
  · simp [h1, show i < 16 by omega]
  · by_cases h2 : i < 16
    · simp [h1, show i - 8 < 8 by omega, show 8 + (i - 8) = i by omega, h2]
    · by_cases h3 : i < 24
      · simp [h1, show ¬ (i - 8 < 8) by omega, show i - 8 - 8 < 8 by omega, show i - 8 - 8 < 16 by omega,
          show 16 + (i - 8 - 8) = i by omega]
      · simp [h1, show ¬ (i - 8 < 8) by omega, show ¬ (i - 8 - 8 < 8) by omega, show i - 8 - 8 - 8 < 8 by omega,
          show 8 + (i - 8 - 8 - 8) < 16 by omega, show 16 + (8 + (i - 8 - 8 - 8)) = i by omega]

theorem memWord_congr {m n : Memory} {a : Nat} (h : ∀ j, a ≤ j → j < a + 4 → memByte m j = memByte n j) :
    memWord m a = memWord n a := by
  simp only [memWord, h a (by omega) (by omega), h (a + 1) (by omega) (by omega), h (a + 2) (by omega) (by omega),
    h (a + 3) (by omega) (by omega)]

theorem memWord_store32_outside {m : Memory} (hm : Memory.wf m) (a : Nat) (v : Word) {j : Nat}
    (h : j + 4 ≤ a ∨ a + 4 ≤ j) : memWord (memStore32 m a v) j = memWord m j :=
  memWord_congr fun _ _ _ => memByte_store32_outside hm a v (by omega)

theorem memFill_wf {m : Memory} (hm : Memory.wf m) (f : Nat → Byte) (a n : Nat) : Memory.wf (memFill f a n m) := by
  induction n with
  | zero => exact hm
  | succ n ih => exact memStore_wf ih _ _

theorem memFill_good {k a n : Nat} {m : Memory} (hm : Memory.Good k m) (h : a + n ≤ k) (f : Nat → Byte) :
    Memory.Good k (memFill f a n m) := by
  induction n with
  | zero => exact hm
  | succ n ih => exact memStore_good (ih (by omega)) (by omega) _

/-- What a fill leaves in each byte. -/
theorem memByte_fill {m : Memory} (hm : Memory.wf m) (f : Nat → Byte) (a n j : Nat) :
    memByte (memFill f a n m) j = if a ≤ j ∧ j < a + n then f j else memByte m j := by
  induction n with
  | zero => rw [if_neg (by omega)]; rfl
  | succ n ih =>
    rw [memFill, memByte_store (memFill_wf hm f a n), ih]
    by_cases h : j = a + n
    · subst h; rw [if_pos rfl, if_pos (by omega)]
    · rw [if_neg h]
      by_cases h2 : a ≤ j ∧ j < a + n
      · rw [if_pos h2, if_pos (by omega)]
      · rw [if_neg h2, if_neg (by omega)]

theorem memStoreList_wf {m : Memory} (hm : Memory.wf m) (a : Nat) (l : List Byte) : Memory.wf (memStoreList m a l) := by
  induction l generalizing m a with
  | nil => exact hm
  | cons b l ih => exact ih (memStore_wf hm a b) (a + 1)

theorem memStoreList_good {k a : Nat} {m : Memory} {l : List Byte} (hm : Memory.Good k m) (h : a + l.length ≤ k) :
    Memory.Good k (memStoreList m a l) := by
  induction l generalizing m a with
  | nil => exact hm
  | cons b l ih =>
    rw [List.length_cons] at h
    exact ih (memStore_good hm (by omega) b) (by omega)

/-- What storing a list leaves in each byte. -/
theorem memByte_storeList {m : Memory} (hm : Memory.wf m) (a : Nat) (l : List Byte) (j : Nat) :
    memByte (memStoreList m a l) j = if a ≤ j ∧ j < a + l.length then l.getD (j - a) 0 else memByte m j := by
  induction l generalizing m a with
  | nil => rw [if_neg (by simp)]; rfl
  | cons b l ih =>
    rw [memStoreList, ih (memStore_wf hm a b) (a + 1), memByte_store hm, List.length_cons]
    by_cases h : j = a
    · subst h
      rw [if_neg (by omega), if_pos rfl, if_pos (by omega)]; simp
    · rw [if_neg h]
      by_cases h2 : a + 1 ≤ j ∧ j < a + 1 + l.length
      · rw [if_pos h2, if_pos (by omega), show j - a = (j - (a + 1)) + 1 by omega]; simp
      · rw [if_neg h2, if_neg (by omega)]

theorem memDrawn_good {k d a n : Nat} {m : Memory} (hm : Memory.Good k m) (h : a + n ≤ k) :
    Memory.Good k (memDrawn d a n m) := memFill_good hm h _

/-- A draw leaves the bytes outside its region alone. -/
theorem memByte_drawn_outside {m : Memory} (hm : Memory.wf m) (d a n : Nat) {j : Nat} (h : j < a ∨ a + n ≤ j) :
    memByte (memDrawn d a n m) j = memByte m j := by
  rw [memDrawn, memByte_fill hm, if_neg (by omega)]

theorem cacheDrawn_canonical {c : Sparse Word} (h : Sparse.Canonical 0#32 c) (d n : Nat) :
    Sparse.Canonical 0#32 (cacheDrawn d n c) := by
  induction n with
  | zero => exact h
  | succ n ih => exact Sparse.set_canonical ih _ _

theorem cacheDrawn_below {c : Sparse Word} {k n : Nat} (h : ∀ e ∈ c, e.1 < k) (hn : n ≤ k) (d : Nat) :
    ∀ e ∈ cacheDrawn d n c, e.1 < k := by
  induction n with
  | zero => exact h
  | succ n ih => exact Sparse.set_below (ih (by omega)) (by omega) _

/-! ### Power-on -/

/-- Every power-on content lies at or above its first address, keeps the canonical form and the range. -/
theorem powerOnMem_good {size : Nat} : ∀ (free : List (Nat × Fin 255)) (a : Nat),
    Memory.Good size (powerOnMem size a free) ∧ ∀ c ∈ powerOnMem size a free, a ≤ c.1 := by
  intro free
  induction free with
  | nil => intro a; exact ⟨Memory.good_nil size, by simp [powerOnMem]⟩
  | cons e free ih =>
    obtain ⟨gap, v⟩ := e
    intro a
    rw [powerOnMem]
    split
    · obtain ⟨⟨⟨h1, h2⟩, h3⟩, h4⟩ := ih (a + gap + 1)
      have hv : BitVec.ofNat 8 (v.val + 1) ≠ unlistedByte := by
        intro h
        have := congrArg BitVec.toNat h
        have := v.isLt
        simp [unlistedByte] at *; omega
      refine ⟨⟨⟨List.pairwise_cons.2 ⟨fun c hc => h4 c hc, h1⟩, ?_⟩, ?_⟩, ?_⟩ <;> intro c hc <;>
        rcases List.mem_cons.1 hc with rfl | hc
      · exact hv
      · exact h2 c hc
      · assumption
      · exact h3 c hc
      · exact Nat.le_add_right _ _
      · have := h4 c hc; omega
    · exact ⟨Memory.good_nil size, by simp⟩

/-- Every content of DMEM is a power-on content (R272). -/
theorem powerOnMem_any {size : Nat} : ∀ {m : Memory} {a : Nat}, Memory.Good size m → (∀ c ∈ m, a ≤ c.1) →
    ∃ free, powerOnMem size a free = m := by
  intro m
  induction m with
  | nil => intro a _ _; exact ⟨[], rfl⟩
  | cons c m ih =>
    obtain ⟨k, b⟩ := c
    intro a h ha
    obtain ⟨⟨h1, h2⟩, h3⟩ := h
    have hk : a ≤ k := ha (k, b) (by simp)
    have hb : b.toNat ≠ 0 := fun h0 => h2 (k, b) (by simp) (BitVec.eq_of_toNat_eq h0)
    have hs : k < size := h3 (k, b) (by simp)
    obtain ⟨free, hf⟩ := ih (a := k + 1) ⟨⟨(List.pairwise_cons.1 h1).2, fun c hc => h2 c (by simp [hc])⟩,
      fun c hc => h3 c (by simp [hc])⟩ fun c hc => (List.pairwise_cons.1 h1).1 c hc
    refine ⟨(k - a, ⟨b.toNat - 1, by omega⟩) :: free, ?_⟩
    rw [powerOnMem, Nat.add_sub_cancel' hk, if_pos hs, hf]
    congr 2
    apply BitVec.eq_of_toNat_eq
    simp; omega

theorem inDmem_iff {p : Params} {a n : Nat} : inDmem p a n = true ↔ a + n ≤ p.dmemSize := by simp [inDmem]

end Sys2Proof.Machine
end

