-- ==== Sys2Proof/Laws/Transform.lean ====
section
/-! SUPPORT. The inverse transforms: the cores element by element, and what adding residuals and storing halfwords leave in
each byte. -/

namespace Sys2Proof.Machine

open Sys2Proof.Claim

theorem wrap16_eq (v : Int) : wrap16 v = (v + 32768) % 65536 - 32768 := by
  rw [wrap16, BitVec.toInt_ofInt, Int.bmod_def]
  omega

theorem xfW_eq (wrap : Bool) (v : Int) : xfW wrap v = w16 wrap v := by
  cases wrap
  · rfl
  · exact wrap16_eq v

theorem clamp255_eq (v : Int) : clamp255 v = BitVec.ofInt 8 (clamp v) := rfl

/-- A stored halfword read back as a number (R150). -/
theorem memReadS16_eq (m : Memory) (a : Nat) : memReadS16 m a =
    let v : Int := (memByte m a).toNat + 256 * (memByte m (a + 1)).toNat
    if v < 32768 then v else v - 65536 := by
  have h1 := (memByte m a).isLt
  have h2 := (memByte m (a + 1)).isLt
  have e : (memHalf m a).toNat = (memByte m a).toNat + 256 * (memByte m (a + 1)).toNat := by
    rw [memHalf, BitVec.toNat_append, Nat.shiftLeft_eq, Nat.mul_comm, ← Nat.two_pow_add_eq_or_of_lt h1]; omega
  rw [memReadS16, BitVec.toInt_eq_toNat_cond, e]
  dsimp only
  split <;> split <;> omega

theorem xfCoefs_eq (s : State) : xfCoefs s = (List.range 16).map (coef s) := by
  unfold xfCoefs coef
  refine List.map_congr_left fun i _ => memReadS16_eq _ _

/-- Element `i` of a core, from the coefficients of the list. -/
theorem idctCore_eq (wrap : Bool) (f : Nat → Int) :
    idctCore wrap ((List.range 16).map f) = (List.range 16).map (idct wrap f) := by
  simp only [idctCore, xfTwoPass, funext (xfW_eq wrap)]
  rfl

theorem iwhtCore_eq (wrap : Bool) (f : Nat → Int) :
    iwhtCore wrap ((List.range 16).map f) = (List.range 16).map (iwht wrap f) := by
  simp only [iwhtCore, xfTwoPass, funext (xfW_eq wrap)]
  rfl

/-! ### Stores -/

theorem xfAddPixels_wf (addr : Nat → Nat → Nat) : ∀ (o : List Int) (i : Nat) {m : Memory}, Memory.wf m →
    Memory.wf (xfAddPixels addr i o m) := by
  intro o
  induction o with
  | nil => intro i m h; exact h
  | cons v o ih => intro i m h; exact ih (i + 1) (memStore_wf h _ _)

/-- Adding residuals: each byte in turn, in raster order. -/
theorem memByte_xfAddPixels (addr : Nat → Nat → Nat) (a : Nat) : ∀ (o : List Int) (i : Nat) {m : Memory}, Memory.wf m →
    memByte (xfAddPixels addr i o m) a = (o.zipIdx i).foldl
      (fun b p => if a = addr (p.2 / 4) (p.2 % 4) then clamp255 (b.toNat + p.1) else b) (memByte m a) := by
  intro o
  induction o with
  | nil => intro i m h; rfl
  | cons v o ih =>
    intro i m h
    rw [List.zipIdx_cons, List.foldl_cons, xfAddPixels]
    rw [ih (i + 1) (memStore_wf h _ _), memByte_store h]
    by_cases hc : a = addr (i / 4) (i % 4)
    · rw [if_pos hc, if_pos hc, hc]
    · rw [if_neg hc, if_neg hc]

theorem xfStoreHalves_wf (addr : Nat → Nat) : ∀ (o : List Int) (i : Nat) {m : Memory}, Memory.wf m →
    Memory.wf (xfStoreHalves addr i o m) := by
  intro o
  induction o with
  | nil => intro i m h; exact h
  | cons v o ih => intro i m h; exact ih (i + 1) (memStore16_wf h _ _)

/-- The two bytes of a number modulo 2^16. -/
theorem half_bytes (v : Int) :
    (BitVec.ofInt 16 v).extractLsb' 0 8 = loByte v ∧ (BitVec.ofInt 16 v).extractLsb' 8 8 = hiByte v := by
  constructor <;> apply BitVec.eq_of_toNat_eq <;>
    simp [loByte, hiByte, BitVec.toNat_ofInt, Nat.shiftRight_eq_div_pow] <;> omega

/-- Storing halfwords: each byte in turn, index by index. -/
theorem memByte_xfStoreHalves (addr : Nat → Nat) (a : Nat) : ∀ (o : List Int) (i : Nat) {m : Memory}, Memory.wf m →
    memByte (xfStoreHalves addr i o m) a = (o.zipIdx i).foldl
      (fun b p => if a = addr p.2 then loByte p.1 else if a = addr p.2 + 1 then hiByte p.1 else b) (memByte m a) := by
  intro o
  induction o with
  | nil => intro i m h; rfl
  | cons v o ih =>
    intro i m h
    rw [List.zipIdx_cons, List.foldl_cons, xfStoreHalves]
    rw [ih (i + 1) (memStore16_wf h _ _), memByte_store16 h, (half_bytes v).1, (half_bytes v).2]

/-- Stores inside DMEM keep it so. -/
theorem xfAddPixels_good {n : Nat} {addr : Nat → Nat → Nat} : ∀ {o : List Int} {i : Nat} {m : Memory}, Memory.Good n m →
    (∀ j, i ≤ j → j < i + o.length → addr (j / 4) (j % 4) < n) → Memory.Good n (xfAddPixels addr i o m) := by
  intro o
  induction o with
  | nil => intro i m h _; exact h
  | cons v o ih =>
    intro i m h ha
    rw [List.length_cons] at ha
    exact ih (memStore_good h (ha i (Nat.le_refl i) (by omega)) _) fun j h1 h2 => ha j (by omega) (by omega)

theorem xfStoreHalves_good {n : Nat} {addr : Nat → Nat} : ∀ {o : List Int} {i : Nat} {m : Memory}, Memory.Good n m →
    (∀ j, i ≤ j → j < i + o.length → addr j + 1 < n) → Memory.Good n (xfStoreHalves addr i o m) := by
  intro o
  induction o with
  | nil => intro i m h _; exact h
  | cons v o ih =>
    intro i m h ha
    rw [List.length_cons] at ha
    exact ih (memStore16_good h (ha i (Nat.le_refl i) (by omega)) _) fun j h1 h2 => ha j (by omega) (by omega)

theorem idctCore_length (wrap : Bool) (c : List Int) : (idctCore wrap c).length = 16 := rfl

theorem iwhtCore_length (wrap : Bool) (c : List Int) : (iwhtCore wrap c).length = 16 := rfl

end Sys2Proof.Machine
end

