-- ==== Sys2Proof/Laws/ColorConvert.lean ====
section
/-! SUPPORT. The colour converter: the loops as a fold over the pixels in raster order, what each byte holds after it, and
that its stores stay in DMEM. -/

namespace Sys2Proof.Machine

open Sys2Proof.Claim

/-- Whatever each pixel of a row keeps, the row keeps. -/
theorem cvRow_induct {P : Memory → Prop} {v : CvRegs} {y : Nat} : ∀ {n : Nat} {m : Memory},
    (∀ x < n, ∀ m, P m → P (cvStep v y x m)) → P m → P (cvRow v y n m) := by
  intro n
  induction n with
  | zero => intro m _ h; exact h
  | succ n ih => intro m hs h; exact hs n (by omega) _ (ih (fun x hx => hs x (by omega)) h)

/-- Whatever each pixel keeps, the command keeps. -/
theorem cvRows_induct {P : Memory → Prop} {v : CvRegs} : ∀ {n : Nat} {m : Memory},
    (∀ y < n, ∀ x < v.width.toNat, ∀ m, P m → P (cvStep v y x m)) → P m → P (cvRows v n m) := by
  intro n
  induction n with
  | zero => intro m _ h; exact h
  | succ n ih =>
    intro m hs h
    exact cvRow_induct (hs n (by omega)) (ih (fun y hy => hs y (by omega)) h)

theorem cvOutput_length (v : CvRegs) (m : Memory) (x y : Nat) : (cvOutput v m x y).length = 4 := rfl

/-- The four bytes of a pixel are its channels. -/
theorem cvOutput_eq (v : CvRegs) (m : Memory) (x y : Nat) : cvOutput v m x y = (List.range 4).map (rgba v m x y) := rfl

theorem cvStep_wf {v : CvRegs} {y x : Nat} {m : Memory} (h : Memory.wf m) : Memory.wf (cvStep v y x m) :=
  memStoreList_wf h _ _

/-- What one pixel leaves in each byte. -/
theorem memByte_cvStep {v : CvRegs} {y x : Nat} {m : Memory} (h : Memory.wf m) (a : Nat) :
    memByte (cvStep v y x m) a =
      if dstAt v x y ≤ a ∧ a < dstAt v x y + 4 then rgba v m x y (a - dstAt v x y) else memByte m a := by
  rw [cvStep, memByte_storeList h, cvOutput_length]
  show (if dstAt v x y ≤ a ∧ a < dstAt v x y + 4 then (cvOutput v m x y).getD (a - dstAt v x y) 0 else memByte m a) = _
  by_cases hc : dstAt v x y ≤ a ∧ a < dstAt v x y + 4
  · rw [if_pos hc, if_pos hc, cvOutput_eq, List.getD_eq_getElem?_getD, List.getElem?_map,
      List.getElem?_eq_getElem (by simp; omega)]
    simp
  · rw [if_neg hc, if_neg hc]

/-- The stores of a command whose output lies in DMEM stay there. -/
theorem cvRows_good {v : CvRegs} {n : Nat} {m : Memory} (h : Memory.Good n m) (h1 : 1 ≤ v.height.toNat)
    (hb : dstAt v 0 (v.height.toNat - 1) + 4 * v.width.toNat ≤ n) : Memory.Good n (cvRows v v.height.toNat m) := by
  refine cvRows_induct (fun y hy x hx m hm => ?_) h
  refine memStoreList_good hm ?_
  rw [cvOutput_length]
  have : y * v.dstStride.toNat ≤ (v.height.toNat - 1) * v.dstStride.toNat := Nat.mul_le_mul_right _ (by omega)
  unfold dstAt at hb
  unfold cvDstAddr
  omega

/-- Rows as a fold over the pixels in raster order. -/
theorem cvRow_eq (v : CvRegs) (y : Nat) : ∀ (n : Nat) (m : Memory), cvRow v y n m =
    ((List.range n).map fun x => (x, y)).foldl (fun m q => cvStep v q.2 q.1 m) m := by
  intro n
  induction n with
  | zero => intro m; rfl
  | succ n ih => intro m; rw [cvRow, ih, List.range_succ, List.map_append, List.foldl_append]; rfl

theorem cvRows_eq (v : CvRegs) : ∀ (n : Nat) (m : Memory), cvRows v n m =
    (raster v.width.toNat n).foldl (fun m q => cvStep v q.2 q.1 m) m := by
  intro n
  induction n with
  | zero => intro m; rfl
  | succ n ih =>
    intro m
    rw [cvRows, ih, raster, raster, List.range_succ, List.flatMap_append, List.foldl_append, cvRow_eq]
    simp

end Sys2Proof.Machine
end

