-- ==== Sys2Proof/Laws/State.lean ====
section
/-! SUPPORT. One lemma for each field of State after each named update. -/

namespace Sys2Proof.Machine

variable (s : State)

/-! ### setRd -/

@[simp] theorem State.setRd_params (c : Ctx) (x : RdCtx) : (s.setRd c x).params = s.params := by cases c <;> rfl
@[simp] theorem State.setRd_pending (c : Ctx) (x : RdCtx) : (s.setRd c x).pending = s.pending := by cases c <;> rfl
@[simp] theorem State.setRd_done (c : Ctx) (x : RdCtx) : (s.setRd c x).done = s.done := by cases c <;> rfl
@[simp] theorem State.setRd_err (c : Ctx) (x : RdCtx) : (s.setRd c x).err = s.err := by cases c <;> rfl
@[simp] theorem State.setRd_errOp (c : Ctx) (x : RdCtx) : (s.setRd c x).errOp = s.errOp := by cases c <;> rfl
@[simp] theorem State.setRd_doneIe (c : Ctx) (x : RdCtx) : (s.setRd c x).doneIe = s.doneIe := by cases c <;> rfl
@[simp] theorem State.setRd_errIe (c : Ctx) (x : RdCtx) : (s.setRd c x).errIe = s.errIe := by cases c <;> rfl
@[simp] theorem State.setRd_result (c : Ctx) (x : RdCtx) : (s.setRd c x).result = s.result := by cases c <;> rfl
@[simp] theorem State.setRd_rdTreeAddr (c : Ctx) (x : RdCtx) : (s.setRd c x).rdTreeAddr = s.rdTreeAddr := by cases c <;> rfl
@[simp] theorem State.setRd_rdProbAddr (c : Ctx) (x : RdCtx) : (s.setRd c x).rdProbAddr = s.rdProbAddr := by cases c <;> rfl
@[simp] theorem State.setRd_xf (c : Ctx) (x : RdCtx) : (s.setRd c x).xf = s.xf := by cases c <;> rfl
@[simp] theorem State.setRd_br (c : Ctx) (x : RdCtx) : (s.setRd c x).br = s.br := by cases c <;> rfl
@[simp] theorem State.setRd_hf (c : Ctx) (x : RdCtx) : (s.setRd c x).hf = s.hf := by cases c <;> rfl
@[simp] theorem State.setRd_px (c : Ctx) (x : RdCtx) : (s.setRd c x).px = s.px := by cases c <;> rfl
@[simp] theorem State.setRd_cv (c : Ctx) (x : RdCtx) : (s.setRd c x).cv = s.cv := by cases c <;> rfl
@[simp] theorem State.setRd_slots (c : Ctx) (x : RdCtx) : (s.setRd c x).slots = s.slots := by cases c <;> rfl
@[simp] theorem State.setRd_scratchCl (c : Ctx) (x : RdCtx) : (s.setRd c x).scratchCl = s.scratchCl := by cases c <;> rfl
@[simp] theorem State.setRd_cache (c : Ctx) (x : RdCtx) : (s.setRd c x).cache = s.cache := by cases c <;> rfl
@[simp] theorem State.setRd_mem (c : Ctx) (x : RdCtx) : (s.setRd c x).mem = s.mem := by cases c <;> rfl
@[simp] theorem State.setRd_host (c : Ctx) (x : RdCtx) : (s.setRd c x).host = s.host := by cases c <;> rfl
@[simp] theorem State.setRd_hostData (c : Ctx) (x : RdCtx) : (s.setRd c x).hostData = s.hostData := by cases c <;> rfl
@[simp] theorem State.setRd_drawn (c : Ctx) (x : RdCtx) : (s.setRd c x).drawn = s.drawn := by cases c <;> rfl
@[simp] theorem State.setRd_slot (c : Ctx) (x : RdCtx) (t' : Nat) : (s.setRd c x).slot t' = s.slot t' := by simp [State.slot]

/-! ### setBr -/

@[simp] theorem State.setBr_params (b : BrRegs) : (s.setBr b).params = s.params := rfl
@[simp] theorem State.setBr_pending (b : BrRegs) : (s.setBr b).pending = s.pending := rfl
@[simp] theorem State.setBr_done (b : BrRegs) : (s.setBr b).done = s.done := rfl
@[simp] theorem State.setBr_err (b : BrRegs) : (s.setBr b).err = s.err := rfl
@[simp] theorem State.setBr_errOp (b : BrRegs) : (s.setBr b).errOp = s.errOp := rfl
@[simp] theorem State.setBr_doneIe (b : BrRegs) : (s.setBr b).doneIe = s.doneIe := rfl
@[simp] theorem State.setBr_errIe (b : BrRegs) : (s.setBr b).errIe = s.errIe := rfl
@[simp] theorem State.setBr_result (b : BrRegs) : (s.setBr b).result = s.result := rfl
@[simp] theorem State.setBr_rdTreeAddr (b : BrRegs) : (s.setBr b).rdTreeAddr = s.rdTreeAddr := rfl
@[simp] theorem State.setBr_rdProbAddr (b : BrRegs) : (s.setBr b).rdProbAddr = s.rdProbAddr := rfl
@[simp] theorem State.setBr_xf (b : BrRegs) : (s.setBr b).xf = s.xf := rfl
@[simp] theorem State.setBr_br (b : BrRegs) : (s.setBr b).br = b := rfl
@[simp] theorem State.setBr_hf (b : BrRegs) : (s.setBr b).hf = s.hf := rfl
@[simp] theorem State.setBr_px (b : BrRegs) : (s.setBr b).px = s.px := rfl
@[simp] theorem State.setBr_cv (b : BrRegs) : (s.setBr b).cv = s.cv := rfl
@[simp] theorem State.setBr_slots (b : BrRegs) : (s.setBr b).slots = s.slots := rfl
@[simp] theorem State.setBr_scratchCl (b : BrRegs) : (s.setBr b).scratchCl = s.scratchCl := rfl
@[simp] theorem State.setBr_cache (b : BrRegs) : (s.setBr b).cache = s.cache := rfl
@[simp] theorem State.setBr_mem (b : BrRegs) : (s.setBr b).mem = s.mem := rfl
@[simp] theorem State.setBr_host (b : BrRegs) : (s.setBr b).host = s.host := rfl
@[simp] theorem State.setBr_hostData (b : BrRegs) : (s.setBr b).hostData = s.hostData := rfl
@[simp] theorem State.setBr_drawn (b : BrRegs) : (s.setBr b).drawn = s.drawn := rfl
@[simp] theorem State.setBr_rd (b : BrRegs) (k : Ctx) : (s.setBr b).rd k = s.rd k := by cases k <;> rfl
@[simp] theorem State.setBr_slot (b : BrRegs) (t' : Nat) : (s.setBr b).slot t' = s.slot t' := by simp [State.slot]

/-! ### setMem -/

@[simp] theorem State.setMem_params (m : Memory) : (s.setMem m).params = s.params := rfl
@[simp] theorem State.setMem_pending (m : Memory) : (s.setMem m).pending = s.pending := rfl
@[simp] theorem State.setMem_done (m : Memory) : (s.setMem m).done = s.done := rfl
@[simp] theorem State.setMem_err (m : Memory) : (s.setMem m).err = s.err := rfl
@[simp] theorem State.setMem_errOp (m : Memory) : (s.setMem m).errOp = s.errOp := rfl
@[simp] theorem State.setMem_doneIe (m : Memory) : (s.setMem m).doneIe = s.doneIe := rfl
@[simp] theorem State.setMem_errIe (m : Memory) : (s.setMem m).errIe = s.errIe := rfl
@[simp] theorem State.setMem_result (m : Memory) : (s.setMem m).result = s.result := rfl
@[simp] theorem State.setMem_rdTreeAddr (m : Memory) : (s.setMem m).rdTreeAddr = s.rdTreeAddr := rfl
@[simp] theorem State.setMem_rdProbAddr (m : Memory) : (s.setMem m).rdProbAddr = s.rdProbAddr := rfl
@[simp] theorem State.setMem_xf (m : Memory) : (s.setMem m).xf = s.xf := rfl
@[simp] theorem State.setMem_br (m : Memory) : (s.setMem m).br = s.br := rfl
@[simp] theorem State.setMem_hf (m : Memory) : (s.setMem m).hf = s.hf := rfl
@[simp] theorem State.setMem_px (m : Memory) : (s.setMem m).px = s.px := rfl
@[simp] theorem State.setMem_cv (m : Memory) : (s.setMem m).cv = s.cv := rfl
@[simp] theorem State.setMem_slots (m : Memory) : (s.setMem m).slots = s.slots := rfl
@[simp] theorem State.setMem_scratchCl (m : Memory) : (s.setMem m).scratchCl = s.scratchCl := rfl
@[simp] theorem State.setMem_cache (m : Memory) : (s.setMem m).cache = s.cache := rfl
@[simp] theorem State.setMem_mem (m : Memory) : (s.setMem m).mem = m := rfl
@[simp] theorem State.setMem_host (m : Memory) : (s.setMem m).host = s.host := rfl
@[simp] theorem State.setMem_hostData (m : Memory) : (s.setMem m).hostData = s.hostData := rfl
@[simp] theorem State.setMem_drawn (m : Memory) : (s.setMem m).drawn = s.drawn := rfl
@[simp] theorem State.setMem_rd (m : Memory) (k : Ctx) : (s.setMem m).rd k = s.rd k := by cases k <;> rfl
@[simp] theorem State.setMem_slot (m : Memory) (t' : Nat) : (s.setMem m).slot t' = s.slot t' := by simp [State.slot]

/-! ### setResult -/

@[simp] theorem State.setResult_params (v : Word) : (s.setResult v).params = s.params := rfl
@[simp] theorem State.setResult_pending (v : Word) : (s.setResult v).pending = s.pending := rfl
@[simp] theorem State.setResult_done (v : Word) : (s.setResult v).done = s.done := rfl
@[simp] theorem State.setResult_err (v : Word) : (s.setResult v).err = s.err := rfl
@[simp] theorem State.setResult_errOp (v : Word) : (s.setResult v).errOp = s.errOp := rfl
@[simp] theorem State.setResult_doneIe (v : Word) : (s.setResult v).doneIe = s.doneIe := rfl
@[simp] theorem State.setResult_errIe (v : Word) : (s.setResult v).errIe = s.errIe := rfl
@[simp] theorem State.setResult_result (v : Word) : (s.setResult v).result = v := rfl
@[simp] theorem State.setResult_rdTreeAddr (v : Word) : (s.setResult v).rdTreeAddr = s.rdTreeAddr := rfl
@[simp] theorem State.setResult_rdProbAddr (v : Word) : (s.setResult v).rdProbAddr = s.rdProbAddr := rfl
@[simp] theorem State.setResult_xf (v : Word) : (s.setResult v).xf = s.xf := rfl
@[simp] theorem State.setResult_br (v : Word) : (s.setResult v).br = s.br := rfl
@[simp] theorem State.setResult_hf (v : Word) : (s.setResult v).hf = s.hf := rfl
@[simp] theorem State.setResult_px (v : Word) : (s.setResult v).px = s.px := rfl
@[simp] theorem State.setResult_cv (v : Word) : (s.setResult v).cv = s.cv := rfl
@[simp] theorem State.setResult_slots (v : Word) : (s.setResult v).slots = s.slots := rfl
@[simp] theorem State.setResult_scratchCl (v : Word) : (s.setResult v).scratchCl = s.scratchCl := rfl
@[simp] theorem State.setResult_cache (v : Word) : (s.setResult v).cache = s.cache := rfl
@[simp] theorem State.setResult_mem (v : Word) : (s.setResult v).mem = s.mem := rfl
@[simp] theorem State.setResult_host (v : Word) : (s.setResult v).host = s.host := rfl
@[simp] theorem State.setResult_hostData (v : Word) : (s.setResult v).hostData = s.hostData := rfl
@[simp] theorem State.setResult_drawn (v : Word) : (s.setResult v).drawn = s.drawn := rfl
@[simp] theorem State.setResult_rd (v : Word) (k : Ctx) : (s.setResult v).rd k = s.rd k := by cases k <;> rfl
@[simp] theorem State.setResult_slot (v : Word) (t' : Nat) : (s.setResult v).slot t' = s.slot t' := by simp [State.slot]

/-! ### setSlot -/

@[simp] theorem State.setSlot_params (t : Nat) (x : Option HCode) : (s.setSlot t x).params = s.params := rfl
@[simp] theorem State.setSlot_pending (t : Nat) (x : Option HCode) : (s.setSlot t x).pending = s.pending := rfl
@[simp] theorem State.setSlot_done (t : Nat) (x : Option HCode) : (s.setSlot t x).done = s.done := rfl
@[simp] theorem State.setSlot_err (t : Nat) (x : Option HCode) : (s.setSlot t x).err = s.err := rfl
@[simp] theorem State.setSlot_errOp (t : Nat) (x : Option HCode) : (s.setSlot t x).errOp = s.errOp := rfl
@[simp] theorem State.setSlot_doneIe (t : Nat) (x : Option HCode) : (s.setSlot t x).doneIe = s.doneIe := rfl
@[simp] theorem State.setSlot_errIe (t : Nat) (x : Option HCode) : (s.setSlot t x).errIe = s.errIe := rfl
@[simp] theorem State.setSlot_result (t : Nat) (x : Option HCode) : (s.setSlot t x).result = s.result := rfl
@[simp] theorem State.setSlot_rdTreeAddr (t : Nat) (x : Option HCode) : (s.setSlot t x).rdTreeAddr = s.rdTreeAddr := rfl
@[simp] theorem State.setSlot_rdProbAddr (t : Nat) (x : Option HCode) : (s.setSlot t x).rdProbAddr = s.rdProbAddr := rfl
@[simp] theorem State.setSlot_xf (t : Nat) (x : Option HCode) : (s.setSlot t x).xf = s.xf := rfl
@[simp] theorem State.setSlot_br (t : Nat) (x : Option HCode) : (s.setSlot t x).br = s.br := rfl
@[simp] theorem State.setSlot_hf (t : Nat) (x : Option HCode) : (s.setSlot t x).hf = s.hf := rfl
@[simp] theorem State.setSlot_px (t : Nat) (x : Option HCode) : (s.setSlot t x).px = s.px := rfl
@[simp] theorem State.setSlot_cv (t : Nat) (x : Option HCode) : (s.setSlot t x).cv = s.cv := rfl
@[simp] theorem State.setSlot_slots (t : Nat) (x : Option HCode) : (s.setSlot t x).slots = Sparse.set none s.slots t x := rfl
@[simp] theorem State.setSlot_scratchCl (t : Nat) (x : Option HCode) : (s.setSlot t x).scratchCl = s.scratchCl := rfl
@[simp] theorem State.setSlot_cache (t : Nat) (x : Option HCode) : (s.setSlot t x).cache = s.cache := rfl
@[simp] theorem State.setSlot_mem (t : Nat) (x : Option HCode) : (s.setSlot t x).mem = s.mem := rfl
@[simp] theorem State.setSlot_host (t : Nat) (x : Option HCode) : (s.setSlot t x).host = s.host := rfl
@[simp] theorem State.setSlot_hostData (t : Nat) (x : Option HCode) : (s.setSlot t x).hostData = s.hostData := rfl
@[simp] theorem State.setSlot_drawn (t : Nat) (x : Option HCode) : (s.setSlot t x).drawn = s.drawn := rfl
@[simp] theorem State.setSlot_rd (t : Nat) (x : Option HCode) (k : Ctx) : (s.setSlot t x).rd k = s.rd k := by cases k <;> rfl

/-! ### complete -/

@[simp] theorem State.complete_params : s.complete.params = s.params := rfl
@[simp] theorem State.complete_pending : s.complete.pending = none := rfl
@[simp] theorem State.complete_done : s.complete.done = true := rfl
@[simp] theorem State.complete_err : s.complete.err = s.err := rfl
@[simp] theorem State.complete_errOp : s.complete.errOp = s.errOp := rfl
@[simp] theorem State.complete_doneIe : s.complete.doneIe = s.doneIe := rfl
@[simp] theorem State.complete_errIe : s.complete.errIe = s.errIe := rfl
@[simp] theorem State.complete_result : s.complete.result = s.result := rfl
@[simp] theorem State.complete_rdTreeAddr : s.complete.rdTreeAddr = s.rdTreeAddr := rfl
@[simp] theorem State.complete_rdProbAddr : s.complete.rdProbAddr = s.rdProbAddr := rfl
@[simp] theorem State.complete_xf : s.complete.xf = s.xf := rfl
@[simp] theorem State.complete_br : s.complete.br = s.br := rfl
@[simp] theorem State.complete_hf : s.complete.hf = s.hf := rfl
@[simp] theorem State.complete_px : s.complete.px = s.px := rfl
@[simp] theorem State.complete_cv : s.complete.cv = s.cv := rfl
@[simp] theorem State.complete_slots : s.complete.slots = s.slots := rfl
@[simp] theorem State.complete_scratchCl : s.complete.scratchCl = s.scratchCl := rfl
@[simp] theorem State.complete_cache : s.complete.cache = s.cache := rfl
@[simp] theorem State.complete_mem : s.complete.mem = s.mem := rfl
@[simp] theorem State.complete_host : s.complete.host = s.host := rfl
@[simp] theorem State.complete_hostData : s.complete.hostData = s.hostData := rfl
@[simp] theorem State.complete_drawn : s.complete.drawn = s.drawn := rfl
@[simp] theorem State.complete_rd (k : Ctx) : s.complete.rd k = s.rd k := by cases k <;> rfl
@[simp] theorem State.complete_slot (t' : Nat) : s.complete.slot t' = s.slot t' := by simp [State.slot]

/-! ### raiseError -/

@[simp] theorem State.raiseError_params (o : Byte) (e : ErrKind) : (s.raiseError o e).params = s.params := rfl
@[simp] theorem State.raiseError_pending (o : Byte) (e : ErrKind) : (s.raiseError o e).pending = none := rfl
@[simp] theorem State.raiseError_done (o : Byte) (e : ErrKind) : (s.raiseError o e).done = true := rfl
@[simp] theorem State.raiseError_err (o : Byte) (e : ErrKind) : (s.raiseError o e).err = e.code := rfl
@[simp] theorem State.raiseError_errOp (o : Byte) (e : ErrKind) : (s.raiseError o e).errOp = o := rfl
@[simp] theorem State.raiseError_doneIe (o : Byte) (e : ErrKind) : (s.raiseError o e).doneIe = s.doneIe := rfl
@[simp] theorem State.raiseError_errIe (o : Byte) (e : ErrKind) : (s.raiseError o e).errIe = s.errIe := rfl
@[simp] theorem State.raiseError_result (o : Byte) (e : ErrKind) : (s.raiseError o e).result = s.result := rfl
@[simp] theorem State.raiseError_rdTreeAddr (o : Byte) (e : ErrKind) : (s.raiseError o e).rdTreeAddr = s.rdTreeAddr := rfl
@[simp] theorem State.raiseError_rdProbAddr (o : Byte) (e : ErrKind) : (s.raiseError o e).rdProbAddr = s.rdProbAddr := rfl
@[simp] theorem State.raiseError_xf (o : Byte) (e : ErrKind) : (s.raiseError o e).xf = s.xf := rfl
@[simp] theorem State.raiseError_br (o : Byte) (e : ErrKind) : (s.raiseError o e).br = s.br := rfl
@[simp] theorem State.raiseError_hf (o : Byte) (e : ErrKind) : (s.raiseError o e).hf = s.hf := rfl
@[simp] theorem State.raiseError_px (o : Byte) (e : ErrKind) : (s.raiseError o e).px = s.px := rfl
@[simp] theorem State.raiseError_cv (o : Byte) (e : ErrKind) : (s.raiseError o e).cv = s.cv := rfl
@[simp] theorem State.raiseError_slots (o : Byte) (e : ErrKind) : (s.raiseError o e).slots = s.slots := rfl
@[simp] theorem State.raiseError_scratchCl (o : Byte) (e : ErrKind) : (s.raiseError o e).scratchCl = s.scratchCl := rfl
@[simp] theorem State.raiseError_cache (o : Byte) (e : ErrKind) : (s.raiseError o e).cache = s.cache := rfl
@[simp] theorem State.raiseError_mem (o : Byte) (e : ErrKind) : (s.raiseError o e).mem = s.mem := rfl
@[simp] theorem State.raiseError_host (o : Byte) (e : ErrKind) : (s.raiseError o e).host = s.host := rfl
@[simp] theorem State.raiseError_hostData (o : Byte) (e : ErrKind) : (s.raiseError o e).hostData = s.hostData := rfl
@[simp] theorem State.raiseError_drawn (o : Byte) (e : ErrKind) : (s.raiseError o e).drawn = s.drawn := rfl
@[simp] theorem State.raiseError_rd (o : Byte) (e : ErrKind) (k : Ctx) : (s.raiseError o e).rd k = s.rd k := by cases k <;> rfl
@[simp] theorem State.raiseError_slot (o : Byte) (e : ErrKind) (t' : Nat) : (s.raiseError o e).slot t' = s.slot t' := by simp [State.slot]

/-! ### clearErr -/

@[simp] theorem State.clearErr_params : s.clearErr.params = s.params := rfl
@[simp] theorem State.clearErr_pending : s.clearErr.pending = s.pending := rfl
@[simp] theorem State.clearErr_done : s.clearErr.done = s.done := rfl
@[simp] theorem State.clearErr_err : s.clearErr.err = 0 := rfl
@[simp] theorem State.clearErr_errOp : s.clearErr.errOp = 0 := rfl
@[simp] theorem State.clearErr_doneIe : s.clearErr.doneIe = s.doneIe := rfl
@[simp] theorem State.clearErr_errIe : s.clearErr.errIe = s.errIe := rfl
@[simp] theorem State.clearErr_result : s.clearErr.result = s.result := rfl
@[simp] theorem State.clearErr_rdTreeAddr : s.clearErr.rdTreeAddr = s.rdTreeAddr := rfl
@[simp] theorem State.clearErr_rdProbAddr : s.clearErr.rdProbAddr = s.rdProbAddr := rfl
@[simp] theorem State.clearErr_xf : s.clearErr.xf = s.xf := rfl
@[simp] theorem State.clearErr_br : s.clearErr.br = s.br := rfl
@[simp] theorem State.clearErr_hf : s.clearErr.hf = s.hf := rfl
@[simp] theorem State.clearErr_px : s.clearErr.px = s.px := rfl
@[simp] theorem State.clearErr_cv : s.clearErr.cv = s.cv := rfl
@[simp] theorem State.clearErr_slots : s.clearErr.slots = s.slots := rfl
@[simp] theorem State.clearErr_scratchCl : s.clearErr.scratchCl = s.scratchCl := rfl
@[simp] theorem State.clearErr_cache : s.clearErr.cache = s.cache := rfl
@[simp] theorem State.clearErr_mem : s.clearErr.mem = s.mem := rfl
@[simp] theorem State.clearErr_host : s.clearErr.host = s.host := rfl
@[simp] theorem State.clearErr_hostData : s.clearErr.hostData = s.hostData := rfl
@[simp] theorem State.clearErr_drawn : s.clearErr.drawn = s.drawn := rfl
@[simp] theorem State.clearErr_rd (k : Ctx) : s.clearErr.rd k = s.rd k := by cases k <;> rfl
@[simp] theorem State.clearErr_slot (t' : Nat) : s.clearErr.slot t' = s.slot t' := by simp [State.slot]

/-! ### countDraw -/

@[simp] theorem State.countDraw_params : s.countDraw.params = s.params := rfl
@[simp] theorem State.countDraw_pending : s.countDraw.pending = s.pending := rfl
@[simp] theorem State.countDraw_done : s.countDraw.done = s.done := rfl
@[simp] theorem State.countDraw_err : s.countDraw.err = s.err := rfl
@[simp] theorem State.countDraw_errOp : s.countDraw.errOp = s.errOp := rfl
@[simp] theorem State.countDraw_doneIe : s.countDraw.doneIe = s.doneIe := rfl
@[simp] theorem State.countDraw_errIe : s.countDraw.errIe = s.errIe := rfl
@[simp] theorem State.countDraw_result : s.countDraw.result = s.result := rfl
@[simp] theorem State.countDraw_rdTreeAddr : s.countDraw.rdTreeAddr = s.rdTreeAddr := rfl
@[simp] theorem State.countDraw_rdProbAddr : s.countDraw.rdProbAddr = s.rdProbAddr := rfl
@[simp] theorem State.countDraw_xf : s.countDraw.xf = s.xf := rfl
@[simp] theorem State.countDraw_br : s.countDraw.br = s.br := rfl
@[simp] theorem State.countDraw_hf : s.countDraw.hf = s.hf := rfl
@[simp] theorem State.countDraw_px : s.countDraw.px = s.px := rfl
@[simp] theorem State.countDraw_cv : s.countDraw.cv = s.cv := rfl
@[simp] theorem State.countDraw_slots : s.countDraw.slots = s.slots := rfl
@[simp] theorem State.countDraw_scratchCl : s.countDraw.scratchCl = s.scratchCl := rfl
@[simp] theorem State.countDraw_cache : s.countDraw.cache = s.cache := rfl
@[simp] theorem State.countDraw_mem : s.countDraw.mem = s.mem := rfl
@[simp] theorem State.countDraw_host : s.countDraw.host = s.host := rfl
@[simp] theorem State.countDraw_hostData : s.countDraw.hostData = s.hostData := rfl
@[simp] theorem State.countDraw_drawn : s.countDraw.drawn = s.drawn + 1 := rfl
@[simp] theorem State.countDraw_rd (k : Ctx) : s.countDraw.rd k = s.rd k := by cases k <;> rfl
@[simp] theorem State.countDraw_slot (t' : Nat) : s.countDraw.slot t' = s.slot t' := by simp [State.slot]

/-! ### drawRd -/

@[simp] theorem State.drawRd_params (c : Ctx) : (s.drawRd c).params = s.params := by cases c <;> rfl
@[simp] theorem State.drawRd_pending (c : Ctx) : (s.drawRd c).pending = s.pending := by cases c <;> rfl
@[simp] theorem State.drawRd_done (c : Ctx) : (s.drawRd c).done = s.done := by cases c <;> rfl
@[simp] theorem State.drawRd_err (c : Ctx) : (s.drawRd c).err = s.err := by cases c <;> rfl
@[simp] theorem State.drawRd_errOp (c : Ctx) : (s.drawRd c).errOp = s.errOp := by cases c <;> rfl
@[simp] theorem State.drawRd_doneIe (c : Ctx) : (s.drawRd c).doneIe = s.doneIe := by cases c <;> rfl
@[simp] theorem State.drawRd_errIe (c : Ctx) : (s.drawRd c).errIe = s.errIe := by cases c <;> rfl
@[simp] theorem State.drawRd_result (c : Ctx) : (s.drawRd c).result = s.result := by cases c <;> rfl
@[simp] theorem State.drawRd_rdTreeAddr (c : Ctx) : (s.drawRd c).rdTreeAddr = s.rdTreeAddr := by cases c <;> rfl
@[simp] theorem State.drawRd_rdProbAddr (c : Ctx) : (s.drawRd c).rdProbAddr = s.rdProbAddr := by cases c <;> rfl
@[simp] theorem State.drawRd_xf (c : Ctx) : (s.drawRd c).xf = s.xf := by cases c <;> rfl
@[simp] theorem State.drawRd_br (c : Ctx) : (s.drawRd c).br = s.br := by cases c <;> rfl
@[simp] theorem State.drawRd_hf (c : Ctx) : (s.drawRd c).hf = s.hf := by cases c <;> rfl
@[simp] theorem State.drawRd_px (c : Ctx) : (s.drawRd c).px = s.px := by cases c <;> rfl
@[simp] theorem State.drawRd_cv (c : Ctx) : (s.drawRd c).cv = s.cv := by cases c <;> rfl
@[simp] theorem State.drawRd_slots (c : Ctx) : (s.drawRd c).slots = s.slots := by cases c <;> rfl
@[simp] theorem State.drawRd_scratchCl (c : Ctx) : (s.drawRd c).scratchCl = s.scratchCl := by cases c <;> rfl
@[simp] theorem State.drawRd_cache (c : Ctx) : (s.drawRd c).cache = s.cache := by cases c <;> rfl
@[simp] theorem State.drawRd_mem (c : Ctx) : (s.drawRd c).mem = s.mem := by cases c <;> rfl
@[simp] theorem State.drawRd_host (c : Ctx) : (s.drawRd c).host = s.host := by cases c <;> rfl
@[simp] theorem State.drawRd_hostData (c : Ctx) : (s.drawRd c).hostData = s.hostData := by cases c <;> rfl
@[simp] theorem State.drawRd_drawn (c : Ctx) : (s.drawRd c).drawn = s.drawn + 1 := by cases c <;> rfl
@[simp] theorem State.drawRd_slot (c : Ctx) (t' : Nat) : (s.drawRd c).slot t' = s.slot t' := by simp [State.slot]

/-! ### drawBr -/

@[simp] theorem State.drawBr_params : s.drawBr.params = s.params := rfl
@[simp] theorem State.drawBr_pending : s.drawBr.pending = s.pending := rfl
@[simp] theorem State.drawBr_done : s.drawBr.done = s.done := rfl
@[simp] theorem State.drawBr_err : s.drawBr.err = s.err := rfl
@[simp] theorem State.drawBr_errOp : s.drawBr.errOp = s.errOp := rfl
@[simp] theorem State.drawBr_doneIe : s.drawBr.doneIe = s.doneIe := rfl
@[simp] theorem State.drawBr_errIe : s.drawBr.errIe = s.errIe := rfl
@[simp] theorem State.drawBr_result : s.drawBr.result = s.result := rfl
@[simp] theorem State.drawBr_rdTreeAddr : s.drawBr.rdTreeAddr = s.rdTreeAddr := rfl
@[simp] theorem State.drawBr_rdProbAddr : s.drawBr.rdProbAddr = s.rdProbAddr := rfl
@[simp] theorem State.drawBr_xf : s.drawBr.xf = s.xf := rfl
@[simp] theorem State.drawBr_br : s.drawBr.br = s.br.drawn s.drawn := rfl
@[simp] theorem State.drawBr_hf : s.drawBr.hf = s.hf := rfl
@[simp] theorem State.drawBr_px : s.drawBr.px = s.px := rfl
@[simp] theorem State.drawBr_cv : s.drawBr.cv = s.cv := rfl
@[simp] theorem State.drawBr_slots : s.drawBr.slots = s.slots := rfl
@[simp] theorem State.drawBr_scratchCl : s.drawBr.scratchCl = s.scratchCl := rfl
@[simp] theorem State.drawBr_cache : s.drawBr.cache = s.cache := rfl
@[simp] theorem State.drawBr_mem : s.drawBr.mem = s.mem := rfl
@[simp] theorem State.drawBr_host : s.drawBr.host = s.host := rfl
@[simp] theorem State.drawBr_hostData : s.drawBr.hostData = s.hostData := rfl
@[simp] theorem State.drawBr_drawn : s.drawBr.drawn = s.drawn + 1 := rfl
@[simp] theorem State.drawBr_rd (k : Ctx) : s.drawBr.rd k = s.rd k := by cases k <;> rfl
@[simp] theorem State.drawBr_slot (t' : Nat) : s.drawBr.slot t' = s.slot t' := by simp [State.slot]

/-! ### drawLengths -/

@[simp] theorem State.drawLengths_params (a n : Nat) : (s.drawLengths a n).params = s.params := rfl
@[simp] theorem State.drawLengths_pending (a n : Nat) : (s.drawLengths a n).pending = s.pending := rfl
@[simp] theorem State.drawLengths_done (a n : Nat) : (s.drawLengths a n).done = s.done := rfl
@[simp] theorem State.drawLengths_err (a n : Nat) : (s.drawLengths a n).err = s.err := rfl
@[simp] theorem State.drawLengths_errOp (a n : Nat) : (s.drawLengths a n).errOp = s.errOp := rfl
@[simp] theorem State.drawLengths_doneIe (a n : Nat) : (s.drawLengths a n).doneIe = s.doneIe := rfl
@[simp] theorem State.drawLengths_errIe (a n : Nat) : (s.drawLengths a n).errIe = s.errIe := rfl
@[simp] theorem State.drawLengths_result (a n : Nat) : (s.drawLengths a n).result = s.result := rfl
@[simp] theorem State.drawLengths_rdTreeAddr (a n : Nat) : (s.drawLengths a n).rdTreeAddr = s.rdTreeAddr := rfl
@[simp] theorem State.drawLengths_rdProbAddr (a n : Nat) : (s.drawLengths a n).rdProbAddr = s.rdProbAddr := rfl
@[simp] theorem State.drawLengths_xf (a n : Nat) : (s.drawLengths a n).xf = s.xf := rfl
@[simp] theorem State.drawLengths_br (a n : Nat) : (s.drawLengths a n).br = s.br.drawn s.drawn := rfl
@[simp] theorem State.drawLengths_hf (a n : Nat) : (s.drawLengths a n).hf = s.hf := rfl
@[simp] theorem State.drawLengths_px (a n : Nat) : (s.drawLengths a n).px = s.px := rfl
@[simp] theorem State.drawLengths_cv (a n : Nat) : (s.drawLengths a n).cv = s.cv := rfl
@[simp] theorem State.drawLengths_slots (a n : Nat) : (s.drawLengths a n).slots = s.slots := rfl
@[simp] theorem State.drawLengths_scratchCl (a n : Nat) : (s.drawLengths a n).scratchCl = scratchDrawn s.drawn := rfl
@[simp] theorem State.drawLengths_cache (a n : Nat) : (s.drawLengths a n).cache = s.cache := rfl
@[simp] theorem State.drawLengths_mem (a n : Nat) : (s.drawLengths a n).mem = memDrawn s.drawn a n s.mem := rfl
@[simp] theorem State.drawLengths_host (a n : Nat) : (s.drawLengths a n).host = s.host := rfl
@[simp] theorem State.drawLengths_hostData (a n : Nat) : (s.drawLengths a n).hostData = s.hostData := rfl
@[simp] theorem State.drawLengths_drawn (a n : Nat) : (s.drawLengths a n).drawn = s.drawn + 1 := rfl
@[simp] theorem State.drawLengths_rd (a n : Nat) (k : Ctx) : (s.drawLengths a n).rd k = s.rd k := by cases k <;> rfl
@[simp] theorem State.drawLengths_slot (a n : Nat) (t' : Nat) : (s.drawLengths a n).slot t' = s.slot t' := by simp [State.slot]

/-! ### drawPixels -/

@[simp] theorem State.drawPixels_params (a n : Nat) : (s.drawPixels a n).params = s.params := rfl
@[simp] theorem State.drawPixels_pending (a n : Nat) : (s.drawPixels a n).pending = s.pending := rfl
@[simp] theorem State.drawPixels_done (a n : Nat) : (s.drawPixels a n).done = s.done := rfl
@[simp] theorem State.drawPixels_err (a n : Nat) : (s.drawPixels a n).err = s.err := rfl
@[simp] theorem State.drawPixels_errOp (a n : Nat) : (s.drawPixels a n).errOp = s.errOp := rfl
@[simp] theorem State.drawPixels_doneIe (a n : Nat) : (s.drawPixels a n).doneIe = s.doneIe := rfl
@[simp] theorem State.drawPixels_errIe (a n : Nat) : (s.drawPixels a n).errIe = s.errIe := rfl
@[simp] theorem State.drawPixels_result (a n : Nat) : (s.drawPixels a n).result = s.result := rfl
@[simp] theorem State.drawPixels_rdTreeAddr (a n : Nat) : (s.drawPixels a n).rdTreeAddr = s.rdTreeAddr := rfl
@[simp] theorem State.drawPixels_rdProbAddr (a n : Nat) : (s.drawPixels a n).rdProbAddr = s.rdProbAddr := rfl
@[simp] theorem State.drawPixels_xf (a n : Nat) : (s.drawPixels a n).xf = s.xf := rfl
@[simp] theorem State.drawPixels_br (a n : Nat) : (s.drawPixels a n).br = s.br.drawn s.drawn := rfl
@[simp] theorem State.drawPixels_hf (a n : Nat) : (s.drawPixels a n).hf = s.hf := rfl
@[simp] theorem State.drawPixels_px (a n : Nat) : (s.drawPixels a n).px = { s.px with pos := Config.freeBits 32 s.drawn 1 } := rfl
@[simp] theorem State.drawPixels_cv (a n : Nat) : (s.drawPixels a n).cv = s.cv := rfl
@[simp] theorem State.drawPixels_slots (a n : Nat) : (s.drawPixels a n).slots = s.slots := rfl
@[simp] theorem State.drawPixels_scratchCl (a n : Nat) : (s.drawPixels a n).scratchCl = s.scratchCl := rfl
@[simp] theorem State.drawPixels_cache (a n : Nat) : (s.drawPixels a n).cache = cacheDrawn s.drawn Config.cacheSize s.cache := rfl
@[simp] theorem State.drawPixels_mem (a n : Nat) : (s.drawPixels a n).mem = memDrawn s.drawn a n s.mem := rfl
@[simp] theorem State.drawPixels_host (a n : Nat) : (s.drawPixels a n).host = s.host := rfl
@[simp] theorem State.drawPixels_hostData (a n : Nat) : (s.drawPixels a n).hostData = s.hostData := rfl
@[simp] theorem State.drawPixels_drawn (a n : Nat) : (s.drawPixels a n).drawn = s.drawn + 1 := rfl
@[simp] theorem State.drawPixels_rd (a n : Nat) (k : Ctx) : (s.drawPixels a n).rd k = s.rd k := by cases k <;> rfl
@[simp] theorem State.drawPixels_slot (a n : Nat) (t' : Nat) : (s.drawPixels a n).slot t' = s.slot t' := by simp [State.slot]

/-! ### Contexts and slots -/

theorem State.setRd_rd (c : Ctx) (x : RdCtx) (k : Ctx) : (s.setRd c x).rd k = if k = c then x else s.rd k := by
  cases c <;> cases k <;> rfl

@[simp] theorem State.setRd_rd_same (c : Ctx) (x : RdCtx) : (s.setRd c x).rd c = x := by cases c <;> rfl

theorem State.drawRd_rd (c k : Ctx) :
    (s.drawRd c).rd k =
      if k = c then
        { s.rd c with ptr := Config.freeBits 32 s.drawn 0, value := Config.freeBits 16 s.drawn 0,
                      range := Config.freeBits 8 s.drawn 0, bitcnt := Config.freeBits 3 s.drawn 0 }
      else s.rd k := by
  cases c <;> cases k <;> rfl

@[simp] theorem BrRegs.drawn_stop (b : BrRegs) (d : Nat) : (b.drawn d).stop = b.stop := rfl

end Sys2Proof.Machine
end

