-- ==== Sys2Proof/Laws/Commands.lean ====
section
/-! SUPPORT. How a command can end: one lemma for each meaning, saying every next state it answers. A command ends in its
argument checks, in a later raise, or in success; it never faults and is never refused. -/

namespace Sys2Proof.Machine

/-! ### Endings -/

theorem withChecks_ok (op : Byte) (s : State) (run : Res) : withChecks op true s run = run := rfl

theorem withChecks_fail (op : Byte) (s : State) (run : Res) :
    withChecks op false s run = .next (s.raiseError op .invalidArgument) := rfl

/-- A command with argument checks: they fail, or it goes on. -/
theorem withChecks_cases {op : Byte} {ok : Bool} {s t : State} {run : Res} (h : withChecks op ok s run = .next t) :
    (ok = false ∧ t = s.raiseError op .invalidArgument) ∨ (ok = true ∧ run = .next t) := by
  cases ok
  · exact .inl ⟨rfl, (Host.Outcome.next.inj h).symm⟩
  · exact .inr ⟨rfl, h⟩

/-- A read through a range-decoder context. -/
theorem rdCommand_cases {op : Byte} {c : Ctx} {s t : State} {read : RdCtx → Except ErrKind (Word × RdCtx)}
    (h : rdCommand op c s read = .next t) :
    ((s.rd c).valid = false ∧ t = s.raiseError op .invalidArgument) ∨
      (s.rd c).valid = true ∧
        ((∃ e, read (s.rd c) = .error e ∧ t = (s.drawRd c).raiseError op e) ∨
          ∃ v x, read (s.rd c) = .ok (v, x) ∧ t = ((s.setRd c x).setResult v).complete) := by
  rcases withChecks_cases h with h | ⟨hv, h⟩
  · exact .inl h
  · refine .inr ⟨hv, ?_⟩
    split at h
    · exact .inl ⟨_, ‹_›, (Host.Outcome.next.inj h).symm⟩
    · exact .inr ⟨_, _, ‹_›, (Host.Outcome.next.inj h).symm⟩

theorem rdCommand_ok {op : Byte} {c : Ctx} {s : State} {read : RdCtx → Except ErrKind (Word × RdCtx)} {v : Word} {x : RdCtx}
    (hv : (s.rd c).valid = true) (h : read (s.rd c) = .ok (v, x)) :
    rdCommand op c s read = .next ((s.setRd c x).setResult v).complete := by
  simp only [rdCommand, hv, withChecks_ok, h]; rfl

theorem rdCommand_error {op : Byte} {c : Ctx} {s : State} {read : RdCtx → Except ErrKind (Word × RdCtx)} {e : ErrKind}
    (hv : (s.rd c).valid = true) (h : read (s.rd c) = .error e) :
    rdCommand op c s read = .next ((s.drawRd c).raiseError op e) := by
  simp only [rdCommand, hv, withChecks_ok, h]; rfl

/-! ### One lemma for each command -/

theorem execNop_eq (s : State) : execNop s = .next s.complete := rfl

theorem execRdInit_cases {c : Ctx} {s t : State} (h : execRdInit c s = .next t) :
    (rdEndOk s c = false ∧ t = s.raiseError 0x01#8 .invalidArgument) ∨
      rdEndOk s c = true ∧
        ((∃ e, rdLoad s.params s.mem { s.rd c with valid := false } = .error e ∧
            t = ((s.setRd c { s.rd c with valid := false }).drawRd c).raiseError 0x01#8 e) ∨
          ∃ x, rdLoad s.params s.mem { s.rd c with valid := false } = .ok x ∧ t = (s.setRd c x).complete) := by
  rcases withChecks_cases h with h | ⟨hv, h⟩
  · exact .inl h
  · refine .inr ⟨hv, ?_⟩
    split at h
    · exact .inl ⟨_, ‹_›, (Host.Outcome.next.inj h).symm⟩
    · exact .inr ⟨_, ‹_›, (Host.Outcome.next.inj h).symm⟩

theorem execBrPeek_cases {n : Nat} {s t : State} (h : execBrPeek n s = .next t) :
    (brStreamOk s = false ∧ t = s.raiseError 0x10#8 .invalidArgument) ∨
      (brStreamOk s = true ∧
        t = ((s.setBr (brPeek s.mem n s.br).2).setResult (BitVec.ofNat 32 (brPeek s.mem n s.br).1)).complete) := by
  rcases withChecks_cases h with h | ⟨hv, h⟩
  · exact .inl h
  · exact .inr ⟨hv, (Host.Outcome.next.inj h).symm⟩

theorem execBrSkip_cases {n : Nat} {s t : State} (h : execBrSkip n s = .next t) :
    (brStreamOk s = false ∧ t = s.raiseError 0x11#8 .invalidArgument) ∨
      brStreamOk s = true ∧
        ((∃ e, brSkip s.mem n s.br = .error e ∧ t = s.drawBr.raiseError 0x11#8 e) ∨
          ∃ b, brSkip s.mem n s.br = .ok b ∧ t = (s.setBr b).complete) := by
  rcases withChecks_cases h with h | ⟨hv, h⟩
  · exact .inl h
  · refine .inr ⟨hv, ?_⟩
    split at h
    · exact .inl ⟨_, ‹_›, (Host.Outcome.next.inj h).symm⟩
    · exact .inr ⟨_, ‹_›, (Host.Outcome.next.inj h).symm⟩

theorem execBrRead_cases {n : Nat} {s t : State} (h : execBrRead n s = .next t) :
    (brStreamOk s = false ∧ t = s.raiseError 0x12#8 .invalidArgument) ∨
      brStreamOk s = true ∧
        ((∃ e, brRead s.mem n s.br = .error e ∧ t = s.drawBr.raiseError 0x12#8 e) ∨
          ∃ v b, brRead s.mem n s.br = .ok (v, b) ∧ t = ((s.setBr b).setResult (BitVec.ofNat 32 v)).complete) := by
  rcases withChecks_cases h with h | ⟨hv, h⟩
  · exact .inl h
  · refine .inr ⟨hv, ?_⟩
    split at h
    · exact .inl ⟨_, ‹_›, (Host.Outcome.next.inj h).symm⟩
    · exact .inr ⟨_, _, ‹_›, (Host.Outcome.next.inj h).symm⟩

theorem execXfIdctAdd_cases {s t : State} (h : execXfIdctAdd s = .next t) :
    ((xfCoefOk s && xfPixOk s) = false ∧ t = s.raiseError 0x20#8 .invalidArgument) ∨
      ((xfCoefOk s && xfPixOk s) = true ∧
        t = (s.setMem (xfAddPixels (xfPixAddr s) 0 (idctCore s.params.xfWrap16 (xfCoefs s)) s.mem)).complete) := by
  rcases withChecks_cases h with h | ⟨hv, h⟩
  · exact .inl h
  · exact .inr ⟨hv, (Host.Outcome.next.inj h).symm⟩

theorem execXfIdct_cases {s t : State} (h : execXfIdct s = .next t) :
    ((xfCoefOk s && xfOutOk s) = false ∧ t = s.raiseError 0x21#8 .invalidArgument) ∨
      ((xfCoefOk s && xfOutOk s) = true ∧
        t = (s.setMem (xfStoreHalves (fun i => s.xf.outAddr.toNat + 2 * i) 0
          (idctCore s.params.xfWrap16 (xfCoefs s)) s.mem)).complete) := by
  rcases withChecks_cases h with h | ⟨hv, h⟩
  · exact .inl h
  · exact .inr ⟨hv, (Host.Outcome.next.inj h).symm⟩

theorem execXfIwht_cases {s t : State} (h : execXfIwht s = .next t) :
    ((xfCoefOk s && xfWhtOutOk s) = false ∧ t = s.raiseError 0x22#8 .invalidArgument) ∨
      ((xfCoefOk s && xfWhtOutOk s) = true ∧
        t = (s.setMem (xfStoreHalves (fun i => s.xf.outAddr.toNat + i * s.xf.outStride.toNat) 0
          (iwhtCore s.params.xfWrap16 (xfCoefs s)) s.mem)).complete) := by
  rcases withChecks_cases h with h | ⟨hv, h⟩
  · exact .inl h
  · exact .inr ⟨hv, (Host.Outcome.next.inj h).symm⟩

theorem execCvConvert_cases {s t : State} (h : execCvConvert s = .next t) :
    (cvArgsOk s = false ∧ t = s.raiseError 0x30#8 .invalidArgument) ∨
      (cvArgsOk s = true ∧ t = (s.setMem (cvRows s.cv s.cv.height.toNat s.mem)).complete) := by
  rcases withChecks_cases h with h | ⟨hv, h⟩
  · exact .inl h
  · exact .inr ⟨hv, (Host.Outcome.next.inj h).symm⟩

theorem execHfBuild_cases {k : Nat} {s t : State} (h : execHfBuild k s = .next t) :
    ((slotIndexOk k && alphaOk s && lenArrayOk s) = false ∧ t = s.raiseError 0x40#8 .invalidArgument) ∨
      (slotIndexOk k && alphaOk s && lenArrayOk s) = true ∧
        ((lensValid (lenArray s) = false ∧ t = (s.setSlot k none).raiseError 0x40#8 .invalidData) ∨
          (lensValid (lenArray s) = true ∧ t = (s.setSlot k (some (lenArray s))).complete)) := by
  rcases withChecks_cases h with h | ⟨hv, h⟩
  · exact .inl h
  · refine .inr ⟨hv, ?_⟩
    split at h
    · exact .inr ⟨‹_›, (Host.Outcome.next.inj h).symm⟩
    · exact .inl ⟨Bool.eq_false_iff.2 ‹¬_›, (Host.Outcome.next.inj h).symm⟩

theorem execHfDecode_cases {k : Nat} {s t : State} (h : execHfDecode k s = .next t) :
    ((slotIndexOk k && (s.slot k).isSome && brStreamOk s) = false ∧ t = s.raiseError 0x41#8 .invalidArgument) ∨
      (slotIndexOk k && (s.slot k).isSome && brStreamOk s) = true ∧
        ((∃ e, hfDecode ((s.slot k).getD []) s.mem s.br = .error e ∧ t = s.drawBr.raiseError 0x41#8 e) ∨
          ∃ v b, hfDecode ((s.slot k).getD []) s.mem s.br = .ok (v, b) ∧
            t = ((s.setBr b).setResult (BitVec.ofNat 32 v)).complete) := by
  rcases withChecks_cases h with h | ⟨hv, h⟩
  · exact .inl h
  · refine .inr ⟨hv, ?_⟩
    split at h
    · exact .inl ⟨_, ‹_›, (Host.Outcome.next.inj h).symm⟩
    · exact .inr ⟨_, _, ‹_›, (Host.Outcome.next.inj h).symm⟩

theorem execHfReadLengths_cases {s t : State} (h : execHfReadLengths s = .next t) :
    ((alphaOk s && lenArrayOk s && brStreamOk s) = false ∧ t = s.raiseError 0x42#8 .invalidArgument) ∨
      (alphaOk s && lenArrayOk s && brStreamOk s) = true ∧
        ((∃ e, readLengthList s.mem s.hf.alpha.toNat s.br = .error e ∧
            t = (s.drawLengths s.hf.lenAddr.toNat s.hf.alpha.toNat).raiseError 0x42#8 e) ∨
          ∃ l cl b, readLengthList s.mem s.hf.alpha.toNat s.br = .ok (l, cl, b) ∧
            t = { s with mem := memStoreList s.mem s.hf.lenAddr.toNat (l.map (BitVec.ofNat 8)), br := b,
                         scratchCl := cl.or s.scratchCl }.complete) := by
  rcases withChecks_cases h with h | ⟨hv, h⟩
  · exact .inl h
  · refine .inr ⟨hv, ?_⟩
    split at h
    · exact .inl ⟨_, ‹_›, (Host.Outcome.next.inj h).symm⟩
    · exact .inr ⟨_, _, _, ‹_›, (Host.Outcome.next.inj h).symm⟩

theorem execHfFree_cases {k : Nat} {s t : State} (h : execHfFree k s = .next t) :
    (slotIndexOk k = false ∧ t = s.raiseError 0x43#8 .invalidArgument) ∨
      (slotIndexOk k = true ∧ t = (s.setSlot k none).complete) := by
  rcases withChecks_cases h with h | ⟨hv, h⟩
  · exact .inl h
  · exact .inr ⟨hv, (Host.Outcome.next.inj h).symm⟩

theorem execPxDecode_cases {s t : State} (h : execPxDecode s = .next t) :
    (pxArgsOk s = false ∧ t = s.raiseError 0x50#8 .invalidArgument) ∨
      pxArgsOk s = true ∧
        ((∃ e, pxLoop s.px s.slots (s.px.width.toNat * s.px.height.toNat) (pxStart s) = .error e ∧
            t = (s.drawPixels s.px.dstAddr.toNat (4 * (s.px.width.toNat * s.px.height.toNat))).raiseError 0x50#8 e) ∨
          ∃ r, pxLoop s.px s.slots (s.px.width.toNat * s.px.height.toNat) (pxStart s) = .ok r ∧
            t = { s with
              mem := r.mem, cache := r.cache, br := r.br,
              px := { s.px with pos := BitVec.ofNat 32 (s.px.width.toNat * s.px.height.toNat) },
              result := BitVec.ofNat 32 (s.px.width.toNat * s.px.height.toNat) }.complete) := by
  rcases withChecks_cases h with h | ⟨hv, h⟩
  · exact .inl h
  · refine .inr ⟨hv, ?_⟩
    dsimp only at h
    split at h
    · exact .inl ⟨_, ‹_›, (Host.Outcome.next.inj h).symm⟩
    · exact .inr ⟨_, ‹_›, (Host.Outcome.next.inj h).symm⟩

/-! ### Every command completes -/

theorem withChecks_next (op : Byte) (ok : Bool) (s : State) {run : Res} (h : ∃ t, run = .next t) :
    ∃ t, withChecks op ok s run = .next t := by
  cases ok
  · exact ⟨_, rfl⟩
  · exact h

theorem exec_next (i : Instr) (s : State) : ∃ t, exec i s = .next t := by
  cases i
  case nop => exact ⟨_, rfl⟩
  case pxDecode =>
    refine withChecks_next _ _ _ ?_
    rcases h : pxLoop s.px s.slots (s.px.width.toNat * s.px.height.toNat) (pxStart s) with e | r <;>
      exact ⟨_, rfl⟩
  all_goals
    refine withChecks_next _ _ _ ?_
    first
    | exact ⟨_, rfl⟩
    | (split <;> exact ⟨_, rfl⟩)

end Sys2Proof.Machine
end

