-- ==== Sys2Proof/Laws/Decode.lean ====
section
/-! SUPPORT. Decoding and encoding: what a row's match says of the word's OP, which row an OP finds, and the fields of an
encoded word. -/

namespace Sys2Proof

/-- A word that matches a row (`(w & mask) = op`, with OP in the mask) has the row's OP. -/
theorem opField_of_match {w mask : Word} {op : Byte} (hm : mask.extractLsb' 0 8 = 255#8)
    (h : w &&& mask = op.setWidth 32) : opField w = op := by
  have h1 : (w &&& mask).extractLsb' 0 8 = opField w := by
    rw [BitVec.extractLsb'_and, hm, show (255#8 : BitVec 8) = BitVec.allOnes 8 from rfl, BitVec.and_allOnes]; rfl
  rw [← h1, h]
  apply BitVec.eq_of_toNat_eq; simp; omega

/-- OP is the low byte of a word laid out as fields above OP. -/
theorem opField_append {n : Nat} (hi : BitVec n) (op : Byte) (h : n + 8 = 32) :
    opField ((hi ++ op).cast h) = op := by
  apply BitVec.eq_of_toNat_eq
  have hop := op.isLt
  simp only [opField, BitVec.extractLsb'_toNat, BitVec.toNat_cast, BitVec.toNat_append, Nat.shiftRight_zero,
    Nat.shiftLeft_eq]
  rw [Nat.mul_comm, ← Nat.two_pow_add_eq_or_of_lt hop]
  omega

theorem opField_formatR (p : Byte) (n : Nat) (c : Ctx) (op : Byte) : opField (formatR p n c op) = op :=
  opField_append (0#8 ++ p ++ 0#2 ++ BitVec.ofNat 5 n ++ c.bit) op rfl

theorem opField_formatB (n : Nat) (op : Byte) : opField (formatB n op) = op :=
  opField_append (0#18 ++ BitVec.ofNat 5 n ++ 0#1) op rfl

theorem opField_formatH (t : Nat) (op : Byte) : opField (formatH t op) = op :=
  opField_append (BitVec.ofNat 12 t ++ 0#12) op rfl

theorem opField_formatN (op : Byte) : opField (formatN op) = op := opField_append 0#24 op rfl

theorem opField_eq (w : Word) : opField w = BitVec.ofNat 8 w.toNat := by
  apply BitVec.eq_of_toNat_eq; simp [opField]

/-- The mask of every row has OP. -/
theorem rows_mask : ∀ r ∈ rows, r.mask.extractLsb' 0 8 = 255#8 := by decide

/-- No two rows have the same OP. -/
theorem rows_op : rows.Pairwise (fun a b => a.op ≠ b.op) := by decide

/-- A word decodes exactly when some row matches it, and to that row's command. -/
theorem decode_ok_iff {w : Word} {i : Instr} :
    decode w = .ok i ↔ ∃ r ∈ rows, w &&& r.mask = r.op.setWidth 32 ∧ r.make w = i := by
  have hf : ∀ l : List Row, (∀ r ∈ l, r.mask.extractLsb' 0 8 = 255#8) → l.Pairwise (fun a b => a.op ≠ b.op) →
      ∀ r ∈ l, w &&& r.mask = r.op.setWidth 32 → l.find? (fun r => r.op == opField w) = some r := by
    intro l
    induction l with
    | nil => simp
    | cons a l ih =>
      intro hm hp r hr h
      have ho := opField_of_match (hm r hr) h
      rcases List.mem_cons.1 hr with rfl | hr
      · simp [ho]
      · rw [List.find?_cons_of_neg]
        · exact ih (fun x hx => hm x (by simp [hx])) (List.pairwise_cons.1 hp).2 r hr h
        · rw [ho]; simpa using (List.pairwise_cons.1 hp).1 r hr
  constructor
  · intro h
    unfold decode at h
    split at h
    · cases h
    · rename_i r hr
      split at h
      · exact ⟨r, List.mem_of_find?_eq_some hr, ‹_›, by simpa using h⟩
      · cases h
  · rintro ⟨r, hr, hm, rfl⟩
    unfold decode
    rw [hf rows rows_mask rows_op r hr hm]
    simp [hm]

end Sys2Proof
end

