-- ==== Sys2Proof/Laws/Operands.lean ====
section
/-! SUPPORT. The argument checks of each command say what its rule says (`ArgsOk`). -/

namespace Sys2Proof.Machine

open Sys2Proof.Claim

variable {s : State}

theorem slotIndexOk_iff {t : Nat} : slotIndexOk t = true ↔ t < 1280 := decide_eq_true_iff

theorem alphaOk_iff : alphaOk s = true ↔ 1 ≤ s.hf.alpha.toNat ∧ s.hf.alpha.toNat ≤ 2328 := by
  unfold alphaOk; rw [Bool.and_eq_true, decide_eq_true_iff, decide_eq_true_iff]; rfl

theorem dimOk_iff {n : Nat} : dimOk n = true ↔ 1 ≤ n ∧ n ≤ 16384 := by
  unfold dimOk; rw [Bool.and_eq_true, decide_eq_true_iff, decide_eq_true_iff]; rfl

theorem inDmem_ok {p : Params} {a n : Nat} : inDmem p a n = true ↔ a + n ≤ p.dmemSize := decide_eq_true_iff

theorem lenArrayOk_iff : lenArrayOk s = true ↔ s.hf.lenAddr.toNat + s.hf.alpha.toNat ≤ s.params.dmemSize := inDmem_ok

theorem rdInit_args {c : Ctx} : rdEndOk s c = true ↔ ArgsOk s (.rdInit c) := by simp [rdEndOk, ArgsOk]

theorem br_args : brStreamOk s = true ↔ s.br.stop.toNat ≤ s.params.dmemSize := by simp [brStreamOk]

theorem xfCoef_args :
    xfCoefOk s = true ↔ s.xf.coefAddr.toNat % 2 = 0 ∧ s.xf.coefAddr.toNat + 32 ≤ s.params.dmemSize := by
  simp [xfCoefOk, inDmem]

theorem xfIdctAdd_args : (xfCoefOk s && xfPixOk s) = true ↔ ArgsOk s .xfIdctAdd := by
  rw [Bool.and_eq_true, xfCoef_args]; simp [xfPixOk, inDmem, ArgsOk]

theorem xfIdct_args : (xfCoefOk s && xfOutOk s) = true ↔ ArgsOk s .xfIdct := by
  rw [Bool.and_eq_true, xfCoef_args]; simp [xfOutOk, inDmem, ArgsOk]

theorem xfIwht_args : (xfCoefOk s && xfWhtOutOk s) = true ↔ ArgsOk s .xfIwht := by
  rw [Bool.and_eq_true, xfCoef_args]; simp [xfWhtOutOk, inDmem, ArgsOk, and_assoc]

theorem cv_args : cvArgsOk s = true ↔ ArgsOk s .cvConvert := by
  simp only [cvArgsOk, Bool.and_eq_true, dimOk_iff, inDmem_ok, ArgsOk, cvYAddr, cvUAddr, cvVAddr, cvDstAddr, cvCw, cvCh,
    and_assoc, Nat.add_zero, Nat.mul_zero]

theorem hfBuild_args {t : Nat} : (slotIndexOk t && alphaOk s && lenArrayOk s) = true ↔ ArgsOk s (.hfBuild t) := by
  simp only [Bool.and_eq_true, slotIndexOk_iff, alphaOk_iff, lenArrayOk_iff, ArgsOk, and_assoc]

theorem hfDecode_args {t : Nat} :
    (slotIndexOk t && (s.slot t).isSome && brStreamOk s) = true ↔ ArgsOk s (.hfDecode t) := by
  simp only [Bool.and_eq_true, slotIndexOk_iff, br_args, ArgsOk, and_assoc, Option.isSome_iff_ne_none]

theorem hfReadLengths_args : (alphaOk s && lenArrayOk s && brStreamOk s) = true ↔ ArgsOk s .hfReadLengths := by
  simp only [Bool.and_eq_true, alphaOk_iff, lenArrayOk_iff, br_args, ArgsOk, and_assoc]

theorem hfFree_args {t : Nat} : slotIndexOk t = true ↔ ArgsOk s (.hfFree t) := slotIndexOk_iff

theorem pxSlotsBuilt_iff : pxSlotsBuilt s = true ↔
    ∀ g < s.px.numGroups.toNat, ∀ t < 5, s.slot (s.px.groupBase.toNat + 5 * g + t) ≠ none := by
  simp only [pxSlotsBuilt, List.all_eq_true, List.mem_range, Option.isSome_iff_ne_none]
  constructor
  · intro h g hg t ht
    have := h (5 * g + t) (by omega)
    rwa [← Nat.add_assoc] at this
  · intro h i hi
    have := h (i / 5) (by omega) (i % 5) (by omega)
    rwa [Nat.add_assoc, show 5 * (i / 5) + i % 5 = i by omega] at this

theorem pxDstOk_iff : pxDstOk s = true ↔ s.px.dstAddr.toNat % 4 = 0 ∧
    s.px.dstAddr.toNat + 4 * s.px.width.toNat * s.px.height.toNat ≤ s.params.dmemSize := by
  simp only [pxDstOk, Bool.and_eq_true, decide_eq_true_iff, inDmem_ok]

theorem pxHimgOk_iff : pxHimgOk s = true ↔ (s.px.hen = true →
    (2 ≤ s.px.hbits.toNat ∧ s.px.hbits.toNat ≤ 9) ∧ s.px.himgAddr.toNat % 4 = 0 ∧
      s.px.himgAddr.toNat + 4 * himgWords s.px.hbits.toNat s.px.width.toNat * himgWords s.px.hbits.toNat s.px.height.toNat ≤
        s.params.dmemSize) := by
  unfold pxHimgOk
  cases s.px.hen
  · simp
  · simp only [Bool.not_true, Bool.false_or, Bool.and_eq_true, decide_eq_true_iff, inDmem_ok, true_imp_iff, and_assoc]

theorem px_args : pxArgsOk s = true ↔ ArgsOk s .pxDecode := by
  have h1 : decide (s.px.numGroups.toNat ≤ Config.maxGroups) = true ↔ s.px.numGroups.toNat ≤ 256 := decide_eq_true_iff
  have h2 : decide (s.px.ccBits.toNat ≤ Config.ccBitsMax) = true ↔ s.px.ccBits.toNat ≤ 11 := decide_eq_true_iff
  have h3 : decide (s.px.groupBase.toNat + 5 * s.px.numGroups.toNat ≤ Config.htSlots) = true ↔
      s.px.groupBase.toNat + 5 * s.px.numGroups.toNat ≤ 1280 := decide_eq_true_iff
  simp only [pxArgsOk, Bool.and_eq_true, h1, h2, h3, dimOk_iff, pxSlotsBuilt_iff, pxDstOk_iff, pxHimgOk_iff, br_args, ArgsOk,
    and_assoc, decide_eq_true_iff, himgWords]

end Sys2Proof.Machine
end

