-- ==== Sys2Proof/Laws/Huffman.lean ====
section
/-! SUPPORT. Canonical codes: the symbols of a length are consecutive, codes of different lengths do not overlap, a complete
code matches any 15 bits; and what decoding and reading code-length lists keep and raise. -/

namespace Sys2Proof.Machine

open Sys2Proof.Claim

variable {m : Memory}

/-! ### Codes -/

/-- The codes of lengths up to `n`, as `n`-bit prefixes, end here. -/
def codeEnd (l : HCode) (n : Nat) : Nat := firstCode l n + lenCount l n

theorem firstCode_succ (l : HCode) (n : Nat) : firstCode l (n + 1) = 2 * codeEnd l n := by
  simp only [firstCode, codeEnd]; omega

theorem codeEnd_zero (l : HCode) : codeEnd l 0 = 0 := rfl

/-- Codes of length `n` end before the codes of a longer length `n + k + 1` begin. -/
theorem codeEnd_le_firstCode (l : HCode) (n : Nat) : ∀ k, codeEnd l n * 2 ^ (k + 1) ≤ firstCode l (n + k + 1) := by
  intro k
  induction k with
  | zero => rw [Nat.add_zero, firstCode_succ]; omega
  | succ k ih =>
    rw [show n + (k + 1) + 1 = n + k + 1 + 1 by omega, firstCode_succ, Nat.pow_succ, ← Nat.mul_assoc]
    have : firstCode l (n + k + 1) ≤ codeEnd l (n + k + 1) := Nat.le_add_right _ _
    omega

theorem codeEnd_mono (l : HCode) (n : Nat) : ∀ k, codeEnd l n * 2 ^ k ≤ codeEnd l (n + k) := by
  intro k
  cases k with
  | zero => simp
  | succ k => exact Nat.le_trans (codeEnd_le_firstCode l n k) (Nat.le_add_right _ _)

/-- The symbol that is `r`-th of its length. -/
theorem nthOfLen_iff {n : Nat} : ∀ {l : HCode} {i r y : Nat},
    nthOfLen n l i r = some (i + y) ↔ y < l.length ∧ l.getD y 0 = n ∧ (l.take y).count n = r := by
  intro l
  induction l with
  | nil => intro i r y; simp [nthOfLen]
  | cons x l ih =>
    intro i r y
    cases y with
    | zero =>
      simp only [nthOfLen, Nat.add_zero, List.length_cons, List.getD_cons_zero, List.take_zero, List.count_nil]
      have hno : ∀ r, nthOfLen n l (i + 1) r ≠ some i := by
        intro r h
        have hge : ∀ (l : HCode) (i r z : Nat), nthOfLen n l i r = some z → i ≤ z := by
          intro l
          induction l with
          | nil => intro i r z h; simp [nthOfLen] at h
          | cons x l ih =>
            intro i r z h
            simp only [nthOfLen] at h
            split at h
            · split at h
              · cases h; omega
              · have := ih _ _ _ h; omega
            · have := ih _ _ _ h; omega
        have := hge _ _ _ _ h
        omega
      split
      · split
        · simp_all
        · simp_all [eq_comm]
      · simp_all
    | succ y =>
      simp only [nthOfLen, List.length_cons, List.getD_cons_succ, List.take_succ_cons, List.count_cons]
      rw [show i + (y + 1) = i + 1 + y by omega]
      split
      · split
        · subst_vars; simp; omega
        · rw [ih]; subst_vars; simp; omega
      · rw [ih]
        have : (x == n) = false := by simpa using ‹¬ x = n›
        simp [this]

theorem codeOf_eq (l : HCode) (y : Nat) : codeOf l y = firstCode l (l.getD y 0) + (l.take y).count (l.getD y 0) := rfl

theorem symbolWith_iff {l : HCode} {n code y : Nat} :
    symbolWith l n code = some y ↔ y < l.length ∧ l.getD y 0 = n ∧ codeOf l y = code := by
  unfold symbolWith
  rw [← Nat.zero_add y] 
  split
  · rw [Nat.zero_add]
    constructor
    · intro h; cases h
    · rintro ⟨-, h2, h3⟩
      rw [codeOf_eq, h2] at h3
      omega
  · rw [nthOfLen_iff, Nat.zero_add]
    constructor
    · rintro ⟨h1, h2, h3⟩
      refine ⟨h1, h2, ?_⟩
      rw [codeOf_eq, h2, h3]; omega
    · rintro ⟨h1, h2, h3⟩
      refine ⟨h1, h2, ?_⟩
      rw [codeOf_eq, h2] at h3; omega

/-- Every rank below the number of symbols of a length is taken. -/
theorem nthOfLen_some {n : Nat} : ∀ {l : HCode} {i r : Nat}, r < l.count n → ∃ z, nthOfLen n l i r = some z := by
  intro l
  induction l with
  | nil => intro i r h; simp at h
  | cons x l ih =>
    intro i r h
    simp only [nthOfLen]
    split
    · split
      · exact ⟨_, rfl⟩
      · refine ih ?_
        subst_vars; simp at h; omega
    · refine ih ?_
      have : (x == n) = false := by simpa using ‹¬ x = n›
      rw [List.count_cons, this] at h; simpa using h

theorem symbolWith_some {l : HCode} {n code : Nat} (h1 : firstCode l n ≤ code) (h2 : code < codeEnd l n) :
    ∃ y, symbolWith l n code = some y := by
  have hn : lenCount l n ≤ l.count n := by unfold lenCount; split <;> omega
  unfold symbolWith
  rw [if_neg (by omega)]
  exact nthOfLen_some (by unfold codeEnd at h2; omega)

/-- A symbol that occurs has its code before the end of its length's codes. -/
theorem codeOf_lt_end {l : HCode} {y : Nat} (h : 0 < l.getD y 0) :
    firstCode l (l.getD y 0) ≤ codeOf l y ∧ codeOf l y < codeEnd l (l.getD y 0) := by
  have hy : y < l.length := by
    apply Nat.lt_of_not_le
    intro hc
    rw [List.getD_eq_getElem?_getD, List.getElem?_eq_none hc] at h; simp at h
  refine ⟨Nat.le_add_right _ _, ?_⟩
  rw [codeOf_eq, codeEnd, lenCount, if_neg (by omega)]
  have hc : l.count (l.getD y 0) = (l.take y).count (l.getD y 0) + (l.drop y).count (l.getD y 0) := by
    rw [← List.count_append, List.take_append_drop]
  have hp : 0 < (l.drop y).count (l.getD y 0) := by
    rw [List.getD_eq_getElem?_getD, List.getElem?_eq_getElem hy, Option.getD_some, List.count_pos_iff]
    rw [List.drop_eq_getElem_cons hy]
    exact List.mem_cons_self
  omega

/-! ### Completeness -/

/-- The first code of a length, symbol by symbol. -/
theorem firstCode_cons (x : Nat) (l : HCode) : ∀ n,
    firstCode (x :: l) n = firstCode l n + if 0 < x ∧ x < n then 2 ^ (n - x) else 0 := by
  intro n
  induction n with
  | zero => simp [firstCode]
  | succ n ih =>
    simp only [firstCode, ih, lenCount, List.count_cons]
    by_cases hn : n = 0
    · subst hn
      rw [if_neg (by omega : ¬ (0 < x ∧ x < 0)), if_neg (by omega : ¬ (0 < x ∧ x < 0 + 1))]; simp
    · simp only [if_neg hn]
      by_cases hx : x = n
      · subst hx
        rw [if_neg (by omega : ¬ (0 < x ∧ x < x)), if_pos (by omega : 0 < x ∧ x < x + 1)]
        simp; omega
      · have he : (x == n) = false := by simpa using hx
        simp only [he]
        by_cases h1 : 0 < x ∧ x < n
        · rw [if_pos h1, if_pos (⟨h1.1, by omega⟩ : 0 < x ∧ x < n + 1), show n + 1 - x = n - x + 1 by omega, Nat.pow_succ]
          simp; omega
        · rw [if_neg h1, if_neg (by omega : ¬ (0 < x ∧ x < n + 1))]; simp

/-- The end of the codes of length 15 is the sum of R190 (4), when no length is above 15. -/
theorem codeEnd_kraft : ∀ {l : HCode}, (∀ x ∈ l, x ≤ 15) → codeEnd l 15 = kraftSum l := by
  intro l
  induction l with
  | nil => intro _; rfl
  | cons x l ih =>
    intro h
    have h1 := ih (fun y hy => h y (by simp [hy]))
    have hx : x ≤ 15 := h x (by simp)
    simp only [codeEnd, lenCount, if_neg (by decide : ¬ (15 : Nat) = 0)] at h1 ⊢
    rw [firstCode_cons, List.count_cons, kraftSum, ← h1]
    by_cases h0 : x = 0
    · subst h0; simp
    · by_cases h15 : x = 15
      · subst h15; simp; omega
      · have : (x == 15) = false := by simpa using h15
        rw [if_pos (by omega), if_neg h0, this]; simp; omega

/-- In a code whose lengths sum to 2^15 or less every code fits its length. -/
theorem codeEnd_le {l : HCode} (h : ∀ x ∈ l, x ≤ 15) (hk : kraftSum l ≤ 2 ^ 15) {n : Nat} (hn : n ≤ 15) :
    codeEnd l n ≤ 2 ^ n := by
  have h1 := codeEnd_mono l n (15 - n)
  rw [show n + (15 - n) = 15 by omega, codeEnd_kraft h] at h1
  refine Nat.le_of_mul_le_mul_right ?_ (Nat.two_pow_pos (15 - n))
  rw [← Nat.pow_add, show n + (15 - n) = 15 by omega]
  omega

/-! ### The number that a prefix of the stream gives, first bit most significant (R191) -/

def pfx (v : Nat) : Nat → Nat
  | 0 => 0
  | n + 1 => 2 * pfx v n + v / 2 ^ n % 2

theorem pfx_lt (v : Nat) : ∀ n, pfx v n < 2 ^ n := by
  intro n
  induction n with
  | zero => simp [pfx]
  | succ n ih => rw [pfx, Nat.pow_succ]; omega

theorem pfx_shift (v n : Nat) : ∀ k, pfx v n = pfx v (n + k) / 2 ^ k := by
  intro k
  induction k with
  | zero => simp
  | succ k ih =>
    rw [ih, show n + (k + 1) = n + k + 1 by omega, pfx, Nat.pow_succ, Nat.mul_comm (2 ^ k), ← Nat.div_div_eq_div_mul]
    congr 1; omega

theorem pfx_mod (v k : Nat) : ∀ {n}, n ≤ k → pfx (v % 2 ^ k) n = pfx v n := by
  intro n
  induction n with
  | zero => intro _; rfl
  | succ n ih =>
    intro hn
    rw [pfx, pfx, ih (by omega)]
    congr 1
    rw [show k = n + (k - n) by omega, Nat.pow_add, Nat.mod_mul_right_div_self]
    exact Nat.mod_mod_of_dvd _ (Nat.dvd_trans ⟨1, rfl⟩ (Nat.pow_dvd_pow 2 (by omega : 1 ≤ k - n)))

/-- Bits equal, first bit most significant, is prefixes equal. -/
theorem pfx_eq_iff {v : Nat} : ∀ {n c : Nat}, c < 2 ^ n →
    (pfx v n = c ↔ ∀ j < n, v / 2 ^ j % 2 = c / 2 ^ (n - 1 - j) % 2) := by
  intro n
  induction n with
  | zero => intro c hc; simp [pfx] at *; omega
  | succ n ih =>
    intro c hc
    rw [Nat.pow_succ] at hc
    have := ih (c := c / 2) (by omega)
    rw [pfx]
    constructor
    · intro h j hj
      by_cases hjn : j = n
      · subst hjn; simp; omega
      · have h1 := (this.1 (by omega)) j (by omega)
        rw [h1, Nat.div_div_eq_div_mul, show n + 1 - 1 - j = n - 1 - j + 1 by omega, Nat.pow_succ, Nat.mul_comm 2]
    · intro h
      have h0 := h n (by omega)
      simp at h0
      have h1 : pfx v n = c / 2 := this.2 fun j hj => by
        rw [h j (by omega), Nat.div_div_eq_div_mul, show n + 1 - 1 - j = n - 1 - j + 1 by omega, Nat.pow_succ, Nat.mul_comm 2]
      omega

/-! ### The search -/

/-- What a search answers: a symbol whose code the bits hold. -/
theorem hfMatch_sound {l : HCode} {v : Nat} : ∀ {k n len y : Nat}, hfMatch l v k (n + 1) (pfx v n) = some (len, y) →
    n < len ∧ len ≤ n + k ∧ symbolWith l len (pfx v len) = some y := by
  intro k
  induction k with
  | zero => intro n len y h; cases h
  | succ k ih =>
    intro n len y h
    simp only [hfMatch, Nat.add_sub_cancel] at h
    rw [show 2 * pfx v n + v / 2 ^ n % 2 = pfx v (n + 1) from rfl] at h
    split at h
    · cases h; exact ⟨by omega, by omega, ‹_›⟩
    · have := ih h
      exact ⟨by omega, by omega, this.2.2⟩

/-- The first length at which some symbol's code is met ends the search. -/
theorem hfMatch_first {l : HCode} {v : Nat} : ∀ {k n len y : Nat}, n < len → len ≤ n + k →
    symbolWith l len (pfx v len) = some y → (∀ j, n < j → j < len → symbolWith l j (pfx v j) = none) →
    hfMatch l v k (n + 1) (pfx v n) = some (len, y) := by
  intro k
  induction k with
  | zero => intro n len y h1 h2; omega
  | succ k ih =>
    intro n len y h1 h2 h3 h4
    simp only [hfMatch, Nat.add_sub_cancel]
    rw [show 2 * pfx v n + v / 2 ^ n % 2 = pfx v (n + 1) from rfl]
    by_cases hc : len = n + 1
    · subst hc; rw [h3]
    · rw [h4 (n + 1) (by omega) (by omega)]
      exact ih (by omega) (by omega) h3 fun j hj => h4 j (by omega)

/-- Bits that hold a symbol's code hold no shorter symbol's code. -/
theorem prefix_free {l : HCode} {v y j : Nat} (h0 : 0 < l.getD y 0) (hp : pfx v (l.getD y 0) = codeOf l y)
    (h1 : 0 < j) (h2 : j < l.getD y 0) : symbolWith l j (pfx v j) = none := by
  rw [Option.eq_none_iff_forall_not_mem]
  intro z hz
  obtain ⟨-, hz2, hz3⟩ := symbolWith_iff.1 hz
  have hzl := codeOf_lt_end (l := l) (y := z) (by omega)
  rw [hz2] at hzl
  have hy := codeOf_lt_end h0
  obtain ⟨k, hk⟩ : ∃ k, l.getD y 0 = j + k + 1 := ⟨l.getD y 0 - j - 1, by omega⟩
  have he := codeEnd_le_firstCode l j k
  have hs := pfx_shift v j (k + 1)
  rw [← Nat.add_assoc, ← hk, hp] at hs
  rw [← hk] at he
  have : codeEnd l j ≤ codeOf l y / 2 ^ (k + 1) := by
    rw [Nat.le_div_iff_mul_le (Nat.two_pow_pos _)]
    omega
  omega

/-- The search finds the symbol whose code the bits hold. -/
theorem hfMatch_code {l : HCode} {v y : Nat} (h0 : 0 < l.getD y 0) (h15 : l.getD y 0 ≤ 15)
    (hp : pfx v (l.getD y 0) = codeOf l y) : hfMatch l v 15 1 0 = some (l.getD y 0, y) := by
  have hy : y < l.length := by
    apply Nat.lt_of_not_le
    intro hc
    rw [List.getD_eq_getElem?_getD, List.getElem?_eq_none hc] at h0; simp at h0
  exact hfMatch_first (n := 0) h0 (by omega) (symbolWith_iff.2 ⟨hy, rfl, hp.symm⟩) fun j h1 h2 => prefix_free h0 hp h1 h2

/-- A complete code is matched by any bits (R192). -/
theorem hfMatch_complete {l : HCode} (h : ∀ x ∈ l, x ≤ 15) (hk : kraftSum l = 2 ^ 15) (v : Nat) :
    ∃ len y, hfMatch l v 15 1 0 = some (len, y) ∧ 0 < len ∧ len ≤ 15 ∧ y < l.length ∧ l.getD y 0 = len ∧
      pfx v len = codeOf l y := by
  have key : ∀ n, (∀ j, 0 < j → j ≤ n → symbolWith l j (pfx v j) = none) → codeEnd l n ≤ pfx v n := by
    intro n
    induction n with
    | zero => intro _; simp [codeEnd_zero]
    | succ n ih =>
      intro hn
      have h1 := ih fun j hj hj' => hn j hj (by omega)
      have h2 : firstCode l (n + 1) ≤ pfx v (n + 1) := by rw [firstCode_succ, pfx]; omega
      apply Nat.le_of_not_lt
      intro hc
      obtain ⟨y, hy⟩ := symbolWith_some h2 hc
      rw [hn (n + 1) (by omega) (by omega)] at hy
      cases hy
  have hex : ∃ j, 0 < j ∧ j ≤ 15 ∧ symbolWith l j (pfx v j) ≠ none := by
    apply Classical.byContradiction
    intro hc
    have h1 := key 15 fun j h1 h2 => Decidable.byContradiction fun h3 => hc ⟨j, h1, h2, h3⟩
    rw [codeEnd_kraft h, hk] at h1
    have := pfx_lt v 15
    omega
  obtain ⟨j, h1, h2, h3⟩ := hex
  obtain ⟨y, hy⟩ := Option.ne_none_iff_exists'.1 h3
  obtain ⟨g1, g2, g3⟩ := symbolWith_iff.1 hy
  subst g2
  exact ⟨_, y, hfMatch_code h1 h2 g3.symm, h1, h2, g1, rfl, g3.symm⟩

/-! ### Validity (R190) -/

theorem kraftSum_eq : ∀ l : HCode, kraftSum l = ((l.filter (fun x => x != 0)).map (fun x => 2 ^ (15 - x))).sum := by
  intro l
  induction l with
  | nil => rfl
  | cons x l ih =>
    rw [kraftSum, ih, List.filter_cons]
    by_cases h : x = 0
    · simp [h]
    · rw [if_neg h, if_pos (by simpa using h)]; rfl

theorem usedCount_ne_zero {l : HCode} : usedCount l ≠ 0 ↔ ∃ x ∈ l, x ≠ 0 := by
  rw [usedCount, ← Nat.pos_iff_ne_zero, List.countP_pos_iff]; simp

theorem lensValid_iff {l : HCode} : lensValid l = true ↔ ValidLens l := by
  unfold lensValid ValidLens
  rw [kraftSum_eq, ← usedCount_ne_zero, ← List.countP_eq_length_filter, ← usedCount]
  simp only [Bool.and_eq_true, Bool.or_eq_true, List.all_eq_true, decide_eq_true_eq, bne_iff_ne, beq_iff_eq, and_assoc]
  rfl

theorem usedCount_cons (x : Nat) (l : HCode) : usedCount (x :: l) = usedCount l + if x = 0 then 0 else 1 := by
  rw [usedCount, List.countP_cons, ← usedCount]
  by_cases h : x = 0 <;> simp [h]

/-- The single symbol of a code: the only one that occurs. -/
theorem singleSymbol_some : ∀ {l : HCode} {y : Nat}, singleSymbol l = some y ↔ OnlySymbol l y := by
  have none_of : ∀ {l : HCode}, usedCount l = 0 ↔ ∀ j, l.getD j 0 = 0 := by
    intro l
    induction l with
    | nil => simp [usedCount]
    | cons x l ih =>
      rw [usedCount_cons]
      constructor
      · intro h j
        cases j with
        | zero => simp only [List.getD_cons_zero]; by_cases hx : x = 0; exact hx; simp [hx] at h
        | succ j => simp only [List.getD_cons_succ]; exact (ih.1 (by omega)) j
      · intro h
        have h1 := h 0
        have h2 := ih.2 fun j => h (j + 1)
        simp at h1
        simp [h1, h2]
  intro l
  induction l with
  | nil =>
    intro y
    simp [singleSymbol, usedCount, OnlySymbol]
  | cons x l ih =>
    intro y
    by_cases hx : x = 0
    · subst hx
      have e1 : singleSymbol (0 :: l) = (singleSymbol l).map (· + 1) := by
        simp only [singleSymbol, usedCount_cons, List.findIdx?_cons]
        simp
        split <;> simp
      rw [e1]
      cases y with
      | zero =>
        simp
        intro h
        have := (h 0).2 rfl
        simp at this
      | succ y =>
        simp only [Option.map_eq_some_iff, Nat.add_right_cancel_iff, exists_eq_right]
        rw [ih]
        constructor
        · intro h j
          cases j with
          | zero => simp
          | succ j => simpa using h j
        · intro h j
          simpa using h (j + 1)
    · have e1 : singleSymbol (x :: l) = if usedCount l = 0 then some 0 else none := by
        simp only [singleSymbol, usedCount_cons, List.findIdx?_cons]
        simp [hx]
      rw [e1]
      constructor
      · split
        · intro h
          cases h
          intro j
          cases j with
          | zero => simp [hx]
          | succ j => simp; exact none_of.1 ‹_› j
        · intro h; cases h
      · intro h
        have h0 := (h 0).1 (by simpa using hx)
        subst h0
        rw [if_pos]
        rw [none_of]
        intro j
        apply Decidable.byContradiction
        intro hj
        have := (h (j + 1)).1 (by simpa using hj)
        omega

theorem singleSymbol_none {l : HCode} (h : ManySymbols l) : singleSymbol l = none := by
  rw [Option.eq_none_iff_forall_not_mem]
  intro y hy
  obtain ⟨j, k, h1, h2, h3⟩ := h
  have := singleSymbol_some.1 hy
  exact h1 (((this j).1 h2).trans ((this k).1 h3).symm)

theorem onlySymbol_lt {l : HCode} {y : Nat} (h : OnlySymbol l y) : y < l.length ∧ 0 < l.getD y 0 := by
  have h1 := (h y).2 rfl
  refine ⟨?_, by omega⟩
  apply Nat.lt_of_not_le
  intro hc
  rw [List.getD_eq_getElem?_getD, List.getElem?_eq_none hc] at h1; simp at h1

/-- A valid code of more than one symbol is complete (R190 (4)). -/
theorem complete_of_valid {l : HCode} (h : lensValid l = true) (hs : singleSymbol l = none) :
    (∀ x ∈ l, x ≤ 15) ∧ kraftSum l = 2 ^ 15 := by
  unfold lensValid at h
  simp only [Bool.and_eq_true, Bool.or_eq_true, List.all_eq_true, decide_eq_true_eq, bne_iff_ne, beq_iff_eq] at h
  refine ⟨h.1.1, h.2.resolve_left fun hc => ?_⟩
  unfold singleSymbol at hs
  rw [if_pos hc, List.findIdx?_eq_none_iff] at hs
  obtain ⟨x, hx, hx0⟩ := usedCount_ne_zero.1 (by omega : usedCount l ≠ 0)
  have := hs x hx
  simp_all

/-! ### Decoding a symbol (R192) -/

theorem hfDecode_single {l : HCode} {y : Nat} (h : OnlySymbol l y) (b : BrRegs) : hfDecode l m b = .ok (y, b) := by
  rw [hfDecode, singleSymbol_some.2 h]

/-- Decoding a code of more symbols: the search over the next 15 bits, then the code is consumed. -/
theorem hfDecode_many {l : HCode} {b : BrRegs} {len y : Nat} (hs : singleSymbol l = none) (ha : b.AccOk) (hl : len ≤ 15)
    (h : hfMatch l (stream m b) 15 1 0 = some (len, y)) :
    (len ≤ avail b → ∃ b', hfDecode l m b = .ok (y, b') ∧ Consumed m b b' 15 len) ∧
      (avail b < len → hfDecode l m b = .error .invalidData) := by
  have f := brFill_spec (m := m) (n := 15) (by omega) ha
  have hv : hfMatch l (brPeek m 15 b).1 15 1 0 = some (len, y) := by
    rw [← h]
    have : (brPeek m 15 b).1 = stream m b % 2 ^ 15 := f.low (Nat.le_refl 15)
    rw [this]
    have gen : ∀ k n, n + k ≤ 15 → hfMatch l (stream m b % 2 ^ 15) k (n + 1) (pfx (stream m b) n) =
        hfMatch l (stream m b) k (n + 1) (pfx (stream m b) n) := by
      intro k
      induction k with
      | zero => intro n _; rfl
      | succ k ih =>
        intro n hn
        have hp := pfx_mod (stream m b) 15 (n := n + 1) (by omega)
        rw [pfx, pfx_mod (stream m b) 15 (by omega)] at hp
        simp only [hfMatch, Nat.add_sub_cancel]
        rw [hp]
        rw [show 2 * pfx (stream m b) n + stream m b / 2 ^ n % 2 = pfx (stream m b) (n + 1) from rfl]
        split
        · rfl
        · exact ih (n + 1) (by omega)
    exact gen 15 0 (by omega)
  have he := f.enough hl
  rw [hfDecode, hs]
  simp only [hv]
  have e : brSkip m len (brPeek m 15 b).2 = brSkip m len (brFill m 15 b) := rfl
  rw [e, brSkip, f.again hl]
  constructor
  · intro hc
    refine ⟨_, ?_, f.consume (he.2 hc)⟩
    rw [if_neg (by omega)]
  · intro hc
    rw [if_pos (by omega)]

theorem hfDecode_stop {l : HCode} {b b' : BrRegs} {y : Nat} (h : hfDecode l m b = .ok (y, b')) : b'.stop = b.stop := by
  unfold hfDecode at h
  split at h
  · cases h; rfl
  · split at h
    · cases h
    · split at h <;> cases h
      rw [brSkip_stop ‹_›]; exact brFill_stop 15 b

theorem hfDecode_raises {l : HCode} {b : BrRegs} {e : ErrKind} (h : hfDecode l m b = .error e) : e = .invalidData := by
  unfold hfDecode at h
  split at h
  · cases h
  · split at h
    · cases h; rfl
    · split at h <;> cases h
      exact brSkip_raises ‹_›

theorem hfDecode_acc {l : HCode} {b b' : BrRegs} {y : Nat} (ha : b.AccOk) (h : hfDecode l m b = .ok (y, b')) :
    b'.AccOk := by
  unfold hfDecode at h
  split at h
  · cases h; exact ha
  · split at h
    · cases h
    · rename_i n s hm
      have hn := (hfMatch_sound (n := 0) hm).2.1
      split at h <;> cases h
      exact brSkip_acc (n := n) (by omega) (brFill_spec (m := m) (n := 15) (by omega) ha).acc ‹_›

/-! ### Code-length lists -/

/-- What a property of the bit reader needs so that every read of fewer than 32 bits and every symbol decoded keep it. -/
structure BrKept (m : Memory) (P : BrRegs → Prop) : Prop where
  read   : ∀ {n v b b'}, n < 32 → P b → brRead m n b = .ok (v, b') → P b'
  symbol : ∀ {l y b b'}, P b → hfDecode l m b = .ok (y, b') → P b'

theorem BrKept.ofStop (m : Memory) (e : Word) : BrKept m fun b => b.stop = e :=
  ⟨fun _ h hr => (brRead_stop hr).trans h, fun h hr => (hfDecode_stop hr).trans h⟩

theorem BrKept.ofAcc (m : Memory) : BrKept m BrRegs.AccOk := ⟨fun hn h hr => brRead_acc hn h hr, fun h hr => hfDecode_acc h hr⟩

/-- A number read is below its range. -/
theorem brRead_lt {n v : Nat} {b b' : BrRegs} (h : brRead m n b = .ok (v, b')) : v < 2 ^ n := by
  rw [brRead_eq] at h
  split at h <;> cases h
  exact Nat.mod_lt _ (Nat.two_pow_pos n)

theorem readSimple_ok {P : BrRegs → Prop} (hP : BrKept m P) {a : Nat} {b b' : BrRegs} {l : HCode} (hb : P b)
    (h : readSimple m a b = .ok (l, b')) : l.length = a ∧ (∀ x ∈ l, x ≤ 15) ∧ P b' := by
  have hset : ∀ (l : HCode) (i : Nat), (∀ x ∈ l, x ≤ 15) → ∀ x ∈ l.set i 1, x ≤ 15 := by
    intro l i hl x hx
    rcases List.mem_or_eq_of_mem_set hx with h | h
    · exact hl x h
    · omega
  have hrep : ∀ x ∈ List.replicate a 0, x ≤ 15 := by intro x hx; rw [(List.mem_replicate.1 hx).2]; omega
  unfold readSimple at h
  split at h
  · cases h
  rename_i h1
  split at h
  · cases h
  rename_i h2
  split at h
  · cases h
  rename_i h3
  have hp := hP.read (by split <;> omega) (hP.read (by omega) (hP.read (by omega) hb h1) h2) h3
  split at h
  · cases h
  split at h
  · cases h; exact ⟨by simp, hset _ _ hrep, hp⟩
  split at h
  · cases h
  rename_i h4
  split at h
  · cases h
  cases h
  exact ⟨by simp, hset _ _ (hset _ _ hrep), hP.read (by omega) hp h4⟩

theorem readSimple_raises {a : Nat} {b : BrRegs} {e : ErrKind} (h : readSimple m a b = .error e) : e = .invalidData := by
  unfold readSimple at h
  split at h
  · cases h; exact brRead_raises ‹_›
  split at h
  · cases h; exact brRead_raises ‹_›
  split at h
  · cases h; exact brRead_raises ‹_›
  split at h
  · cases h; rfl
  split at h
  · cases h
  split at h
  · cases h; exact brRead_raises ‹_›
  split at h <;> cases h
  rfl

theorem readClLens_ok {P : BrRegs → Prop} (hP : BrKept m P) : ∀ {k : Nat} {o : List Nat} {cl cl' : HCode} {b b' : BrRegs},
    P b → readClLens m k o cl b = .ok (cl', b') → P b' := by
  intro k
  induction k with
  | zero => intro o cl cl' b b' hb h; cases h; exact hb
  | succ k ih =>
    intro o cl cl' b b' hb h
    cases o with
    | nil => cases h; exact hb
    | cons o os =>
      simp only [readClLens] at h
      split at h
      · cases h
      · exact ih (hP.read (n := 3) (by omega) hb ‹_›) h

theorem readClLens_raises : ∀ {k : Nat} {o : List Nat} {cl : HCode} {b : BrRegs} {e : ErrKind},
    readClLens m k o cl b = .error e → e = .invalidData := by
  intro k
  induction k with
  | zero => intro o cl b e h; cases h
  | succ k ih =>
    intro o cl b e h
    cases o with
    | nil => cases h
    | cons o os =>
      simp only [readClLens] at h
      split at h
      · cases h; exact brRead_raises ‹_›
      · exact ih h

theorem readMaxSymbol_ok {P : BrRegs → Prop} (hP : BrKept m P) {a n : Nat} {b b' : BrRegs} (hb : P b)
    (h : readMaxSymbol m a b = .ok (n, b')) : P b' := by
  unfold readMaxSymbol at h
  split at h
  · cases h
  rename_i h1
  have p1 := hP.read (by omega) hb h1
  split at h
  · split at h
    · cases h
    rename_i sel _ h2
    have hlt := brRead_lt h2
    split at h
    · cases h
    rename_i h3
    have p3 := hP.read (n := 2 + 2 * sel) (by omega) (hP.read (by omega) p1 h2) h3
    split at h <;> cases h
    exact p3
  · cases h; exact p1

theorem readMaxSymbol_raises {a : Nat} {b : BrRegs} {e : ErrKind} (h : readMaxSymbol m a b = .error e) :
    e = .invalidData := by
  unfold readMaxSymbol at h
  split at h
  · cases h; exact brRead_raises ‹_›
  split at h
  · split at h
    · cases h; exact brRead_raises ‹_›
    split at h
    · cases h; exact brRead_raises ‹_›
    split at h <;> cases h
    rfl
  · cases h

theorem readLens_ok {P : BrRegs → Prop} (hP : BrKept m P) {cl : HCode} {a : Nat} :
    ∀ {k limit prev : Nat} {acc l : HCode} {b b' : BrRegs}, P b → acc.length ≤ a → (∀ x ∈ acc, x ≤ 15) → prev ≤ 15 →
      readLens cl m a k limit acc prev b = .ok (l, b') → l.length ≤ a ∧ (∀ x ∈ l, x ≤ 15) ∧ P b' := by
  intro k
  induction k with
  | zero => intro limit prev acc l b b' hb ha hx _ h; cases h; exact ⟨ha, hx, hb⟩
  | succ k ih =>
    intro limit prev acc l b b' hb ha hx hp h
    simp only [readLens] at h
    split at h
    · cases h; exact ⟨ha, hx, hb⟩
    split at h
    · cases h
    rename_i c b1 h1
    have p1 := hP.symbol hb h1
    split at h
    · refine ih p1 (by simp; omega) ?_ (by split <;> omega) h
      intro x hxm
      rcases List.mem_append.1 hxm with h | h
      · exact hx x h
      · simp at h; omega
    · split at h
      · cases h
      rename_i h2
      split at h
      · cases h
      refine ih (hP.read ?_ p1 h2) (by simp; omega) ?_ hp h
      · unfold repeatCode; split
        · decide
        · split <;> decide
      · intro x hxm
        rcases List.mem_append.1 hxm with h | h
        · exact hx x h
        · rw [(List.mem_replicate.1 h).2]; split <;> omega

theorem readLens_raises {cl : HCode} {a : Nat} :
    ∀ {k limit prev : Nat} {acc : HCode} {b : BrRegs} {e : ErrKind},
      readLens cl m a k limit acc prev b = .error e → e = .invalidData := by
  intro k
  induction k with
  | zero => intro limit prev acc b e h; cases h
  | succ k ih =>
    intro limit prev acc b e h
    simp only [readLens] at h
    split at h
    · cases h
    split at h
    · cases h; exact hfDecode_raises ‹_›
    split at h
    · exact ih h
    · split at h
      · cases h; exact brRead_raises ‹_›
      split at h
      · cases h; rfl
      · exact ih h

/-- A length list that was read (R199): one length for each symbol, at most 15; what the reads keep. -/
theorem readLengthList_ok {P : BrRegs → Prop} (hP : BrKept m P) {a : Nat} {b b' : BrRegs} {l : HCode} {cl : Option HCode}
    (hb : P b) (h : readLengthList m a b = .ok (l, cl, b')) : l.length = a ∧ (∀ x ∈ l, x ≤ 15) ∧ P b' := by
  unfold readLengthList at h
  split at h
  · cases h
  rename_i h1
  have p1 := hP.read (by omega) hb h1
  split at h
  · split at h <;> cases h
    exact readSimple_ok hP p1 ‹_›
  · split at h <;> cases h
    rename_i h2
    unfold readNormal at h2
    split at h2
    · cases h2
    rename_i h3
    have p3 := hP.read (by omega) p1 h3
    split at h2
    · cases h2
    rename_i h4
    have p4 := readClLens_ok hP p3 h4
    split at h2
    · split at h2
      · cases h2
      rename_i h5
      have p5 := readMaxSymbol_ok hP p4 h5
      split at h2
      · cases h2
      rename_i h6
      cases h2
      obtain ⟨g1, g2, g3⟩ := readLens_ok hP p5 (by simp) (by simp) (by omega) h6
      refine ⟨by simp; omega, ?_, g3⟩
      intro x hx
      rcases List.mem_append.1 hx with h | h
      · exact g2 x h
      · rw [(List.mem_replicate.1 h).2]; omega
    · cases h2

theorem readLengthList_raises {a : Nat} {b : BrRegs} {e : ErrKind} (h : readLengthList m a b = .error e) :
    e = .invalidData := by
  unfold readLengthList at h
  split at h
  · cases h; exact brRead_raises ‹_›
  split at h
  · split at h <;> cases h
    exact readSimple_raises ‹_›
  · split at h <;> cases h
    rename_i h2
    unfold readNormal at h2
    split at h2
    · cases h2; exact brRead_raises ‹_›
    split at h2
    · cases h2; exact readClLens_raises ‹_›
    split at h2
    · split at h2
      · cases h2; exact readMaxSymbol_raises ‹_›
      split at h2 <;> cases h2
      exact readLens_raises ‹_›
    · cases h2; rfl

end Sys2Proof.Machine
end

