-- ==== Sys2Proof/Laws/PixelDecode.lean ====
section
/-! SUPPORT. The pixel decoder: what emitting, copying and one time round the loop change and keep, what they raise, and
that the loop ends with every pixel emitted. -/

namespace Sys2Proof.Machine

open Sys2Proof.Claim

/-- A hash is an index of a cache of 2^b entries. -/
theorem pxHash_lt (p : Word) {b : Nat} (hb : b ≤ 32) : pxHash p b < 2 ^ b := by
  unfold pxHash
  rw [Nat.div_lt_iff_lt_mul (Nat.two_pow_pos _), ← Nat.pow_add, show b + (32 - b) = 32 by omega]
  exact Nat.mod_lt _ (by decide)

/-- What every part of PX_DECODE does to the run: the position only grows; DMEM keeps its form, its range and every byte
but those of the pixels emitted; the cache keeps its form and its size; BR_END is kept. -/
structure PxMoves (v : PxRegs) (r r' : PxRun) : Prop where
  pos     : r.pos ≤ r'.pos
  memWf   : Memory.wf r.mem → Memory.wf r'.mem
  memGood : ∀ {n}, Memory.Good n r.mem → v.dstAddr.toNat + 4 * r'.pos ≤ n → Memory.Good n r'.mem
  outside : Memory.wf r.mem → ∀ {a}, a < v.dstAddr.toNat + 4 * r.pos ∨ v.dstAddr.toNat + 4 * r'.pos ≤ a →
    memByte r'.mem a = memByte r.mem a
  cacheWf : Sparse.Canonical 0#32 r.cache → Sparse.Canonical 0#32 r'.cache
  cacheIn : v.ccBits.toNat ≤ 11 → (∀ e ∈ r.cache, e.1 < Config.cacheSize) → ∀ e ∈ r'.cache, e.1 < Config.cacheSize
  stop    : r'.br.stop = r.br.stop

/-- The bit reader alone changes. -/
theorem PxMoves.ofBr {v : PxRegs} {r : PxRun} {b : BrRegs} (h : b.stop = r.br.stop) : PxMoves v r { r with br := b } :=
  ⟨Nat.le_refl _, id, fun h _ => h, fun _ _ _ => rfl, id, fun _ h => h, h⟩

theorem PxMoves.refl (v : PxRegs) (r : PxRun) : PxMoves v r r := PxMoves.ofBr rfl

theorem PxMoves.trans {v : PxRegs} {r r' r'' : PxRun} (h : PxMoves v r r') (g : PxMoves v r' r'') : PxMoves v r r'' := by
  have hp := h.pos
  have gp := g.pos
  refine ⟨by omega, fun w => g.memWf (h.memWf w), fun w hn => g.memGood (h.memGood w (by omega)) hn, fun w a ha => ?_,
    fun w => g.cacheWf (h.cacheWf w), fun hb w => g.cacheIn hb (h.cacheIn hb w), g.stop.trans h.stop⟩
  rw [g.outside (h.memWf w) (by omega), h.outside w (by omega)]

theorem pxEmit_pos (v : PxRegs) (p : Word) (r : PxRun) : (pxEmit v p r).pos = r.pos + 1 := rfl

theorem pxEmit_br (v : PxRegs) (p : Word) (r : PxRun) : (pxEmit v p r).br = r.br := rfl

theorem pxEmit_moves (v : PxRegs) (p : Word) (r : PxRun) : PxMoves v r (pxEmit v p r) := by
  refine ⟨Nat.le_succ _, fun w => memStore32_wf w _ _, fun w hn => memStore32_good w ?_ _, fun w a ha => ?_, fun w => ?_,
    fun hb w => ?_, rfl⟩
  · rw [pxEmit_pos] at hn; omega
  · rw [pxEmit_pos] at ha
    exact memByte_store32_outside w _ _ (by omega)
  · unfold pxEmit
    dsimp only
    split
    · exact w
    · exact Sparse.set_canonical w _ _
  · unfold pxEmit
    dsimp only
    split
    · exact w
    · refine Sparse.set_below w ?_ _
      refine Nat.lt_of_lt_of_le (pxHash_lt p (by omega)) ?_
      exact Nat.pow_le_pow_right (by omega) hb

theorem pxCopy_pos (v : PxRegs) (dist : Nat) : ∀ (n : Nat) (r : PxRun), (pxCopy v dist n r).pos = r.pos + n := by
  intro n
  induction n with
  | zero => intro r; rfl
  | succ n ih => intro r; rw [pxCopy, ih, pxEmit_pos]; omega

theorem pxCopy_moves (v : PxRegs) (dist : Nat) : ∀ (n : Nat) (r : PxRun), PxMoves v r (pxCopy v dist n r) := by
  intro n
  induction n with
  | zero => intro r; exact PxMoves.refl v r
  | succ n ih => intro r; exact (pxEmit_moves v _ r).trans (ih _)

/-- The errors PX_DECODE raises once its checks passed. -/
def PxRaises (e : ErrKind) : Prop := e = .invalidData ∨ e = .unsupported

theorem pxDecodeWith_moves {v : PxRegs} {slots : Sparse (Option HCode)} {g t x : Nat} {r r' : PxRun}
    (h : pxDecodeWith v slots g t r = .ok (x, r')) : PxMoves v r r' ∧ r'.pos = r.pos := by
  unfold pxDecodeWith at h
  split at h <;> cases h
  exact ⟨PxMoves.ofBr (hfDecode_stop ‹_›), rfl⟩

theorem pxDecodeWith_raises {v : PxRegs} {slots : Sparse (Option HCode)} {g t : Nat} {r : PxRun} {e : ErrKind}
    (h : pxDecodeWith v slots g t r = .error e) : PxRaises e := by
  unfold pxDecodeWith at h
  split at h <;> cases h
  exact .inl (hfDecode_raises ‹_›)

theorem pxPrefix_stop {m : Memory} {c x : Nat} {b b' : BrRegs} (h : pxPrefix m c b = .ok (x, b')) : b'.stop = b.stop := by
  unfold pxPrefix at h
  split at h
  · cases h; rfl
  · split at h <;> cases h
    exact brRead_stop ‹_›

theorem pxPrefix_raises {m : Memory} {c : Nat} {b : BrRegs} {e : ErrKind} (h : pxPrefix m c b = .error e) :
    e = .invalidData := by
  unfold pxPrefix at h
  split at h
  · cases h
  · split at h <;> cases h
    exact brRead_raises ‹_›

theorem pxPrefix_acc {m : Memory} {c x : Nat} {b b' : BrRegs} (hc : c < 40) (ha : b.AccOk)
    (h : pxPrefix m c b = .ok (x, b')) : b'.AccOk := by
  unfold pxPrefix at h
  split at h
  · cases h; exact ha
  · split at h <;> cases h
    exact brRead_acc (n := (c - 2) / 2) (by omega) ha ‹_›

theorem pxPrefix_pos {m : Memory} {c x : Nat} {b b' : BrRegs} (h : pxPrefix m c b = .ok (x, b')) : 1 ≤ x := by
  unfold pxPrefix at h
  split at h
  · cases h; omega
  · split at h <;> cases h
    omega

/-- A distance is 1 or more. -/
theorem pxPlane_pos (w d : Nat) : 1 ≤ pxPlane w d := by
  unfold pxPlane
  split
  · omega
  · dsimp only
    omega

/-- One pixel decoded as a literal or from the cache. -/
theorem pxLiteral_moves {v : PxRegs} {slots : Sparse (Option HCode)} {grp g : Nat} {r r' : PxRun}
    (h : pxLiteral v slots grp g r = .ok r') : PxMoves v r r' ∧ r'.pos = r.pos + 1 := by
  unfold pxLiteral at h
  split at h
  · cases h
  rename_i h1
  split at h
  · cases h
  rename_i h2
  split at h
  · cases h
  rename_i h3
  split at h <;> cases h
  have m1 := pxDecodeWith_moves h1
  have m2 := pxDecodeWith_moves h2
  have m3 := pxDecodeWith_moves h3
  exact ⟨((m1.1.trans m2.1).trans m3.1).trans (pxEmit_moves v _ _), by rw [pxEmit_pos]; omega⟩

theorem pxCached_moves {v : PxRegs} {i : Nat} {r r' : PxRun} (h : pxCached v i r = .ok r') :
    PxMoves v r r' ∧ r'.pos = r.pos + 1 := by
  unfold pxCached at h
  split at h <;> cases h
  exact ⟨pxEmit_moves v _ _, rfl⟩

/-- A backward copy stays within the image. -/
theorem pxBackward_moves {v : PxRegs} {slots : Sparse (Option HCode)} {grp c : Nat} {r r' : PxRun}
    (h : pxBackward v slots grp c r = .ok r') :
    PxMoves v r r' ∧ r.pos < r'.pos ∧ r'.pos ≤ v.width.toNat * v.height.toNat := by
  unfold pxBackward at h
  split at h
  · cases h
  rename_i h1
  split at h
  · cases h
  rename_i h2
  split at h
  · cases h
  split at h
  · cases h
  rename_i h3
  dsimp only at h
  split at h <;> cases h
  have m1 := PxMoves.ofBr (v := v) (r := r) (pxPrefix_stop h1)
  have m2 := pxDecodeWith_moves h2
  have m3 := PxMoves.ofBr (v := v) (pxPrefix_stop h3)
  have hl := pxPrefix_pos h1
  have hp := m2.2
  dsimp only at hp
  refine ⟨((m1.trans m2.1).trans m3).trans (pxCopy_moves v _ _ _), ?_, ?_⟩ <;> rw [pxCopy_pos] <;> dsimp only <;> omega

/-- One time round the loop emits at least one pixel and stays within the image. -/
theorem pxPixel_moves {v : PxRegs} {slots : Sparse (Option HCode)} {r r' : PxRun} (h : pxPixel v slots r = .ok r')
    (hp : r.pos < v.width.toNat * v.height.toNat) :
    PxMoves v r r' ∧ r.pos < r'.pos ∧ r'.pos ≤ v.width.toNat * v.height.toNat := by
  unfold pxPixel at h
  split at h
  · cases h
  split at h
  · cases h
  rename_i h1
  have m1 := pxDecodeWith_moves h1
  split at h
  · have m2 := pxLiteral_moves h
    exact ⟨m1.1.trans m2.1, by omega, by omega⟩
  split at h
  · have m2 := pxBackward_moves h
    exact ⟨m1.1.trans m2.1, by omega, by omega⟩
  · have m2 := pxCached_moves h
    exact ⟨m1.1.trans m2.1, by omega, by omega⟩

theorem pxPixel_raises {v : PxRegs} {slots : Sparse (Option HCode)} {r : PxRun} {e : ErrKind}
    (h : pxPixel v slots r = .error e) : PxRaises e := by
  unfold pxPixel at h
  split at h
  · rename_i hg
    cases h
    unfold pxGroup at hg
    split at hg
    · dsimp only at hg
      split at hg
      · cases hg; exact .inr rfl
      · split at hg <;> cases hg
        exact .inl rfl
    · cases hg
  split at h
  · cases h; exact pxDecodeWith_raises ‹_›
  split at h
  · unfold pxLiteral at h
    split at h
    · cases h; exact pxDecodeWith_raises ‹_›
    split at h
    · cases h; exact pxDecodeWith_raises ‹_›
    split at h
    · cases h; exact pxDecodeWith_raises ‹_›
    split at h <;> cases h
    exact .inl rfl
  split at h
  · unfold pxBackward at h
    split at h
    · cases h; exact .inl (pxPrefix_raises ‹_›)
    split at h
    · cases h; exact pxDecodeWith_raises ‹_›
    split at h
    · cases h; exact .inl rfl
    split at h
    · cases h; exact .inl (pxPrefix_raises ‹_›)
    dsimp only at h
    split at h <;> cases h
    exact .inl rfl
  · unfold pxCached at h
    split at h <;> cases h
    exact .inl rfl

/-- The loop, with a turn for each pixel that is missing, ends with all of them emitted (R228). -/
theorem pxLoop_moves {v : PxRegs} {slots : Sparse (Option HCode)} : ∀ {k : Nat} {r r' : PxRun},
    pxLoop v slots k r = .ok r' → r.pos ≤ v.width.toNat * v.height.toNat → v.width.toNat * v.height.toNat ≤ r.pos + k →
    PxMoves v r r' ∧ r'.pos = v.width.toNat * v.height.toNat := by
  intro k
  induction k with
  | zero => intro r r' h h1 h2; cases h; exact ⟨PxMoves.refl v r, by omega⟩
  | succ k ih =>
    intro r r' h h1 h2
    rw [pxLoop] at h
    split at h
    · split at h
      · cases h
      · rename_i hp
        have m1 := pxPixel_moves hp ‹_›
        have m2 := ih h m1.2.2 (by omega)
        exact ⟨m1.1.trans m2.1, m2.2⟩
    · cases h; exact ⟨PxMoves.refl v r, by omega⟩

theorem pxLoop_raises {v : PxRegs} {slots : Sparse (Option HCode)} : ∀ {k : Nat} {r : PxRun} {e : ErrKind},
    pxLoop v slots k r = .error e → PxRaises e := by
  intro k
  induction k with
  | zero => intro r e h; cases h
  | succ k ih =>
    intro r e h
    rw [pxLoop] at h
    split at h
    · split at h
      · cases h; exact pxPixel_raises ‹_›
      · exact ih h
    · cases h

/-! ### The accumulator (R37) -/

theorem pxDecodeWith_acc {v : PxRegs} {slots : Sparse (Option HCode)} {g t x : Nat} {r r' : PxRun} (ha : r.br.AccOk)
    (h : pxDecodeWith v slots g t r = .ok (x, r')) : r'.br.AccOk := by
  unfold pxDecodeWith at h
  split at h <;> cases h
  exact hfDecode_acc ha ‹_›

theorem pxCopy_br (v : PxRegs) (dist : Nat) : ∀ (n : Nat) (r : PxRun), (pxCopy v dist n r).br = r.br := by
  intro n
  induction n with
  | zero => intro r; rfl
  | succ n ih => intro r; rw [pxCopy, ih]; rfl

theorem pxPixel_acc {v : PxRegs} {slots : Sparse (Option HCode)} {r r' : PxRun} (ha : r.br.AccOk)
    (h : pxPixel v slots r = .ok r') : r'.br.AccOk := by
  unfold pxPixel at h
  split at h
  · cases h
  split at h
  · cases h
  rename_i h1
  have a1 := pxDecodeWith_acc ha h1
  split at h
  · unfold pxLiteral at h
    split at h
    · cases h
    rename_i h2
    split at h
    · cases h
    rename_i h3
    split at h
    · cases h
    rename_i h4
    split at h <;> cases h
    rw [pxEmit_br]
    exact pxDecodeWith_acc (pxDecodeWith_acc (pxDecodeWith_acc a1 h2) h3) h4
  split at h
  · unfold pxBackward at h
    split at h
    · cases h
    rename_i h2
    split at h
    · cases h
    rename_i h3
    split at h
    · cases h
    split at h
    · cases h
    rename_i h4
    dsimp only at h
    split at h <;> cases h
    rw [pxCopy_br]
    have a2 := pxPrefix_acc (by omega) a1 h2
    have a3 := pxDecodeWith_acc (by exact a2) h3
    exact pxPrefix_acc (by omega) a3 h4
  · unfold pxCached at h
    split at h <;> cases h
    exact a1

theorem pxLoop_acc {v : PxRegs} {slots : Sparse (Option HCode)} : ∀ {k : Nat} {r r' : PxRun}, r.br.AccOk →
    pxLoop v slots k r = .ok r' → r'.br.AccOk := by
  intro k
  induction k with
  | zero => intro r r' ha h; cases h; exact ha
  | succ k ih =>
    intro r r' ha h
    rw [pxLoop] at h
    split at h
    · split at h
      · cases h
      · exact ih (pxPixel_acc ha ‹_›) h
    · cases h; exact ha

end Sys2Proof.Machine
end

