-- ==== Sys2Proof/Laws/RangeDecoder.lean ====
section
/-! SUPPORT. The range decoder: what a byte fetch, a renormalisation and `RdBool` do, in closed form, and what they keep. -/

namespace Sys2Proof.Machine

variable {p : Params} {m : Memory}

/-! ### Byte fetch -/

/-- A fetch changes RD_PTR alone, and raises only `EndOfInput` or `InvalidArgument`. -/
theorem rdNextByte_keeps {x y : RdCtx} {b : Byte} (h : rdNextByte p m x = .ok (b, y)) : y = { x with ptr := y.ptr } := by
  unfold rdNextByte memReadChecked at h
  split at h
  · split at h <;> simp_all
    split at * <;> simp_all
    rw [← h.2]
  · split at h <;> simp_all

theorem rdNextByte_raises {x : RdCtx} {e : ErrKind} (h : rdNextByte p m x = .error e) :
    e = .invalidArgument ∨ e = .endOfInput := by
  unfold rdNextByte memReadChecked at h
  split at h
  · split at h <;> simp_all
    split at * <;> simp_all
  · split at h <;> simp_all

/-- With RD_END within DMEM a fetch before the end answers the byte at RD_PTR. -/
theorem rdNextByte_inside {x : RdCtx} (h : x.ptr.toNat < x.stop.toNat) (hs : x.stop.toNat ≤ p.dmemSize) :
    rdNextByte p m x = .ok (memByte m x.ptr.toNat, { x with ptr := x.ptr + 1 }) := by
  have : x.ptr.toNat + 1 ≤ p.dmemSize := by omega
  simp [rdNextByte, h, memReadChecked, inDmem, this]

theorem rdNextByte_zeroFill {x : RdCtx} (h : ¬ x.ptr.toNat < x.stop.toNat) (hz : p.rdEof = .zeroFill) :
    rdNextByte p m x = .ok (0, x) := by simp [rdNextByte, h, hz]

theorem rdNextByte_fault {x : RdCtx} (h : ¬ x.ptr.toNat < x.stop.toNat) (hz : p.rdEof = .fault) :
    rdNextByte p m x = .error .endOfInput := by simp [rdNextByte, h, hz]

/-! ### Renormalisation -/

/-- `x` after `k` shifts, at most one of which merges `byte`, with RD_PTR at `ptr` (R117). -/
def RdCtx.shifted (x : RdCtx) (k byte : Nat) (ptr : Word) : RdCtx :=
  { x with
    range := BitVec.ofNat 8 (x.range.toNat * 2 ^ k)
    value := BitVec.ofNat 16 (x.value.toNat * 2 ^ k +
      if 8 ≤ x.bitcnt.toNat + k then byte * 2 ^ (x.bitcnt.toNat + k - 8) else 0)
    bitcnt := BitVec.ofNat 3 (x.bitcnt.toNat + k)
    ptr := ptr }

theorem RdCtx.shifted_zero (x : RdCtx) (byte : Nat) : x.shifted 0 byte x.ptr = x := by
  have : ¬ 8 ≤ x.bitcnt.toNat := by have := x.bitcnt.isLt; omega
  simp [RdCtx.shifted, this]

/-- One shift's registers, before a merge. -/
def RdCtx.shift1 (x : RdCtx) : RdCtx :=
  { x with value := x.value <<< 1, range := x.range <<< 1, bitcnt := x.bitcnt + 1 }

theorem RdCtx.shift1_shifted (x : RdCtx) (k byte : Nat) (ptr : Word) (hr : x.range.toNat < 128) (hb : x.bitcnt.toNat < 7) :
    x.shift1.shifted k byte ptr = x.shifted (k + 1) byte ptr := by
  have e1 : (x.bitcnt + 1).toNat = x.bitcnt.toNat + 1 := by simp [BitVec.toNat_add]; omega
  have e2 : (x.range <<< 1).toNat = x.range.toNat * 2 := by simp [BitVec.toNat_shiftLeft]; omega
  have e3 : (x.value <<< 1).toNat = x.value.toNat * 2 % 2 ^ 16 := by simp [BitVec.toNat_shiftLeft, Nat.shiftLeft_eq]
  simp only [RdCtx.shifted, RdCtx.shift1, e1, e2, e3, RdCtx.mk.injEq, true_and]
  refine ⟨?_, ?_, ?_⟩
  · apply BitVec.eq_of_toNat_eq
    rw [show x.bitcnt.toNat + 1 + k = x.bitcnt.toNat + (k + 1) by omega]
    simp only [BitVec.toNat_ofNat]
    rw [Nat.add_mod, Nat.mod_mul_mod, ← Nat.add_mod, Nat.mul_assoc, Nat.mul_comm 2, ← Nat.pow_succ]
  · rw [Nat.pow_succ, Nat.mul_assoc, Nat.mul_comm 2]
  · rw [show x.bitcnt.toNat + 1 + k = x.bitcnt.toNat + (k + 1) by omega]; simp

theorem range_lt_of_shifts {r k : Nat} (h : r * 2 ^ (k + 1) < 256) : r < 128 := by
  apply Nat.lt_of_not_le
  intro hc
  have := Nat.mul_le_mul hc (Nat.two_pow_pos k)
  rw [Nat.pow_succ, ← Nat.mul_assoc] at h
  omega

/-- Renormalisation without a merge. -/
theorem rdRenorm_noMerge : ∀ (k f : Nat) (x : RdCtx), k ≤ f → 128 ≤ x.range.toNat * 2 ^ k → x.range.toNat * 2 ^ k < 256 →
    x.bitcnt.toNat + k < 8 → rdRenorm p m f x = .ok (x.shifted k 0 x.ptr) := by
  intro k
  induction k with
  | zero =>
    intro f x _ h _ _
    rw [RdCtx.shifted_zero]
    cases f with
    | zero => rfl
    | succ f => simp only [rdRenorm]; rw [if_neg (by omega)]
  | succ k ih =>
    intro f x hf h1 h2 hb
    obtain ⟨f, rfl⟩ : ∃ g, f = g + 1 := ⟨f - 1, by omega⟩
    have hr := range_lt_of_shifts h2
    have e1 : (x.bitcnt + 1).toNat = x.bitcnt.toNat + 1 := by simp [BitVec.toNat_add]; omega
    have e2 : (x.range <<< 1).toNat = x.range.toNat * 2 := by simp [BitVec.toNat_shiftLeft]; omega
    have hne : x.bitcnt + 1 ≠ 0 := by intro h; rw [h] at e1; simp at e1
    have hs : rdShift p m x = .ok x.shift1 := by simp only [rdShift]; rw [if_neg hne]; rfl
    have he : x.range.toNat * 2 * 2 ^ k = x.range.toNat * 2 ^ (k + 1) := by rw [Nat.pow_succ, Nat.mul_assoc, Nat.mul_comm 2]
    simp only [rdRenorm, hr, if_true, hs]
    rw [ih f x.shift1 (by omega) (by simp only [RdCtx.shift1, e2]; omega) (by simp only [RdCtx.shift1, e2]; omega)
      (by simp only [RdCtx.shift1, e1]; omega)]
    rw [← RdCtx.shift1_shifted x k 0 x.ptr hr (by omega)]; rfl

/-- A fetch depends on RD_PTR and RD_END alone. -/
theorem rdNextByte_congr {x y : RdCtx} (hp : y.ptr = x.ptr) (hs : y.stop = x.stop) :
    rdNextByte p m y = match rdNextByte p m x with
      | .error e => .error e
      | .ok (b, z) => .ok (b, { y with ptr := z.ptr }) := by
  unfold rdNextByte
  rw [hp, hs]
  split
  · split <;> rfl
  · split
    · rfl
    · simp [← hp, ← hs]

/-- Renormalisation with a merge. -/
theorem rdRenorm_merge : ∀ (k f : Nat) (x : RdCtx), k ≤ f → k < 8 → 128 ≤ x.range.toNat * 2 ^ k →
    x.range.toNat * 2 ^ k < 256 → 8 ≤ x.bitcnt.toNat + k → x.value.toNat % 2 ^ x.bitcnt.toNat = 0 →
    rdRenorm p m f x = match rdNextByte p m x with
      | .error e => .error e
      | .ok (b, z) => .ok (x.shifted k b.toNat z.ptr) := by
  intro k
  induction k with
  | zero => intro f x _ _ _ _ h; have := x.bitcnt.isLt; omega
  | succ k ih =>
    intro f x hf hk h1 h2 hb hv
    obtain ⟨f, rfl⟩ : ∃ g, f = g + 1 := ⟨f - 1, by omega⟩
    have hr := range_lt_of_shifts h2
    have e2 : (x.range <<< 1).toNat = x.range.toNat * 2 := by simp [BitVec.toNat_shiftLeft]; omega
    have e3 : (x.value <<< 1).toNat = x.value.toNat * 2 % 2 ^ 16 := by simp [BitVec.toNat_shiftLeft, Nat.shiftLeft_eq]
    have he : x.range.toNat * 2 * 2 ^ k = x.range.toNat * 2 ^ (k + 1) := by rw [Nat.pow_succ, Nat.mul_assoc, Nat.mul_comm 2]
    have hlt := x.bitcnt.isLt
    simp only [rdRenorm, hr, if_true]
    by_cases h7 : x.bitcnt.toNat = 7
    · have e1 : x.bitcnt + 1 = 0 := by apply BitVec.eq_of_toNat_eq; simp [BitVec.toNat_add, h7]
      have hs : rdShift p m x = match rdNextByte p m x with
          | .error e => .error e
          | .ok (b, z) => .ok { x.shift1 with ptr := z.ptr, value := x.shift1.value ||| b.setWidth 16 } := by
        simp only [rdShift, e1, if_true]
        rw [rdNextByte_congr (x := x) (by rfl) (by rfl)]
        rcases rdNextByte p m x with e | ⟨b, z⟩
        · rfl
        · simp only [RdCtx.shift1, e1]
      rw [hs]
      rcases rdNextByte p m x with e | ⟨b, z⟩
      · rfl
      · simp only
        rw [rdRenorm_noMerge k f _ (by omega) (by simp only [RdCtx.shift1, e2]; omega)
          (by simp only [RdCtx.shift1, e2]; omega) (by simp only [RdCtx.shift1, e1]; simp; omega)]
        congr 1
        rw [h7] at hv
        have e4 : (x.value <<< 1 ||| b.setWidth 16).toNat = x.value.toNat * 2 % 2 ^ 16 + b.toNat := by
          have hb8 := b.isLt
          rw [BitVec.toNat_or, e3, show (b.setWidth 16).toNat = b.toNat by simp; omega]
          have := Nat.two_pow_add_eq_or_of_lt hb8 (x.value.toNat * 2 % 2 ^ 16 / 2 ^ 8)
          rw [show 2 ^ 8 * (x.value.toNat * 2 % 2 ^ 16 / 2 ^ 8) = x.value.toNat * 2 % 2 ^ 16 by omega] at this
          exact this.symm
        simp only [RdCtx.shifted, RdCtx.shift1, e1, e2, e4, h7, RdCtx.mk.injEq, true_and]
        rw [if_neg (by simp; omega), if_pos (by omega), show 7 + (k + 1) - 8 = k by omega]
        refine ⟨?_, ?_, ?_⟩
        · apply BitVec.eq_of_toNat_eq
          simp only [BitVec.toNat_ofNat, Nat.add_zero]
          rw [Nat.add_mul, Nat.add_mod, Nat.mod_mul_mod, ← Nat.add_mod, Nat.mul_assoc, Nat.mul_comm 2, ← Nat.pow_succ]
        · rw [Nat.pow_succ, Nat.mul_assoc, Nat.mul_comm 2]
        · refine ⟨?_, trivial⟩
          apply BitVec.eq_of_toNat_eq; simp; omega
    · have e1 : (x.bitcnt + 1).toNat = x.bitcnt.toNat + 1 := by simp [BitVec.toNat_add]; omega
      have hne : x.bitcnt + 1 ≠ 0 := by intro h; rw [h] at e1; simp at e1
      have hs : rdShift p m x = .ok x.shift1 := by simp only [rdShift]; rw [if_neg hne]; rfl
      rw [hs]
      simp only
      rw [ih f x.shift1 (by omega) (by omega) (by simp only [RdCtx.shift1, e2]; omega)
        (by simp only [RdCtx.shift1, e2]; omega) (by simp only [RdCtx.shift1, e1]; omega)
        (by
          simp only [RdCtx.shift1, e1, e3]
          obtain ⟨q, hq⟩ := Nat.dvd_of_mod_eq_zero hv
          rw [hq, Nat.mod_mod_of_dvd _ (Nat.pow_dvd_pow 2 (by omega : x.bitcnt.toNat + 1 ≤ 16)), Nat.pow_succ,
            Nat.mul_right_comm]
          exact Nat.mul_mod_right _ _)]
      rw [rdNextByte_congr (x := x) (y := x.shift1) rfl rfl]
      rcases rdNextByte p m x with e | ⟨b, z⟩
      · rfl
      · simp only
        rw [RdCtx.shift1_shifted x k _ _ hr (by omega)]

/-! ### RdBool -/

/-- The split of a range of 1 or more, in the naturals. -/
theorem rdSplit_eq {range : BitVec 8} (p8 : Byte) (h : 1 ≤ range.toNat) :
    rdSplit range p8 = ((1 + (range.toNat - 1) * p8.toNat / 256 : Nat) : Int) := by
  unfold rdSplit
  have : (range.toNat : Int) - 1 = ((range.toNat - 1 : Nat) : Int) := by omega
  rw [this]
  simp only [Int.natCast_add, Int.natCast_ediv, Int.natCast_mul]
  rfl

/-- The split leaves both outcomes a range of 1 or more (R125). -/
theorem split_bounds {r q : Nat} (h : 2 ≤ r) (hq : q < 256) : 1 ≤ 1 + (r - 1) * q / 256 ∧ 1 + (r - 1) * q / 256 ≤ r - 1 := by
  have h2 : (r - 1) * q / 256 < r - 1 := by
    rw [Nat.div_lt_iff_lt_mul (by omega)]
    exact Nat.mul_lt_mul_of_pos_left hq (by omega)
  omega

/-- The decision of `RdBool` in the naturals, from a range of 2 or more. -/
theorem rdDecide_eq (x : RdCtx) (p8 : Byte) (h : 2 ≤ x.range.toNat) :
    let s := 1 + (x.range.toNat - 1) * p8.toNat / 256
    rdDecide x p8 =
      if s * 256 ≤ x.value.toNat then
        (true, { x with range := BitVec.ofNat 8 (x.range.toNat - s), value := BitVec.ofNat 16 (x.value.toNat - s * 256) })
      else (false, { x with range := BitVec.ofNat 8 s }) := by
  have hb := split_bounds h p8.isLt
  simp only [rdDecide, rdSplit_eq p8 (by omega : 1 ≤ x.range.toNat)]
  generalize 1 + (x.range.toNat - 1) * p8.toNat / 256 = s at *
  by_cases hc : s * 256 ≤ x.value.toNat
  · have hc' : (s : Int) * 256 ≤ (x.value.toNat : Int) := by omega
    rw [if_pos hc, if_pos hc']
    have e1 : (x.range.toNat : Int) - s = ((x.range.toNat - s : Nat) : Int) := by omega
    have e2 : (x.value.toNat : Int) - s * 256 = ((x.value.toNat - s * 256 : Nat) : Int) := by omega
    rw [e1, e2, BitVec.ofInt_natCast, BitVec.ofInt_natCast]
  · have hc' : ¬ (s : Int) * 256 ≤ (x.value.toNat : Int) := by omega
    rw [if_neg hc, if_neg hc', BitVec.ofInt_natCast]

/-- What the decision leaves of a context as R125 leaves it. -/
theorem rdDecide_window {x : RdCtx} (p8 : Byte) (h : x.Window) :
    let y := (rdDecide x p8).2
    1 ≤ y.range.toNat ∧ y.value.toNat % 2 ^ y.bitcnt.toNat = 0 ∧ y.bitcnt = x.bitcnt ∧ y.ptr = x.ptr ∧ y.stop = x.stop ∧
      y.valid = x.valid ∧ (x.Below → y.Below) := by
  obtain ⟨hr, hv⟩ := h
  have hb := split_bounds (by omega : 2 ≤ x.range.toNat) p8.isLt
  have hlt := x.range.isLt
  have hvl := x.value.isLt
  have hbc := x.bitcnt.isLt
  rw [rdDecide_eq x p8 (by omega)]
  generalize 1 + (x.range.toNat - 1) * p8.toNat / 256 = s at *
  dsimp only
  split
  · rename_i hc
    have e1 : (BitVec.ofNat 8 (x.range.toNat - s)).toNat = x.range.toNat - s := by simp; omega
    have e2 : (BitVec.ofNat 16 (x.value.toNat - s * 256)).toNat = x.value.toNat - s * 256 := by simp; omega
    simp only [RdCtx.Below, e1, e2]
    refine ⟨by omega, ?_, trivial, trivial, trivial, trivial, fun h => by omega⟩
    have hd : 2 ^ x.bitcnt.toNat ∣ s * 256 := Nat.dvd_trans (Nat.pow_dvd_pow 2 (by omega : x.bitcnt.toNat ≤ 8)) ⟨s, by omega⟩
    exact Nat.mod_eq_zero_of_dvd ((Nat.dvd_sub (Nat.dvd_of_mod_eq_zero hv) hd))
  · rename_i hc
    have e1 : (BitVec.ofNat 8 s).toNat = s := by simp; omega
    simp only [RdCtx.Below, e1]
    exact ⟨by omega, hv, trivial, trivial, trivial, trivial, fun _ => Nat.lt_of_not_le hc⟩

/-- How many shifts bring a range of 1 to 255 to 128 or more. -/
theorem shifts_bounds {r : Nat} (h1 : 1 ≤ r) (h2 : r < 256) :
    128 ≤ r * 2 ^ (7 - Nat.log2 r) ∧ r * 2 ^ (7 - Nat.log2 r) < 256 ∧ 7 - Nat.log2 r ≤ 7 := by
  have := Nat.log2_self_le (by omega : r ≠ 0)
  have := Nat.lt_log2_self (n := r)
  have hl : Nat.log2 r < 8 := (Nat.log2_lt (by omega)).2 h2
  generalize Nat.log2 r = l at *
  have : 2 ^ l * 2 ^ (7 - l) = 128 := by rw [← Nat.pow_add, show l + (7 - l) = 7 by omega]
  have h3 := Nat.mul_le_mul_right (2 ^ (7 - l)) ‹2 ^ l ≤ r›
  have h4 := Nat.mul_lt_mul_of_pos_right ‹r < 2 ^ (l + 1)› (Nat.two_pow_pos (7 - l))
  rw [Nat.pow_succ, Nat.mul_right_comm] at h4
  omega

/-- The shifts of `RdBool(p)` on `x`. -/
def rdShifts (x : RdCtx) (p8 : Byte) : Nat := 7 - Nat.log2 (rdDecide x p8).2.range.toNat

/-- `RdBool` in closed form on a context as R125 leaves it: the decision, the shifts, and the byte at the 8th of them. -/
theorem rdBool_closed {x : RdCtx} (p8 : Byte) (h : x.Window) :
    rdBool p m p8 x =
      if x.bitcnt.toNat + rdShifts x p8 < 8 then
        .ok ((rdDecide x p8).1, (rdDecide x p8).2.shifted (rdShifts x p8) 0 x.ptr)
      else
        match rdNextByte p m x with
        | .error e => .error e
        | .ok (b, z) => .ok ((rdDecide x p8).1, (rdDecide x p8).2.shifted (rdShifts x p8) b.toNat z.ptr) := by
  obtain ⟨h1, h2, h3, h4, h5, h6, -⟩ := rdDecide_window p8 h
  have hs := shifts_bounds h1 (rdDecide x p8).2.range.isLt
  unfold rdBool
  rw [show 7 - Nat.log2 (rdDecide x p8).2.range.toNat = rdShifts x p8 from rfl] at hs
  by_cases hc : x.bitcnt.toNat + rdShifts x p8 < 8
  · rw [if_pos hc, rdRenorm_noMerge (rdShifts x p8) 7 _ hs.2.2 hs.1 hs.2.1 (by rw [h3]; omega), h4]
  · rw [if_neg hc, rdRenorm_merge (rdShifts x p8) 7 _ hs.2.2 (by omega) hs.1 hs.2.1 (by rw [h3]; omega) h2,
      rdNextByte_congr h4 h5]
    rcases rdNextByte p m x with e | ⟨b, z⟩ <;> rfl

/-- What a context shifted up to RANGE 128 or more keeps. -/
theorem shifted_window {y : RdCtx} {k byte : Nat} (ptr : Word) (hr1 : 128 ≤ y.range.toNat * 2 ^ k)
    (hr2 : y.range.toNat * 2 ^ k < 256) (hk : k ≤ 7) (hv : y.value.toNat % 2 ^ y.bitcnt.toNat = 0) (hb : byte < 256) :
    (y.shifted k byte ptr).Window ∧ (y.Below → (y.shifted k byte ptr).Below) := by
  have hbc := y.bitcnt.isLt
  have e1 : (BitVec.ofNat 8 (y.range.toNat * 2 ^ k)).toNat = y.range.toNat * 2 ^ k := by simp; omega
  have hz : (if 8 ≤ y.bitcnt.toNat + k then byte * 2 ^ (y.bitcnt.toNat + k - 8) else 0) < 2 ^ (y.bitcnt.toNat + k) := by
    split
    · have h1 := Nat.mul_lt_mul_of_pos_right hb (Nat.two_pow_pos (y.bitcnt.toNat + k - 8))
      rw [show 256 = 2 ^ 8 from rfl, ← Nat.pow_add, show 8 + (y.bitcnt.toNat + k - 8) = y.bitcnt.toNat + k by omega] at h1
      exact h1
    · exact Nat.two_pow_pos _
  obtain ⟨q, hq⟩ := Nat.dvd_of_mod_eq_zero hv
  have hmul : y.value.toNat * 2 ^ k = 2 ^ (y.bitcnt.toNat + k) * q := by rw [hq, Nat.pow_add, Nat.mul_right_comm]
  refine ⟨⟨by simp only [RdCtx.shifted, e1]; omega, ?_⟩, ?_⟩
  · have e3 : (BitVec.ofNat 3 (y.bitcnt.toNat + k)).toNat = (y.bitcnt.toNat + k) % 8 := by simp
    simp only [RdCtx.shifted, e3, BitVec.toNat_ofNat]
    rw [Nat.mod_mod_of_dvd _ (Nat.pow_dvd_pow 2 (by omega : (y.bitcnt.toNat + k) % 8 ≤ 16))]
    apply Nat.mod_eq_zero_of_dvd
    apply Nat.dvd_add
    · rw [hmul]
      exact Nat.dvd_trans (Nat.pow_dvd_pow 2 (Nat.mod_le _ _)) ⟨q, rfl⟩
    · split
      · rw [show y.bitcnt.toNat + k - 8 = (y.bitcnt.toNat + k) % 8 by omega]
        exact ⟨byte, Nat.mul_comm _ _⟩
      · exact Nat.dvd_zero _
  · intro hB
    unfold RdCtx.Below at hB ⊢
    simp only [RdCtx.shifted, e1, BitVec.toNat_ofNat]
    have hlt : y.value.toNat * 2 ^ k +
        (if 8 ≤ y.bitcnt.toNat + k then byte * 2 ^ (y.bitcnt.toNat + k - 8) else 0) < y.range.toNat * 256 * 2 ^ k := by
      rw [hmul]
      have hd : y.range.toNat * 256 * 2 ^ k = 2 ^ (y.bitcnt.toNat + k) * (y.range.toNat * 2 ^ (8 - y.bitcnt.toNat)) := by
        have h256 : 256 = 2 ^ y.bitcnt.toNat * 2 ^ (8 - y.bitcnt.toNat) := by
          rw [← Nat.pow_add, show y.bitcnt.toNat + (8 - y.bitcnt.toNat) = 8 by omega]
        calc y.range.toNat * 256 * 2 ^ k = y.range.toNat * (2 ^ y.bitcnt.toNat * 2 ^ (8 - y.bitcnt.toNat)) * 2 ^ k := by rw [← h256]
          _ = _ := by rw [Nat.pow_add]; simp only [Nat.mul_comm, Nat.mul_left_comm, Nat.mul_assoc]
      rw [hd]
      have hqlt : q < y.range.toNat * 2 ^ (8 - y.bitcnt.toNat) := by
        apply Nat.lt_of_mul_lt_mul_left (a := 2 ^ (y.bitcnt.toNat + k))
        rw [← hd, ← hmul]
        exact Nat.mul_lt_mul_of_pos_right hB (Nat.two_pow_pos k)
      calc _ < 2 ^ (y.bitcnt.toNat + k) * q + 2 ^ (y.bitcnt.toNat + k) := Nat.add_lt_add_left hz _
        _ = 2 ^ (y.bitcnt.toNat + k) * (q + 1) := by rw [Nat.mul_add, Nat.mul_one]
        _ ≤ _ := Nat.mul_le_mul_left _ hqlt
    rw [Nat.mul_right_comm] at hlt
    exact Nat.lt_of_le_of_lt (Nat.mod_le _ _) hlt

/-- A successful `RdBool` leaves a context as R125 leaves it. -/
theorem rdBool_keeps {x y : RdCtx} {p8 : Byte} {b : Bool} (h : x.Window) (hr : rdBool p m p8 x = .ok (b, y)) :
    y.Window ∧ (x.Below → y.Below) := by
  obtain ⟨h1, h2, h3, h4, h5, h6, h7⟩ := rdDecide_window p8 h
  have hs := shifts_bounds h1 (rdDecide x p8).2.range.isLt
  rw [show 7 - Nat.log2 (rdDecide x p8).2.range.toNat = rdShifts x p8 from rfl] at hs
  rw [rdBool_closed p8 h] at hr
  split at hr
  · simp only [Except.ok.injEq, Prod.mk.injEq] at hr
    obtain ⟨-, rfl⟩ := hr
    have hw := shifted_window (byte := 0) x.ptr hs.1 hs.2.1 hs.2.2 h2 (by omega)
    exact ⟨hw.1, fun hB => hw.2 (h7 hB)⟩
  · split at hr
    · cases hr
    · rename_i b' z _
      simp only [Except.ok.injEq, Prod.mk.injEq] at hr
      obtain ⟨-, rfl⟩ := hr
      have hw := shifted_window z.ptr hs.1 hs.2.1 hs.2.2 h2 b'.isLt
      exact ⟨hw.1, fun hB => hw.2 (h7 hB)⟩

/-! ### What every read keeps, and what it raises, for any context -/

/-- RD_END and VALID are kept. -/
def RdCtx.SameEnd (x y : RdCtx) : Prop := y.stop = x.stop ∧ y.valid = x.valid

theorem RdCtx.SameEnd.trans {x y z : RdCtx} (h : x.SameEnd y) (g : y.SameEnd z) : x.SameEnd z :=
  ⟨g.1.trans h.1, g.2.trans h.2⟩

/-- The two errors that a range-decoder read raises. -/
def RdRaises (e : ErrKind) : Prop := e = .invalidArgument ∨ e = .endOfInput

theorem memReadChecked_raises {a : Nat} {e : ErrKind} (h : memReadChecked p m a = .error e) : RdRaises e := by
  unfold memReadChecked at h
  split at h <;> simp_all [RdRaises]

/-- A checked read of an address in DMEM answers its byte. -/
theorem memReadChecked_ok {a : Nat} (h : a < p.dmemSize) : memReadChecked p m a = .ok (memByte m a) :=
  if_pos (by simp only [inDmem, decide_eq_true_eq]; omega)

theorem rdShift_keeps {x y : RdCtx} (h : rdShift p m x = .ok y) : x.SameEnd y := by
  unfold rdShift at h
  dsimp only at h
  split at h
  · split at h
    · cases h
    · rename_i hn
      have := rdNextByte_keeps hn
      obtain rfl := Except.ok.inj h
      rw [this]; exact ⟨rfl, rfl⟩
  · obtain rfl := Except.ok.inj h
    exact ⟨rfl, rfl⟩

theorem rdShift_raises {x : RdCtx} {e : ErrKind} (h : rdShift p m x = .error e) : RdRaises e := by
  unfold rdShift at h
  dsimp only at h
  split at h
  · split at h
    · rename_i hn; cases h; exact rdNextByte_raises hn
    · cases h
  · cases h

theorem rdRenorm_keeps : ∀ {f : Nat} {x y : RdCtx}, rdRenorm p m f x = .ok y → x.SameEnd y := by
  intro f
  induction f with
  | zero => intro x y h; cases h; exact ⟨rfl, rfl⟩
  | succ f ih =>
    intro x y h
    simp only [rdRenorm] at h
    split at h
    · split at h
      · cases h
      · exact (rdShift_keeps ‹_›).trans (ih h)
    · cases h; exact ⟨rfl, rfl⟩

theorem rdRenorm_raises : ∀ {f : Nat} {x : RdCtx} {e : ErrKind}, rdRenorm p m f x = .error e → RdRaises e := by
  intro f
  induction f with
  | zero => intro x e h; cases h
  | succ f ih =>
    intro x e h
    simp only [rdRenorm] at h
    split at h
    · split at h
      · cases h; exact rdShift_raises ‹_›
      · exact ih h
    · cases h

theorem rdDecide_keeps (x : RdCtx) (p8 : Byte) : x.SameEnd (rdDecide x p8).2 := by
  unfold rdDecide
  dsimp only
  split <;> exact ⟨rfl, rfl⟩

theorem rdBool_sameEnd {x y : RdCtx} {p8 : Byte} {b : Bool} (h : rdBool p m p8 x = .ok (b, y)) : x.SameEnd y := by
  unfold rdBool at h
  split at h
  · cases h
  · cases h; exact (rdDecide_keeps x p8).trans (rdRenorm_keeps ‹_›)

theorem rdBool_raises {x : RdCtx} {p8 : Byte} {e : ErrKind} (h : rdBool p m p8 x = .error e) : RdRaises e := by
  unfold rdBool at h
  split at h
  · cases h; exact rdRenorm_raises ‹_›
  · cases h

/-- Whatever every successful `RdBool` keeps, reading `n` flags keeps. -/
theorem rdBits_induct {P : RdCtx → Prop} (hP : ∀ {x y : RdCtx} {b : Bool}, P x → rdBool p m 128#8 x = .ok (b, y) → P y) :
    ∀ {n v w : Nat} {x y : RdCtx}, P x → rdBits p m n v x = .ok (w, y) → P y := by
  intro n
  induction n with
  | zero => intro v w x y hx h; cases h; exact hx
  | succ n ih =>
    intro v w x y hx h
    simp only [rdBits] at h
    split at h
    · cases h
    · exact ih (hP hx ‹_›) h

theorem rdBits_raises : ∀ {n v : Nat} {x : RdCtx} {e : ErrKind}, rdBits p m n v x = .error e → RdRaises e := by
  intro n
  induction n with
  | zero => intro v x e h; cases h
  | succ n ih =>
    intro v x e h
    simp only [rdBits] at h
    split at h
    · cases h; exact rdBool_raises ‹_›
    · exact ih h

/-- One flag more is one flag read after the others, the least significant. -/
theorem rdBits_succ : ∀ (n v : Nat) (x : RdCtx), rdBits p m (n + 1) v x =
    match rdBits p m n v x with
    | .error e => .error e
    | .ok (w, y) =>
      match rdBool p m 128#8 y with
      | .error e => .error e
      | .ok (b, z) => .ok (2 * w + b.toNat, z) := by
  intro n
  induction n with
  | zero => intro v x; cases h : rdBool p m 128#8 x <;> simp [rdBits, h]
  | succ n ih =>
    intro v x
    rw [rdBits]
    simp only [rdBits]
    split
    · rfl
    · rw [← ih]; simp only [rdBits]

/-- The number read is below its range. -/
theorem rdBits_lt : ∀ {n v w : Nat} {x y : RdCtx}, rdBits p m n v x = .ok (w, y) → w < (v + 1) * 2 ^ n := by
  intro n
  induction n with
  | zero => intro v w x y h; cases h; omega
  | succ n ih =>
    intro v w x y h
    simp only [rdBits] at h
    split at h
    · cases h
    · rename_i b _ _
      refine Nat.lt_of_lt_of_le (ih h) ?_
      rw [Nat.pow_succ, Nat.mul_comm (2 ^ n), ← Nat.mul_assoc]
      refine Nat.mul_le_mul_right _ ?_
      cases b <;> simp <;> omega

theorem rdSigned_induct {P : RdCtx → Prop} (hP : ∀ {x y : RdCtx} {b : Bool}, P x → rdBool p m 128#8 x = .ok (b, y) → P y)
    {n : Nat} {v : Int} {x y : RdCtx} (hx : P x) (h : rdSigned p m n x = .ok (v, y)) : P y := by
  unfold rdSigned at h
  split at h
  · cases h
  · rename_i hb
    split at h
    · cases h
    · rename_i hs
      cases h; exact hP (rdBits_induct hP hx hb) hs

theorem rdSigned_raises {n : Nat} {x : RdCtx} {e : ErrKind} (h : rdSigned p m n x = .error e) : RdRaises e := by
  unfold rdSigned at h
  split at h
  · cases h; exact rdBits_raises ‹_›
  · split at h
    · cases h; exact rdBool_raises ‹_›
    · cases h

theorem rdTreeWalk_induct {P : RdCtx → Prop} {tree prob : Nat}
    (hP : ∀ {x y : RdCtx} {b : Bool} {q : Byte}, P x → rdBool p m q x = .ok (b, y) → P y) :
    ∀ {k i v : Nat} {x y : RdCtx}, P x → rdTreeWalk p m tree prob k i x = .ok (v, y) → P y := by
  intro k
  induction k with
  | zero => intro i v x y _ h; cases h
  | succ k ih =>
    intro i v x y hx h
    simp only [rdTreeWalk] at h
    split at h
    · cases h
    · split at h
      · cases h
      · rename_i hb
        split at h
        · cases h
        · split at h
          · cases h; exact hP hx hb
          · exact ih (hP hx hb) h

theorem rdTreeWalk_raises {tree prob : Nat} :
    ∀ {k i : Nat} {x : RdCtx} {e : ErrKind}, rdTreeWalk p m tree prob k i x = .error e → RdRaises e := by
  intro k
  induction k with
  | zero => intro i x e h; cases h; exact .inl rfl
  | succ k ih =>
    intro i x e h
    simp only [rdTreeWalk] at h
    split at h
    · cases h; exact memReadChecked_raises ‹_›
    · split at h
      · cases h; exact rdBool_raises ‹_›
      · split at h
        · cases h; exact memReadChecked_raises ‹_›
        · split at h
          · cases h
          · exact ih h

/-- With more reads allowed, a walk that ended well ends the same. -/
theorem rdTreeWalk_more {tree prob : Nat} :
    ∀ {k j i v : Nat} {x y : RdCtx}, rdTreeWalk p m tree prob k i x = .ok (v, y) → k ≤ j →
      rdTreeWalk p m tree prob j i x = .ok (v, y) := by
  intro k
  induction k with
  | zero => intro j i v x y h; cases h
  | succ k ih =>
    intro j i v x y h hj
    obtain ⟨j, rfl⟩ : ∃ g, j = g + 1 := ⟨j - 1, by omega⟩
    simp only [rdTreeWalk] at h ⊢
    split at h
    · cases h
    · split at h
      · cases h
      · split at h
        · cases h
        · split at h
          · exact (if_pos ‹_›).trans h
          · exact (if_neg ‹_›).trans (ih h (by omega))

/-- With fewer reads allowed, a walk that ends well can only run out of reads. -/
theorem rdTreeWalk_exhausted {tree prob : Nat} :
    ∀ {k j i v : Nat} {x y : RdCtx} {e : ErrKind}, rdTreeWalk p m tree prob j i x = .ok (v, y) → k ≤ j →
      rdTreeWalk p m tree prob k i x = .error e → e = .invalidArgument := by
  intro k
  induction k with
  | zero => intro j i v x y e h _ he; cases he; rfl
  | succ k ih =>
    intro j i v x y e h hj he
    obtain ⟨j, rfl⟩ : ∃ g, j = g + 1 := ⟨j - 1, by omega⟩
    simp only [rdTreeWalk] at h he
    split at h
    · cases h
    · rename_i h1
      simp only [h1] at he
      split at h
      · cases h
      · rename_i h2
        simp only [h2] at he
        split at h
        · cases h
        · rename_i h3
          simp only [h3] at he
          split at h
          · rw [if_pos ‹_›] at he; cases he
          · rw [if_neg ‹_›] at he; exact ih h (by omega) he

/-- RD_INIT's load: RD_END is kept, RANGE 255, BITCNT 0, VALID 1. -/
theorem rdLoad_keeps {x y : RdCtx} (h : rdLoad p m x = .ok y) :
    y.stop = x.stop ∧ y.valid = true ∧ y.range = 255 ∧ y.bitcnt = 0 ∧ y.Window := by
  unfold rdLoad at h
  split at h
  · cases h
  · rename_i h1
    split at h
    · cases h
    · rename_i h2
      cases h
      rw [rdNextByte_keeps h2, rdNextByte_keeps h1]
      exact ⟨rfl, rfl, rfl, rfl, show 128 ≤ (255#8).toNat by decide, Nat.mod_one _⟩

theorem rdLoad_raises {x : RdCtx} {e : ErrKind} (h : rdLoad p m x = .error e) : RdRaises e := by
  unfold rdLoad at h
  split at h
  · cases h; exact rdNextByte_raises ‹_›
  · split at h
    · cases h; exact rdNextByte_raises ‹_›
    · cases h

/-- A byte of a stream that ends inside DMEM is missing only past its end. -/
theorem rdNextByte_end {x : RdCtx} {e : ErrKind} (hs : x.stop.toNat ≤ p.dmemSize) (h : rdNextByte p m x = .error e) :
    e = .endOfInput := by
  by_cases hx : x.ptr.toNat < x.stop.toNat
  · rw [rdNextByte_inside hx hs] at h; cases h
  · unfold rdNextByte at h
    rw [if_neg hx] at h
    split at h <;> cases h
    rfl

/-- RD_INIT's load of a stream that ends inside DMEM raises only `EndOfInput`. -/
theorem rdLoad_end {x : RdCtx} {e : ErrKind} (hs : x.stop.toNat ≤ p.dmemSize) (h : rdLoad p m x = .error e) :
    e = .endOfInput := by
  unfold rdLoad at h
  cases h1 : rdNextByte p m x with
  | error f => rw [h1] at h; cases h; exact rdNextByte_end hs h1
  | ok r =>
    obtain ⟨b, y⟩ := r
    have hy : y.stop = x.stop := by rw [rdNextByte_keeps h1]
    simp only [h1] at h
    split at h <;> cases h
    exact rdNextByte_end (by rw [hy]; exact hs) ‹_›

theorem rdShift_end {x : RdCtx} {e : ErrKind} (hs : x.stop.toNat ≤ p.dmemSize) (h : rdShift p m x = .error e) :
    e = .endOfInput := by
  unfold rdShift at h
  dsimp only at h
  split at h
  · split at h <;> cases h
    rename_i h1
    exact rdNextByte_end (by exact hs) h1
  · cases h

theorem rdRenorm_end : ∀ {f : Nat} {x : RdCtx} {e : ErrKind}, x.stop.toNat ≤ p.dmemSize →
    rdRenorm p m f x = .error e → e = .endOfInput := by
  intro f
  induction f with
  | zero => intro x e _ h; cases h
  | succ f ih =>
    intro x e hs h
    simp only [rdRenorm] at h
    split at h
    · split at h
      · cases h; exact rdShift_end hs ‹_›
      · exact ih (by rw [(rdShift_keeps ‹_›).1]; exact hs) h
    · cases h

/-- `RdBool` on a stream that ends inside DMEM raises only `EndOfInput`. -/
theorem rdBool_end {x : RdCtx} {p8 : Byte} {e : ErrKind} (hs : x.stop.toNat ≤ p.dmemSize)
    (h : rdBool p m p8 x = .error e) : e = .endOfInput := by
  unfold rdBool at h
  split at h <;> cases h
  exact rdRenorm_end (by rw [(rdDecide_keeps x p8).1]; exact hs) ‹_›

end Sys2Proof.Machine
end

