-- ==== Sys2Proof/Laws/Exec.lean ====
section
/-! SUPPORT. What is common to many commands: the four range-decoder reads as one shape, the OP of a command's word, the
bytes each engine's stores leave alone, and the step on the sequencer's turn. -/

namespace Sys2Proof.Machine

open Sys2Proof.Claim

/-- OP of a command's word. -/
theorem encode_op (i : Instr) : BitVec.ofNat 8 (encode i).toNat = i.op := by
  rw [← opField_eq]
  cases i <;> simp only [encode, opField_formatR, opField_formatB, opField_formatH, opField_formatN, Instr.op]

/-- One slot written, in a canonical slot file. -/
theorem State.setSlot_slot {s : State} (hc : Sparse.Canonical none s.slots) (t : Nat) (x : Option HCode) (k : Nat) :
    (s.setSlot t x).slot k = if k = t then x else s.slot k := by
  unfold State.slot State.setSlot; rw [Sparse.get_set hc]

/-- VALID is no part of a failed command's write set. -/
theorem State.drawRd_valid (s : State) (c k : Ctx) : ((s.drawRd c).rd k).valid = (s.rd k).valid := by
  rw [State.drawRd_rd]; split
  · subst_vars; rfl
  · rfl

/-- RD_END is no part of a failed command's write set. -/
theorem State.drawRd_stop (s : State) (c k : Ctx) : ((s.drawRd c).rd k).stop = (s.rd k).stop := by
  rw [State.drawRd_rd]; split
  · subst_vars; rfl
  · rfl

/-- The commands that read through a context: RD_BOOL, RD_UINT, RD_SINT and RD_TREE. -/
def RdRead (i : Instr) (c : Ctx) : Prop := ctxUsed i = some c ∧ ∀ k, i ≠ .rdInit k

/-- They are one command with different reads; a read keeps RD_END and VALID, and keeps whatever every `RdBool` keeps. -/
theorem exec_rdRead {i : Instr} {c : Ctx} {s t : State} (hi : RdRead i c) (h : exec i s = .next t) :
    ∃ read, rdCommand i.op c s read = .next t ∧ (∀ e, read (s.rd c) = .error e → RdRaises e) ∧
      ∀ P : RdCtx → Prop, (∀ {x y : RdCtx} {b : Bool} {q : Byte}, P x → rdBool s.params s.mem q x = .ok (b, y) → P y) →
        ∀ {v x}, P (s.rd c) → read (s.rd c) = .ok (v, x) → P x := by
  obtain ⟨hc, hn⟩ := hi
  cases i <;> simp [ctxUsed] at hc hn
  all_goals
    subst hc
    simp only [exec, execRdBool, execRdUint, execRdSint, execRdTree] at h
    refine ⟨_, h, fun e he => ?_, fun P hP v x hx he => ?_⟩
    all_goals split at he <;> cases he
  · exact rdBool_raises ‹_›
  · exact hP hx ‹_›
  · exact rdBits_raises ‹_›
  · exact rdBits_induct hP hx ‹_›
  · exact rdSigned_raises ‹_›
  · exact rdSigned_induct hP hx ‹_›
  · exact rdTreeWalk_raises ‹_›
  · exact rdTreeWalk_induct hP hx ‹_›

/-- XF_IDCT_ADD's stores leave every other byte. -/
theorem xfAddPixels_outside {addr : Nat → Nat → Nat} {a : Nat} : ∀ (o : List Int) (i : Nat) {m : Memory}, Memory.wf m →
    (∀ j, i ≤ j → j < i + o.length → a ≠ addr (j / 4) (j % 4)) → memByte (xfAddPixels addr i o m) a = memByte m a := by
  intro o
  induction o with
  | nil => intro i m _ _; rfl
  | cons v o ih =>
    intro i m h hn
    rw [List.length_cons] at hn
    rw [xfAddPixels, ih (i + 1) (memStore_wf h _ _) (fun j h1 h2 => hn j (by omega) (by omega)), memByte_store h,
      if_neg (hn i (by omega) (by omega))]

/-- XF_IDCT's and XF_IWHT's stores leave every other byte. -/
theorem xfStoreHalves_outside {addr : Nat → Nat} {a : Nat} : ∀ (o : List Int) (i : Nat) {m : Memory}, Memory.wf m →
    (∀ j, i ≤ j → j < i + o.length → a ≠ addr j ∧ a ≠ addr j + 1) → memByte (xfStoreHalves addr i o m) a = memByte m a := by
  intro o
  induction o with
  | nil => intro i m _ _; rfl
  | cons v o ih =>
    intro i m h hn
    rw [List.length_cons] at hn
    have hi := hn i (by omega) (by omega)
    rw [xfStoreHalves, ih (i + 1) (memStore16_wf h _ _) (fun j h1 h2 => hn j (by omega) (by omega)),
      memByte_store16 h, if_neg hi.1, if_neg hi.2]

/-- CV_CONVERT's stores leave every other byte. -/
theorem cvRows_outside {s : State} {a : Nat} {m : Memory} (h : Memory.wf m) (ha : ¬ StoresTo s a .cvConvert) :
    memByte (cvRows s.cv s.cv.height.toNat m) a = memByte m a := by
  have key : Memory.wf (cvRows s.cv s.cv.height.toNat m) ∧
      memByte (cvRows s.cv s.cv.height.toNat m) a = memByte m a := by
    refine cvRows_induct (P := fun m' => Memory.wf m' ∧ memByte m' a = memByte m a) ?_ ⟨h, rfl⟩
    intro y hy x hx m' ⟨h1, h2⟩
    refine ⟨cvStep_wf h1, ?_⟩
    rw [memByte_cvStep h1, if_neg, h2]
    intro hc
    exact ha ⟨y, hy, x, hx, a - dstAt s.cv x y, by omega, by unfold dstAt at hc ⊢; omega⟩
  exact key.2

/-- On the sequencer's turn a step is `sequencerTurn`. -/
theorem step_seqTurn {s u : State} (h : s.seqTurn = some u) :
    step s = sequencerTurn exec u ∧ ∃ ts, u = { s with host := ts } := by
  unfold State.seqTurn at h
  unfold step stepWith
  split at h <;> rename_i hh
  · cases h; rw [hh]; exact ⟨rfl, s.host, rfl⟩
  · cases h; rw [hh]; exact ⟨rfl, _, rfl⟩
  · cases h

end Sys2Proof.Machine
end

