-- ==== Sys2Proof/Laws/Stream.lean ====
section
/-! SUPPORT. The readers of the bit stream against the stream as a number: what each reads, where it stands afterwards, and
that it raises `InvalidData` exactly where the number's reader has no answer. -/

namespace Sys2Proof.Machine

open Sys2Proof.Claim

variable {m : Memory} {b0 b : BrRegs} {q : Place}

/-- One reading after another, each with its own fill: the furthest fill counts. -/
theorem consumed_andThen {b' : BrRegs} {f p k n : Nat} (h : Consumed m b0 b f p) (g : Consumed m b b' k n)
    (hp : p ≤ avail b0) : Consumed m b0 b' (max f (p + k)) (p + n) := by
  have h1 := h.left
  have h2 := g.left
  have h3 := h.taken
  have h4 := g.taken
  refine ⟨by rw [g.bits, h.bits, Nat.div_div_eq_div_mul, Nat.pow_add], by omega, ?_, g.stop.trans h.stop, g.acc⟩
  unfold avail at *
  rw [g.stop, h.stop] at *
  omega

/-- The reader `b` stands at the place `q` of the stream that `b0` had. -/
structure StandsAt (m : Memory) (b0 b : BrRegs) (q : Place) : Prop where
  here : Consumed m b0 b q.reach q.pos
  most : q.pos ≤ avail b0

theorem StandsAt.start (h : b.AccOk) : StandsAt m b b ⟨0, 0⟩ := ⟨consumed_zero h, Nat.zero_le _⟩

theorem StandsAt.left (h : StandsAt m b0 b q) : avail b = avail b0 - q.pos := h.here.left

theorem StandsAt.bits (h : StandsAt m b0 b q) : stream m b = stream m b0 / 2 ^ q.pos := h.here.bits

/-- A reader's answer `e` is that of the number's reader, `o`, and it stands where `o` says. -/
def Agrees {α : Type} (m : Memory) (b0 : BrRegs) (o : Option (α × Place)) (e : Except ErrKind (α × BrRegs)) : Prop :=
  match o with
  | some (x, q) => ∃ b, e = .ok (x, b) ∧ StandsAt m b0 b q
  | none => e = .error .invalidData

/-- Either neither answers, or both do, with one number and the reader at the place. -/
theorem Agrees.elim {α : Type} {o : Option (α × Place)} {e : Except ErrKind (α × BrRegs)} (h : Agrees m b0 o e) :
    (o = none ∧ e = .error .invalidData) ∨ ∃ x q b, o = some (x, q) ∧ e = .ok (x, b) ∧ StandsAt m b0 b q := by
  cases o with
  | none => exact .inl ⟨rfl, h⟩
  | some r =>
    obtain ⟨b, he, hb⟩ := h
    exact .inr ⟨r.1, r.2, b, rfl, he, hb⟩

theorem Agrees.pure {α : Type} (x : α) (h : StandsAt m b0 b q) : Agrees m b0 (some (x, q)) (.ok (x, b)) := ⟨b, rfl, h⟩

/-! ### Numbers and symbols -/

/-- The stream that `b0` has, as a number. -/
def srcAt (m : Memory) (b0 : BrRegs) : Src := ⟨stream m b0, avail b0⟩

theorem brRead_agrees {n : Nat} (hn : n < 32) (h : StandsAt m b0 b q) :
    Agrees m b0 (bitsAt (srcAt m b0) n q) (brRead m n b) := by
  have hl := h.left
  have hm := h.most
  unfold bitsAt srcAt
  dsimp only
  split
  · obtain ⟨b', h1, h2⟩ := brRead_ok (m := m) hn h.here.acc (by omega : n ≤ avail b)
    rw [h.bits] at h1
    exact ⟨b', h1, consumed_andThen h.here h2 hm, by assumption⟩
  · exact brRead_error hn h.here.acc (by omega)

theorem bitsAt_lt {v : Src} {n x : Nat} {q' : Place} (h : bitsAt v n q = some (x, q')) : x < 2 ^ n := by
  unfold bitsAt at h
  split at h <;> cases h
  exact Nat.mod_lt _ (Nat.two_pow_pos n)

/-- In a valid code of many symbols the one whose code stands in the stream is found. -/
theorem symbol_found {l : HCode} (hx : ∀ x ∈ l, x ≤ 15) (hk : kraftSum l = 2 ^ 15) (v : Nat) :
    ∃ y, hfMatch l v 15 1 0 = some (l.getD y 0, y) ∧ l.getD y 0 ≤ 15 ∧
      (List.range l.length).find? (codeHere l v) = some y := by
  obtain ⟨len, y, h1, h2, h3, h4, h5, h6⟩ := hfMatch_complete hx hk v
  subst h5
  refine ⟨y, h1, h3, ?_⟩
  have fits : ∀ z, 0 < l.getD z 0 → l.getD z 0 ≤ 15 ∧ codeOf l z < 2 ^ l.getD z 0 := by
    intro z hz
    have h15 : l.getD z 0 ≤ 15 := by
      rw [List.getD_eq_getElem?_getD] at hz ⊢
      by_cases hzl : z < l.length
      · rw [List.getElem?_eq_getElem hzl] at hz ⊢; exact hx _ (List.getElem_mem hzl)
      · rw [List.getElem?_eq_none (by omega)]; simp
    exact ⟨h15, Nat.lt_of_lt_of_le (codeOf_lt_end hz).2 (codeEnd_le hx (by omega) h15)⟩
  cases hf : (List.range l.length).find? (codeHere l v) with
  | none =>
    have hy : codeHere l v y = true := decide_eq_true ⟨h2, (pfx_eq_iff (fits y h2).2).1 h6⟩
    exact absurd hy (List.find?_eq_none.1 hf y (List.mem_range.2 h4))
  | some z =>
    have hz : codeHere l v z = true := List.find?_some hf
    have hz := of_decide_eq_true hz
    have hm := hfMatch_code hz.1 (fits z hz.1).1 ((pfx_eq_iff (fits z hz.1).2).2 hz.2)
    rw [h1] at hm
    rw [(Prod.mk.inj (Option.some.inj hm)).2]

theorem hfDecode_agrees {l : HCode} (hv : lensValid l = true) (h : StandsAt m b0 b q) :
    Agrees m b0 (symbolAt l (srcAt m b0) q) (hfDecode l m b) := by
  have hl := h.left
  have hm := h.most
  unfold symbolAt
  split
  · rename_i h1
    rw [← List.countP_eq_length_filter] at h1
    have hs : singleSymbol l = l.findIdx? (fun x => x != 0) := if_pos h1
    cases hf : l.findIdx? (fun x => x != 0) with
    | none =>
      rw [List.findIdx?_eq_none_iff] at hf
      obtain ⟨x, hx, h0⟩ := usedCount_ne_zero.1 (by rw [usedCount, h1]; omega : usedCount l ≠ 0)
      exact absurd h0 (by simpa using hf x hx)
    | some y =>
      rw [hf] at hs
      exact ⟨b, hfDecode_single (singleSymbol_some.1 hs) b, h⟩
  · rename_i h1
    rw [← List.countP_eq_length_filter] at h1
    have hs : singleSymbol l = none := if_neg h1
    obtain ⟨hx, hk⟩ := complete_of_valid hv hs
    obtain ⟨y, hy, h15, hf⟩ := symbol_found hx hk (stream m b0 / 2 ^ q.pos)
    have hd := hfDecode_many (m := m) (b := b) hs h.here.acc h15 (by rw [h.bits]; exact hy)
    rw [show (List.range l.length).find? (codeHere l ((srcAt m b0).num / 2 ^ q.pos)) = some y from hf, Option.bind_some]
    have ha : (srcAt m b0).len = avail b0 := rfl
    by_cases hc : q.pos + l.getD y 0 ≤ (srcAt m b0).len
    · obtain ⟨b', e1, e2⟩ := hd.1 (by omega)
      rw [if_pos hc]
      exact ⟨b', e1, consumed_andThen h.here e2 hm, hc⟩
    · rw [if_neg hc]
      exact hd.2 (by omega)

/-! ### Code-length lists -/

theorem readClLens_agrees : ∀ (k : Nat) (ys : List Nat) {cl : HCode} {b : BrRegs} {q : Place}, StandsAt m b0 b q →
    Agrees m b0 (clLensAt (srcAt m b0) (ys.take k) cl q) (readClLens m k ys cl b) := by
  intro k
  induction k with
  | zero => intro ys cl b q h; exact Agrees.pure cl h
  | succ k ih =>
    intro ys cl b q h
    cases ys with
    | nil => exact Agrees.pure cl h
    | cons y ys =>
      rw [List.take_succ_cons, clLensAt, readClLens]
      rcases (brRead_agrees (n := 3) (by omega) h).elim with ⟨ho, he⟩ | ⟨x, q, b, ho, he, hb⟩ <;> rw [ho, he]
      · rfl
      · exact ih ys hb

theorem readMaxSymbol_agrees (n : Nat) (h : StandsAt m b0 b q) :
    Agrees m b0 (limitAt (srcAt m b0) n q) (readMaxSymbol m n b) := by
  unfold limitAt readMaxSymbol
  rcases (brRead_agrees (n := 1) (by omega) h).elim with ⟨ho, he⟩ | ⟨flag, q, b, ho, he, hb⟩ <;> rw [ho, he]
  · rfl
  have := bitsAt_lt ho
  simp only [Option.bind_some]
  by_cases h0 : flag = 0
  · subst h0; exact Agrees.pure n hb
  rw [if_neg h0, if_pos (by omega)]
  rcases (brRead_agrees (n := 3) (by omega) hb).elim with ⟨ho, he⟩ | ⟨sel, q, b, ho, he, hb⟩ <;> rw [ho, he]
  · rfl
  have := bitsAt_lt ho
  simp only [Option.bind_some]
  rcases (brRead_agrees (n := 2 + 2 * sel) (by omega) hb).elim with ⟨ho, he⟩ | ⟨x, q, b, ho, he, hb⟩ <;> rw [ho, he]
  · rfl
  simp only [Option.bind_some]
  by_cases hx : 2 + x ≤ n
  · rw [if_pos hx, if_neg (by omega)]; exact Agrees.pure _ hb
  · rw [if_neg hx, if_pos (by omega)]; rfl

theorem readLens_agrees {cl : HCode} (hv : lensValid cl = true) {n : Nat} :
    ∀ {k limit prev : Nat} {l : HCode} {b : BrRegs} {q : Place}, n ≤ l.length + k → StandsAt m b0 b q →
      Agrees m b0 (lengthsAt cl (srcAt m b0) n limit l prev q) (readLens cl m n k limit l prev b) := by
  intro k
  induction k with
  | zero =>
    intro limit prev l b q hl h
    cases limit with
    | zero => exact Agrees.pure l h
    | succ limit => rw [lengthsAt, if_pos (by omega)]; exact Agrees.pure l h
  | succ k ih =>
    intro limit prev l b q hl h
    cases limit with
    | zero => rw [readLens, if_pos (.inr rfl)]; exact Agrees.pure l h
    | succ limit =>
      rw [lengthsAt, readLens]
      by_cases hn : n ≤ l.length
      · rw [if_pos hn, if_pos (.inl hn)]; exact Agrees.pure l h
      rw [if_neg hn, if_neg (by omega)]
      rcases (hfDecode_agrees hv h).elim with ⟨ho, he⟩ | ⟨c, q, b, ho, he, hb⟩ <;> rw [ho, he]
      · rfl
      simp only [Option.bind_some]
      by_cases hc : c < 16
      · rw [if_pos hc, if_pos hc]
        exact ih (by simp; omega) hb
      rw [if_neg hc, if_neg hc]
      have hr : (if c = 16 then 2 else if c = 17 then 3 else 7) = (repeatCode c).1 ∧
          (if c < 18 then 3 else 11) = (repeatCode c).2 ∧ (repeatCode c).1 < 32 := by
        unfold repeatCode
        split
        · rw [if_pos (by omega)]; exact ⟨rfl, rfl, by decide⟩
        · split
          · rw [if_pos (by omega)]; exact ⟨rfl, rfl, by decide⟩
          · rw [if_neg (by omega)]; exact ⟨rfl, rfl, by decide⟩
      rw [hr.1, hr.2.1]
      rcases (brRead_agrees hr.2.2 hb).elim with ⟨ho, he⟩ | ⟨x, q, b, ho, he, hb⟩ <;> rw [ho, he]
      · rfl
      simp only [Option.bind_some]
      by_cases hx : l.length + (x + (repeatCode c).2) ≤ n
      · rw [if_pos hx, if_neg (by omega : ¬ n < l.length + (x + (repeatCode c).2))]
        refine ih ?_ hb
        have : 3 ≤ (repeatCode c).2 := by rw [← hr.2.1]; split <;> omega
        simp; omega
      · rw [if_neg hx, if_pos (by omega)]; rfl

/-- A normal list (R198): its lengths and its code-length code. -/
theorem readNormal_agrees (n : Nat) (h : StandsAt m b0 b q) :
    match normalAt (srcAt m b0) n q with
    | some (l, cl, q) => ∃ b', readNormal m n b = .ok (l, cl, b') ∧ StandsAt m b0 b' q
    | none => readNormal m n b = .error .invalidData := by
  have ho : clOrder = lengthOrder := by decide
  have h1 := brRead_agrees (n := 4) (by omega) h
  unfold normalAt readNormal
  cases e1 : bitsAt (srcAt m b0) 4 q with
  | none => rw [e1] at h1; simp only [Agrees] at h1; rw [h1]; rfl
  | some r =>
    obtain ⟨ncl, q1⟩ := r
    rw [e1] at h1
    obtain ⟨b1, h1, s1⟩ := h1
    have h2 := readClLens_agrees (ncl + 4) lengthOrder (cl := List.replicate 19 0) s1
    simp only [h1, Option.bind_some, ho]
    cases e2 : clLensAt (srcAt m b0) (lengthOrder.take (ncl + 4)) (List.replicate 19 0) q1 with
    | none => rw [e2] at h2; simp only [Agrees] at h2; rw [h2]; rfl
    | some r =>
      obtain ⟨cl, q2⟩ := r
      rw [e2] at h2
      obtain ⟨b2, h2, s2⟩ := h2
      simp only [h2, Option.bind_some]
      by_cases hv : lensValid cl = true
      · have hv' : ValidLens cl := lensValid_iff.1 hv
        have h3 := readMaxSymbol_agrees n s2
        simp only [if_pos hv, if_pos hv']
        cases e3 : limitAt (srcAt m b0) n q2 with
        | none => rw [e3] at h3; simp only [Agrees] at h3; rw [h3]; rfl
        | some r =>
          obtain ⟨limit, q3⟩ := r
          rw [e3] at h3
          obtain ⟨b3, h3, s3⟩ := h3
          have h4 := readLens_agrees hv (n := n) (k := n) (limit := limit) (prev := 8) (l := []) (by simp) s3
          simp only [h3, Option.bind_some]
          cases e4 : lengthsAt cl (srcAt m b0) n limit [] 8 q3 with
          | none => rw [e4] at h4; simp only [Agrees] at h4; rw [h4]; rfl
          | some r =>
            obtain ⟨l, q4⟩ := r
            rw [e4] at h4
            obtain ⟨b4, h4, s4⟩ := h4
            exact ⟨b4, by rw [h4], s4⟩
      · have hv' : ¬ ValidLens cl := fun hc => hv (lensValid_iff.2 hc)
        simp only [if_neg hv', if_neg hv]

/-! ### Prefix-coded values -/

theorem pxPrefix_agrees {c : Nat} (hc : c < 40) (h : StandsAt m b0 b q) :
    Agrees m b0 (prefixAt (srcAt m b0) c q) (pxPrefix m c b) := by
  unfold prefixAt pxPrefix
  split
  · exact Agrees.pure _ h
  rw [show c / 2 - 1 = (c - 2) / 2 by omega]
  rcases (brRead_agrees (n := (c - 2) / 2) (by omega) h).elim with ⟨ho, he⟩ | ⟨x, q, b, ho, he, hb⟩ <;> rw [ho, he]
  · rfl
  · exact Agrees.pure _ hb

end Sys2Proof.Machine
end

