-- ==== Sys2Proof/Laws/Image.lean ====
section
/-! SUPPORT. The pixel decoder against the list of the pixels it has emitted: each emission, copy, group, table and turn of
the loop, where the output lies apart from what is read. -/

namespace Sys2Proof.Machine

open Sys2Proof.Claim

/-! ### Memories that hold the same stream -/

/-- Two memories hold the same bytes still to be loaded. -/
def SameStream (m m' : Memory) (b : BrRegs) : Prop := ∀ a, b.ptr.toNat ≤ a → a < b.stop.toNat → memByte m a = memByte m' a

theorem brFillLoop_same {m m' : Memory} (n : Nat) : ∀ (k : Nat) {b : BrRegs}, SameStream m m' b →
    brFillLoop m n k b = brFillLoop m' n k b ∧ SameStream m m' (brFillLoop m n k b) := by
  intro k
  induction k with
  | zero => intro b h; exact ⟨rfl, h⟩
  | succ k ih =>
    intro b h
    simp only [brFillLoop]
    split
    · rename_i hc
      have he : brLoad m b = brLoad m' b := by unfold brLoad; rw [h _ (Nat.le_refl _) hc.2]
      rw [← he]
      refine ih fun a h1 h2 => h a ?_ h2
      have h1 : (b.ptr + 1).toNat ≤ a := h1
      rw [ptr_add_one hc.2] at h1; omega
    · exact ⟨rfl, h⟩

theorem brFill_same {m m' : Memory} {b : BrRegs} (n : Nat) (h : SameStream m m' b) :
    brFill m n b = brFill m' n b ∧ SameStream m m' (brFill m n b) := brFillLoop_same n 4 h

theorem brSkip_same {m m' : Memory} {b : BrRegs} (n : Nat) (h : SameStream m m' b) : brSkip m n b = brSkip m' n b := by
  unfold brSkip; rw [(brFill_same n h).1]

theorem brRead_same {m m' : Memory} {b : BrRegs} (n : Nat) (h : SameStream m m' b) : brRead m n b = brRead m' n b := by
  obtain ⟨h1, h2⟩ := brFill_same n h
  rw [brRead_eq, brRead_eq, brSkip_same n h2, h1]

theorem hfDecode_same {m m' : Memory} {b : BrRegs} (l : HCode) (h : SameStream m m' b) :
    hfDecode l m b = hfDecode l m' b := by
  obtain ⟨h1, h2⟩ := brFill_same 15 h
  have hp : brPeek m 15 b = brPeek m' 15 b := by unfold brPeek; rw [h1]
  have hs : ∀ n, brSkip m n (brPeek m' 15 b).2 = brSkip m' n (brPeek m' 15 b).2 := by
    intro n; rw [← hp]; exact brSkip_same n h2
  unfold hfDecode
  split
  · rfl
  · simp only [hp, hs]

theorem pxPrefix_same {m m' : Memory} {b : BrRegs} (c : Nat) (h : SameStream m m' b) : pxPrefix m c b = pxPrefix m' c b := by
  unfold pxPrefix; rw [brRead_same _ h]

/-! ### The output -/

/-- The bytes of the output are those PX_DECODE stores to. -/
theorem px_stores {s : State} {a : Nat} (h : ¬ StoresTo s a .pxDecode) :
    a < s.px.dstAddr.toNat ∨ s.px.dstAddr.toNat + 4 * (s.px.width.toNat * s.px.height.toNat) ≤ a := by
  apply Classical.byContradiction
  intro hc
  exact h ⟨a - s.px.dstAddr.toNat, by rw [Nat.mul_assoc]; omega, by omega⟩

/-- The run `r` has emitted the pixels `pix` and stands at the place `q` of the stream. -/
structure Shows (s : State) (r : PxRun) (pix : List Word) (q : Place) : Prop where
  pos     : r.pos = pix.length
  short   : pix.length ≤ s.px.width.toNat * s.px.height.toNat
  wf      : Memory.wf r.mem
  cacheWf : Sparse.Canonical 0#32 r.cache
  outside : ∀ a, a < s.px.dstAddr.toNat ∨ s.px.dstAddr.toNat + 4 * (s.px.width.toNat * s.px.height.toNat) ≤ a →
    memByte r.mem a = memByte s.mem a
  pixels  : ∀ i < pix.length, memWord r.mem (s.px.dstAddr.toNat + 4 * i) = pix.getD i 0
  cache   : ∀ i, cacheEntry r.cache i =
    if s.px.ccBits ≠ 0 ∧ i < 2 ^ s.px.ccBits.toNat then cachedAt s.px.ccBits.toNat pix i else cacheEntry s.cache i
  place   : StandsAt s.mem s.br r.br q

/-- The last of a list's elements with `f p = i`, one element later. -/
theorem find_last_append (f : Word → Nat) (pix : List Word) (p : Word) (i : Nat) :
    ((pix ++ [p]).reverse.find? fun q => f q = i).getD 0 =
      if i = f p then p else (pix.reverse.find? fun q => f q = i).getD 0 := by
  rw [List.reverse_append, List.reverse_singleton, List.singleton_append, List.find?_cons]
  by_cases h : i = f p
  · rw [if_pos h, decide_eq_true h.symm, Option.getD_some]
  · rw [if_neg h, decide_eq_false (Ne.symm h)]

theorem cachedAt_append (b : Nat) (pix : List Word) (p : Word) (i : Nat) :
    cachedAt b (pix ++ [p]) i = if i = hashOf b p then p else cachedAt b pix i := find_last_append (hashOf b) pix p i

variable {s : State} {r : PxRun} {pix : List Word} {q : Place}

/-- Emitting a pixel appends it. -/
theorem Shows.emit (hs : PxReady s) (h : Shows s r pix q) (hn : pix.length < s.px.width.toNat * s.px.height.toNat)
    (p : Word) : Shows s (pxEmit s.px p r) (pix ++ [p]) q := by
  have hb : s.px.ccBits.toNat ≤ 11 := hs.args.2.2.1
  refine ⟨by simp [pxEmit_pos, h.pos], by rw [List.length_append]; exact hn, memStore32_wf h.wf _ _, ?_, fun a ha => ?_, fun i hi => ?_,
    fun i => ?_, h.place⟩
  · exact (pxEmit_moves s.px p r).cacheWf h.cacheWf
  · rw [← h.outside a ha]
    exact memByte_store32_outside h.wf _ _ (by rw [h.pos]; omega)
  · show memWord (memStore32 r.mem (s.px.dstAddr.toNat + 4 * r.pos) p) _ = _
    have hi : i < pix.length + 1 := by rw [List.length_append] at hi; exact hi
    by_cases hc : i = pix.length
    · subst hc
      rw [h.pos, memWord_store32 h.wf, List.getD_eq_getElem?_getD, List.getElem?_append_right (Nat.le_refl _)]; simp
    · rw [memWord_store32_outside h.wf _ _ (by rw [h.pos]; omega), h.pixels i (by omega), List.getD_eq_getElem?_getD,
        List.getD_eq_getElem?_getD, List.getElem?_append_left (by omega)]
  · show cacheEntry (if s.px.ccBits = 0 then r.cache else cacheStore r.cache (pxHash p s.px.ccBits.toNat) p) i = _
    by_cases hc : s.px.ccBits = 0
    · rw [if_pos hc, h.cache, if_neg (by simp [hc]), if_neg (by simp [hc])]
    · rw [if_neg hc, cacheEntry, cacheStore, Sparse.get_set h.cacheWf, cachedAt_append]
      have hh : pxHash p s.px.ccBits.toNat = hashOf s.px.ccBits.toNat p := by unfold pxHash hashOf; rfl
      have hlt := pxHash_lt p (b := s.px.ccBits.toNat) (by omega)
      rw [hh] at hlt ⊢
      have hi := h.cache i
      unfold cacheEntry at hi
      rw [hi]
      by_cases he : i = hashOf s.px.ccBits.toNat p
      · rw [if_pos he, if_pos ⟨hc, by omega⟩, if_pos he]
      · rw [if_neg he, if_neg he]; rfl

/-- A copy appends the pixels `dist` back. -/
theorem Shows.copy (hs : PxReady s) {dist : Nat} (hd : 1 ≤ dist) : ∀ {n : Nat} {r : PxRun} {pix : List Word},
    Shows s r pix q → dist ≤ pix.length → pix.length + n ≤ s.px.width.toNat * s.px.height.toNat →
      Shows s (pxCopy s.px dist n r) (copied dist n pix) q ∧ (copied dist n pix).length = pix.length + n := by
  intro n
  induction n with
  | zero => intro r pix h _ _; exact ⟨h, rfl⟩
  | succ n ih =>
    intro r pix h h1 h2
    rw [pxCopy, copied]
    have hp : memWord r.mem (s.px.dstAddr.toNat + 4 * (r.pos - dist)) = pix.getD (pix.length - dist) 0 := by
      rw [h.pos]; exact h.pixels _ (by omega)
    rw [hp]
    have := ih (h.emit hs (by omega) (pix.getD (pix.length - dist) 0)) (by simp; omega) (by simp; omega)
    refine ⟨this.1, ?_⟩
    rw [this.2]; simp; omega

/-- The stream still to be loaded is what it was before the command. -/
theorem Shows.same (hs : PxReady s) (h : Shows s r pix q) : SameStream r.mem s.mem r.br := by
  intro a h1 h2
  have ht := h.place.here.taken
  rw [h.place.here.stop] at h2
  exact h.outside a (px_stores (hs.stream a (by omega) h2))

/-- The bit reader alone moves on. -/
theorem Shows.move (h : Shows s r pix q) {b : BrRegs} {q' : Place} (hb : StandsAt s.mem s.br b q') :
    Shows s { r with br := b } pix q' := ⟨h.pos, h.short, h.wf, h.cacheWf, h.outside, h.pixels, h.cache, hb⟩

/-- Decoding with a table of a group. -/
theorem Shows.table (hs : PxReady s) (h : Shows s r pix q) {g t : Nat} (hg : g < s.px.numGroups.toNat) (ht : t < 5) :
    let o := symbolAt ((s.slot (s.px.groupBase.toNat + 5 * g + t)).getD []) (srcOf s) q
    (o = none ∧ pxDecodeWith s.px s.slots g t r = .error .invalidData) ∨
      ∃ x q' r', o = some (x, q') ∧ pxDecodeWith s.px s.slots g t r = .ok (x, r') ∧ Shows s r' pix q' := by
  obtain ⟨l, hl⟩ := Option.ne_none_iff_exists'.1 (hs.args.2.2.2.2.1 g hg t ht)
  have hl' : Sparse.get none s.slots (pxSlot s.px g t) = some l := hl
  have ha := hfDecode_agrees (hs.codes _ _ hl).1 h.place
  rw [← hfDecode_same l (h.same hs)] at ha
  unfold pxDecodeWith
  rw [hl', hl]
  dsimp only [Option.getD_some]
  rcases ha.elim with ⟨ho, he⟩ | ⟨x, q', b, ho, he, hb⟩
  · exact .inl ⟨ho, by rw [he]⟩
  · exact .inr ⟨x, q', _, ho, by rw [he], h.move hb⟩

/-- A prefix-coded value. -/
theorem Shows.pre (hs : PxReady s) (h : Shows s r pix q) {c : Nat} (hc : c < 40) :
    (prefixAt (srcOf s) c q = none ∧ pxPrefix r.mem c r.br = .error .invalidData) ∨
      ∃ x q' b, prefixAt (srcOf s) c q = some (x, q') ∧ pxPrefix r.mem c r.br = .ok (x, b) ∧
        Shows s { r with br := b } pix q' := by
  have ha := pxPrefix_agrees hc h.place
  rw [← pxPrefix_same c (h.same hs)] at ha
  rcases ha.elim with ⟨ho, he⟩ | ⟨x, q', b, ho, he, hb⟩
  · exact .inl ⟨ho, he⟩
  · exact .inr ⟨x, q', b, ho, he, h.move hb⟩

/-- The two transcriptions of DIST_TABLE agree. -/
theorem pxPlane_eq (w d : Nat) : pxPlane w d = planeOf w d := by
  have ht : distTable = distPairs := by decide
  unfold pxPlane planeOf
  rw [ht]

theorem argb_eq {a r g b : Nat} (ha : a < 256) (hr : r < 256) (hg : g < 256) (hb : b < 256) :
    argb a r g b = BitVec.ofNat 32 (2 ^ 24 * a + 2 ^ 16 * r + 2 ^ 8 * g + b) := by
  apply BitVec.eq_of_toNat_eq
  unfold argb
  simp only [BitVec.toNat_append, BitVec.toNat_ofNat, Nat.shiftLeft_eq]
  rw [Nat.mod_eq_of_lt ha, Nat.mod_eq_of_lt hr, Nat.mod_eq_of_lt hg, Nat.mod_eq_of_lt hb, Nat.mul_comm a,
    ← Nat.two_pow_add_eq_or_of_lt (by omega), Nat.mul_comm (2 ^ 8 * a + r), ← Nat.two_pow_add_eq_or_of_lt (by omega),
    Nat.mul_comm (2 ^ 8 * _ + g), ← Nat.two_pow_add_eq_or_of_lt (by omega)]
  omega

/-- The block of a pixel lies in the huffman image. -/
theorem himg_index {x y w h b : Nat} (hx : x < w) (hy : y < h) :
    y / 2 ^ b * ((w + 2 ^ b - 1) / 2 ^ b) + x / 2 ^ b < (w + 2 ^ b - 1) / 2 ^ b * ((h + 2 ^ b - 1) / 2 ^ b) := by
  have ceil : ∀ {x w : Nat}, x < w → x / 2 ^ b + 1 ≤ (w + 2 ^ b - 1) / 2 ^ b := by
    intro x w hxw
    have hp := Nat.two_pow_pos b
    rw [Nat.succ_le_iff, Nat.lt_div_iff_mul_lt hp]
    have := Nat.div_mul_le_self x (2 ^ b)
    omega
  have h1 := ceil hx
  have h2 := Nat.mul_le_mul_right ((w + 2 ^ b - 1) / 2 ^ b) (ceil hy)
  rw [Nat.add_mul, Nat.one_mul, Nat.mul_comm ((h + 2 ^ b - 1) / 2 ^ b)] at h2
  omega

/-- The group of the next pixel (R218). -/
theorem Shows.group (hs : PxReady s) (h : Shows s r pix q) (hn : pix.length < s.px.width.toNat * s.px.height.toNat) :
    pxGroup s.px r.mem r.pos =
      if s.px.hen = true ∧
          (himgWord s (pix.length % s.px.width.toNat) (pix.length / s.px.width.toNat)).toNat / 2 ^ 16 % 256 ≠ 0 then
        .error .unsupported
      else if s.px.numGroups.toNat ≤ groupAt s pix.length then .error .invalidData
      else .ok (groupAt s pix.length) := by
  have hargs := hs.args
  simp only [ArgsOk] at hargs
  unfold pxGroup groupAt
  cases hh : s.px.hen
  · simp only [Bool.false_eq_true, if_false, false_and]
    rw [if_neg (by omega)]
  · simp only [if_true, true_and]
    have hx : pix.length % s.px.width.toNat < s.px.width.toNat := Nat.mod_lt _ (by omega)
    have hy : pix.length / s.px.width.toNat < s.px.height.toNat := by
      rw [Nat.div_lt_iff_lt_mul (by omega), Nat.mul_comm]; exact hn
    have heq : memWord r.mem (s.px.himgAddr.toNat +
        4 * (r.pos / s.px.width.toNat / 2 ^ s.px.hbits.toNat * himgWords s.px.hbits.toNat s.px.width.toNat +
          r.pos % s.px.width.toNat / 2 ^ s.px.hbits.toNat)) =
        himgWord s (pix.length % s.px.width.toNat) (pix.length / s.px.width.toNat) := by
      rw [h.pos]
      apply memWord_congr
      intro a h1 h2
      have hi := himg_index (b := s.px.hbits.toNat) hx hy
      unfold himgWords at h1 h2
      exact h.outside a (px_stores (hs.himg hh a (by omega) (by omega)))
    rw [heq]
    generalize himgWord s (pix.length % s.px.width.toNat) (pix.length / s.px.width.toNat) = w
    have h16 : w.extractLsb' 16 8 ≠ 0 ↔ w.toNat / 2 ^ 16 % 256 ≠ 0 := by
      rw [Ne, ← BitVec.toNat_inj]; simp [Nat.shiftRight_eq_div_pow]
    have h8 : (w.extractLsb' 8 8).toNat = w.toNat / 2 ^ 8 % 256 := by simp [Nat.shiftRight_eq_div_pow]
    simp only [h16, h8]

/-- One main symbol and what it stands for. -/
theorem Shows.pixel (hs : PxReady s) (h : Shows s r pix q) (hn : pix.length < s.px.width.toNat * s.px.height.toNat)
    {g : Nat} (hg : pxGroup s.px r.mem r.pos = .ok g) (hgn : g < s.px.numGroups.toNat) :
    (pixelsAt s (srcOf s) g pix q = none ∧ pxPixel s.px s.slots r = .error .invalidData) ∨
      ∃ pix' q' r', pixelsAt s (srcOf s) g pix q = some (pix', q') ∧ pxPixel s.px s.slots r = .ok r' ∧
        Shows s r' pix' q' ∧ pix.length < pix'.length := by
  unfold pixelsAt pxPixel
  simp only [hg]
  rcases h.table hs hgn (t := 0) (by omega) with ⟨ho, he⟩ | ⟨x, q, r, ho, he, h⟩ <;>
    simp only [ho, he, Option.bind_none, Option.bind_some]
  · exact .inl ⟨trivial, trivial⟩
  by_cases hx : x < 256
  · simp only [if_pos hx, pxLiteral]
    rcases h.table hs hgn (t := 1) (by omega) with ⟨ho, he⟩ | ⟨red, q, r, ho, he, h⟩ <;>
      simp only [ho, he, Option.bind_none, Option.bind_some]
    · exact .inl ⟨trivial, trivial⟩
    rcases h.table hs hgn (t := 2) (by omega) with ⟨ho, he⟩ | ⟨blue, q, r, ho, he, h⟩ <;>
      simp only [ho, he, Option.bind_none, Option.bind_some]
    · exact .inl ⟨trivial, trivial⟩
    rcases h.table hs hgn (t := 3) (by omega) with ⟨ho, he⟩ | ⟨alpha, q, r, ho, he, h⟩ <;>
      simp only [ho, he, Option.bind_none, Option.bind_some]
    · exact .inl ⟨trivial, trivial⟩
    by_cases hc : red < 256 ∧ blue < 256 ∧ alpha < 256
    · rw [if_pos hc, if_neg (by omega), argb_eq hc.2.2 hc.1 hx hc.2.1]
      exact .inr ⟨_, q, _, rfl, rfl, h.emit hs hn _, by simp⟩
    · rw [if_neg hc, if_pos (by omega)]
      exact .inl ⟨rfl, rfl⟩
  simp only [if_neg hx]
  by_cases hx2 : x < 280
  · simp only [if_pos hx2, pxBackward]
    rcases h.pre hs (c := x - 256) (by omega) with ⟨ho, he⟩ | ⟨len, q, b, ho, he, h⟩ <;>
      simp only [ho, he, Option.bind_none, Option.bind_some]
    · exact .inl ⟨trivial, trivial⟩
    have hlen := pxPrefix_pos he
    rcases h.table hs hgn (t := 4) (by omega) with ⟨ho, he⟩ | ⟨d, q, r, ho, he, h⟩ <;>
      simp only [ho, he, Option.bind_none, Option.bind_some]
    · exact .inl ⟨trivial, trivial⟩
    by_cases hd : d < 40
    · rw [if_pos hd, if_neg (by omega)]
      rcases h.pre hs hd with ⟨ho, he⟩ | ⟨c, q, b, ho, he, h⟩ <;>
        simp only [ho, he, Option.bind_none, Option.bind_some]
      · exact .inl ⟨trivial, trivial⟩
      have hpos : r.pos = pix.length := h.pos
      have hp1 := pxPlane_pos s.px.width.toNat c
      rw [pxPlane_eq] at hp1 ⊢
      by_cases hc : planeOf s.px.width.toNat c ≤ pix.length ∧ pix.length + len ≤ s.px.width.toNat * s.px.height.toNat
      · rw [if_pos hc, if_neg (by rw [hpos]; omega)]
        have hcopy := h.copy hs hp1 hc.1 hc.2
        exact .inr ⟨_, q, _, rfl, rfl, hcopy.1, by rw [hcopy.2]; omega⟩
      · rw [if_neg hc, if_pos (by rw [hpos]; omega)]
        exact .inl ⟨rfl, rfl⟩
    · rw [if_neg hd, if_pos (by omega)]
      exact .inl ⟨rfl, rfl⟩
  · simp only [if_neg hx2, pxCached]
    by_cases hc : s.px.ccBits ≠ 0 ∧ x - 280 < 2 ^ s.px.ccBits.toNat
    · rw [if_pos hc, if_neg (by rintro (h | h); exact hc.1 h; omega)]
      have := h.cache (x - 280)
      rw [if_pos hc] at this
      rw [this]
      exact .inr ⟨_, q, _, rfl, rfl, h.emit hs hn _, by simp⟩
    · rw [if_neg hc, if_pos ?_]
      · exact .inl ⟨rfl, rfl⟩
      · by_cases h0 : s.px.ccBits = 0
        · exact .inl h0
        · exact .inr (Nat.le_of_not_lt fun hlt => hc ⟨h0, hlt⟩)

/-- The loop decodes the image or raises its error. -/
theorem Shows.loop (hs : PxReady s) : ∀ {k : Nat} {r : PxRun} {pix : List Word} {q : Place}, Shows s r pix q →
    s.px.width.toNat * s.px.height.toNat ≤ pix.length + k →
    match imageAt s (srcOf s) k pix q with
    | .ok (pix', q') => ∃ r', pxLoop s.px s.slots k r = .ok r' ∧ Shows s r' pix' q' ∧
        pix'.length = s.px.width.toNat * s.px.height.toNat
    | .error c => ∃ e, pxLoop s.px s.slots k r = .error e ∧ e.code = c := by
  intro k
  induction k with
  | zero => intro r pix q h hk; have := h.short; exact ⟨r, rfl, h, by omega⟩
  | succ k ih =>
    intro r pix q h hk
    have hsh := h.short
    rw [imageAt, pxLoop]
    by_cases hn : s.px.width.toNat * s.px.height.toNat ≤ pix.length
    · rw [if_pos hn, if_neg (by rw [h.pos]; omega)]
      exact ⟨r, rfl, h, by omega⟩
    have hp : r.pos < s.px.width.toNat * s.px.height.toNat := by rw [h.pos]; omega
    rw [if_neg hn, if_pos hp]
    have hgrp := h.group hs (by omega)
    dsimp only
    split at hgrp
    · rename_i hu
      rw [if_pos hu]
      exact ⟨.unsupported, by simp only [pxPixel, hgrp], rfl⟩
    rename_i hu
    rw [if_neg hu]
    split at hgrp
    · rename_i hi
      rw [if_pos hi]
      exact ⟨.invalidData, by simp only [pxPixel, hgrp], rfl⟩
    rename_i hi
    rw [if_neg hi]
    rcases h.pixel hs (by omega) hgrp (by omega) with ⟨ho, he⟩ | ⟨pix', q', r', ho, he, h', hl⟩
    · rw [ho, he]; exact ⟨.invalidData, rfl, rfl⟩
    · rw [ho, he]; exact ih h' (by omega)

/-- Where PX_DECODE starts, nothing is emitted. -/
theorem Shows.start (hs : PxReady s) : Shows s (pxStart s) [] ⟨0, 0⟩ := by
  refine ⟨rfl, Nat.zero_le _, hs.mem, ?_, fun _ _ => rfl, fun i hi => absurd hi (Nat.not_lt_zero i), fun i => ?_,
    StandsAt.start hs.br⟩
  · unfold pxStart
    dsimp only
    split
    · exact hs.cache
    · exact cacheClear_canonical hs.cache _
  · unfold pxStart
    dsimp only
    by_cases hc : s.px.ccBits = 0
    · rw [if_pos hc, if_neg (by simp [hc])]
    · rw [if_neg hc, cacheEntry_clear]
      by_cases hi : i < 2 ^ s.px.ccBits.toNat
      · rw [if_pos hi, if_pos ⟨hc, hi⟩]; rfl
      · rw [if_neg hi, if_neg (fun h => hi h.2)]

end Sys2Proof.Machine
end

