-- ==== Sys2Proof/Laws/PerInstr.lean ====
section
/-! SUPPORT. Statements made command by command: the word of a command carries its OP in bits 7:0 (30_encoding.md R86, R97),
and that OP is one of the map's (R92). -/

namespace Sys2Proof.Laws.OpField

/-- The word of `i` has the OP of `i`, and it is an OP of the map. -/
def Statement (i : Instr) : Prop := opField (encode i) = i.op ∧ i.op.toNat ∈ Claim.opValues

theorem nop : Statement .nop := ⟨opField_formatN _, by simp [Instr.op, Claim.opValues]⟩
theorem rdInit (c : Ctx) : Statement (.rdInit c) := ⟨opField_formatR _ _ _ _, by simp [Instr.op, Claim.opValues]⟩
theorem rdBool (c : Ctx) (p : Byte) : Statement (.rdBool c p) := ⟨opField_formatR _ _ _ _, by simp [Instr.op, Claim.opValues]⟩
theorem rdUint (c : Ctx) (n : Nat) : Statement (.rdUint c n) := ⟨opField_formatR _ _ _ _, by simp [Instr.op, Claim.opValues]⟩
theorem rdSint (c : Ctx) (n : Nat) : Statement (.rdSint c n) := ⟨opField_formatR _ _ _ _, by simp [Instr.op, Claim.opValues]⟩
theorem rdTree (c : Ctx) (start : Byte) : Statement (.rdTree c start) := ⟨opField_formatR _ _ _ _, by simp [Instr.op, Claim.opValues]⟩
theorem brPeek (n : Nat) : Statement (.brPeek n) := ⟨opField_formatB _ _, by simp [Instr.op, Claim.opValues]⟩
theorem brSkip (n : Nat) : Statement (.brSkip n) := ⟨opField_formatB _ _, by simp [Instr.op, Claim.opValues]⟩
theorem brRead (n : Nat) : Statement (.brRead n) := ⟨opField_formatB _ _, by simp [Instr.op, Claim.opValues]⟩
theorem xfIdctAdd : Statement .xfIdctAdd := ⟨opField_formatN _, by simp [Instr.op, Claim.opValues]⟩
theorem xfIdct : Statement .xfIdct := ⟨opField_formatN _, by simp [Instr.op, Claim.opValues]⟩
theorem xfIwht : Statement .xfIwht := ⟨opField_formatN _, by simp [Instr.op, Claim.opValues]⟩
theorem cvConvert : Statement .cvConvert := ⟨opField_formatN _, by simp [Instr.op, Claim.opValues]⟩
theorem hfBuild (t : Nat) : Statement (.hfBuild t) := ⟨opField_formatH _ _, by simp [Instr.op, Claim.opValues]⟩
theorem hfDecode (t : Nat) : Statement (.hfDecode t) := ⟨opField_formatH _ _, by simp [Instr.op, Claim.opValues]⟩
theorem hfReadLengths : Statement .hfReadLengths := ⟨opField_formatN _, by simp [Instr.op, Claim.opValues]⟩
theorem hfFree (t : Nat) : Statement (.hfFree t) := ⟨opField_formatH _ _, by simp [Instr.op, Claim.opValues]⟩
theorem pxDecode : Statement .pxDecode := ⟨opField_formatN _, by simp [Instr.op, Claim.opValues]⟩

end Sys2Proof.Laws.OpField
end

