-- ==== Sys2Proof/Laws/Window.lean ====
section
/-! SUPPORT. The register window and the host's turns: one lemma for each host access on its legal path, the DMEM regions
that a soft reset leaves open, and what a register write keeps. -/

namespace Sys2Proof.Machine

open Sys2Proof.Claim

variable {s : State}

/-- A step on a host turn. -/
theorem step_host {t : HostTurn} {ts : List HostTurn} (h : s.host = t :: ts) :
    step s = takeTurn exec t { s with host := ts } := by
  unfold step stepWith; rw [h]

/-- A register write that the protocol allows. -/
theorem hostWriteReg_ok {off : BitVec 12} {r : Reg} (ho : windowAccessOk off .word = true) (hr : regAt off = some r)
    (hb : s.busy = false ∨ writableWhileBusy r = true) (v : Word) :
    hostWriteReg off .word v s = .next (writeReg s v r) := by
  unfold hostWriteReg
  rw [if_pos ho, hr]
  rcases hb with hb | hb <;> simp [hb]

/-- A register read while the block is idle. -/
theorem hostReadReg_idle {off : BitVec 12} {r : Reg} (ho : windowAccessOk off .word = true) (hr : regAt off = some r)
    (hb : s.busy = false) : hostReadReg off .word s = .next { s with hostData := readReg s r } := by
  unfold hostReadReg
  rw [if_pos ho, hr]
  simp [hb]

/-- The legal form of a window access, in numbers. -/
theorem windowAccessOk_iff {off : BitVec 12} {w : AccessWidth} :
    windowAccessOk off w = true ↔ w = .word ∧ off.toNat % 4 = 0 := by
  have h : off.extractLsb' 0 2 = 0#2 ↔ off.toNat % 4 = 0 := by
    constructor
    · intro h; simpa using congrArg BitVec.toNat h
    · intro h; apply BitVec.eq_of_toNat_eq; simpa using h
  simp [windowAccessOk, h]

/-- Every register stands at a word-aligned offset. -/
theorem regMap_aligned : ∀ e ∈ regMap, windowAccessOk e.1 .word = true := by decide

theorem regAt_aligned {off : BitVec 12} {r : Reg} (h : regAt off = some r) : windowAccessOk off .word = true := by
  unfold regAt at h
  rw [Option.map_eq_some_iff] at h
  obtain ⟨e, he, rfl⟩ := h
  have ho : e.1 = off := by simpa using List.find?_some he
  rw [← ho]
  exact regMap_aligned e (List.mem_of_find?_eq_some he)

/-- The register map is the table of R50. -/
theorem regAt_iff {off : BitVec 12} {r : Reg} : regAt off = some r ↔ off = offsetOf r := by
  have table : ∀ e ∈ regMap, e.1 = offsetOf e.2 := by decide
  constructor
  · intro h
    unfold regAt at h
    rw [Option.map_eq_some_iff] at h
    obtain ⟨e, he, rfl⟩ := h
    have ho : e.1 = off := by simpa using List.find?_some he
    rw [← ho, table e (List.mem_of_find?_eq_some he)]
  · rintro rfl
    cases r <;> first | rfl | (rename_i c; cases c <;> rfl)

/-- An offset of no register finds none. -/
theorem regAt_none {off : BitVec 12} (h : ∀ r, off ≠ offsetOf r) : regAt off = none := by
  cases hr : regAt off with
  | none => rfl
  | some r => exact absurd (regAt_iff.1 hr) (h r)

theorem toNat_append_eq {a b : Nat} (x : BitVec a) (y : BitVec b) : (x ++ y).toNat = x.toNat * 2 ^ b + y.toNat := by
  rw [BitVec.toNat_append, Nat.shiftLeft_eq, Nat.mul_comm, ← Nat.two_pow_add_eq_or_of_lt y.isLt]

theorem toNat_bit1 (b : Bool) : (bit1 b).toNat = if b then 1 else 0 := by cases b <;> rfl

/-- A register reads its fields at their bits. -/
theorem readReg_shown (s : State) (r : Reg) : readReg s r = BitVec.ofNat 32 (shownValue s r) := by
  cases r <;> simp only [shownValue, readReg]
  case hwCfg =>
    simp only [State.hwCfgWord]
    cases s.params.rdEof <;> cases s.params.xfWrap16 <;> decide
  case status =>
    apply BitVec.eq_of_toNat_eq
    have h1 := s.err.isLt
    have h2 := s.errOp.isLt
    simp only [State.statusWord, State.busy, toNat_append_eq, toNat_bit1]
    cases s.pending <;> cases s.done <;> simp <;> omega
  case irqEn =>
    simp only [State.irqEnWord]
    cases s.doneIe <;> cases s.errIe <;> rfl
  case rdState c =>
    apply BitVec.eq_of_toNat_eq
    have := (s.rd c).bitcnt.isLt
    simp only [rdStateWord, toNat_append_eq, toNat_bit1]
    cases (s.rd c).valid <;> simp <;> omega
  case pxHimgCtrl =>
    apply BitVec.eq_of_toNat_eq
    have := s.px.hbits.isLt
    simp only [toNat_append_eq, toNat_bit1]
    cases s.px.hen <;> simp <;> omega
  case cvMode => cases s.cv.nearest <;> rfl
  case brAccLo => apply BitVec.eq_of_toNat_eq; simp
  case brAccHi => apply BitVec.eq_of_toNat_eq; simp [Nat.shiftRight_eq_div_pow]
  all_goals first | rfl | simp

theorem busy_iff : s.busy = true ↔ s.pending ≠ none := by
  unfold State.busy; cases s.pending <;> simp

theorem idle_iff : s.busy = false ↔ s.pending = none := by
  unfold State.busy; cases s.pending <;> simp

/-! ### Regions left open by a soft reset -/

theorem memDrawnAll_wf (d : Nat) : ∀ (rs : List (Nat × Nat)) {m : Memory}, Memory.wf m → Memory.wf (memDrawnAll d rs m) := by
  intro rs
  induction rs with
  | nil => intro m h; exact h
  | cons r rs ih => intro m h; exact ih (memFill_wf h _ _ _)

theorem memDrawnAll_good {k d : Nat} : ∀ (rs : List (Nat × Nat)) {m : Memory}, Memory.Good k m →
    (∀ r ∈ rs, r.1 + r.2 ≤ k) → Memory.Good k (memDrawnAll d rs m) := by
  intro rs
  induction rs with
  | nil => intro m h _; exact h
  | cons r rs ih =>
    intro m h hr
    exact ih (memDrawn_good h (hr r (by simp))) (fun x hx => hr x (by simp [hx]))

theorem memByte_drawnAll_outside {d a : Nat} : ∀ (rs : List (Nat × Nat)) {m : Memory}, Memory.wf m →
    (∀ r ∈ rs, a < r.1 ∨ r.1 + r.2 ≤ a) → memByte (memDrawnAll d rs m) a = memByte m a := by
  intro rs
  induction rs with
  | nil => intro m _ _; rfl
  | cons r rs ih =>
    intro m h hr
    exact (ih (memFill_wf h _ _ _) (fun x hx => hr x (by simp [hx]))).trans
      (memByte_drawn_outside h _ _ _ (hr r (by simp)))

/-- Row `y` below `n` rows ends no later than the last. -/
theorem row_le {y n stride : Nat} (h : y < n) : y * stride ≤ (n - 1) * stride := Nat.mul_le_mul_right _ (by omega)

/-- The regions lie in DMEM. -/
theorem writtenRegions_inside (i : Instr) : ∀ r ∈ writtenRegions s i, r.1 + r.2 ≤ s.params.dmemSize := by
  intro r hr
  cases i <;> simp only [writtenRegions, List.not_mem_nil] at hr
  case xfIdctAdd =>
    split at hr
    · rename_i hc
      have hc := (xfIdctAdd_args.1 hc).2
      obtain ⟨j, hj, rfl⟩ := List.mem_map.1 hr
      have := row_le (stride := s.xf.pixStride.toNat) (List.mem_range.1 hj)
      dsimp only [xfPixAddr] at *; omega
    · cases hr
  case xfIdct =>
    split at hr
    · rename_i hc
      rw [List.mem_singleton.1 hr]; exact (xfIdct_args.1 hc).2.2
    · cases hr
  case xfIwht =>
    split at hr
    · rename_i hc
      have hc := (xfIwht_args.1 hc).2.2.2
      obtain ⟨j, hj, rfl⟩ := List.mem_map.1 hr
      have := row_le (stride := s.xf.outStride.toNat) (List.mem_range.1 hj)
      dsimp only at *; omega
    · cases hr
  case cvConvert =>
    split at hr
    · rename_i hc
      have hc := (cv_args.1 hc).2.2.2.2
      obtain ⟨j, hj, rfl⟩ := List.mem_map.1 hr
      have := row_le (stride := s.cv.dstStride.toNat) (List.mem_range.1 hj)
      dsimp only [cvDstAddr] at *; omega
    · cases hr
  case hfReadLengths =>
    split at hr
    · rename_i hc
      rw [List.mem_singleton.1 hr]; exact (hfReadLengths_args.1 hc).2.1
    · cases hr
  case pxDecode =>
    split at hr
    · rename_i hc
      rw [List.mem_singleton.1 hr]
      have := (px_args.1 hc).2.2.2.2.2.1.2
      rwa [Nat.mul_assoc] at this
    · cases hr

/-- Every byte of the regions is one the command stores to. -/
theorem writtenRegions_stores (i : Instr) {a : Nat} (ha : ¬ StoresTo s a i) :
    ∀ r ∈ writtenRegions s i, a < r.1 ∨ r.1 + r.2 ≤ a := by
  intro r hr
  refine Classical.byContradiction fun hn => ha ?_
  cases i <;> simp only [writtenRegions, List.not_mem_nil] at hr
  case xfIdctAdd =>
    split at hr
    · obtain ⟨j, hj, rfl⟩ := List.mem_map.1 hr
      dsimp only [xfPixAddr] at hn
      exact ⟨j, List.mem_range.1 hj, a - (s.xf.pixAddr.toNat + j * s.xf.pixStride.toNat), by omega, by omega⟩
    · cases hr
  case xfIdct =>
    split at hr
    · rw [List.mem_singleton.1 hr] at hn
      dsimp only at hn
      exact ⟨(a - s.xf.outAddr.toNat) / 2, by omega, (a - s.xf.outAddr.toNat) % 2, by omega, by omega⟩
    · cases hr
  case xfIwht =>
    split at hr
    · obtain ⟨j, hj, rfl⟩ := List.mem_map.1 hr
      dsimp only at hn
      exact ⟨j, List.mem_range.1 hj, a - (s.xf.outAddr.toNat + j * s.xf.outStride.toNat), by omega, by omega⟩
    · cases hr
  case cvConvert =>
    split at hr
    · obtain ⟨j, hj, rfl⟩ := List.mem_map.1 hr
      dsimp only [cvDstAddr] at hn
      refine ⟨j, List.mem_range.1 hj, (a - (s.cv.dstAddr.toNat + j * s.cv.dstStride.toNat)) / 4, by omega,
        (a - (s.cv.dstAddr.toNat + j * s.cv.dstStride.toNat)) % 4, by omega, by omega⟩
    · cases hr
  case hfReadLengths =>
    split at hr
    · rw [List.mem_singleton.1 hr] at hn
      dsimp only at hn
      exact ⟨a - s.hf.lenAddr.toNat, by omega, by omega⟩
    · cases hr
  case pxDecode =>
    split at hr
    · rw [List.mem_singleton.1 hr] at hn
      dsimp only at hn
      refine ⟨a - s.px.dstAddr.toNat, ?_, by omega⟩
      rw [Nat.mul_assoc]; omega
    · cases hr

/-- The regions of the pending command lie in DMEM. -/
theorem abandonedRegions_inside : ∀ r ∈ abandonedRegions s, r.1 + r.2 ≤ s.params.dmemSize := by
  intro r hr
  unfold abandonedRegions at hr
  split at hr
  · cases hr
  · split at hr
    · cases hr
    · split at hr
      · cases hr
      · exact writtenRegions_inside _ r hr

/-- A register write other than of CTRL keeps DMEM, the stores, the error, the parameters and the model's own fields; only
CMD changes what is pending, only CMD and STATUS change DONE, and a context's RD_END changes only as VALID clears. -/
theorem writeReg_keeps (v : Word) {r : Reg} (hr : r ≠ .ctrl) :
    (writeReg s v r).mem = s.mem ∧ (writeReg s v r).cache = s.cache ∧ (writeReg s v r).slots = s.slots ∧
      (writeReg s v r).params = s.params ∧ (writeReg s v r).err = s.err ∧ (writeReg s v r).errOp = s.errOp ∧
      (r ≠ .cmd → (writeReg s v r).pending = s.pending) ∧ ((writeReg s v r).done = true → s.done = true ∧ r ≠ .cmd) ∧
      ∀ c, ((writeReg s v r).rd c).valid = true →
        (s.rd c).valid = true ∧ ((writeReg s v r).rd c).stop = (s.rd c).stop := by
  cases r
  case ctrl => exact absurd rfl hr
  case cmd => exact ⟨rfl, rfl, rfl, rfl, rfl, rfl, fun h => absurd rfl h,
    fun h => (by cases h), fun c h => (by cases c <;> exact ⟨h, rfl⟩)⟩
  case status =>
    unfold writeReg State.writeStatus
    dsimp only
    split
    · exact ⟨rfl, rfl, rfl, rfl, rfl, rfl, fun _ => rfl, fun h => (by cases h),
        fun c h => (by cases c <;> exact ⟨h, rfl⟩)⟩
    · exact ⟨rfl, rfl, rfl, rfl, rfl, rfl, fun _ => rfl, fun h => ⟨h, by simp⟩, fun c h => ⟨h, rfl⟩⟩
  case rdPtr k =>
    refine ⟨by cases k <;> rfl, by cases k <;> rfl, by cases k <;> rfl, by cases k <;> rfl, by cases k <;> rfl,
      by cases k <;> rfl, fun _ => by cases k <;> rfl, fun h => ⟨by cases k <;> exact h, by simp⟩, fun c h => ?_⟩
    cases k <;> cases c <;> first | exact ⟨h, rfl⟩ | cases h
  case rdEnd k =>
    refine ⟨by cases k <;> rfl, by cases k <;> rfl, by cases k <;> rfl, by cases k <;> rfl, by cases k <;> rfl,
      by cases k <;> rfl, fun _ => by cases k <;> rfl, fun h => ⟨by cases k <;> exact h, by simp⟩, fun c h => ?_⟩
    cases k <;> cases c <;> first | exact ⟨h, rfl⟩ | cases h
  all_goals
    exact ⟨rfl, rfl, rfl, rfl, rfl, rfl, fun _ => rfl, fun h => ⟨h, by simp⟩, fun c h => by cases c <;> exact ⟨h, rfl⟩⟩

end Sys2Proof.Machine
end

