-- ==== Sys2Proof/Tests/Slice0.lean ====
section
/-! SUPPORT. The model's own tests: words written out from 30_encoding.md, single steps with the expected results of
95_test_vectors.md, and for every statement with hypotheses a witness that meets them. -/

namespace Sys2Proof.Tests

open Sys2Proof.Machine Sys2Proof.Claim

/-! ### Helpers -/

/-- A block with 4096 bytes of DMEM and the spec's default policies, just reset. -/
def blank : State := State.resetWith { dmemLast := 0xFFF#32, rdEof := .fault, xfWrap16 := true } []

/-- The same with `ZERO_FILL`. -/
def blankZ : State := State.resetWith { dmemLast := 0xFFF#32, rdEof := .zeroFill, xfWrap16 := true } []

/-- `s` with the bytes `l` from `a`. -/
def poke (a : Nat) (l : List Byte) (s : State) : State := { s with mem := memStoreList s.mem a l }

/-- What `f` sees in the next state. -/
def got {α : Type} (f : State → α) : Res → Option α
  | .next t => some (f t)
  | .fault _ => none
  | .refused _ => none

/-- ERR and ERR_OP after a step. -/
def errOf : State → BitVec 4 × Byte := fun t => (t.err, t.errOp)

/-! ### Well-formedness: an ill-formed term for each check -/

theorem test_wf_rdUint : (Instr.rdUint .c0 32).WellFormed = false := by decide
theorem test_wf_rdSint : (Instr.rdSint .c1 32).WellFormed = false := by decide
theorem test_wf_brPeek : (Instr.brPeek 32).WellFormed = false := by decide
theorem test_wf_brSkip : (Instr.brSkip 32).WellFormed = false := by decide
theorem test_wf_brRead : (Instr.brRead 32).WellFormed = false := by decide
theorem test_wf_hfBuild : (Instr.hfBuild 4096).WellFormed = false := by decide
theorem test_wf_hfDecode : (Instr.hfDecode 4096).WellFormed = false := by decide
theorem test_wf_hfFree : (Instr.hfFree 4096).WellFormed = false := by decide

/-! ### Decoding: each command's word from the format's fields (30_encoding.md R87 to R92), high bits first -/

/-- A word of format R (R88): bits 31:24, P8, bits 15:14, N, CTX, OP. -/
def wordR (p : BitVec 8) (n : BitVec 5) (c : BitVec 1) (op : BitVec 8) : Nat := (0#8 ++ p ++ 0#2 ++ n ++ c ++ op).toNat
/-- A word of format B (R89): bits 31:14, N, bit 8, OP. -/
def wordB (n : BitVec 5) (op : BitVec 8) : Nat := (0#18 ++ n ++ 0#1 ++ op).toNat
/-- A word of format H (R90): SLOT, bits 19:8, OP. -/
def wordH (t : BitVec 12) (op : BitVec 8) : Nat := (t ++ 0#12 ++ op).toNat

theorem test_decode_nop : decodeTableWord 32 0b00000000000000000000000000000000 = some .nop := by decide
theorem test_decode_rdInit : decodeTableWord 32 (wordR 0b00000000 0b00000 0b1 0b00000001) = some (.rdInit .c1) := by decide
theorem test_decode_rdBool :
    decodeTableWord 32 (wordR 0b11001000 0b00000 0b1 0b00000010) = some (.rdBool .c1 200#8) := by decide
theorem test_decode_rdUint :
    decodeTableWord 32 (wordR 0b00000000 0b11111 0b0 0b00000011) = some (.rdUint .c0 31) := by decide
theorem test_decode_rdSint :
    decodeTableWord 32 (wordR 0b00000000 0b00100 0b1 0b00000100) = some (.rdSint .c1 4) := by decide
theorem test_decode_rdTree :
    decodeTableWord 32 (wordR 0b00000010 0b00000 0b0 0b00000101) = some (.rdTree .c0 2#8) := by decide
theorem test_decode_brPeek : decodeTableWord 32 (wordB 0b10000 0b00010000) = some (.brPeek 16) := by decide
theorem test_decode_brSkip : decodeTableWord 32 (wordB 0b01101 0b00010001) = some (.brSkip 13) := by decide
theorem test_decode_brRead : decodeTableWord 32 (wordB 0b01100 0b00010010) = some (.brRead 12) := by decide
theorem test_decode_xfIdctAdd : decodeTableWord 32 0b00000000000000000000000000100000 = some .xfIdctAdd := by decide
theorem test_decode_xfIdct : decodeTableWord 32 0b00000000000000000000000000100001 = some .xfIdct := by decide
theorem test_decode_xfIwht : decodeTableWord 32 0b00000000000000000000000000100010 = some .xfIwht := by decide
theorem test_decode_cvConvert : decodeTableWord 32 0b00000000000000000000000000110000 = some .cvConvert := by decide
theorem test_decode_hfBuild : decodeTableWord 32 (wordH 0b010100000000 0b01000000) = some (.hfBuild 1280) := by decide
theorem test_decode_hfDecode : decodeTableWord 32 (wordH 0b000000000111 0b01000001) = some (.hfDecode 7) := by decide
theorem test_decode_hfReadLengths :
    decodeTableWord 32 0b00000000000000000000000001000010 = some .hfReadLengths := by decide
theorem test_decode_hfFree : decodeTableWord 32 (wordH 0b111111111111 0b01000011) = some (.hfFree 4095) := by decide
theorem test_decode_pxDecode : decodeTableWord 32 0b00000000000000000000000001010000 = some .pxDecode := by decide
/-- EN-1, EN-2, EN-3, EN-4, EN-7, EN-6. -/
theorem test_decode_reserved :
    [0x00000201, 0x00004003, 0x00000110, 0x00000141, 0x00010020, 0x000000FF].map (decodeTableWord 32) =
      List.replicate 6 none := by decide

/-! ### Single steps (95_test_vectors.md) -/

theorem test_reset_memory : Memory.wf State.reset.mem := (powerOnMem_good Config.powerOn 0).1.1

/-- CT-1. -/
theorem test_nop : got State.statusWord (exec .nop { blank with pending := some 0 }) = some 0x2#32 := by decide

/-- CT-5: an undefined OP, on the step. -/
theorem test_undefined_op :
    got State.statusWord (step { blank with pending := some 0x6#32 }) = some 0x00060102#32 := by decide

/-- CT-6: a command under an error. -/
theorem test_discarded :
    got (fun t => (t.statusWord, t.rd0)) (step { blank with pending := some 1, err := 1, errOp := 6 }) =
      some (0x00060102#32, RdCtx.reset) := by decide

/-- Stream S1 with context 0 over it. -/
def s1 (x : RdCtx) : State := poke 0 [0xB2, 0x0E, 0xAC, 0xC0, 0x00] { blank with rd0 := x }

/-- RD-1. -/
theorem test_rdInit :
    got State.rd0 (exec (.rdInit .c0) (s1 { RdCtx.reset with stop := 5 })) = some ⟨2, 5, 0xB20E, 255, 0, true⟩ := by decide
/-- RD-15. -/
theorem test_rdInit_short :
    got (fun t => (errOf t, t.rd0.valid)) (exec (.rdInit .c0) (s1 { RdCtx.reset with stop := 1, valid := true })) =
      some ((4, 1), false) := by decide
/-- RD-4. -/
theorem test_rdBool :
    got (fun t => (t.result, t.rd0)) (exec (.rdBool .c0 200#8) (s1 ⟨2, 5, 0xC838, 254, 2, true⟩)) =
      some (1, ⟨2, 5, 0x08E0, 224, 4, true⟩) := by decide
/-- RD-5: the 8th shift merges a byte. -/
theorem test_rdBool_merge :
    got (fun t => (t.result, t.rd0)) (exec (.rdBool .c0 10#8) (s1 ⟨2, 5, 0x08E0, 224, 4, true⟩)) =
      some (0, ⟨3, 5, 0x8EAC, 144, 0, true⟩) := by decide
/-- RD-7. -/
theorem test_rdUint :
    got (fun t => (t.result, t.rd0)) (exec (.rdUint .c0 7) (s1 ⟨3, 5, 0x5580, 128, 5, true⟩)) =
      some (0x55, ⟨4, 5, 0x4C00, 128, 4, true⟩) := by decide
/-- RD-8. -/
theorem test_rdSint :
    got (fun t => (t.result, t.rd0)) (exec (.rdSint .c0 4) (s1 ⟨4, 5, 0x4C00, 128, 4, true⟩)) =
      some (0xFFFFFFF7, ⟨5, 5, 0, 128, 1, true⟩) := by decide

/-- The tree of stream S2, its probabilities, and context 0 after RD_INIT. -/
def s2 : State :=
  poke 0x10 [0x02, 0x04, 0x00, 0xFF, 0xFE, 0xFD] <| poke 0x20 [0x78, 0x3C, 0xC8]
    { blank with rdTreeAddr := 0x10, rdProbAddr := 0x20, rd0 := ⟨0x32, 0x32, 0xA4A0, 255, 0, true⟩ }

/-- RD-10a. -/
theorem test_rdTree :
    got (fun t => (t.result, t.rd0)) (exec (.rdTree .c0 0) s2) = some (2, ⟨0x32, 0x32, 0x5940, 210, 1, true⟩) := by
  decide
/-- RD-12. -/
theorem test_rdTree_start :
    got (fun t => (t.result, t.rd0)) (exec (.rdTree .c0 2) s2) = some (1, ⟨0x32, 0x32, 0x68A0, 195, 0, true⟩) := by
  decide

/-- The stream of BR-1 to BR-6. -/
def sb (b : BrRegs) : State := poke 0 [0xA5, 0x3C, 0xFF, 0x01] { blank with br := b }

/-- BR-5: bits past the end read 0. -/
theorem test_brPeek :
    got (fun t => (t.result, t.br)) (exec (.brPeek 16) (sb ⟨3, 4, 0xF, 4⟩)) = some (0x1F, ⟨4, 4, 0x1F, 12⟩) := by
  decide
/-- BR-6. -/
theorem test_brSkip_past_end : got errOf (exec (.brSkip 13) (sb ⟨4, 4, 0x1F, 12⟩)) = some (2, 0x11) := by decide
/-- BR-8: the last bit is skipped. -/
theorem test_brSkip : got State.br (exec (.brSkip 1) (sb ⟨4, 4, 0, 1⟩)) = some ⟨4, 4, 0, 0⟩ := by decide
/-- BR-4. -/
theorem test_brRead :
    got (fun t => (t.result, t.br)) (exec (.brRead 12) (sb ⟨1, 4, 0, 0⟩)) = some (0xF3C, ⟨3, 4, 0xF, 4⟩) := by
  decide

/-- Some halfwords of DMEM after a step, as integers. -/
def halves (a n : Nat) : State → List Int := fun t => (List.range n).map (fun i => memReadS16 t.mem (a + 2 * i))

/-- XF-4: the first row. -/
theorem test_xfIdct :
    got (halves 0x40 4) (exec .xfIdct (poke 2 [0xE8, 0x03] { blank with xf := { XfRegs.reset with outAddr := 0x40 } })) =
      some [163, 68, -68, -163] := by decide
set_option maxRecDepth 8000 in
/-- XF-13: saturation at 255. -/
theorem test_xfIdctAdd :
    got (fun t => (memByte t.mem 0x100, memByte t.mem 0x10F))
        (exec .xfIdctAdd (poke 0 [0x90, 0x01] (poke 0x100 (List.replicate 16 0xFA)
          { blank with xf := { XfRegs.reset with pixAddr := 0x100, pixStride := 4 } }))) = some (0xFF, 0xFF) := by
  decide
/-- XF-12d. -/
theorem test_xfIwht :
    got (halves 0x40 4)
        (exec .xfIwht (poke 2 [0x08, 0x00] { blank with xf := { XfRegs.reset with outAddr := 0x40, outStride := 2 } })) =
      some [1, 1, -1, -1] := by decide

/-- The planes of section 2.5 with a 1×1 image. -/
def cv1 (y u v : Byte) : State :=
  poke 0 [y] <| poke 0x100 [u] <| poke 0x200 [v]
    { blank with cv := { CvRegs.reset with uAddr := 0x100, vAddr := 0x200, dstAddr := 0x300, width := 1, height := 1,
                                           yStride := 1, uvStride := 1, dstStride := 4 } }

/-- CV-5. -/
theorem test_cvConvert :
    got (fun t => memWord t.mem 0x300) (exec .cvConvert (cv1 255 255 255)) = some 0xFFFF7DFF#32 := by decide
set_option maxRecDepth 8000 in
/-- CV-8: column 1 of row 1 blends and replicates. -/
theorem test_cvConvert_blend :
    got (fun t => memWord t.mem 0x310)
        (exec .cvConvert (poke 0 (List.replicate 6 16) <| poke 0x100 [100, 200] <| poke 0x200 [128, 128]
          { blank with cv := { CvRegs.reset with uAddr := 0x100, vAddr := 0x200, dstAddr := 0x300, width := 3, height := 2,
                                                 yStride := 3, uvStride := 2, dstStride := 12 } })) =
      some 0xFF2C0000#32 := by decide

/-- The lengths of HF-1 at 0x100. -/
def sh (lens : List Byte) : State :=
  poke 0x100 lens { blank with hf := { lenAddr := 0x100, alpha := BitVec.ofNat 12 lens.length } }

/-- HF-1. -/
theorem test_hfBuild : got (fun t => t.slot 0) (exec (.hfBuild 0) (sh [2, 1, 3, 3])) = some (some [2, 1, 3, 3]) := by
  decide
/-- HF-8c: an incomplete code leaves the slot EMPTY. -/
theorem test_hfBuild_incomplete :
    got (fun t => (errOf t, t.slot 0)) (exec (.hfBuild 0) { sh [1, 2] with slots := [(0, some [1, 1])] }) =
      some ((2, 0x40), none) := by decide
/-- HF-2: the third symbol. -/
theorem test_hfDecode :
    got (fun t => (t.result, t.br))
        (exec (.hfDecode 0) { blank with slots := [(0, some [2, 1, 3, 3])], br := ⟨2, 2, 0x1F, 13⟩ }) =
      some (3, ⟨2, 2, 3, 10⟩) := by decide
/-- HF-4: the stream ends inside the code. -/
theorem test_hfDecode_end :
    got errOf (exec (.hfDecode 0) { blank with slots := [(0, some [2, 1, 3, 3])] }) = some (2, 0x41) := by decide
set_option maxRecDepth 8000 in
/-- HL-2. -/
theorem test_hfReadLengths_simple :
    got (fun t => ((List.range 40).filter (fun i => memByte t.mem (0x100 + i) != 0), t.br))
        (exec .hfReadLengths (poke 0 [0x7B, 0x02] { sh (List.replicate 40 7) with br := ⟨0, 2, 0, 0⟩ })) =
      some ([1, 39], ⟨2, 2, 0, 4⟩) := by decide
/-- HL-5: a limit, a repeat of the previous length, zeros. -/
theorem test_hfReadLengths_normal :
    got (fun t => ((List.range 12).map (fun i => (memByte t.mem (0x100 + i)).toNat), t.br.ptr, t.br.nbits))
        (exec .hfReadLengths (poke 0 [0x4A, 0x40, 0x00, 0x40, 0x91, 0x58]
          { sh (List.replicate 12 7) with br := ⟨0, 6, 0, 0⟩ })) =
      some ([1, 1, 1, 1, 0, 0, 0, 0, 0, 0, 0, 0], 6, 0) := by decide
/-- HF-10: the second HF_FREE. -/
theorem test_hfFree : got (fun t => (t.slot 7, t.done)) (exec (.hfFree 7) blank) = some (none, true) := by decide

/-- The single-symbol code of `y`. -/
def single (y : Nat) : HCode := List.replicate y 0 ++ [1]

set_option maxRecDepth 8000 in
/-- PX-4: a literal, then the colour cache. -/
theorem test_pxDecode_cache :
    got (fun t => (memWord t.mem 0x804, t.result, t.br.nbits))
        (exec .pxDecode (poke 0 [0x02] { blank with
          slots := [(0, some (1 :: List.replicate 279 0 ++ [1])), (1, some [1]), (2, some [1]), (3, some [1]), (4, some [1])]
          br := ⟨0, 1, 0, 0⟩
          px := { PxRegs.reset with dstAddr := 0x800, width := 2, height := 1, numGroups := 1, ccBits := 1 } })) =
      some (0, 2, 6) := by decide

/-- The tables of PX-9: group 0 all zero, group 1 a literal 0x80 or a copy of 3. -/
def px9 (word : List Byte) : State :=
  poke 0 [0x02] <| poke 0x400 word { blank with
    slots := [(0, some [1]), (1, some [1]), (2, some [1]), (3, some [1]), (4, some [1]),
      (5, some (List.replicate 0x80 0 ++ 1 :: List.replicate 129 0 ++ [1])), (6, some (single 0x11)), (7, some [1]),
      (8, some (single 255)), (9, some (single 1))]
    br := ⟨0, 1, 0, 0⟩
    px := { PxRegs.reset with dstAddr := 0x800, width := 4, height := 1, numGroups := 2, himgAddr := 0x400, hbits := 2,
                              hen := true } }

set_option maxRecDepth 8000 in
/-- PX-9: the last of four pixels, copied from the first. -/
theorem test_pxDecode_himg :
    got (fun t => (memWord t.mem 0x80C, t.br.ptr, t.br.nbits)) (exec .pxDecode (px9 [0xCC, 0x01, 0x00, 0xFF])) =
      some (0xFF118000, 1, 6) := by decide

/-- 46_lz77_pixel.md R219, R220, R221: function vectors of section 2.8. -/
theorem test_px_functions :
    [pxHash 0xFF000000#32 11, pxHash 0xFF102030#32 11, pxHash 0x12345678#32 8] = [536, 238, 139] ∧
      [pxPlane 4 4, pxPlane 1 12, pxPlane 3 10, pxPlane 10 120, pxPlane 10 121] = [3, 1, 1, 78, 1] ∧
      distTable.length = 120 := by decide

/-- CT-8, CT-10 and R53: CLEAR_ERR; a soft reset; a register write while BUSY. -/
theorem test_clearErr :
    got State.statusWord (step { blank with err := 1, errOp := 6, host := [.writeReg 0x004 .word 2] }) = some 0 := by decide
theorem test_softReset :
    got (fun t => (t.xf.outStride, t.doneIe))
        (step { blank with doneIe := true, xf := { XfRegs.reset with outStride := 2 },
                           host := [.writeReg 0x004 .word 3] }) = some (32, false) := by decide
theorem test_write_while_busy :
    step { blank with pending := some 0, host := [.writeReg 0x100 .word 3] } = .fault .hostWriteWhileBusy := by rfl
/-- 10_state.md R29: HW_CFG at its reset value. -/
theorem test_hwCfg : got State.hostData (step { blank with host := [.readReg 0x018 .word] }) = some 0x00060500#32 := by decide

/-! ### Witnesses: for each statement of Certificates/Slice0/Obligations.lean with hypotheses, data that meets them together -/

theorem witness_DecodeEncode : (Instr.rdUint .c1 31).WellFormed = true ∧ (Instr.hfBuild 4095).WellFormed = true := by decide

theorem witness_EncodeDecode : decode 0xFFF00043#32 = .ok (.hfFree 4095) := rfl

theorem witness_OpcodeMap : RowOf 0x00FF0102#32 (.rdBool .c1 255#8) := by unfold RowOf; decide

/-- A command is pending on the sequencer's turn: the host waits, or has no turn left. -/
theorem witness_StepRunsCommand :
    ({ blank with pending := some 0x50#32, host := [.wait] } : State).seqTurn = some { blank with pending := some 0x50#32 } ∧
      decode 0x50#32 = .ok .pxDecode ∧ blank.seqTurn = some blank ∧ blank.pending = none ∧ blank.err = 0 :=
  ⟨rfl, rfl, rfl, rfl, rfl⟩

theorem witness_FetchWordRuns : decodeTableWord 32 0xFFF00043 = some (.hfFree 4095) := by decide

theorem witness_UndefinedOpRaises :
    ({ blank with pending := some 0x06#32 } : State).seqTurn = some { blank with pending := some 0x06#32 } ∧
      blank.err = 0 ∧ (0x06#32).toNat % 256 ∉ opValues := ⟨rfl, rfl, by decide⟩

theorem witness_ReservedFieldRaises :
    ({ blank with pending := some 0x100#32 } : State).seqTurn = some { blank with pending := some 0x100#32 } ∧
      blank.err = 0 ∧ (0x100#32).toNat % 256 ∈ opValues ∧ ∀ i, ¬ RowOf 0x100#32 i :=
  ⟨rfl, rfl, by decide, fun i => by cases i <;> simp [RowOf]⟩

theorem witness_DiscardUnderError :
    ({ blank with pending := some 1#32, err := 1 } : State).seqTurn = some { blank with pending := some 1#32, err := 1 } ∧
      ({ blank with pending := some 1#32, err := 1 } : State).err ≠ 0 := ⟨rfl, by decide⟩

theorem witness_CommandLife :
    (∃ s : State, s.host = [.writeReg 0x010#12 .word 0x50#32] ∧ s.pending = none) ∧
      ∃ s u : State, s.seqTurn = some u ∧ s.pending = some 0xFF#32 :=
  ⟨⟨{ blank with host := [.writeReg 0x010#12 .word 0x50#32] }, rfl, rfl⟩,
    ⟨{ blank with pending := some 0xFF#32 }, _, rfl, rfl⟩⟩

theorem witness_ErrorEntry : blank.err = 0 ∧ ∃ t, exec (.rdBool .c0 0) blank = .next t ∧ t.err ≠ 0 :=
  ⟨rfl, _, rfl, by decide⟩

theorem witness_ArgumentChecks :
    ¬ ArgsOk blank (.rdBool .c1 0) ∧ ¬ ArgsOk blank .cvConvert ∧ ¬ ArgsOk blank (.hfFree 1280) :=
  ⟨fun h => absurd (show false = true from h) (by decide), fun h => absurd h.1.1 (by decide),
    fun h => absurd h (by decide : ¬ 1280 < 1280)⟩

/-- RD_INIT at the end of its stream raises `EndOfInput`, with its end outside DMEM `InvalidArgument`; HF_BUILD of no length
raises `InvalidData`. -/
theorem witness_FailedCommand :
    Sparse.Canonical none blank.slots ∧ blank.err = 0 ∧
      (∃ t, exec (.rdInit .c0) blank = .next t ∧ t.err = 4) ∧
      (∃ t, exec (.rdInit .c0) { blank with rd0 := { RdCtx.reset with stop := 0x1001 } } = .next t ∧ t.err = 1) ∧
      (∃ t, exec (.hfBuild 0) (sh [0, 0, 0]) = .next t ∧ t.err = 2) ∧
      ∃ t, exec .cvConvert blank = .next t ∧ t.err ≠ 0 :=
  ⟨by decide, rfl, ⟨_, rfl, by decide⟩, ⟨_, rfl, by decide⟩, ⟨_, rfl, by decide⟩, ⟨_, rfl, by decide⟩⟩

theorem witness_ResultRule :
    (hasResult .nop = false ∧ ∃ t, exec .nop blank = .next t) ∧
      (blank.err = 0 ∧ ∃ t, exec (.brRead 1) blank = .next t ∧ t.err ≠ 0) ∧
      ∃ s u t : State, s.seqTurn = some u ∧ s.pending = some 1#32 ∧ s.err ≠ 0 ∧ step s = .next t :=
  ⟨⟨rfl, _, rfl⟩, ⟨rfl, _, rfl, by decide⟩,
    ⟨{ blank with pending := some 1#32, err := 1 }, _, _, rfl, rfl, by decide, rfl⟩⟩

theorem witness_Frame :
    Memory.wf (cv1 1 2 3).mem ∧ Sparse.Canonical none (cv1 1 2 3).slots ∧ ∃ t, exec .cvConvert (cv1 1 2 3) = .next t :=
  ⟨by decide, by decide, exec_next _ _⟩

theorem witness_ContextsIndependent :
    ctxUsed (.rdUint .c0 7) ≠ some .c1 ∧ ∃ t, exec (.rdUint .c0 7) (s1 ⟨3, 5, 0x5580, 128, 5, true⟩) = .next t :=
  ⟨by decide, exec_next _ _⟩

/-- Two bytes exactly, and one byte too few. -/
theorem witness_RdInit :
    ((s1 { RdCtx.reset with stop := 2 }).rd .c0).stop.toNat ≤ blank.params.dmemSize ∧
      ((s1 { RdCtx.reset with stop := 2 }).rd .c0).ptr.toNat + 2 ≤ ((s1 { RdCtx.reset with stop := 2 }).rd .c0).stop.toNat ∧
      ((s1 { RdCtx.reset with stop := 1 }).rd .c0).stop.toNat <
        ((s1 { RdCtx.reset with stop := 1 }).rd .c0).ptr.toNat + 2 ∧ blank.params.rdEof = .fault ∧
      blankZ.params.rdEof = .zeroFill := by decide

/-- A context that needs a byte: one is there, or none. -/
theorem witness_RdBool :
    (∀ stop, stop = 3#32 ∨ stop = 2#32 →
      ((s1 ⟨2, stop, 0x08E0, 224, 4, true⟩).rd .c0).valid = true ∧ ((s1 ⟨2, stop, 0x08E0, 224, 4, true⟩).rd .c0).Window ∧
        ((s1 ⟨2, stop, 0x08E0, 224, 4, true⟩).rd .c0).stop.toNat ≤ blank.params.dmemSize) ∧
      ByteReady (s1 ⟨2, 3, 0x08E0, 224, 4, true⟩) .c0 10#8 ∧ ¬ ByteReady (s1 ⟨2, 2, 0x08E0, 224, 4, true⟩) .c0 10#8 := by
  refine ⟨?_, .inr (.inl (by decide)), ?_⟩
  · rintro stop (rfl | rfl) <;> exact ⟨rfl, ⟨by decide, by decide⟩, by decide⟩
  · rintro (h | h | h)
    · exact absurd h (by decide)
    · exact absurd h (by decide)
    · exact absurd h (by decide)

/-- A ready context with exactly four bytes, what 31 bits can need after 4 shifts, and one under `ZERO_FILL` with none. -/
theorem ready_four : RdReady (s1 ⟨1, 5, 0x08E0, 224, 4, true⟩) .c0 4 :=
  ⟨rfl, ⟨by decide, by decide⟩, by decide, .inr (.inl (by decide))⟩
theorem ready_zeroFill (k : Nat) :
    RdReady { blankZ with rd1 := ⟨9, 9, 0x08E0, 224, 4, true⟩ } .c1 k :=
  ⟨rfl, ⟨by decide, by decide⟩, by decide, .inr (.inr rfl)⟩

/-- A run of RD_UINT and then RD_BOOL, without error, and one whose RD_BOOL has no byte. -/
theorem witness_RdUint :
    ((s1 ⟨2, 5, 0xB20E, 255, 0, true⟩).rd .c0).valid = true ∧
      (∃ t u, exec (.rdUint .c0 1) (s1 ⟨2, 5, 0xB20E, 255, 0, true⟩) = .next t ∧ t.err = 0 ∧
        exec (.rdBool .c0 128#8) t = .next u ∧ u.err = 0) ∧
      (∃ t u, exec (.rdUint .c0 0) (s1 ⟨2, 2, 0x5580, 128, 7, true⟩) = .next t ∧ t.err = 0 ∧
        exec (.rdBool .c0 128#8) t = .next u ∧ u.err = 4) ∧
      (∃ t, exec (.rdUint .c0 1) (s1 ⟨2, 2, 0x5580, 128, 7, true⟩) = .next t ∧ t.err = 4) ∧
      RdReady (s1 ⟨1, 5, 0x08E0, 224, 4, true⟩) .c0 ((4 + 31) / 8) ∧ 31 ≤ 31 :=
  ⟨rfl, ⟨_, _, rfl, by decide, rfl, by decide⟩, ⟨_, _, rfl, by decide, rfl, by decide⟩, ⟨_, rfl, by decide⟩, ready_four,
    by decide⟩

theorem witness_RdSint :
    (∃ t u, exec (.rdUint .c0 0) (s1 ⟨2, 5, 0xB20E, 255, 0, true⟩) = .next t ∧ t.err = 0 ∧
        exec (.rdBool .c0 128#8) t = .next u ∧ u.err = 0) ∧
      (∃ t u, exec (.rdUint .c0 0) (s1 ⟨2, 2, 0x5580, 128, 7, true⟩) = .next t ∧ t.err = 0 ∧
        exec (.rdBool .c0 128#8) t = .next u ∧ u.err = 4) ∧
      (∃ t, exec (.rdUint .c0 1) (s1 ⟨2, 2, 0x5580, 128, 7, true⟩) = .next t ∧ t.err = 4) ∧
      RdReady (s1 ⟨1, 5, 0x08E0, 224, 4, true⟩) .c0 ((4 + 31 + 1) / 8) ∧
      RdReady { blankZ with rd1 := ⟨9, 9, 0x08E0, 224, 4, true⟩ } .c1 ((4 + 31 + 1) / 8) :=
  ⟨⟨_, _, rfl, by decide, rfl, by decide⟩, ⟨_, _, rfl, by decide, rfl, by decide⟩, ⟨_, rfl, by decide⟩, ready_four,
    ready_zeroFill 4⟩

/-- Context 0 over the tree of S2 at node 2, whose entries are the leaves 0 and -1: RD-12, with no byte left; and one whose
flag takes the only byte left. -/
theorem witness_RdTreeLeaf :
    ∀ x, x = ⟨0x32, 0x32, 0xA4A0, 255, 0, true⟩ ∨ x = ⟨0x31, 0x32, 0x2080, 255, 7, true⟩ →
      let s := { s2 with rd0 := x }
      let prob := s.rdProbAddr.toNat + (2#8 : Byte).toNat / 2
      let entry := s.rdTreeAddr.toNat + (2#8 : Byte).toNat + if readBit (s.rd .c0) (memByte s.mem prob) then 1 else 0
      RdReady s .c0 0 ∧ ByteReady s .c0 (memByte s.mem prob) ∧ prob < s.params.dmemSize ∧ entry < s.params.dmemSize ∧
        (memByte s.mem entry).toInt ≤ 0 := by
  rintro x (rfl | rfl)
  · exact ⟨⟨rfl, ⟨by decide, by decide⟩, by decide, .inl rfl⟩, .inl (by decide), by decide, by decide, by decide⟩
  · exact ⟨⟨rfl, ⟨by decide, by decide⟩, by decide, .inl rfl⟩, .inr (.inl (by decide)), by decide, by decide, by decide⟩

/-- A tree whose node 2 goes to itself on 0 and to `leaf` on 1, with probability 128 at node 2. -/
def s3 (x : RdCtx) (leaf : Byte) (m : Memory) : State :=
  { blank with mem := m ++ [(0x52, 2), (0x53, leaf), (0x61, 128)], rdTreeAddr := 0x50, rdProbAddr := 0x60, rd0 := x }

/-- A context with RANGE 128 over 31 bytes of 0, after `k` flags of 0: they last for 255 flags and no more. -/
def xd (k : Nat) : RdCtx := ⟨BitVec.ofNat 32 (k / 8), 31, 0, 128, BitVec.ofNat 3 k, true⟩
/-- The same but for the byte 1 at 29. -/
def xo (k : Nat) : RdCtx := { xd k with value := if k < 240 then 0 else BitVec.ofNat 16 (2 ^ (k - 240)) }

/-- Over the tree of `s3` with `m` below it, the contexts `c 0`, `c 1`, … read `n` flags of 0, one after another. -/
structure Zeros (leaf : Byte) (m : Memory) (c : Nat → RdCtx) (n : Nat) : Prop where
  tree  : ∀ x, memByte (s3 x leaf m).mem 0x52 = 2 ∧ memByte (s3 x leaf m).mem 0x61 = 128
  bit   : ∀ k < n, readBit (c k) 128 = false
  after : ∀ k < n, afterBool (s3 (c 0) leaf m).mem (c k) 128 = c (k + 1)
  byte  : ∀ k < n, (c k).bitcnt.toNat + shiftsOf (c k) 128 < 8 ∨ (c k).ptr.toNat < (c k).stop.toNat

set_option maxRecDepth 8000 in
theorem xd_zeros : Zeros 2 [] xd 255 := ⟨fun _ => ⟨rfl, rfl⟩, by decide, by decide, by decide⟩

set_option maxRecDepth 8000 in
theorem xo_zeros : Zeros 0xFD [(29, 1)] xo 254 := ⟨fun _ => ⟨rfl, rfl⟩, by decide, by decide, by decide⟩

/-- The last 254 of those flags. -/
theorem xe_zeros : Zeros 2 [] (fun k => xd (k + 1)) 254 :=
  ⟨xd_zeros.tree, fun k h => xd_zeros.bit (k + 1) (by omega), fun k h => xd_zeros.after (k + 1) (by omega),
    fun k h => xd_zeros.byte (k + 1) (by omega)⟩

theorem prob_s3 (x y : RdCtx) (leaf : Byte) (m : Memory) : treeProb (s3 x leaf m) (2, y) = 0x61 := by
  simp [treeProb, s3]

section Walk
variable {leaf : Byte} {m : Memory} {c : Nat → RdCtx} {n : Nat} (h : Zeros leaf m c n)
include h

theorem Zeros.prob (x y : RdCtx) : memByte (s3 x leaf m).mem (treeProb (s3 x leaf m) (2, y)) = 128 := by
  rw [prob_s3]; exact (h.tree x).2

theorem Zeros.entry (x : RdCtx) {k : Nat} (hk : k < n) : treeEntry (s3 x leaf m) (2, c k) = 0x52 := by
  unfold treeEntry; rw [h.prob]; dsimp only; rw [h.bit k hk]; rfl

/-- The walk stays at node 2. -/
theorem Zeros.walk :
    ∀ k ≤ n, treeWalk (s3 (c 0) leaf m) 2 (c 0) k = (2, c k) := by
  intro k
  induction k with
  | zero => intro _; rfl
  | succ k ih =>
    intro hk
    rw [treeWalk, ih (by omega)]
    dsimp only
    rw [h.prob, h.entry _ (by omega), (h.tree _).1, h.after k (by omega)]; rfl

/-- Each read finds an inner node, and its flag the byte it needs. -/
theorem Zeros.inner :
    ∀ k < n, InnerRead (s3 (c 0) leaf m) (treeWalk (s3 (c 0) leaf m) 2 (c 0) k) ∧
      FlagReady (s3 (c 0) leaf m) .c0 (treeWalk (s3 (c 0) leaf m) 2 (c 0) k) := by
  intro k hk
  rw [h.walk k (by omega)]
  refine ⟨⟨by rw [prob_s3]; show 0x61 < 0x1000; decide, ?_, ?_⟩, ?_⟩
  · rw [h.entry _ hk]; show 0x52 < 0x1000; decide
  · rw [h.entry _ hk, (h.tree _).1]; decide
  · unfold FlagReady; rw [h.prob]; exact (h.byte k hk).imp_right .inl
end Walk

/-- After 254 flags of 0, the most that leave a 255th read, 31 bytes give a flag of 1 and the leaf -3; with one flag taken
before, the 255th, at a node all the same, has no byte. -/
theorem witness_RdTreeNode :
    (let s := s3 (xo 0) 0xFD [(29, 1)]
     RdReady s .c0 0 ∧ 254 < 255 ∧
        (∀ k < 254, InnerRead s (treeWalk s 2 (s.rd .c0) k) ∧ FlagReady s .c0 (treeWalk s 2 (s.rd .c0) k)) ∧
        treeProb s (treeWalk s 2 (s.rd .c0) 254) < s.params.dmemSize ∧ FlagReady s .c0 (treeWalk s 2 (s.rd .c0) 254) ∧
        treeEntry s (treeWalk s 2 (s.rd .c0) 254) < s.params.dmemSize ∧
        (memByte s.mem (treeEntry s (treeWalk s 2 (s.rd .c0) 254))).toInt = -3) ∧
      let s := s3 (xd 1) 2 []
      RdReady s .c0 0 ∧
        (∀ k < 254, InnerRead s (treeWalk s 2 (s.rd .c0) k) ∧ FlagReady s .c0 (treeWalk s 2 (s.rd .c0) k)) ∧
        treeProb s (treeWalk s 2 (s.rd .c0) 254) < s.params.dmemSize ∧ ¬ FlagReady s .c0 (treeWalk s 2 (s.rd .c0) 254) := by
  have ho : treeWalk (s3 (xo 0) 0xFD [(29, 1)]) 2 ((s3 (xo 0) 0xFD [(29, 1)]).rd .c0) 254 = (2, xo 254) :=
    xo_zeros.walk 254 (by decide)
  have hd : treeWalk (s3 (xd 1) 2 []) 2 ((s3 (xd 1) 2 []).rd .c0) 254 = (2, xd 255) :=
    xe_zeros.walk 254 (by decide)
  refine ⟨⟨⟨rfl, ⟨by decide, by decide⟩, by decide, .inl rfl⟩, by decide, xo_zeros.inner, ?_⟩,
    ⟨rfl, ⟨by decide, by decide⟩, by decide, .inl rfl⟩, xe_zeros.inner, ?_⟩
  · rw [ho]; exact ⟨by decide, .inl (by decide), by decide, by decide⟩
  · rw [hd]
    refine ⟨by decide, ?_⟩
    rintro (h | h | h) <;> exact absurd h (by decide)

/-- 255 reads at node 2 that names itself (as RD-14), over 31 bytes; and a probability and an entry just past DMEM, at the
first read. -/
theorem witness_RdTreeCyclic :
    (let s := s3 (xd 0) 2 []
     RdReady s .c0 0 ∧ ∀ k < 255, InnerRead s (treeWalk s 2 (s.rd .c0) k) ∧ FlagReady s .c0 (treeWalk s 2 (s.rd .c0) k)) ∧
      (let s := { s3 (xd 0) 2 [] with rdProbAddr := 0xFFF }
       RdReady s .c0 0 ∧ s.params.dmemSize = treeProb s (treeWalk s 2 (s.rd .c0) 0)) ∧
      (let s := { s3 (xd 0) 2 [] with rdTreeAddr := 0xFFE }
       RdReady s .c0 0 ∧ treeProb s (treeWalk s 2 (s.rd .c0) 0) < s.params.dmemSize ∧
         FlagReady s .c0 (treeWalk s 2 (s.rd .c0) 0) ∧
         s.params.dmemSize = treeEntry s (treeWalk s 2 (s.rd .c0) 0)) := by
  exact ⟨⟨⟨rfl, ⟨by decide, by decide⟩, by decide, .inl rfl⟩, xd_zeros.inner⟩,
    ⟨⟨rfl, ⟨by decide, by decide⟩, by decide, .inl rfl⟩, by decide⟩,
    ⟨rfl, ⟨by decide, by decide⟩, by decide, .inl rfl⟩, by decide, .inl (by decide), by decide⟩

/-- Both contexts in their window; RD_INIT on a first byte FF and on another; and RD-13h, whose VALUE and RANGE, the spec's
own, are not below R125's bound (log entry 7). -/
theorem witness_RdWindowKept :
    (∀ c, ((s1 ⟨2, 5, 0xB20E, 255, 0, true⟩).rd c).valid = true → ((s1 ⟨2, 5, 0xB20E, 255, 0, true⟩).rd c).Window) ∧
      ((s1 ⟨2, 5, 0xB20E, 255, 0, true⟩).rd .c0).Below ∧
      (∃ t, exec (.rdBool .c0 128#8) (s1 ⟨2, 5, 0xB20E, 255, 0, true⟩) = .next t ∧ t.err = 0) ∧
      (∃ t, exec (.rdInit .c0) (s1 { RdCtx.reset with stop := 2 }) = .next t ∧ t.err = 0) ∧
      (∃ t, exec (.rdInit .c0) (poke 0 [0xFF] (s1 { RdCtx.reset with stop := 2 })) = .next t ∧ t.err = 0) ∧
      ∃ t, exec (.rdBool .c0 255#8) (s1 ⟨2, 4, 0xFFFF, 255, 0, true⟩) = .next t ∧ t.err = 0 ∧
        t.rd0 = ⟨2, 4, 0xFF80, 128, 7, true⟩ ∧ ¬ t.rd0.Below := by
  refine ⟨fun c h => ?_, show _ < _ by decide, ⟨_, rfl, by decide⟩, ⟨_, rfl, by decide⟩, ⟨_, rfl, by decide⟩,
    _, rfl, by decide, by decide, show ¬ _ < _ by decide⟩
  cases c
  · exact ⟨by decide, by decide⟩
  · exact absurd h (by decide)

/-- Four bytes of stream, nothing buffered: 31 and 32 bits can be asked for, 33 cannot; and an empty stream. -/
theorem ready_br : BrReady (sb ⟨0, 4, 0, 0⟩) := ⟨by decide, by decide, by decide⟩
theorem witness_BrPeek : BrReady (sb ⟨0, 4, 0, 0⟩) ∧ 31 < 32 := ⟨ready_br, by decide⟩
theorem witness_BrSkip :
    BrReady (sb ⟨0, 4, 0, 0⟩) ∧ 31 ≤ avail (sb ⟨0, 4, 0, 0⟩).br ∧ BrReady (sb ⟨4, 4, 0x1F, 12⟩) ∧
      12 ≤ avail (sb ⟨4, 4, 0x1F, 12⟩).br ∧ avail (sb ⟨4, 4, 0x1F, 12⟩).br < 13 :=
  ⟨ready_br, by decide, ⟨by decide, by decide, by decide⟩, by decide, by decide⟩
theorem witness_BrRead :
    BrReady (sb ⟨4, 4, 0x1F, 12⟩) ∧ 12 ≤ avail (sb ⟨4, 4, 0x1F, 12⟩).br ∧ avail (sb ⟨4, 4, 0x1F, 12⟩).br < 13 :=
  ⟨⟨by decide, by decide, by decide⟩, by decide, by decide⟩
theorem witness_BrAccKept :
    (Instr.brRead 12).WellFormed = true ∧ (sb ⟨1, 4, 0, 0⟩).br.AccOk ∧ (sb ⟨1, 4, 0, 0⟩).err = 0 ∧
      ∃ t, exec (.brRead 12) (sb ⟨1, 4, 0, 0⟩) = .next t ∧ t.err = 0 :=
  ⟨rfl, ⟨by decide, by decide⟩, rfl, _, rfl, by decide⟩

/-- Coefficients and output at the last places of DMEM. -/
def sx : State :=
  { blank with xf := { coefAddr := 0xFE0, pixAddr := 0xFFC, pixStride := 0, outAddr := 0xFE0, outStride := 2 } }
theorem witness_XfIdctAdd : ArgsOk sx .xfIdctAdd ∧ Memory.wf sx.mem := ⟨by unfold ArgsOk; decide, by decide⟩
theorem witness_XfIdct : ArgsOk sx .xfIdct ∧ Memory.wf sx.mem := ⟨by unfold ArgsOk; decide, by decide⟩
theorem witness_XfIwht : ArgsOk sx .xfIwht ∧ Memory.wf sx.mem := ⟨by unfold ArgsOk; decide, by decide⟩
theorem witness_XfDcOnly :
    (-32768 : Int) ≤ 32767 ∧ ArgsOk sx .xfIdctAdd ∧ Memory.wf sx.mem ∧ ∀ i < 16, coef sx i = 0 :=
  ⟨by decide, by unfold ArgsOk; decide, by decide, by decide⟩
theorem witness_XfWrapAgrees :
    let c : List Int := List.replicate 8 2047 ++ List.replicate 8 (-2048)
    c.length = 16 ∧ ∀ v ∈ c, -2048 ≤ v ∧ v ≤ 2047 := by decide

theorem args_cv1 : ArgsOk (cv1 1 2 3) .cvConvert := by unfold ArgsOk; decide
theorem witness_CvRaster : ArgsOk (cv1 1 2 3) .cvConvert := args_cv1
theorem witness_CvPixels : ArgsOk (cv1 1 2 3) .cvConvert ∧ Memory.wf (cv1 1 2 3).mem ∧ CvApart (cv1 1 2 3) := by
  refine ⟨args_cv1, by decide, ⟨?_, .inl rfl⟩⟩
  rintro a ha ⟨y, hy, x, hx, k, hk, rfl⟩
  have hd : (cv1 1 2 3).cv.dstAddr.toNat = 0x300 := rfl
  rw [hd] at ha
  have hx : x < 1 := hx
  have hy : y < 1 := hy
  rw [show y = 0 by omega, show x = 0 by omega] at ha
  rcases ha with ⟨y', hy', x', hx', h⟩ | ⟨j, hj, i, hi, h | h⟩
  · have h : 0x300 + 0 * 4 + 4 * 0 + k = 0 + y' * 1 + x' := h
    have hx' : x' < 1 := hx'
    have hy' : y' < 1 := hy'
    omega
  · have h : 0x300 + 0 * 4 + 4 * 0 + k = 0x100 + j * 1 + i := h
    have hi : i < 1 := hi
    have hj : j < 1 := hj
    omega
  · have h : 0x300 + 0 * 4 + 4 * 0 + k = 0x200 + j * 1 + i := h
    have hi : i < 1 := hi
    have hj : j < 1 := hj
    omega

/-- A complete list and an incomplete one. -/
theorem witness_HfBuild :
    (ArgsOk (sh [2, 1, 3, 3]) (.hfBuild 1279) ∧ Sparse.Canonical none (sh [2, 1, 3, 3]).slots ∧
        ValidLens (lensAt (sh [2, 1, 3, 3]).mem 0x100 4)) ∧
      ArgsOk (sh [1, 2]) (.hfBuild 0) ∧ ¬ ValidLens (lensAt (sh [1, 2]).mem 0x100 2) :=
  ⟨⟨by unfold ArgsOk; decide, by decide, by unfold ValidLens; decide⟩, by unfold ArgsOk; decide,
    by unfold ValidLens; decide⟩
theorem witness_HfFree : 1279 < 1280 ∧ Sparse.Canonical none blank.slots := by decide

/-- The code of HF-1: symbols 2 and 3 follow each other, 1 is shorter than 0. -/
theorem many_1 : ManySymbols [2, 1, 3, 3] := ⟨0, 1, by decide, by decide, by decide⟩
theorem witness_CanonicalCodes :
    let l : HCode := [2, 1, 3, 3]
    (2 < 3 ∧ 3 < l.length ∧ l.getD 2 0 = l.getD 3 0 ∧ ∀ x, 2 < x → x < 3 → l.getD x 0 ≠ l.getD 2 0) ∧
      (0 < l.getD 1 0 ∧ l.getD 1 0 < l.getD 0 0) ∧ ValidLens l ∧ ManySymbols l :=
  ⟨⟨by decide, by decide, by decide, fun x h1 h2 => by omega⟩, by decide, by unfold ValidLens; decide, many_1⟩

/-- The code of HF-1 in slot 7, over a stream. -/
def sd (b : BrRegs) : State := { blank with slots := [(7, some [2, 1, 3, 3])], br := b }
theorem code_1 : CodeOk [2, 1, 3, 3] := ⟨by decide, by decide, by decide⟩
theorem ready_sd (b : BrRegs) (h : b.stop.toNat ≤ 0x1000) (h' : b.AccOk) : BrReady (sd b) := ⟨h, h'⟩

/-- Code 111 of symbol 3 with three bits left, and with two. -/
theorem witness_HfDecode :
    (BrReady (sd ⟨2, 2, 7, 3⟩) ∧ (sd ⟨2, 2, 7, 3⟩).slot 7 = some [2, 1, 3, 3] ∧ CodeAhead [2, 1, 3, 3] 3 3 7 ∧
        stream [] (sd ⟨2, 2, 7, 3⟩).br = 7 ∧ 3 ≤ avail (sd ⟨2, 2, 7, 3⟩).br) ∧
      CodeOk [2, 1, 3, 3] ∧ ManySymbols [2, 1, 3, 3] ∧ BrReady (sd ⟨2, 2, 1, 1⟩) ∧ stream [] (sd ⟨2, 2, 1, 1⟩).br = 1 ∧
      CodeAhead [2, 1, 3, 3] 0 2 1 ∧ avail (sd ⟨2, 2, 1, 1⟩).br < 2 :=
  ⟨⟨ready_sd _ (by decide) ⟨by decide, by decide⟩, rfl, by unfold CodeAhead; decide, by decide, by decide⟩, code_1, many_1,
    ready_sd _ (by decide) ⟨by decide, by decide⟩, by decide, by unfold CodeAhead; decide, by decide⟩

theorem only_single (y : Nat) : OnlySymbol (single y) y := by
  intro j
  unfold single
  rw [List.getD_eq_getElem?_getD]
  rcases Nat.lt_trichotomy j y with h | h | h
  · rw [List.getElem?_append_left (by simpa using h), List.getElem?_replicate, if_pos h]; simp; omega
  · subst h; rw [List.getElem?_append_right (by simp)]; simp
  · rw [List.getElem?_append_right (by simpa using Nat.le_of_lt h), List.getElem?_eq_none (by simp; omega)]; simp; omega

theorem witness_HfDecodeSingle :
    let s := { blank with slots := [(0, some (single 9))] }
    s.br.stop.toNat ≤ s.params.dmemSize ∧ s.slot 0 = some (single 9) ∧ OnlySymbol (single 9) 9 :=
  ⟨by decide, rfl, only_single 9⟩

theorem witness_HfDecodeTotal :
    BrReady (sd ⟨4, 4, 0, 15⟩) ∧ (sd ⟨4, 4, 0, 15⟩).slot 7 = some [2, 1, 3, 3] ∧ CodeOk [2, 1, 3, 3] ∧
      15 ≤ avail (sd ⟨4, 4, 0, 15⟩).br :=
  ⟨ready_sd _ (by decide) ⟨by decide, by decide⟩, rfl, code_1, by decide⟩

/-- A length array of `n` symbols, the rest of the stream in the accumulator. -/
def sl (n : Nat) (acc : BitVec 64) (nbits : BitVec 7) : State :=
  { blank with hf := { lenAddr := 0x100, alpha := BitVec.ofNat 12 n }, br := ⟨0, 0, acc, nbits⟩ }

/-- HL-2's list with exactly its bits and with one too few, and HL-3's, whose symbol is outside the alphabet. -/
theorem witness_HfReadSimple :
    (ArgsOk (sl 40 0x27B 12) .hfReadLengths ∧ BrReady (sl 40 0x27B 12) ∧ Memory.wf (sl 40 0x27B 12).mem ∧
        stream [] (sl 40 0x27B 12).br = 0x27B ∧ avail (sl 40 0x27B 12).br = 12 ∧ 0x27B % 2 = 1 ∧ 0x27B / 2 % 2 = 1 ∧
        0x27B / 4 % 2 = 0 ∧ 0x27B / 8 % 2 = 1 ∧ 0x27B / 2 ^ 4 % 256 = 39) ∧
      (ArgsOk (sl 40 0x27B 11) .hfReadLengths ∧ (sl 40 0x27B 11).br.AccOk ∧ avail (sl 40 0x27B 11).br < 12) ∧
      ArgsOk (sl 40 0x195 11) .hfReadLengths ∧ BrReady (sl 40 0x195 11) ∧ stream [] (sl 40 0x195 11).br = 0x195 ∧
      avail (sl 40 0x195 11).br = 11 ∧ 0x195 % 2 = 1 ∧ 0x195 / 2 % 2 = 0 ∧ 0x195 / 4 % 2 = 1 ∧ 40 ≤ 0x195 / 8 % 2 ^ 8 := by
  refine ⟨⟨by unfold ArgsOk; decide, ⟨by decide, by decide, by decide⟩, ?_⟩,
    ⟨by unfold ArgsOk; decide, ⟨by decide, by decide⟩, by decide⟩, by unfold ArgsOk; decide,
    ⟨by decide, by decide, by decide⟩, ?_⟩ <;> decide

/-- What the list's reader makes of a normal list: its lengths, where it has an answer. -/
def lengthsOf (s : State) : Option (List Nat) :=
  ((bitsAt (srcOf s) 1 ⟨0, 0⟩).bind fun (_, q) => normalAt (srcOf s) s.hf.alpha.toNat q).map (·.1)

/-- HL-4, and HL-5 with its limit and repeats, have an answer; HL-5's list for 8 lengths (a repeat past the end), a
code-length code of no symbol, and an empty stream have none. -/
theorem witness_HfReadNormal :
    (∀ n acc nbits, (n, acc, nbits) ∈ [(8, 0x0AF8221004#64, 40#7), (12, 0x58914000404A#64, 48#7),
        (8, 0x58914000404A#64, 48#7), (8, 0#64, 40#7), (8, 0#64, 0#7)] →
      ArgsOk (sl n acc nbits) .hfReadLengths ∧ BrReady (sl n acc nbits) ∧ Memory.wf (sl n acc nbits).mem ∧
        stream (sl n acc nbits).mem (sl n acc nbits).br % 2 = 0) ∧
      lengthsOf (sl 8 0x0AF8221004 40) = some [2, 2, 2, 3, 3, 0, 0, 0] ∧
      lengthsOf (sl 12 0x58914000404A 48) = some [1, 1, 1, 1, 0, 0, 0, 0, 0, 0, 0, 0] ∧
      lengthsOf (sl 8 0x58914000404A 48) = none ∧ lengthsOf (sl 8 0 40) = none ∧ lengthsOf (sl 8 0 0) = none := by
  refine ⟨?_, by decide, by decide, by decide, by decide, by decide⟩
  intro n acc nbits h
  simp only [List.mem_cons, Prod.mk.injEq, List.not_mem_nil, or_false] at h
  rcases h with ⟨rfl, rfl, rfl⟩ | ⟨rfl, rfl, rfl⟩ | ⟨rfl, rfl, rfl⟩ | ⟨rfl, rfl, rfl⟩ | ⟨rfl, rfl, rfl⟩ <;>
    exact ⟨by unfold ArgsOk; decide, ⟨by decide, by decide, by decide⟩, by decide, by decide⟩

theorem witness_HfReadLengthsRange :
    Memory.wf (sl 40 0x27B 12).mem ∧ (sl 40 0x27B 12).err = 0 ∧
      ∃ t, exec .hfReadLengths (sl 40 0x27B 12) = .next t ∧ t.err = 0 := by
  refine ⟨by decide, rfl, ?_⟩
  obtain ⟨t, ht⟩ := exec_next .hfReadLengths (sl 40 0x27B 12)
  have h : got State.err (exec .hfReadLengths (sl 40 0x27B 12)) = some 0 := by decide
  rw [ht] at h
  exact ⟨t, ht, Option.some.inj h⟩

/-- Two groups of solid colours; the huffman image is one word, group 1. -/
def sp (hen : Bool) : State :=
  poke 0x400 [0, 1, 0, 0] { blank with
    slots := (List.range 10).map fun t => (t, some (single t))
    px := { PxRegs.reset with dstAddr := 0xFFC, width := 1, height := 1, numGroups := 2, himgAddr := 0x400, hbits := 9,
                              hen := hen } }

theorem slots_sp (hen : Bool) : ∀ t < 10, (sp hen).slot t = some (single t) := by cases hen <;> decide

theorem args_sp (hen : Bool) : ArgsOk (sp hen) .pxDecode := by
  refine ⟨by cases hen <;> decide, by cases hen <;> decide, by cases hen <;> decide, by cases hen <;> decide, ?_,
    by cases hen <;> decide, ?_, by cases hen <;> decide⟩
  · intro g hg t ht
    have hg : g < 2 := hg
    have hb : (sp hen).px.groupBase.toNat = 0 := rfl
    rw [hb, slots_sp hen _ (by omega)]
    simp
  · intro h; cases hen
    · cases h
    · decide

theorem witness_PxSolid :
    ∀ hen, ArgsOk (sp hen) .pxDecode ∧ Memory.wf (sp hen).mem ∧ Solid (sp hen) fun g t => 5 * g + t := by
  intro hen
  refine ⟨args_sp hen, by cases hen <;> decide, ⟨?_, ?_, ?_⟩⟩
  · intro g hg t ht
    have hg : g < 2 := hg
    have hb : (sp hen).px.groupBase.toNat = 0 := rfl
    refine ⟨⟨single (5 * g + t), ?_, only_single _⟩, by omega⟩
    rw [hb, Nat.zero_add]
    exact slots_sp hen _ (by omega)
  · intro pos hp h
    have hp : pos < 1 := hp
    cases hen
    · cases h
    · rw [show pos = 0 by omega]; decide
  · intro h; cases hen
    · cases h
    · exact .inl (by decide)

theorem codes_of {s : State} (h : ∀ e ∈ s.slots, ∀ l, e.2 = some l → lensValid l = true ∧ 1 ≤ l.length ∧ l.length ≤ 2328)
    (k : Nat) (l : HCode) (hl : s.slot k = some l) : CodeOk l :=
  h _ (Sparse.mem_of_get hl (by simp)) l rfl

/-- A state whose output stands at 0x800 and whose stream and huffman image stand below it. -/
theorem ready_below {s : State} (ha : ArgsOk s .pxDecode) (hm : Memory.wf s.mem) (hc : s.cache = []) (hb : s.br.AccOk)
    (hl : ∀ e ∈ s.slots, ∀ l, e.2 = some l → lensValid l = true ∧ 1 ≤ l.length ∧ l.length ≤ 2328)
    (hd : 0x800 ≤ s.px.dstAddr.toNat) (hs : s.br.stop.toNat ≤ 0x800)
    (hi : s.px.hen = true → s.px.himgAddr.toNat + 4 * (himgWords s.px.hbits.toNat s.px.width.toNat *
      himgWords s.px.hbits.toNat s.px.height.toNat) ≤ 0x800) : PxReady s := by
  refine ⟨ha, hm, by rw [hc]; exact ⟨.nil, by simp⟩, hb, codes_of hl, ?_, ?_⟩
  · rintro a - h2 ⟨k, -, h⟩; omega
  · rintro h hb n a - h2 ⟨k, -, h'⟩
    have h2 : a < s.px.himgAddr.toNat + 4 * (himgWords s.px.hbits.toNat s.px.width.toNat *
      himgWords s.px.hbits.toNat s.px.height.toNat) := h2
    have := hi h
    omega

/-- What PX_DECODE decodes from an image: the pixels, or the code of the error. -/
def decoded (s : State) : List Word ⊕ BitVec 4 :=
  match imageOf s with
  | .ok (pix, _) => .inl pix
  | .error e => .inr e

/-- One group with the main symbol `y` and 0 in the other tables; a row of two pixels at 0x800. -/
def pxRow (y : Nat) (cc : BitVec 4) : State :=
  { blank with
    slots := (0, some (single y)) :: (List.range 4).map fun t => (t + 1, some [1])
    px := { PxRegs.reset with dstAddr := 0x800, width := 2, height := 1, numGroups := 1, ccBits := cc } }

set_option maxRecDepth 8000 in
theorem ready_px9 (word : List Byte) (h : word = [0xCC, 1, 0, 0xFF] ∨ word = [0xCC, 1, 1, 0xFF] ∨ word = [0xCC, 2, 0, 0xFF]) :
    PxReady (px9 word) := by
  rcases h with rfl | rfl | rfl <;>
    exact ready_below (by unfold ArgsOk; decide) (by decide) rfl ⟨by decide, by decide⟩ (by decide) (by decide) (by decide)
      (by decide)

set_option maxRecDepth 8000 in
theorem ready_row : PxReady (pxRow 280 1) :=
  ready_below (by unfold ArgsOk; decide) (by decide) rfl ⟨by decide, by decide⟩ (by decide) (by decide) (by decide) (by decide)

set_option maxRecDepth 8000 in
/-- PX-9, a copy under the huffman image; two cache pixels; a copy of 3 from one pixel back. -/
theorem witness_PxPixels :
    (PxReady (px9 [0xCC, 1, 0, 0xFF]) ∧ decoded (px9 [0xCC, 1, 0, 0xFF]) = .inl (List.replicate 4 0xFF118000)) ∧
      (PxReady (pxRow 280 1) ∧ (decoded (pxRow 280 1)).isLeft = true) ∧
      let r : PxRun := { pos := 1, mem := [], cache := [], br := BrRegs.reset }
      1 ≤ 1 ∧ 1 ≤ r.pos ∧ Memory.wf r.mem :=
  ⟨⟨ready_px9 _ (by decide), by decide⟩, ⟨ready_row, by decide⟩, by decide⟩

/-- Codes 3 and 4, at the boundary, and the last, with just their extra bits; the least distance value. -/
theorem witness_PxPrefix :
    (BrRegs.AccOk ⟨0, 0, 1, 1⟩ ∧ 4 < 40 ∧ 4 / 2 - 1 ≤ avail ⟨0, 0, 1, 1⟩) ∧ BrRegs.AccOk ⟨0, 0, 0, 18⟩ ∧ 39 < 40 ∧
      39 / 2 - 1 ≤ avail ⟨0, 0, 0, 18⟩ ∧ BrRegs.AccOk BrRegs.reset ∧ 3 / 2 - 1 ≤ avail BrRegs.reset ∧ 1 ≤ 1 := by
  unfold BrRegs.AccOk; decide

theorem witness_PxCache :
    Sparse.Canonical 0#32 ([] : Sparse Word) ∧ PxRegs.reset.ccBits = 0 ∧
      ({ PxRegs.reset with ccBits := 11 } : PxRegs).ccBits ≠ 0 ∧ (11#4 : BitVec 4).toNat ≤ 11 := by decide

set_option maxRecDepth 8000 in
/-- A red channel that is not 0 and a group that is not there, in the word of PX-9. And main tables of the one symbol 256,
of 279, and of 280 without a cache. -/
theorem witness_PxRefuses :
    (PxReady (px9 [0xCC, 1, 1, 0xFF]) ∧ decoded (px9 [0xCC, 1, 1, 0xFF]) = .inr 5) ∧
      (PxReady (px9 [0xCC, 2, 0, 0xFF]) ∧ decoded (px9 [0xCC, 2, 0, 0xFF]) = .inr 2) ∧
      ∀ y ∈ [256, 279, 280],
        let s := pxRow y 0
        ArgsOk s .pxDecode ∧ s.px.hen = false ∧ SingleIn s s.px.groupBase.toNat y ∧
          ((256 ≤ y ∧ y < 280) ∨ (280 ≤ y ∧ s.px.ccBits = 0)) := by
  refine ⟨⟨ready_px9 _ (by decide), by decide⟩, ⟨ready_px9 _ (by decide), by decide⟩, ?_⟩
  intro y hy s
  refine ⟨?_, rfl, ⟨single y, rfl, only_single y⟩, ?_⟩ <;>
    (simp only [List.mem_cons, List.not_mem_nil, or_false] at hy; rcases hy with rfl | rfl | rfl)
  · unfold ArgsOk; decide
  · unfold ArgsOk; decide
  · unfold ArgsOk; decide
  · decide
  · decide
  · decide

/-- A content of DMEM with a byte in its last place. -/
theorem witness_ResetInv : Memory.wf [(0xFFF, 1)] ∧ ∀ c ∈ [((0xFFF : Nat), (1 : Byte))], c.1 < blank.params.dmemSize := by
  decide

/-- The invariant holds of a state with a built slot, a byte in DMEM, a cache entry, a valid context and a command pending. -/
theorem witness_StepKeepsInv :
    let s := { sd ⟨4, 4, 0, 0⟩ with
      mem := [(0xFFF, 1)], cache := [(2047, 1)], rd0 := ⟨0, 0x1000, 0, 255, 0, true⟩, pending := some 0x00700041#32 }
    s.Inv ∧ ∃ t, step s = .next t := by
  refine ⟨⟨by decide, by decide, by decide, by decide, by decide, by decide, ?_, .inl rfl, fun _ => rfl, fun _ => rfl, ?_⟩, ?_⟩
  · intro t l h
    by_cases ht : t = 7
    · subst ht
      have hl : some [2, 1, 3, 3] = some l := h
      rw [← Option.some.inj hl]; exact code_1
    · have hn : (none : Option HCode) = some l := by
        rw [← h]; simp [State.slot, sd, Sparse.get, Ne.symm ht]
      cases hn
  · intro c h
    cases c
    · show _ ≤ _; decide
    · cases h
  · exact ⟨_, rfl⟩

/-- SOFT_RESET and CLEAR_ERR together, while a command is pending and while none is. -/
theorem witness_SoftReset :
    let s := { sx with pending := some 0x21#32, host := [.writeReg 0x004#12 .word 3] }
    s.host = [.writeReg 0x004#12 .word 3#32] ∧ (3#32 : Word).toNat % 2 = 1 ∧ Memory.wf s.mem ∧
      decode 0x21#32 = .ok .xfIdct ∧ blank.pending = none :=
  ⟨rfl, by decide, by decide, rfl, rfl⟩

/-- CLEAR_ERR alone, with an error and without. -/
theorem witness_ClearErr :
    let s := { blank with host := [.writeReg 0x004#12 .word 2] }
    (2#32 : Word).toNat % 4 = 2 ∧ s.host = [.writeReg 0x004#12 .word 2#32] ∧ s.err = 0 ∧ s.Inv := by
  refine ⟨by decide, rfl, rfl, ⟨by decide, by decide, by decide, by decide, by decide, by decide, ?_, .inl rfl,
    fun _ => rfl, ?_, ?_⟩⟩
  · intro t l h; cases h
  · intro h; cases h
  · intro c h; cases c <;> cases h

theorem witness_DoneWriteOneToClear :
    ({ blank with done := true, host := [.writeReg 0x008#12 .word 2] } : State).host = [.writeReg 0x008#12 .word 2#32] := rfl

theorem witness_InterruptLine : (2#32 : Word).getLsbD 1 = true := by decide

/-- PX_HIMG_CTRL is read-write; PX_POS is read-only; STATUS while BUSY, with ERR 0 and with a latched error; RD_PTR(1)
clears RD_STATE(1), not RD_STATE(0); IRQ_EN is written while BUSY; the offset after DMEM_SIZE's names no register. -/
theorem witness_RegisterReadBack :
    (rwBits .pxHimgCtrl = some 0x10F#32 ∧ blank.pending = none ∧
        ({ blank with host := [.writeReg 0x298 .word 0xFFFFFFFF] } : State).host =
          [.writeReg (offsetOf .pxHimgCtrl) .word 0xFFFFFFFF#32]) ∧
      readOnly .pxPos = true ∧
      (∀ e, e = 0#4 ∨ e = 1#4 →
        ({ blank with pending := some 0, err := e, errOp := 6, host := [.readReg 0x008 .word] } : State).host =
          [.readReg (offsetOf .status) .word]) ∧
      (Reg.rdState .c1 ∈ alsoCleared (.rdPtr .c1) ∧ Reg.rdState .c0 ∉ alsoCleared (.rdPtr .c1)) ∧
      (let s := { blank with pending := some 0, host := [.writeReg 0x00C .word 2] }
       s.pending ≠ none ∧ s.host = [.writeReg (offsetOf .irqEn) .word 2#32]) ∧
      (0x020#12).toNat % 4 = 0 ∧ ∀ r, 0x020#12 ≠ offsetOf r := by
  refine ⟨by decide, rfl, fun e _ => rfl, by decide, by decide, by decide, fun r => ?_⟩
  cases r <;> first | decide | (rename_i c; cases c <;> decide)

/-- 10_state.md R50: XF_PIX_ADDR stands at 0x104 and XF_OUT_ADDR at 0x10C. -/
theorem test_xf_offsets :
    got (fun t => (t.xf.pixAddr, t.xf.outAddr)) (step { blank with host := [.writeReg 0x104 .word 7] }) = some (7, 0) ∧
      got (fun t => (t.xf.pixAddr, t.xf.outAddr)) (step { blank with host := [.writeReg 0x10C .word 9] }) = some (0, 9) := by
  decide

/-- A read, each stream register's write, and DMEM accesses that end at the last byte. -/
theorem witness_HostAccess :
    (∃ s u : State, s.host = [.readMem 0xFFC .word] ∧ s.pending = none ∧ 0xFFC + AccessWidth.word.bytes ≤ s.params.dmemSize ∧
        step s = .next u) ∧
      (∀ off ∈ [0x040#12, 0x060#12, 0x044#12, 0x064#12, 0x180#12, 0x184#12], ∃ r, regAt off = some r) ∧
      ∃ s : State, s.host = [.writeMem 0xFFE .half 0x1234] ∧ s.pending = none ∧
        0xFFE + AccessWidth.half.bytes ≤ s.params.dmemSize ∧ Memory.wf s.mem := by
  refine ⟨⟨{ blank with host := [.readMem 0xFFC .word] }, _, rfl, rfl, by decide, rfl⟩, ?_,
    ⟨{ blank with host := [.writeMem 0xFFE .half 0x1234] }, rfl, rfl, by decide, by decide⟩⟩
  intro off h
  simp only [List.mem_cons, List.not_mem_nil, or_false] at h
  rcases h with rfl | rfl | rfl | rfl | rfl | rfl <;> exact ⟨_, rfl⟩

/-- A turn that breaks the protocol, one that does not, and no turn. -/
theorem witness_HostViolations :
    Violates { blank with pending := some 0, host := [.readMem 0 .byte] } (.readMem 0 .byte) ∧
      ¬ Violates blank (.readMem 0xFFF .byte) ∧ Violates blank (.readMem 0xFFF .half) ∧ blank.host = [] := by
  refine ⟨.inl (by decide), ?_, .inr (by decide), rfl⟩
  rintro (h | h)
  · exact absurd h (by decide)
  · exact absurd h (by decide)

end Sys2Proof.Tests
end

section
/-! Proofs about the opcode map (30_encoding.md R92 to R94): the decoder against the rows transcribed from R92, and the step on
a word that no row matches. -/

namespace Sys2Proof.Machine

open Sys2Proof.Claim

/-! ### The operand fields (R88 to R91): bits of the word, and quotients of its number -/

theorem ctxField_eq_ctxOf (w : Word) : ctxField w = ctxOf w := by
  have hbit : w.extractLsb' 8 1 = 1#1 ↔ w.toNat / 2 ^ 8 % 2 = 1 := by
    rw [← BitVec.toNat_inj, BitVec.extractLsb'_toNat, Nat.shiftRight_eq_div_pow]; rfl
  simp only [ctxField, ctxOf, hbit]

theorem nField_eq_nOf (w : Word) : nField w = nOf w := by
  rw [nField, nOf, BitVec.extractLsb'_toNat, Nat.shiftRight_eq_div_pow]

theorem p8Field_eq_p8Of (w : Word) : p8Field w = p8Of w := by
  apply BitVec.eq_of_toNat_eq
  rw [p8Field, p8Of, BitVec.extractLsb'_toNat, Nat.shiftRight_eq_div_pow, BitVec.toNat_ofNat]

theorem slotField_eq_slotOf (w : Word) : slotField w = slotOf w := by
  have hw := w.isLt
  rw [slotField, slotOf, BitVec.extractLsb'_toNat, Nat.shiftRight_eq_div_pow]
  omega

/-! ### The rows (R92) -/

/-- A row that a word matches is the transcribed row of the command it makes. -/
theorem rowOf_make {w : Word} {r : Row} (hr : r ∈ rows) (hm : w &&& r.mask = r.op.setWidth 32) : RowOf w (r.make w) := by
  simp only [rows, rowsNR, rowsB, rowsH, List.cons_append, List.nil_append, List.mem_cons, List.not_mem_nil, or_false] at hr
  rcases hr with rfl | rfl | rfl | rfl | rfl | rfl | rfl | rfl | rfl | rfl | rfl | rfl | rfl | rfl | rfl | rfl | rfl | rfl
  all_goals simpa only [RowOf, BitVec.reduceSetWidth, ctxField_eq_ctxOf, nField_eq_nOf, p8Field_eq_p8Of,
    slotField_eq_slotOf, and_true] using hm

/-- A transcribed row is a row of the decoder's map, with the same operands. -/
theorem exists_row_of_rowOf {w : Word} {i : Instr} (h : RowOf w i) :
    ∃ r ∈ rows, w &&& r.mask = r.op.setWidth 32 ∧ r.make w = i := by
  simp only [rows, rowsNR, rowsB, rowsH, List.cons_append, List.nil_append, List.mem_cons, List.not_mem_nil, or_false,
    exists_eq_or_imp, exists_eq_left, BitVec.reduceSetWidth, ctxField_eq_ctxOf, nField_eq_nOf, p8Field_eq_p8Of,
    slotField_eq_slotOf]
  cases i <;> simpa only [RowOf, reduceCtorEq, and_false, false_or, or_false, and_true, Instr.rdInit.injEq,
    Instr.rdBool.injEq, Instr.rdUint.injEq, Instr.rdSint.injEq, Instr.rdTree.injEq, Instr.brPeek.injEq,
    Instr.brSkip.injEq, Instr.brRead.injEq, Instr.hfBuild.injEq, Instr.hfDecode.injEq, Instr.hfFree.injEq,
    eq_comm (b := ctxOf w), eq_comm (b := nOf w), eq_comm (b := p8Of w), eq_comm (b := slotOf w)] using h

/-- The OP of a word that a row matches is one of R92's. -/
theorem op_mem_of_rowOf {w : Word} {i : Instr} (h : RowOf w i) : w.toNat % 256 ∈ opValues := by
  obtain ⟨r, hr, hm, -⟩ := exists_row_of_rowOf h
  have hop : w.toNat % 256 = r.op.toNat := by
    rw [← opField_of_match (rows_mask r hr) hm, opField_eq, BitVec.toNat_ofNat]
  have hops : rows.map (fun r => r.op.toNat) = opValues := by decide
  rw [hop, ← hops]
  exact List.mem_map_of_mem hr

theorem decode_ok_iff_rowOf (w : Word) (i : Instr) : decode w = .ok i ↔ RowOf w i := by
  rw [decode_ok_iff]
  constructor
  · rintro ⟨r, hr, hm, rfl⟩
    exact rowOf_make hr hm
  · exact exists_row_of_rowOf

/-! ### A word that no row matches -/

theorem sequencerTurn_pending {run : Instr → State → Res} {s : State} {w : Word} (hp : s.pending = some w) :
    sequencerTurn run s = execute run w s := by
  rw [sequencerTurn, hp]

theorem step_pending {s u : State} {w : Word} (hu : s.seqTurn = some u) (hp : s.pending = some w) :
    step s = execute exec w u := by
  obtain ⟨hstep, ts, rfl⟩ := step_seqTurn hu
  rw [hstep]
  exact sequencerTurn_pending hp

theorem seqTurn_err {s u : State} (hu : s.seqTurn = some u) : u.err = s.err := by
  obtain ⟨-, ts, rfl⟩ := step_seqTurn hu
  rfl

/-- A word that does not decode raises `InvalidArgument` with its own OP, for either reason (R93, R94). -/
theorem execute_error {run : Instr → State → Res} {s : State} {w : Word} {e : Reject} (he : s.err = 0)
    (hd : decode w = .error e) : execute run w s = .next (raised s 1#4 (opField w)) := by
  rw [execute, if_neg (not_not_intro he), hd]; rfl

/-- On the sequencer's turn, with no error latched, a pending word that no row matches raises `InvalidArgument`. -/
theorem step_of_no_row {s u : State} {w : Word} (hu : s.seqTurn = some u) (hp : s.pending = some w) (he : s.err = 0)
    (hrow : ∀ i, ¬ RowOf w i) : step s = .next (raised u 1#4 (BitVec.ofNat 8 w.toNat)) := by
  rw [step_pending hu hp, ← opField_eq]
  cases hd : decode w with
  | ok i => exact absurd ((decode_ok_iff_rowOf w i).1 hd) (hrow i)
  | error e => exact execute_error ((seqTurn_err hu).trans he) hd

end Sys2Proof.Machine

namespace Sys2Proof.Proofs

open Sys2Proof.Machine

/-- Settles O3: each row of the decoder's map is the row transcribed from R92, operands included. -/
theorem opcodeMap : Obligations.OpcodeMap := decode_ok_iff_rowOf

/-- Settles O8: a word that no row matches raises, whatever its OP. -/
theorem reservedFieldRaises : Obligations.ReservedFieldRaises :=
  fun _ _ _ hu hp he _ hrow => step_of_no_row hu hp he hrow

/-- Settles O7: a word whose OP is in no row matches no row. -/
theorem undefinedOpRaises : Obligations.UndefinedOpRaises :=
  fun _ _ _ hu hp he hop => step_of_no_row hu hp he fun _ hrow => hop (op_mem_of_rowOf hrow)

end Sys2Proof.Proofs
end

section
/-! Proofs about control (40_control.md R105, R108, R109, R111, R112): how a command ends, what the sequencer makes of a
pending word, and the host's writes of CMD, CTRL and STATUS. -/

namespace Sys2Proof.Machine

open Sys2Proof.Claim

/-! ### How a command ends -/

/-- The ends of command `i` from `s`: it raises, or it succeeds; RESULT is written only by a success that produces a
result, and a success keeps ERR (R109; 60_exceptions.md R249). -/
inductive Ends (i : Instr) (s : State) : State → Prop where
  | raises {u : State} {e : ErrKind} (hresult : u.result = s.result) : Ends i s (u.raiseError i.op e)
  | succeeds {u : State} (herr : u.err = s.err) (hresult : hasResult i = false → u.result = s.result) :
    Ends i s u.complete

variable {i : Instr} {s t : State}

theorem Ends.pending (h : Ends i s t) : t.pending = none := by cases h <;> rfl

theorem Ends.done (h : Ends i s t) : t.done = true := by cases h <;> rfl

theorem Ends.result (h : Ends i s t) (hres : hasResult i = false ∨ (s.err = 0 ∧ t.err ≠ 0)) : t.result = s.result := by
  cases h with
  | raises hresult => exact hresult
  | succeeds herr hresult =>
    obtain hno | ⟨hs, ht⟩ := hres
    · exact hresult hno
    · exact absurd (herr.trans hs) ht

/-- A command that raises only in its argument checks. -/
theorem ends_of_checks {ok : Bool} {u : State}
    (h : (ok = false ∧ t = s.raiseError i.op .invalidArgument) ∨ (ok = true ∧ t = u.complete))
    (herr : u.err = s.err) (hresult : hasResult i = false → u.result = s.result) : Ends i s t := by
  obtain ⟨-, rfl⟩ | ⟨-, rfl⟩ := h
  · exact .raises rfl
  · exact .succeeds herr hresult

/-- The four reads through a context, which all produce a result. -/
theorem rdRead_ends {c : Ctx} (hi : RdRead i c) (hres : hasResult i = true) (h : exec i s = .next t) : Ends i s t := by
  obtain ⟨read, hread, -, -⟩ := exec_rdRead hi h
  obtain ⟨-, rfl⟩ | ⟨-, ⟨e, -, rfl⟩ | ⟨v, x, -, rfl⟩⟩ := rdCommand_cases hread
  · exact .raises rfl
  · exact .raises (State.drawRd_result s c)
  · exact .succeeds (by simp) (by simp [hres])

/-- Every command ends in one of the two ways. -/
theorem exec_ends (h : exec i s = .next t) : Ends i s t := by
  cases i with
  | nop =>
    cases h
    exact .succeeds rfl fun _ => rfl
  | rdInit c =>
    obtain ⟨-, rfl⟩ | ⟨-, ⟨e, -, rfl⟩ | ⟨x, -, rfl⟩⟩ := execRdInit_cases h
    · exact .raises rfl
    · exact .raises (by simp)
    · exact .succeeds (by simp) (by simp)
  | rdBool c p => exact rdRead_ends ⟨rfl, nofun⟩ rfl h
  | rdUint c n => exact rdRead_ends ⟨rfl, nofun⟩ rfl h
  | rdSint c n => exact rdRead_ends ⟨rfl, nofun⟩ rfl h
  | rdTree c p => exact rdRead_ends ⟨rfl, nofun⟩ rfl h
  | brPeek n => exact ends_of_checks (execBrPeek_cases h) rfl nofun
  | brSkip n =>
    obtain ⟨-, rfl⟩ | ⟨-, ⟨e, -, rfl⟩ | ⟨b, -, rfl⟩⟩ := execBrSkip_cases h
    · exact .raises rfl
    · exact .raises rfl
    · exact .succeeds rfl fun _ => rfl
  | brRead n =>
    obtain ⟨-, rfl⟩ | ⟨-, ⟨e, -, rfl⟩ | ⟨v, b, -, rfl⟩⟩ := execBrRead_cases h
    · exact .raises rfl
    · exact .raises rfl
    · exact .succeeds rfl nofun
  | xfIdctAdd => exact ends_of_checks (execXfIdctAdd_cases h) rfl fun _ => rfl
  | xfIdct => exact ends_of_checks (execXfIdct_cases h) rfl fun _ => rfl
  | xfIwht => exact ends_of_checks (execXfIwht_cases h) rfl fun _ => rfl
  | cvConvert => exact ends_of_checks (execCvConvert_cases h) rfl fun _ => rfl
  | hfBuild k =>
    obtain ⟨-, rfl⟩ | ⟨-, ⟨-, rfl⟩ | ⟨-, rfl⟩⟩ := execHfBuild_cases h
    · exact .raises rfl
    · exact .raises rfl
    · exact .succeeds rfl fun _ => rfl
  | hfDecode k =>
    obtain ⟨-, rfl⟩ | ⟨-, ⟨e, -, rfl⟩ | ⟨v, b, -, rfl⟩⟩ := execHfDecode_cases h
    · exact .raises rfl
    · exact .raises rfl
    · exact .succeeds rfl nofun
  | hfReadLengths =>
    obtain ⟨-, rfl⟩ | ⟨-, ⟨e, -, rfl⟩ | ⟨l, cl, b, -, rfl⟩⟩ := execHfReadLengths_cases h
    · exact .raises rfl
    · exact .raises rfl
    · exact .succeeds rfl fun _ => rfl
  | hfFree k => exact ends_of_checks (execHfFree_cases h) rfl fun _ => rfl
  | pxDecode =>
    obtain ⟨-, rfl⟩ | ⟨-, ⟨e, -, rfl⟩ | ⟨r, -, rfl⟩⟩ := execPxDecode_cases h
    · exact .raises rfl
    · exact .raises rfl
    · exact .succeeds rfl nofun

/-! ### The sequencer's turn with a word pending -/

theorem execute_latched {run : Instr → State → Res} (w : Word) (he : s.err ≠ 0) :
    execute run w s = .next (finished s) := by
  rw [execute, if_pos he]; rfl

/-- Whatever the word, discarded, rejected or run, executing it is one step that completes. -/
theorem execute_completes (w : Word) (s : State) :
    ∃ t, execute exec w s = .next t ∧ t.pending = none ∧ t.done = true := by
  by_cases he : s.err = 0
  · cases hd : decode w with
    | error e => exact ⟨_, execute_error he hd, rfl, rfl⟩
    | ok i =>
      obtain ⟨t, ht⟩ := exec_next i s
      refine ⟨t, ?_, (exec_ends ht).pending, (exec_ends ht).done⟩
      rw [execute, if_neg (not_not_intro he), hd]
      exact ht
  · exact ⟨_, execute_latched w he, rfl, rfl⟩

theorem step_latched {u : State} {w : Word} (hu : s.seqTurn = some u) (hp : s.pending = some w) (he : s.err ≠ 0) :
    step s = .next (finished u) := by
  rw [step_pending hu hp]
  exact execute_latched w ((seqTurn_err hu).symm ▸ he)

theorem seqTurn_result {u : State} (hu : s.seqTurn = some u) : u.result = s.result := by
  obtain ⟨-, ts, rfl⟩ := step_seqTurn hu
  rfl

/-- A pending word that is discarded or matches no row leaves RESULT as it is. -/
theorem step_not_run_result {u : State} {w : Word} (hu : s.seqTurn = some u) (hp : s.pending = some w)
    (hrun : s.err ≠ 0 ∨ ∀ i, ¬ RowOf w i) (h : step s = .next t) : t.result = s.result := by
  rw [← seqTurn_result hu]
  by_cases he : s.err = 0
  · have hrow := hrun.resolve_left (not_not_intro he)
    cases (step_of_no_row hu hp he hrow).symm.trans h
    rfl
  · cases (step_latched hu hp he).symm.trans h
    rfl

/-! ### The host's register writes -/

/-- A host write of a register that the protocol allows is `writeReg`. -/
theorem step_writeReg {off : BitVec 12} {v : Word} {ts : List HostTurn} (r : Reg)
    (hh : s.host = .writeReg off .word v :: ts) (hr : regAt off = some r)
    (hb : s.busy = false ∨ writableWhileBusy r = true) : step s = .next (writeReg { s with host := ts } v r) := by
  rw [step_host hh]
  exact hostWriteReg_ok (s := { s with host := ts }) (regAt_aligned hr) hr hb v

/-- Bit `k` of a written word, as a digit of its number. -/
theorem getLsbD_eq_decide (v : Word) (k : Nat) : v.getLsbD k = decide (v.toNat / 2 ^ k % 2 = 1) :=
  Nat.testBit_eq_decide_div_mod_eq

/-- A write of 1 in bit 1 and 0 in bit 0 of CTRL is CLEAR_ERR (R111). -/
theorem writeCtrl_clearErr {v : Word} (hv : v.toNat % 4 = 2) : s.writeCtrl v = s.clearErr := by
  have h0 : v.getLsbD 0 = false := by rw [getLsbD_eq_decide, decide_eq_false_iff_not]; omega
  have h1 : v.getLsbD 1 = true := by rw [getLsbD_eq_decide, decide_eq_true_iff]; omega
  rw [State.writeCtrl, h0, h1]; rfl

/-- With no error latched there is none to clear. -/
theorem clearErr_of_no_error (he : s.err = 0) (hop : s.errOp = 0) : s.clearErr = s := by
  rw [State.clearErr, ← he, ← hop]

theorem writeStatus_eq (s : State) (v : Word) :
    s.writeStatus v = { s with done := if v.toNat / 2 % 2 = 1 then false else s.done } := by
  have hbit : v.getLsbD 1 = decide (v.toNat / 2 % 2 = 1) := getLsbD_eq_decide v 1
  rw [State.writeStatus, hbit]
  by_cases hv : v.toNat / 2 % 2 = 1
  · rw [decide_eq_true hv, if_pos rfl, if_pos hv]
  · rw [decide_eq_false hv, if_neg Bool.false_ne_true, if_neg hv]

end Sys2Proof.Machine

namespace Sys2Proof.Proofs

open Sys2Proof.Machine

/-- Settles O10: the CMD write is `writeCmd`, and every pending word completes on the sequencer's turn. -/
theorem commandLife : Obligations.CommandLife := by
  refine ⟨fun s w ts hh hp => step_writeReg .cmd hh rfl (.inl (idle_iff.2 hp)), fun s u w hu hp => ?_⟩
  rw [step_pending hu hp]
  exact execute_completes w u

/-- Settles O14: by the two ends of a command, and for a word that no command is run for. -/
theorem resultRule : Obligations.ResultRule :=
  ⟨fun _ _ _ h hres => (exec_ends h).result hres, fun _ _ _ _ hu hp hrun h => step_not_run_result hu hp hrun h⟩

/-- Settles O9: the sequencer checks for a latched error before it decodes. -/
theorem discardUnderError : Obligations.DiscardUnderError := fun _ _ _ hu hp he => step_latched hu hp he

/-- Settles O55: CTRL may be written also while BUSY; with no error latched the invariant has ERR_OP 0. -/
theorem clearErr : Obligations.ClearErr := by
  intro s v ts hh hv
  have hstep : step s = .next { s with host := ts }.clearErr := by
    rw [step_writeReg .ctrl hh rfl (.inr rfl), writeReg, writeCtrl_clearErr hv]
  exact ⟨hstep, fun hi he => hstep.trans (congrArg _ (clearErr_of_no_error he (hi.errOpZero he)))⟩

/-- Settles O56: STATUS may be written also while BUSY, and the write is `writeStatus`. -/
theorem doneWriteOneToClear : Obligations.DoneWriteOneToClear := by
  intro s v ts hh
  rw [step_writeReg .status hh rfl (.inr rfl), writeReg, writeStatus_eq]

end Sys2Proof.Proofs
end

section
/-! Proofs about the independence of the range-decoder contexts (41_range_decoder.md R115): another content of a context that
a command does not work on goes through the command as it is. -/

namespace Sys2Proof.Machine

open Sys2Proof.Claim

variable (s : State) (c : Ctx) (x : RdCtx)

/-! ### Updates of the state leave a context alone -/

theorem State.setBr_setRd (b : BrRegs) : (s.setRd c x).setBr b = (s.setBr b).setRd c x := by cases c <;> rfl
theorem State.setMem_setRd (m : Memory) : (s.setRd c x).setMem m = (s.setMem m).setRd c x := by cases c <;> rfl
theorem State.setResult_setRd (v : Word) : (s.setRd c x).setResult v = (s.setResult v).setRd c x := by cases c <;> rfl
theorem State.setSlot_setRd (k : Nat) (y : Option HCode) : (s.setRd c x).setSlot k y = (s.setSlot k y).setRd c x := by
  cases c <;> rfl
theorem State.drawBr_setRd : (s.setRd c x).drawBr = s.drawBr.setRd c x := by cases c <;> rfl
theorem State.drawLengths_setRd (a n : Nat) : (s.setRd c x).drawLengths a n = (s.drawLengths a n).setRd c x := by
  cases c <;> rfl
theorem State.drawPixels_setRd (a n : Nat) : (s.setRd c x).drawPixels a n = (s.drawPixels a n).setRd c x := by
  cases c <;> rfl

variable {s c x}

/-- The contexts are two registers: writes of both come in either order. -/
theorem State.setRd_comm {k : Ctx} (hk : k ≠ c) (y : RdCtx) : (s.setRd c x).setRd k y = (s.setRd k y).setRd c x :=
  match c, k, hk with
  | .c0, .c1, _ => rfl
  | .c1, .c0, _ => rfl

theorem State.setRd_rd_other {k : Ctx} (hk : k ≠ c) : (s.setRd c x).rd k = s.rd k := by rw [State.setRd_rd, if_neg hk]

theorem State.drawRd_setRd {k : Ctx} (hk : k ≠ c) : (s.setRd c x).drawRd k = (s.drawRd k).setRd c x :=
  match c, k, hk with
  | .c0, .c1, _ => rfl
  | .c1, .c0, _ => rfl

/-! ### Operands and argument checks read no context -/

variable (s c x)

@[simp] theorem brStreamOk_setRd : brStreamOk (s.setRd c x) = brStreamOk s := by cases c <;> rfl
@[simp] theorem alphaOk_setRd : alphaOk (s.setRd c x) = alphaOk s := by cases c <;> rfl
@[simp] theorem lenArrayOk_setRd : lenArrayOk (s.setRd c x) = lenArrayOk s := by cases c <;> rfl
@[simp] theorem lenArray_setRd : lenArray (s.setRd c x) = lenArray s := by cases c <;> rfl
@[simp] theorem xfCoefOk_setRd : xfCoefOk (s.setRd c x) = xfCoefOk s := by cases c <;> rfl
@[simp] theorem xfCoefs_setRd : xfCoefs (s.setRd c x) = xfCoefs s := by cases c <;> rfl
@[simp] theorem xfPixAddr_setRd : xfPixAddr (s.setRd c x) = xfPixAddr s := by cases c <;> rfl
@[simp] theorem xfPixOk_setRd : xfPixOk (s.setRd c x) = xfPixOk s := by cases c <;> rfl
@[simp] theorem xfOutOk_setRd : xfOutOk (s.setRd c x) = xfOutOk s := by cases c <;> rfl
@[simp] theorem xfWhtOutOk_setRd : xfWhtOutOk (s.setRd c x) = xfWhtOutOk s := by cases c <;> rfl
@[simp] theorem cvArgsOk_setRd : cvArgsOk (s.setRd c x) = cvArgsOk s := by cases c <;> rfl
@[simp] theorem pxArgsOk_setRd : pxArgsOk (s.setRd c x) = pxArgsOk s := by cases c <;> rfl
@[simp] theorem pxStart_setRd : pxStart (s.setRd c x) = pxStart s := by cases c <;> rfl

/-! ### Endings -/

/-- The outcome `r` with the content `x` of context `c` in its next state. -/
def Res.setRd (c : Ctx) (x : RdCtx) : Res → Res
  | .next t => .next (t.setRd c x)
  | .fault r => .fault r
  | .refused r => .refused r

theorem succeed_setRd : succeed (s.setRd c x) = Res.setRd c x (succeed s) := by cases c <;> rfl

theorem failed_setRd (op : Byte) (e : ErrKind) : failed op e (s.setRd c x) = Res.setRd c x (failed op e s) := by
  cases c <;> rfl

variable {s c x}

theorem withChecks_setRd {op : Byte} {ok : Bool} {run run' : Res} (h : run' = Res.setRd c x run) :
    withChecks op ok (s.setRd c x) run' = Res.setRd c x (withChecks op ok s run) := by
  cases ok
  · exact failed_setRd s c x op _
  · exact h

/-! ### Commands on the other context, and commands on none -/

/-- A read through context `k`, where the read itself is of `k` alone. -/
theorem rdCommand_setRd {k : Ctx} (hk : k ≠ c) (op : Byte) (read : RdCtx → Except ErrKind (Word × RdCtx)) :
    rdCommand op k (s.setRd c x) read = Res.setRd c x (rdCommand op k s read) := by
  simp only [rdCommand, State.setRd_rd_other hk]
  refine withChecks_setRd ?_
  cases read (s.rd k) with
  | error e => simp only [State.drawRd_setRd hk, failed_setRd]
  | ok vy => simp only [State.setRd_comm hk, State.setResult_setRd, succeed_setRd]

theorem execRdInit_setRd {k : Ctx} (hk : k ≠ c) : execRdInit k (s.setRd c x) = Res.setRd c x (execRdInit k s) := by
  simp only [execRdInit, rdEndOk, State.setRd_rd_other hk, State.setRd_params, State.setRd_mem]
  refine withChecks_setRd ?_
  cases rdLoad s.params s.mem { s.rd k with valid := false } with
  | error e => simp only [State.setRd_comm hk, State.drawRd_setRd hk, failed_setRd]
  | ok y => simp only [State.setRd_comm hk, succeed_setRd]

/-- A command on context `k` does the same whatever the other context `c` holds. -/
theorem exec_setRd_of_ctxUsed {i : Instr} {k : Ctx} (hi : ctxUsed i = some k) (hk : k ≠ c) :
    exec i (s.setRd c x) = Res.setRd c x (exec i s) := by
  cases i <;> cases hi
  case rdInit => exact execRdInit_setRd hk
  all_goals
    simp only [exec, execRdBool, execRdUint, execRdSint, execRdTree, State.setRd_params, State.setRd_mem,
      State.setRd_rdTreeAddr, State.setRd_rdProbAddr]
    exact rdCommand_setRd hk _ _

theorem execBrSkip_setRd (n : Nat) : execBrSkip n (s.setRd c x) = Res.setRd c x (execBrSkip n s) := by
  simp only [execBrSkip, brStreamOk_setRd, State.setRd_mem, State.setRd_br]
  refine withChecks_setRd ?_
  cases brSkip s.mem n s.br with
  | error e => simp only [State.drawBr_setRd, failed_setRd]
  | ok b => simp only [State.setBr_setRd, succeed_setRd]

theorem execBrRead_setRd (n : Nat) : execBrRead n (s.setRd c x) = Res.setRd c x (execBrRead n s) := by
  simp only [execBrRead, brStreamOk_setRd, State.setRd_mem, State.setRd_br]
  refine withChecks_setRd ?_
  cases brRead s.mem n s.br with
  | error e => simp only [State.drawBr_setRd, failed_setRd]
  | ok vb => simp only [State.setBr_setRd, State.setResult_setRd, succeed_setRd]

theorem execHfBuild_setRd (k : Nat) : execHfBuild k (s.setRd c x) = Res.setRd c x (execHfBuild k s) := by
  simp only [execHfBuild, alphaOk_setRd, lenArrayOk_setRd, lenArray_setRd, State.setSlot_setRd]
  refine withChecks_setRd ?_
  split
  · exact succeed_setRd _ c x
  · exact failed_setRd _ c x _ _

theorem execHfDecode_setRd (k : Nat) : execHfDecode k (s.setRd c x) = Res.setRd c x (execHfDecode k s) := by
  simp only [execHfDecode, State.setRd_slot, brStreamOk_setRd, State.setRd_mem, State.setRd_br]
  refine withChecks_setRd ?_
  cases hfDecode ((s.slot k).getD []) s.mem s.br with
  | error e => simp only [State.drawBr_setRd, failed_setRd]
  | ok vb => simp only [State.setBr_setRd, State.setResult_setRd, succeed_setRd]

theorem execHfReadLengths_setRd : execHfReadLengths (s.setRd c x) = Res.setRd c x (execHfReadLengths s) := by
  simp only [execHfReadLengths, alphaOk_setRd, lenArrayOk_setRd, brStreamOk_setRd, State.setRd_mem, State.setRd_br,
    State.setRd_hf, State.drawLengths_setRd]
  refine withChecks_setRd ?_
  cases readLengthList s.mem s.hf.alpha.toNat s.br with
  | error e => exact failed_setRd _ c x _ _
  | ok lcb => cases c <;> rfl

theorem execPxDecode_setRd : execPxDecode (s.setRd c x) = Res.setRd c x (execPxDecode s) := by
  simp only [execPxDecode, pxArgsOk_setRd, pxStart_setRd, State.setRd_px, State.setRd_slots, State.drawPixels_setRd]
  refine withChecks_setRd ?_
  cases pxLoop s.px s.slots (s.px.width.toNat * s.px.height.toNat) (pxStart s) with
  | error e => exact failed_setRd _ c x _ _
  | ok r => cases c <;> rfl

/-- A command on no context does the same whatever context `c` holds. -/
theorem exec_setRd_of_ctxUsed_none {i : Instr} (hi : ctxUsed i = none) :
    exec i (s.setRd c x) = Res.setRd c x (exec i s) := by
  cases i <;> cases hi
  case nop => exact succeed_setRd s c x
  case brSkip n => exact execBrSkip_setRd n
  case brRead n => exact execBrRead_setRd n
  case hfBuild k => exact execHfBuild_setRd k
  case hfDecode k => exact execHfDecode_setRd k
  case hfReadLengths => exact execHfReadLengths_setRd
  case pxDecode => exact execPxDecode_setRd
  -- The commands that succeed whenever their argument checks pass.
  case brPeek | xfIdctAdd | xfIdct | xfIwht | cvConvert | hfFree =>
    simp only [exec, execBrPeek, execXfIdctAdd, execXfIdct, execXfIwht, execCvConvert, execHfFree, brStreamOk_setRd,
      xfCoefOk_setRd, xfCoefs_setRd, xfPixOk_setRd, xfPixAddr_setRd, xfOutOk_setRd, xfWhtOutOk_setRd, cvArgsOk_setRd,
      State.setRd_params, State.setRd_mem, State.setRd_br, State.setRd_xf, State.setRd_cv, State.setBr_setRd,
      State.setResult_setRd, State.setMem_setRd, State.setSlot_setRd, succeed_setRd]
    exact withChecks_setRd rfl

theorem exec_setRd {i : Instr} (hi : ctxUsed i ≠ some c) : exec i (s.setRd c x) = Res.setRd c x (exec i s) := by
  cases hu : ctxUsed i with
  | none => exact exec_setRd_of_ctxUsed_none hu
  | some k => exact exec_setRd_of_ctxUsed hu fun hk => hi (hk ▸ hu)

end Sys2Proof.Machine

namespace Sys2Proof.Proofs

open Sys2Proof.Machine

/-- Settles O16: another content of a context that a command does not work on commutes with the command. -/
theorem contextsIndependent : Obligations.ContextsIndependent := by
  intro i s t c x hi h
  rw [exec_setRd hi, h]
  rfl

end Sys2Proof.Proofs
end

section
/-! Proofs about the interrupt line (60_exceptions.md R253): what is left of it without DONE, without a latched error, and
without an enable. -/

namespace Sys2Proof.Machine

variable {s : State}

theorem State.irq_iff (s : State) :
    s.irq = true ↔ (s.done = true ∧ s.doneIe = true) ∨ (s.err ≠ 0 ∧ s.errIe = true) := by
  rw [State.irq, Bool.or_eq_true, Bool.and_eq_true, Bool.and_eq_true, bne_iff_ne]

/-- Without DONE only a latched error can drive the line. -/
theorem State.irq_of_not_done (hd : s.done = false) : s.irq = (s.err != 0 && s.errIe) := by
  rw [State.irq, hd, Bool.false_and, Bool.false_or]

/-- With no error latched only DONE can drive the line. -/
theorem State.irq_of_no_error (he : s.err = 0) : s.irq = (s.done && s.doneIe) := by
  rw [State.irq, he, bne_self_eq_false, Bool.false_and, Bool.or_false]

theorem State.irq_of_not_enabled (hd : s.doneIe = false) (he : s.errIe = false) : s.irq = false := by
  rw [State.irq, hd, he, Bool.and_false, Bool.and_false, Bool.or_false]

theorem writeStatus_done {v : Word} (hv : v.getLsbD 1 = true) : s.writeStatus v = { s with done := false } :=
  if_pos hv

end Sys2Proof.Machine

namespace Sys2Proof.Proofs

open Sys2Proof.Machine

/-- Settles O57: a CMD write and a W1C leave DONE 0, CLEAR_ERR leaves ERR 0, and a 0 in IRQ_EN or a reset leaves both
enables 0. -/
theorem interruptLine : Obligations.InterruptLine := by
  refine ⟨State.irq_iff, fun s w v => ⟨?cmd, ?clearErr, ?doneW1C, ?irqEn, ?reset⟩⟩
  case cmd => exact State.irq_of_not_done (s := s.writeCmd w) rfl
  case clearErr => exact State.irq_of_no_error s.clearErr_err
  case doneW1C =>
    intro hv
    rw [writeStatus_done hv]
    exact State.irq_of_not_done (s := { s with done := false }) rfl
  case irqEn => exact State.irq_of_not_enabled rfl rfl
  case reset => exact State.irq_of_not_enabled rfl rfl

end Sys2Proof.Proofs
end

section
/-! Proofs about the encoder (30_encoding.md R87 to R92, R94, R97): a format has the fields it is made of, its word matches the
rows whose other fields are 0, and a word that matches a row is the format of its own fields. -/

namespace Sys2Proof.Machine

open Sys2Proof.Claim

/-! ### The formats as numbers (R87 to R90) -/

theorem formatR_toNat (p : Byte) (n : Nat) (c : Ctx) (op : Byte) :
    (formatR p n c op).toNat = 2 ^ 16 * p.toNat + 2 ^ 9 * (n % 32) + 2 ^ 8 * c.bit.toNat + op.toNat := by
  simp only [formatR, toNat_append_eq, BitVec.toNat_ofNat]
  omega

theorem formatH_toNat (t : Nat) (op : Byte) : (formatH t op).toNat = 2 ^ 20 * (t % 4096) + op.toNat := by
  simp only [formatH, toNat_append_eq, BitVec.toNat_ofNat]
  omega

/-- Format B is format R with the fields P8 and CTX 0. -/
theorem formatB_eq (n : Nat) (op : Byte) : formatB n op = formatR 0#8 n .c0 op := by
  apply BitVec.eq_of_toNat_eq
  simp only [formatB, formatR_toNat, toNat_append_eq, BitVec.toNat_ofNat, Ctx.bit]
  omega

/-- Format N is format R with every operand field 0. -/
theorem formatN_eq (op : Byte) : formatN op = formatR 0#8 0 .c0 op := by
  apply BitVec.eq_of_toNat_eq
  rw [formatN, toNat_append_eq, formatR_toNat]
  show 0 * 2 ^ 8 + op.toNat = 2 ^ 16 * 0 + 2 ^ 9 * (0 % 32) + 2 ^ 8 * 0 + op.toNat
  omega

theorem ctxBit_toNat (c : Ctx) : c.bit.toNat = if c = .c1 then 1 else 0 := by cases c <;> rfl

/-! ### The fields of a format (R91) -/

theorem ctxOf_formatR (p : Byte) (n : Nat) (c : Ctx) (op : Byte) : ctxOf (formatR p n c op) = c := by
  have hop := op.isLt
  have hbit : (formatR p n c op).toNat / 2 ^ 8 % 2 = if c = .c1 then 1 else 0 := by
    rw [formatR_toNat, ctxBit_toNat]
    split <;> omega
  rw [ctxOf, hbit]
  cases c <;> rfl

theorem nOf_formatR (p : Byte) {n : Nat} (hn : n < 32) (c : Ctx) (op : Byte) : nOf (formatR p n c op) = n := by
  have hop := op.isLt
  have hc := c.bit.isLt
  rw [nOf, formatR_toNat]
  omega

theorem p8Of_formatR (p : Byte) (n : Nat) (c : Ctx) (op : Byte) : p8Of (formatR p n c op) = p := by
  have hop := op.isLt
  have hc := c.bit.isLt
  have hp : (formatR p n c op).toNat / 2 ^ 16 = p.toNat := by
    rw [formatR_toNat]
    omega
  rw [p8Of, hp, BitVec.ofNat_toNat, BitVec.setWidth_eq]

theorem slotOf_formatH {t : Nat} (ht : t < 4096) (op : Byte) : slotOf (formatH t op) = t := by
  have hop := op.isLt
  rw [slotOf, formatH_toNat]
  omega

/-! ### A format matches the rows that leave its operands open (R92) -/

/-- AND field by field, for the six fields of format R and any widths. -/
theorem append_and_append {a b c d e f : Nat} (u u' : BitVec a) (v v' : BitVec b) (w w' : BitVec c) (x x' : BitVec d)
    (y y' : BitVec e) (z z' : BitVec f) :
    u ++ v ++ w ++ x ++ y ++ z &&& (u' ++ v' ++ w' ++ x' ++ y' ++ z') =
      (u &&& u') ++ (v &&& v') ++ (w &&& w') ++ (x &&& x') ++ (y &&& y') ++ (z &&& z') := by
  simp only [BitVec.and_append]

theorem formatR_zero (op : Byte) : formatR 0#8 0 .c0 op = op.setWidth 32 := by
  apply BitVec.eq_of_toNat_eq
  have hop := op.isLt
  simp only [formatR_toNat, Ctx.bit, BitVec.toNat_ofNat, BitVec.toNat_setWidth]
  omega

/-- A word of format R matches a mask under which its operand fields are 0. -/
theorem formatR_matches {p : Byte} (mp : Byte) {n : Nat} (mn : BitVec 5) {c : Ctx} (mc : BitVec 1) (op : Byte)
    (hp : p &&& mp = 0#8) (hn : BitVec.ofNat 5 n &&& mn = 0#5) (hc : c.bit &&& mc = 0#1) :
    formatR p n c op &&& (0xFF#8 ++ mp ++ 3#2 ++ mn ++ mc ++ 0xFF#8 : Word) = op.setWidth 32 := by
  have hop : op &&& 0xFF#8 = op := BitVec.and_allOnes
  refine (append_and_append 0#8 0xFF#8 p mp 0#2 3#2 (BitVec.ofNat 5 n) mn c.bit mc op 0xFF#8).trans ?_
  rw [hp, hn, hc, hop, ← formatR_zero]
  rfl

/-- A word of format H matches the mask that leaves SLOT open. -/
theorem formatH_matches (t : Nat) (op : Byte) : formatH t op &&& 0x000FFFFF#32 = op.setWidth 32 := by
  have hop : op &&& 0xFF#8 = op := BitVec.and_allOnes
  have h : (BitVec.ofNat 12 t ++ 0#12 ++ op) &&& (0#12 ++ 0xFFF#12 ++ 0xFF#8) =
      (BitVec.ofNat 12 t &&& 0#12) ++ (0#12 &&& 0xFFF#12) ++ (op &&& 0xFF#8) := by
    simp only [BitVec.and_append]
  refine h.trans ?_
  rw [BitVec.and_zero, BitVec.zero_and, hop, ← formatR_zero, ← formatN_eq]
  rfl

/-- A command without operands has its OP as its word. -/
theorem formatN_matches (op : Byte) : formatN op &&& 0xFFFFFFFF#32 = op.setWidth 32 := by
  rw [formatN_eq, formatR_zero]
  exact BitVec.and_allOnes

theorem formatB_matches (n : Nat) (op : Byte) : formatB n op &&& 0xFFFFC1FF#32 = op.setWidth 32 := by
  rw [formatB_eq]
  exact formatR_matches 0xFF#8 0#5 1#1 op rfl BitVec.and_zero rfl

/-- The word of a well-formed command matches the row of R92, with its own operands. -/
theorem rowOf_encode {i : Instr} (hi : i.WellFormed = true) : RowOf (encode i) i := by
  cases i with
  | nop => exact formatN_matches _
  | rdInit c => exact ⟨formatR_matches 0xFF#8 31#5 0#1 _ rfl rfl BitVec.and_zero, (ctxOf_formatR ..).symm⟩
  | rdBool c p | rdTree c p =>
    exact ⟨formatR_matches 0#8 31#5 0#1 _ BitVec.and_zero rfl BitVec.and_zero, (ctxOf_formatR ..).symm,
      (p8Of_formatR ..).symm⟩
  | rdUint c n | rdSint c n =>
    exact ⟨formatR_matches 0xFF#8 0#5 0#1 _ rfl BitVec.and_zero BitVec.and_zero, (ctxOf_formatR ..).symm,
      (nOf_formatR _ (of_decide_eq_true hi) ..).symm⟩
  | brPeek n | brSkip n | brRead n =>
    refine ⟨formatB_matches n _, ?_⟩
    rw [encode, formatB_eq, nOf_formatR _ (of_decide_eq_true hi)]
  | xfIdctAdd | xfIdct | xfIwht | cvConvert | hfReadLengths | pxDecode => exact formatN_matches _
  | hfBuild t | hfDecode t | hfFree t => exact ⟨formatH_matches t _, (slotOf_formatH (of_decide_eq_true hi) _).symm⟩

/-! ### A word that matches a row is the format of its own fields (R94) -/

/-- A field above OP that the mask holds is 0 in a word that matches. -/
theorem zeroField_of_match {w mask : Word} {op : Byte} {a n : Nat} (hm : w &&& mask = op.setWidth 32)
    (hmask : mask.extractLsb' a n = BitVec.allOnes n) (ha : 8 ≤ a) : w.toNat / 2 ^ a % 2 ^ n = 0 := by
  have hfield : w.extractLsb' a n = (op.setWidth 32).extractLsb' a n := by
    rw [← hm, BitVec.extractLsb'_and, hmask, BitVec.and_allOnes]
  have hop : op.toNat / 2 ^ a = 0 := Nat.div_eq_of_lt (Nat.lt_of_lt_of_le op.isLt (Nat.pow_le_pow_right (by decide) ha))
  have hnum := congrArg BitVec.toNat hfield
  rwa [BitVec.extractLsb'_toNat, BitVec.extractLsb'_toNat, BitVec.toNat_setWidth, Nat.shiftRight_eq_div_pow,
    Nat.shiftRight_eq_div_pow, Nat.mod_eq_of_lt (Nat.lt_trans op.isLt (by decide)), hop, Nat.zero_mod] at hnum

theorem op_of_match {w mask : Word} {op : Byte} (hm : w &&& mask = op.setWidth 32)
    (hmask : mask.extractLsb' 0 8 = 255#8) : w.toNat % 2 ^ 8 = op.toNat := by
  rw [← opField_of_match hmask hm, opField_eq, BitVec.toNat_ofNat]

/-- Format R over a word's own fields, those that the mask holds being 0, gives the word. -/
theorem formatR_of_match {w mask : Word} {op p : Byte} {n : Nat} {c : Ctx} (hm : w &&& mask = op.setWidth 32)
    (hmask : mask.extractLsb' 0 8 = 255#8 ∧ mask.extractLsb' 14 2 = 3#2 ∧ mask.extractLsb' 24 8 = 255#8)
    (hp : p = p8Of w ∨ mask.extractLsb' 16 8 = 255#8 ∧ p = 0#8)
    (hn : n = nOf w ∨ mask.extractLsb' 9 5 = 31#5 ∧ n = 0)
    (hc : c = ctxOf w ∨ mask.extractLsb' 8 1 = 1#1 ∧ c = .c0) : formatR p n c op = w := by
  obtain ⟨hlow, hmid, hhigh⟩ := hmask
  have hw := w.isLt
  have hop := op_of_match hm hlow
  have hz14 := zeroField_of_match hm hmid (by decide)
  have hz24 := zeroField_of_match hm hhigh (by decide)
  have hpv : p.toNat = w.toNat / 2 ^ 16 % 2 ^ 8 := by
    obtain rfl | ⟨h, rfl⟩ := hp
    · exact BitVec.toNat_ofNat ..
    · exact (zeroField_of_match hm h (by decide)).symm
  have hnv : n = w.toNat / 2 ^ 9 % 2 ^ 5 := by
    obtain rfl | ⟨h, rfl⟩ := hn
    · rfl
    · exact (zeroField_of_match hm h (by decide)).symm
  have hcv : c.bit.toNat = w.toNat / 2 ^ 8 % 2 := by
    obtain rfl | ⟨h, rfl⟩ := hc
    · unfold ctxOf
      split
      · exact Eq.symm ‹_›
      · exact ((Nat.mod_two_eq_zero_or_one _).resolve_right ‹_›).symm
    · exact (zeroField_of_match hm h (by decide)).symm
  apply BitVec.eq_of_toNat_eq
  rw [formatR_toNat, hpv, hnv, hcv]
  omega

theorem formatH_of_match {w : Word} {op : Byte} (hm : w &&& 0x000FFFFF#32 = op.setWidth 32) :
    formatH (slotOf w) op = w := by
  have hw := w.isLt
  have hop := op_of_match hm rfl
  have hz := zeroField_of_match (a := 8) (n := 12) hm rfl (by decide)
  apply BitVec.eq_of_toNat_eq
  rw [formatH_toNat, slotOf]
  omega

theorem formatB_of_match {w : Word} {op : Byte} (hm : w &&& 0xFFFFC1FF#32 = op.setWidth 32) : formatB (nOf w) op = w := by
  rw [formatB_eq]
  exact formatR_of_match hm ⟨rfl, rfl, rfl⟩ (.inr ⟨rfl, rfl⟩) (.inl rfl) (.inr ⟨rfl, rfl⟩)

theorem formatN_of_match {w : Word} {op : Byte} (hm : w &&& 0xFFFFFFFF#32 = op.setWidth 32) : formatN op = w := by
  rw [formatN_eq, formatR_zero, ← hm]
  exact BitVec.and_allOnes

theorem nOf_lt (w : Word) : nOf w < 32 := Nat.mod_lt _ (by decide)

theorem slotOf_lt (w : Word) : slotOf w < 4096 := Nat.div_lt_of_lt_mul w.isLt

/-- A word that a row of R92 matches is the word of the row's command, which is well formed. -/
theorem encode_of_rowOf {w : Word} {i : Instr} (h : RowOf w i) : encode i = w ∧ i.WellFormed = true := by
  cases i with
  | nop | xfIdctAdd | xfIdct | xfIwht | cvConvert | hfReadLengths | pxDecode => exact ⟨formatN_of_match h, rfl⟩
  | rdInit c =>
    obtain ⟨hm, hc⟩ := h
    exact ⟨formatR_of_match hm ⟨rfl, rfl, rfl⟩ (.inr ⟨rfl, rfl⟩) (.inr ⟨rfl, rfl⟩) (.inl hc), rfl⟩
  | rdBool c p | rdTree c p =>
    obtain ⟨hm, hc, hp⟩ := h
    exact ⟨formatR_of_match hm ⟨rfl, rfl, rfl⟩ (.inl hp) (.inr ⟨rfl, rfl⟩) (.inl hc), rfl⟩
  | rdUint c n | rdSint c n =>
    obtain ⟨hm, hc, rfl⟩ := h
    exact ⟨formatR_of_match hm ⟨rfl, rfl, rfl⟩ (.inr ⟨rfl, rfl⟩) (.inl rfl) (.inl hc), decide_eq_true (nOf_lt w)⟩
  | brPeek n | brSkip n | brRead n =>
    obtain ⟨hm, rfl⟩ := h
    exact ⟨formatB_of_match hm, decide_eq_true (nOf_lt w)⟩
  | hfBuild t | hfDecode t | hfFree t =>
    obtain ⟨hm, rfl⟩ := h
    exact ⟨formatH_of_match hm, decide_eq_true (slotOf_lt w)⟩

end Sys2Proof.Machine

namespace Sys2Proof.Proofs

open Sys2Proof.Machine

/-- Settles O1: the word of a well-formed command matches the row of the command, with its operands. -/
theorem decodeEncode : Obligations.DecodeEncode :=
  fun i hi => (decode_ok_iff_rowOf (encode i) i).2 (rowOf_encode hi)

/-- Settles O2: a word that matches a row is laid out from the row's OP and its own operand fields alone. -/
theorem encodeDecode : Obligations.EncodeDecode :=
  fun w i h => encode_of_rowOf ((decode_ok_iff_rowOf w i).1 h)

/-- Settles O4: each word decodes by evaluation. -/
theorem specWords : Obligations.SpecWords := ⟨rfl, rfl, rfl, rfl, rfl, rfl, rfl, rfl⟩

end Sys2Proof.Proofs
end

section
/-! Proofs about the invariant (`State.Inv`): its part on memory and stores is kept by every update a command makes, a command
ends with a legal error code, and a host turn keeps it; it holds after every reset. -/

namespace Sys2Proof.Machine

open Sys2Proof.Claim

/-! ### The part of the invariant that is about memory and stores -/

/-- The invariant without its clauses on ERR, ERR_OP, BUSY and DONE, which the end of a command sets (`State.Inv.stores`,
`StoresOk.complete`, `StoresOk.raiseError`). -/
structure StoresOk (s : State) : Prop where
  mem     : Memory.Good s.params.dmemSize s.mem
  cacheWf : Sparse.Canonical 0#32 s.cache
  cacheIn : ∀ c ∈ s.cache, c.1 < Config.cacheSize
  slotsWf : Sparse.Canonical none s.slots
  slotsIn : ∀ c ∈ s.slots, c.1 < Config.htSlots
  slotsOk : ∀ t l, s.slot t = some l → CodeOk l
  rdStop  : ∀ c, (s.rd c).StopOk s.params

variable {s t : State}

theorem State.Inv.stores (h : s.Inv) : StoresOk s :=
  ⟨⟨h.memWf, h.memIn⟩, h.cacheWf, h.cacheIn, h.slotsWf, h.slotsIn, h.slotsOk, h.rdStop⟩

/-- A command that succeeds ends in the invariant, since the block is idle then. -/
theorem StoresOk.complete (h : StoresOk t) (hs : s.Inv) (herr : t.err = s.err) (hop : t.errOp = s.errOp) :
    t.complete.Inv :=
  { memWf := h.mem.1, memIn := h.mem.2, cacheWf := h.cacheWf, cacheIn := h.cacheIn, slotsWf := h.slotsWf,
    slotsIn := h.slotsIn, slotsOk := h.slotsOk, errCode := herr.symm ▸ hs.errCode,
    errOpZero := fun he => hop.trans (hs.errOpZero (herr.symm.trans he)), busyDone := nofun, rdStop := h.rdStop }

theorem code_legal (e : ErrKind) : e.code = 1 ∨ e.code = 2 ∨ e.code = 4 ∨ e.code = 5 := by cases e <;> decide

theorem code_ne_zero (e : ErrKind) : e.code ≠ 0 := by cases e <;> decide

/-- A command that raises ends in the invariant, whichever error it raises. -/
theorem StoresOk.raiseError (h : StoresOk t) (op : Byte) (e : ErrKind) : (t.raiseError op e).Inv :=
  { memWf := h.mem.1, memIn := h.mem.2, cacheWf := h.cacheWf, cacheIn := h.cacheIn, slotsWf := h.slotsWf,
    slotsIn := h.slotsIn, slotsOk := h.slotsOk, errCode := .inr (code_legal e),
    errOpZero := fun he => absurd he (code_ne_zero e), busyDone := nofun, rdStop := h.rdStop }

/-! ### The updates of a command -/

theorem StoresOk.setRd (h : StoresOk s) {c : Ctx} {x : RdCtx} (hx : x.StopOk s.params) : StoresOk (s.setRd c x) where
  mem := by simpa only [State.setRd_params, State.setRd_mem] using h.mem
  cacheWf := by simpa only [State.setRd_cache] using h.cacheWf
  cacheIn := by simpa only [State.setRd_cache] using h.cacheIn
  slotsWf := by simpa only [State.setRd_slots] using h.slotsWf
  slotsIn := by simpa only [State.setRd_slots] using h.slotsIn
  slotsOk := by simpa only [State.setRd_slot] using h.slotsOk
  rdStop k := by
    rw [State.setRd_rd, State.setRd_params]
    split
    · exact hx
    · exact h.rdStop k

theorem StoresOk.setBr (h : StoresOk s) (b : BrRegs) : StoresOk (s.setBr b) := { h with }

theorem StoresOk.setResult (h : StoresOk s) (v : Word) : StoresOk (s.setResult v) := { h with }

theorem StoresOk.countDraw (h : StoresOk s) : StoresOk s.countDraw := { h with }

theorem StoresOk.setMem (h : StoresOk s) {m : Memory} (hm : Memory.Good s.params.dmemSize m) : StoresOk (s.setMem m) :=
  { h with mem := hm }

theorem StoresOk.setSlot (h : StoresOk s) {k : Nat} {y : Option HCode} (hk : k < 1280) (hy : ∀ l, y = some l → CodeOk l) :
    StoresOk (s.setSlot k y) :=
  { h with
    slotsWf := Sparse.set_canonical h.slotsWf k y
    slotsIn := Sparse.set_below h.slotsIn hk y
    slotsOk := fun t l hl => by
      rw [State.setSlot_slot h.slotsWf] at hl
      split at hl
      · exact hy l hl
      · exact h.slotsOk t l hl }

theorem StoresOk.drawRd (h : StoresOk s) (c : Ctx) : StoresOk (s.drawRd c) := by
  unfold State.drawRd
  refine (h.setRd ?_).countDraw
  exact h.rdStop c

theorem StoresOk.drawBr (h : StoresOk s) : StoresOk s.drawBr := (h.setBr _).countDraw

theorem StoresOk.drawLengths (h : StoresOk s) {a n : Nat} (han : a + n ≤ s.params.dmemSize) :
    StoresOk (s.drawLengths a n) :=
  { h with mem := memDrawn_good h.mem han }

theorem StoresOk.drawPixels (h : StoresOk s) {a n : Nat} (han : a + n ≤ s.params.dmemSize) :
    StoresOk (s.drawPixels a n) :=
  { h with
    mem := memDrawn_good h.mem han
    cacheWf := cacheDrawn_canonical h.cacheWf _ _
    cacheIn := cacheDrawn_below h.cacheIn (Nat.le_refl _) _ }

/-! ### Commands -/

/-- A command that raises only in its argument checks. -/
theorem inv_of_checks {ok : Bool} {op : Byte} {u : State} (hs : s.Inv)
    (h : (ok = false ∧ t = s.raiseError op .invalidArgument) ∨ (ok = true ∧ t = u.complete))
    (hu : ok = true → StoresOk u) (herr : u.err = s.err) (hop : u.errOp = s.errOp) : t.Inv := by
  obtain ⟨-, rfl⟩ | ⟨hok, rfl⟩ := h
  · exact hs.stores.raiseError _ _
  · exact (hu hok).complete hs herr hop

theorem rdRead_keeps_inv {i : Instr} {c : Ctx} (hs : s.Inv) (hi : RdRead i c) (h : exec i s = .next t) : t.Inv := by
  obtain ⟨read, hread, -, hkeeps⟩ := exec_rdRead hi h
  obtain ⟨-, rfl⟩ | ⟨-, ⟨e, -, rfl⟩ | ⟨v, x, hx, rfl⟩⟩ := rdCommand_cases hread
  · exact hs.stores.raiseError _ _
  · exact (hs.stores.drawRd c).raiseError _ _
  · have hstop : x.StopOk s.params := by
      refine hkeeps (fun x => x.StopOk s.params) (fun hx hb => ?_) (hs.rdStop c) hx
      obtain ⟨hstop, hvalid⟩ := rdBool_sameEnd hb
      rwa [RdCtx.StopOk, hstop, hvalid]
    exact ((hs.stores.setRd hstop).setResult v).complete hs (by simp) (by simp)

theorem execRdInit_keeps_inv {c : Ctx} (hs : s.Inv) (h : execRdInit c s = .next t) : t.Inv := by
  obtain ⟨-, rfl⟩ | ⟨hok, ⟨e, -, rfl⟩ | ⟨x, hx, rfl⟩⟩ := execRdInit_cases h
  · exact hs.stores.raiseError _ _
  · exact ((hs.stores.setRd (x := { s.rd c with valid := false }) nofun).drawRd c).raiseError _ _
  · refine (hs.stores.setRd (c := c) fun _ => ?_).complete hs (by simp) (by simp)
    rw [(rdLoad_keeps hx).1]
    exact rdInit_args.1 hok

theorem xfAddPixels_inside (hs : s.Inv) (hok : (xfCoefOk s && xfPixOk s) = true) (wrap : Bool) (c : List Int) :
    Memory.Good s.params.dmemSize (xfAddPixels (xfPixAddr s) 0 (idctCore wrap c) s.mem) := by
  obtain ⟨-, hpix⟩ := xfIdctAdd_args.1 hok
  refine xfAddPixels_good hs.stores.mem fun j _ hj => ?_
  rw [idctCore_length] at hj
  have hrow := row_le (y := j / 4) (n := 4) (stride := s.xf.pixStride.toNat) (by omega)
  unfold xfPixAddr
  omega

theorem xfIdct_inside (hs : s.Inv) (hok : (xfCoefOk s && xfOutOk s) = true) (wrap : Bool) (c : List Int) :
    Memory.Good s.params.dmemSize
      (xfStoreHalves (fun i => s.xf.outAddr.toNat + 2 * i) 0 (idctCore wrap c) s.mem) := by
  obtain ⟨-, -, hout⟩ := xfIdct_args.1 hok
  refine xfStoreHalves_good hs.stores.mem fun j _ hj => ?_
  rw [idctCore_length] at hj
  omega

theorem xfIwht_inside (hs : s.Inv) (hok : (xfCoefOk s && xfWhtOutOk s) = true) (wrap : Bool) (c : List Int) :
    Memory.Good s.params.dmemSize
      (xfStoreHalves (fun i => s.xf.outAddr.toNat + i * s.xf.outStride.toNat) 0 (iwhtCore wrap c) s.mem) := by
  obtain ⟨-, -, -, hout⟩ := xfIwht_args.1 hok
  refine xfStoreHalves_good hs.stores.mem fun j _ hj => ?_
  rw [iwhtCore_length] at hj
  have hrow := row_le (y := j) (n := 16) (stride := s.xf.outStride.toNat) (by omega)
  omega

theorem cvRows_inside (hs : s.Inv) (hok : cvArgsOk s = true) :
    Memory.Good s.params.dmemSize (cvRows s.cv s.cv.height.toNat s.mem) := by
  obtain ⟨⟨-, -, hh, -⟩, -, -, -, hdst⟩ := cv_args.1 hok
  exact cvRows_good hs.stores.mem hh hdst

theorem codeOk_lenArray (halpha : 1 ≤ s.hf.alpha.toNat ∧ s.hf.alpha.toNat ≤ 2328) (hv : lensValid (lenArray s) = true) :
    CodeOk (lenArray s) := by
  have hlen : (lenArray s).length = s.hf.alpha.toNat := by rw [lenArray, List.length_map, List.length_range]
  exact ⟨hv, hlen ▸ halpha.1, hlen ▸ halpha.2⟩

theorem execHfBuild_keeps_inv {k : Nat} (hs : s.Inv) (h : execHfBuild k s = .next t) : t.Inv := by
  obtain ⟨-, rfl⟩ | ⟨hok, hend⟩ := execHfBuild_cases h
  · exact hs.stores.raiseError _ _
  · obtain ⟨hk, halpha, -⟩ := hfBuild_args.1 hok
    obtain ⟨-, rfl⟩ | ⟨hv, rfl⟩ := hend
    · exact (hs.stores.setSlot (y := none) hk nofun).raiseError _ _
    · refine (hs.stores.setSlot hk fun l hl => ?_).complete hs rfl rfl
      cases hl
      exact codeOk_lenArray halpha hv

theorem execHfReadLengths_keeps_inv (hs : s.Inv) (h : execHfReadLengths s = .next t) : t.Inv := by
  obtain ⟨-, rfl⟩ | ⟨hok, hend⟩ := execHfReadLengths_cases h
  · exact hs.stores.raiseError _ _
  · obtain ⟨-, harray, -⟩ := hfReadLengths_args.1 hok
    obtain ⟨e, -, rfl⟩ | ⟨l, cl, b, hl, rfl⟩ := hend
    · exact (hs.stores.drawLengths harray).raiseError _ _
    · obtain ⟨hlen, -, -⟩ := readLengthList_ok (BrKept.ofStop s.mem s.br.stop) rfl hl
      have hm : Memory.Good s.params.dmemSize (memStoreList s.mem s.hf.lenAddr.toNat (l.map (BitVec.ofNat 8))) :=
        memStoreList_good hs.stores.mem (by rwa [List.length_map, hlen])
      exact StoresOk.complete (t := { s with mem := _, br := _, scratchCl := _ }) { hs.stores with mem := hm } hs rfl rfl

/-- What a PX_DECODE that succeeds leaves in DMEM and in the colour cache, and where it stands. -/
theorem pxLoop_start {r : PxRun}
    (h : pxLoop s.px s.slots (s.px.width.toNat * s.px.height.toNat) (pxStart s) = .ok r) :
    PxMoves s.px (pxStart s) r ∧ r.pos = s.px.width.toNat * s.px.height.toNat :=
  pxLoop_moves h (Nat.zero_le _) (Nat.le_add_left _ _)

theorem pxStart_cacheWf (h : Sparse.Canonical 0#32 s.cache) : Sparse.Canonical 0#32 (pxStart s).cache := by
  unfold pxStart
  dsimp only
  split
  · exact h
  · exact cacheClear_canonical h _

theorem pxStart_cacheIn {n : Nat} (h : ∀ e ∈ s.cache, e.1 < n) : ∀ e ∈ (pxStart s).cache, e.1 < n := by
  unfold pxStart
  dsimp only
  split
  · exact h
  · exact cacheClear_below h _

theorem execPxDecode_keeps_inv (hs : s.Inv) (h : execPxDecode s = .next t) : t.Inv := by
  obtain ⟨-, rfl⟩ | ⟨hok, hend⟩ := execPxDecode_cases h
  · exact hs.stores.raiseError _ _
  · obtain ⟨-, -, hcc, -, -, ⟨-, hdst⟩, -, -⟩ := px_args.1 hok
    rw [Nat.mul_assoc] at hdst
    obtain ⟨e, -, rfl⟩ | ⟨r, hr, rfl⟩ := hend
    · exact (hs.stores.drawPixels hdst).raiseError _ _
    · obtain ⟨hmoves, hpos⟩ := pxLoop_start hr
      have hstores : StoresOk { s with
          mem := r.mem, cache := r.cache, br := r.br,
          px := { s.px with pos := BitVec.ofNat 32 (s.px.width.toNat * s.px.height.toNat) },
          result := BitVec.ofNat 32 (s.px.width.toNat * s.px.height.toNat) } :=
        { hs.stores with
          mem := hmoves.memGood hs.stores.mem (hpos ▸ hdst)
          cacheWf := hmoves.cacheWf (pxStart_cacheWf hs.cacheWf)
          cacheIn := hmoves.cacheIn hcc (pxStart_cacheIn hs.cacheIn) }
      exact hstores.complete hs rfl rfl

/-- Every command keeps the invariant. -/
theorem exec_keeps_inv {i : Instr} (hs : s.Inv) (h : exec i s = .next t) : t.Inv := by
  have hst := hs.stores
  cases i with
  | nop =>
    cases h
    exact hst.complete hs rfl rfl
  | rdInit c => exact execRdInit_keeps_inv hs h
  | rdBool c p => exact rdRead_keeps_inv (i := .rdBool c p) hs ⟨rfl, nofun⟩ h
  | rdUint c n => exact rdRead_keeps_inv (i := .rdUint c n) hs ⟨rfl, nofun⟩ h
  | rdSint c n => exact rdRead_keeps_inv (i := .rdSint c n) hs ⟨rfl, nofun⟩ h
  | rdTree c p => exact rdRead_keeps_inv (i := .rdTree c p) hs ⟨rfl, nofun⟩ h
  | brPeek n => exact inv_of_checks hs (execBrPeek_cases h) (fun _ => (hst.setBr _).setResult _) rfl rfl
  | brSkip n =>
    obtain ⟨-, rfl⟩ | ⟨-, ⟨e, -, rfl⟩ | ⟨b, -, rfl⟩⟩ := execBrSkip_cases h
    · exact hst.raiseError _ _
    · exact hst.drawBr.raiseError _ _
    · exact (hst.setBr b).complete hs rfl rfl
  | brRead n =>
    obtain ⟨-, rfl⟩ | ⟨-, ⟨e, -, rfl⟩ | ⟨v, b, -, rfl⟩⟩ := execBrRead_cases h
    · exact hst.raiseError _ _
    · exact hst.drawBr.raiseError _ _
    · exact ((hst.setBr b).setResult _).complete hs rfl rfl
  | xfIdctAdd => exact inv_of_checks hs (execXfIdctAdd_cases h) (fun hok => hst.setMem (xfAddPixels_inside hs hok _ _)) rfl rfl
  | xfIdct => exact inv_of_checks hs (execXfIdct_cases h) (fun hok => hst.setMem (xfIdct_inside hs hok _ _)) rfl rfl
  | xfIwht => exact inv_of_checks hs (execXfIwht_cases h) (fun hok => hst.setMem (xfIwht_inside hs hok _ _)) rfl rfl
  | cvConvert => exact inv_of_checks hs (execCvConvert_cases h) (fun hok => hst.setMem (cvRows_inside hs hok)) rfl rfl
  | hfBuild k => exact execHfBuild_keeps_inv hs h
  | hfDecode k =>
    obtain ⟨-, rfl⟩ | ⟨-, ⟨e, -, rfl⟩ | ⟨v, b, -, rfl⟩⟩ := execHfDecode_cases h
    · exact hst.raiseError _ _
    · exact hst.drawBr.raiseError _ _
    · exact ((hst.setBr b).setResult _).complete hs rfl rfl
  | hfReadLengths => exact execHfReadLengths_keeps_inv hs h
  | hfFree k =>
    exact inv_of_checks hs (execHfFree_cases h) (fun hok => hst.setSlot (y := none) (slotIndexOk_iff.1 hok) nofun) rfl rfl
  | pxDecode => exact execPxDecode_keeps_inv hs h

/-- The sequencer's turn keeps the invariant, whether the pending word runs, is discarded or is rejected. -/
theorem sequencerTurn_keeps_inv (hs : s.Inv) (h : sequencerTurn exec s = .next t) : t.Inv := by
  cases hp : s.pending with
  | none =>
    rw [sequencerTurn, hp] at h
    cases h
    exact hs
  | some w =>
    rw [sequencerTurn_pending hp] at h
    by_cases he : s.err = 0
    · cases hd : decode w with
      | error e =>
        cases (execute_error (run := exec) he hd).symm.trans h
        exact hs.stores.raiseError _ .invalidArgument
      | ok i =>
        rw [execute, if_neg (not_not_intro he), hd] at h
        exact exec_keeps_inv hs h
    · cases (execute_latched w he).symm.trans h
      exact hs.stores.complete hs rfl rfl

/-! ### Resets -/

/-- The reset state meets the invariant whatever the parameters and whatever DMEM holds. -/
theorem resetWith_inv {p : Params} {m : Memory} (hm : Memory.Good p.dmemSize m) : (State.resetWith p m).Inv where
  memWf := hm.1
  memIn := hm.2
  cacheWf := ⟨.nil, nofun⟩
  cacheIn := nofun
  slotsWf := ⟨.nil, nofun⟩
  slotsIn := nofun
  slotsOk := nofun
  errCode := .inl rfl
  errOpZero _ := rfl
  busyDone := nofun
  rdStop c := by cases c <;> exact nofun

/-- The model's own fields are no part of the invariant. -/
theorem State.Inv.ownFields (h : s.Inv) (ts : List HostTurn) (d : Word) (k : Nat) :
    ({ s with host := ts, hostData := d, drawn := k } : State).Inv := { h with }

theorem softReset_inv (h : s.Inv) : s.softReset.Inv :=
  (resetWith_inv (memDrawnAll_good _ h.stores.mem abandonedRegions_inside)).ownFields _ _ _

theorem clearErr_inv (h : s.Inv) : s.clearErr.Inv := { h with errCode := .inl rfl, errOpZero := fun _ => rfl }

/-! ### The host's turns -/

theorem writeCtrl_inv (h : s.Inv) (v : Word) : (s.writeCtrl v).Inv := by
  unfold State.writeCtrl
  split
  · exact softReset_inv h
  · split
    · exact clearErr_inv h
    · exact h

theorem writeReg_inv (h : s.Inv) (v : Word) (r : Reg) : (writeReg s v r).Inv := by
  by_cases hr : r = .ctrl
  · subst hr
    exact writeCtrl_inv h v
  · obtain ⟨hmem, hcache, hslots, hparams, herr, hop, hpending, hdone, hrd⟩ := writeReg_keeps (s := s) v hr
    exact {
      memWf := hmem ▸ h.memWf
      memIn := by rw [hmem, hparams]; exact h.memIn
      cacheWf := hcache ▸ h.cacheWf
      cacheIn := hcache ▸ h.cacheIn
      slotsWf := hslots ▸ h.slotsWf
      slotsIn := hslots ▸ h.slotsIn
      slotsOk := fun t l => by rw [State.slot, hslots]; exact h.slotsOk t l
      errCode := herr ▸ h.errCode
      errOpZero := by rw [herr, hop]; exact h.errOpZero
      busyDone := fun hb => by
        cases hd : (writeReg s v r).done with
        | false => rfl
        | true =>
          obtain ⟨hsd, hcmd⟩ := hdone hd
          rw [State.busy, hpending hcmd] at hb
          exact absurd hsd (by rw [h.busyDone hb]; decide)
      rdStop := fun c hv => by
        obtain ⟨hsv, hstop⟩ := hrd c hv
        rw [hstop, hparams]
        exact h.rdStop c hsv }

/-- A host read of the window changes what the host gets and the count of free values. -/
theorem hostReadReg_next {off : BitVec 12} {w : AccessWidth} (h : hostReadReg off w s = .next t) :
    t = { s with hostData := t.hostData, drawn := t.drawn } := by
  unfold hostReadReg at h
  split at h
  · split at h
    · cases h; rfl
    · split at h <;> cases h <;> rfl
  · cases h

/-- A host read of DMEM changes what the host gets. -/
theorem hostReadMem_next {a : Word} {w : AccessWidth} (h : hostReadMem a w s = .next t) :
    t = { s with hostData := t.hostData } := by
  unfold hostReadMem at h
  split at h
  · cases h
  · split at h <;> cases h
    rfl

/-- A host write of the window is `writeReg`, or is ignored. -/
theorem hostWriteReg_next {off : BitVec 12} {w : AccessWidth} {v : Word} (h : hostWriteReg off w v s = .next t) :
    t = s ∨ ∃ r, t = writeReg s v r := by
  unfold hostWriteReg at h
  split at h
  · split at h
    · cases h
      exact .inl rfl
    · split at h <;> cases h
      exact .inr ⟨_, rfl⟩
  · cases h

theorem setMem_inv (h : s.Inv) {m : Memory} (hm : Memory.Good s.params.dmemSize m) : (s.setMem m).Inv :=
  { h with memWf := hm.1, memIn := hm.2 }

theorem hostWriteMem_keeps_inv {a : Word} {w : AccessWidth} {v : Word} (hs : s.Inv) (h : hostWriteMem a w v s = .next t) :
    t.Inv := by
  unfold hostWriteMem at h
  split at h
  · cases h
  · split at h <;> cases h
    rename_i hin
    have hm := hs.stores.mem
    have hin := inDmem_iff.1 hin
    cases w with
    | byte => exact setMem_inv hs (memStore_good hm hin _)
    | half => exact setMem_inv hs (memStore16_good hm hin _)
    | word => exact setMem_inv hs (memStore32_good hm hin _)

theorem takeTurn_keeps_inv (turn : HostTurn) (hs : s.Inv) (h : takeTurn exec turn s = .next t) : t.Inv := by
  cases turn with
  | wait => exact sequencerTurn_keeps_inv hs h
  | readReg off w =>
    rw [hostReadReg_next h]
    exact hs.ownFields _ _ _
  | writeReg off w v =>
    obtain rfl | ⟨r, rfl⟩ := hostWriteReg_next h
    · exact hs
    · exact writeReg_inv hs v r
  | readMem a w =>
    rw [hostReadMem_next h]
    exact hs.ownFields _ _ _
  | writeMem a w v => exact hostWriteMem_keeps_inv hs h

theorem step_keeps_inv (hs : s.Inv) (h : step s = .next t) : t.Inv := by
  cases hh : s.host with
  | nil =>
    rw [step, stepWith, hh] at h
    exact sequencerTurn_keeps_inv hs h
  | cons turn ts =>
    rw [step_host hh] at h
    exact takeTurn_keeps_inv turn (hs.ownFields ts _ _) h

end Sys2Proof.Machine

namespace Sys2Proof.Proofs

open Sys2Proof.Machine

/-- Settles O52: the commands and the host's turns each keep the invariant. -/
theorem stepKeepsInv : Obligations.StepKeepsInv := fun _ _ hs h => step_keeps_inv hs h

/-- Settles O51: the reset state meets the invariant over any DMEM content in canonical form, and the power-on list lays out
every such content. -/
theorem resetInv : Obligations.ResetInv :=
  ⟨fun _ _ hwf hin => ⟨resetWith_inv ⟨hwf, hin⟩, powerOnMem_any ⟨hwf, hin⟩ fun _ _ => Nat.zero_le _⟩,
    resetWith_inv (powerOnMem_good Config.powerOn 0).1⟩

end Sys2Proof.Proofs
end

section
/-! Proofs about the sequencer's turn (40_control.md R105 to R107; 60_exceptions.md R261, R262), resets (40_control.md R110;
70_reset_and_hazards.md R270 to R273) and the host's accesses (10_state.md R22 to R53; 20_memory.md R60 to R64). -/

namespace Sys2Proof.Machine

open Sys2Proof.Claim

variable {s t : State} {ts : List HostTurn}

/-! ### The sequencer's turn -/

theorem step_decoded {u : State} {w : Word} {i : Instr} (hu : s.seqTurn = some u) (hp : s.pending = some w)
    (he : s.err = 0) (hd : decode w = .ok i) : step s = exec i u := by
  rw [step_pending hu hp, execute, if_neg (not_not_intro ((seqTurn_err hu).trans he)), hd]

theorem sequencerTurn_idle {run : Instr → State → Res} (hp : s.pending = none) : sequencerTurn run s = .next s := by
  rw [sequencerTurn, hp]

theorem step_idle {u : State} (hu : s.seqTurn = some u) (hp : s.pending = none) : step s = .next u := by
  obtain ⟨hstep, ts, rfl⟩ := step_seqTurn hu
  exact hstep.trans (sequencerTurn_idle hp)

theorem sequencerTurn_next (s : State) : ∃ t, sequencerTurn exec s = .next t := by
  cases hp : s.pending with
  | none => exact ⟨s, sequencerTurn_idle hp⟩
  | some w =>
    obtain ⟨t, ht, -⟩ := execute_completes w s
    exact ⟨t, (sequencerTurn_pending hp).trans ht⟩

theorem tableWord_32 (w : Nat) : tableWord 32 w = BitVec.ofNat 32 w := by
  apply BitVec.eq_of_toNat_eq
  rw [tableWord, BitVec.toNat_ofNat, BitVec.toNat_ofNat, Nat.mod_mod]

theorem decode_of_table {w : Nat} {i : Instr} (h : decodeTableWord 32 w = some i) :
    decode (BitVec.ofNat 32 w) = .ok i := by
  rw [decodeTableWord, tableWord_32] at h
  cases hd : decode (BitVec.ofNat 32 w) <;> rw [hd] at h <;> cases h
  rfl

/-! ### Resets -/

/-- Every register reads its reset value of R50 after a reset. -/
theorem readReg_resetWith (p : Params) (m : Memory) (r : Reg) : readReg (State.resetWith p m) r = resetValue p r := by
  rw [readReg_shown]
  cases r with
  | rdPtr c | rdEnd c | rdValue c | rdRange c | rdState c => cases c <;> rfl
  | brAccHi => exact congrArg (BitVec.ofNat 32) (Nat.zero_div _)
  | _ => rfl

/-- The bytes that an abandoned command may have written are among those that its rule says it stores to. -/
theorem abandonedRegions_stores {a : Nat} (h : ∀ w i, s.pending = some w → decode w = .ok i → ¬ StoresTo s a i) :
    ∀ r ∈ abandonedRegions s, a < r.1 ∨ r.1 + r.2 ≤ a := by
  intro r hr
  unfold abandonedRegions at hr
  split at hr
  · cases hr
  · split at hr
    · cases hr
    · split at hr
      · cases hr
      · exact writtenRegions_stores _ (h _ _ ‹_› ‹_›) r hr

theorem abandonedRegions_idle (hp : s.pending = none) : abandonedRegions s = [] := by
  rw [abandonedRegions, hp]

/-- A write of 1 in bit 0 of CTRL is SOFT_RESET, whatever bit 1 is (R24, R110). -/
theorem writeCtrl_softReset {v : Word} (hv : v.toNat % 2 = 1) : s.writeCtrl v = s.softReset := by
  have h0 : v.getLsbD 0 = true := by rw [getLsbD_eq_decide, decide_eq_true_iff]; omega
  rw [State.writeCtrl, if_pos h0]

/-! ### A host write of a register -/

/-- AND with a mask of the `n` low bits. -/
theorem toNat_and_low (v : Word) {n : Nat} {mask : Word} (h : mask.toNat = 2 ^ n - 1) :
    (v &&& mask).toNat = v.toNat % 2 ^ n := by
  rw [BitVec.toNat_and, h, Nat.and_two_pow_sub_one_eq_mod]

theorem toNat_field (v : Word) (n : Nat) : (v.setWidth n).toNat = v.toNat % 2 ^ n := BitVec.toNat_setWidth ..

theorem toNat_and_all (v : Word) : (v &&& 0xFFFFFFFF#32).toNat = v.toNat := congrArg BitVec.toNat BitVec.and_allOnes

theorem ite_getLsbD (v : Word) (k : Nat) : (if v.getLsbD k then 1 else 0) = v.toNat / 2 ^ k % 2 := by
  simp only [getLsbD_eq_decide, decide_eq_true_eq]
  split
  · exact Eq.symm ‹_›
  · exact ((Nat.mod_two_eq_zero_or_one _).resolve_right ‹_›).symm

/-- One bit of a number, in its place. -/
theorem and_two_pow_eq (n i : Nat) : n &&& 2 ^ i = 2 ^ i * (n / 2 ^ i % 2) := by
  apply Nat.eq_of_testBit_eq
  intro j
  rw [Nat.testBit_and, Nat.testBit_two_pow, Nat.testBit_two_pow_mul]
  by_cases hj : i = j
  · subst hj
    rw [decide_eq_true rfl, decide_eq_true (Nat.le_refl i), Nat.sub_self, Bool.and_true, Bool.true_and, Nat.testBit_zero,
      Nat.mod_mod, Nat.testBit_eq_decide_div_mod_eq]
  · rw [decide_eq_false hj, Bool.and_false]
    by_cases hle : i ≤ j
    · rw [decide_eq_true (show j ≥ i from hle), Bool.true_and]
      refine (Nat.testBit_lt_two_pow (Nat.lt_of_lt_of_le (Nat.mod_lt _ (by decide)) ?_)).symm
      exact Nat.le_self_pow (show j - i ≠ 0 by omega) 2
    · rw [decide_eq_false (show ¬ j ≥ i from hle), Bool.false_and]

/-- The two fields of PX_HIMG_CTRL. -/
theorem toNat_and_himgCtrl (v : Word) : (v &&& 0x10F#32).toNat = v.toNat % 2 ^ 4 + 2 ^ 8 * (v.toNat / 2 ^ 8 % 2) := by
  have hlow : v.toNat % 2 ^ 4 < 2 ^ 8 := by omega
  rw [BitVec.toNat_and, show (0x10F#32).toNat = 2 ^ 8 ||| (2 ^ 4 - 1) from rfl, Nat.and_or_distrib_left,
    Nat.and_two_pow_sub_one_eq_mod, and_two_pow_eq, ← Nat.two_pow_add_eq_or_of_lt hlow, Nat.add_comm]

/-- A write of a read-write register stores the bits it has. -/
theorem writeReg_stored {v : Word} {r : Reg} {bits : Word} (h : rwBits r = some bits) :
    shownValue (writeReg s v r) r = (v &&& bits).toNat := by
  cases r <;> cases h
  case rdPtr c | rdEnd c => cases c <;> exact (toNat_and_all v).symm
  case irqEn =>
    change (if v.getLsbD 0 then 1 else 0) + 2 * (if v.getLsbD 1 then 1 else 0) = _
    rw [toNat_and_low v (n := 2) rfl, ite_getLsbD, ite_getLsbD]
    omega
  case pxHimgCtrl =>
    change (v.setWidth 4).toNat + 2 ^ 8 * (if v.getLsbD 8 then 1 else 0) = _
    rw [toNat_field, ite_getLsbD, toNat_and_himgCtrl]
  case cvMode =>
    change (if v.getLsbD 0 then 1 else 0) = _
    rw [toNat_and_low v (n := 1) rfl, ite_getLsbD]
    omega
  case hfAlpha | pxWidth | pxHeight | pxGroupBase | pxNumGroups | pxCcBits | cvWidth | cvHeight | cvKy | cvKrv | cvKgu
      | cvKgv | cvKbu | cvYoff | cvShift =>
    exact (toNat_field v _).trans (toNat_and_low v rfl).symm
  all_goals exact (toNat_and_all v).symm

/-- It changes no other register but those that its rule clears. -/
theorem writeReg_other {v : Word} {r r' : Reg} {bits : Word} (h : rwBits r = some bits) (hne : r' ≠ r)
    (hclear : r' ∉ alsoCleared r) : shownValue (writeReg s v r) r' = shownValue s r' := by
  cases r <;> cases h
  case rdPtr c | rdEnd c =>
    cases c <;> cases r' <;> try rfl
    all_goals
      rename_i c'
      cases c' <;> try rfl
    · exact absurd rfl hne
    · exact absurd (.head _) hclear
    · exact absurd rfl hne
    · exact absurd (.head _) hclear
  case brPtr =>
    cases r' <;> try rfl
    · exact absurd rfl hne
    all_goals exact absurd (by decide) hclear
  all_goals
    cases r' <;> try rfl
    exact absurd rfl hne


/-- A write of a read-write register changes register fields alone, and no field but those of its own engine or of IRQ_EN. -/
theorem writeReg_frame {v : Word} {r : Reg} {bits : Word} (h : rwBits r = some bits) :
    writeReg s v r = { s with
      doneIe := (writeReg s v r).doneIe, errIe := (writeReg s v r).errIe, rd0 := (writeReg s v r).rd0,
      rd1 := (writeReg s v r).rd1, rdTreeAddr := (writeReg s v r).rdTreeAddr, rdProbAddr := (writeReg s v r).rdProbAddr,
      xf := (writeReg s v r).xf, br := (writeReg s v r).br, hf := (writeReg s v r).hf, px := (writeReg s v r).px,
      cv := (writeReg s v r).cv } := by
  cases r <;> cases h
  case rdPtr c | rdEnd c => cases c <;> rfl
  all_goals rfl

theorem writeReg_readOnly {v : Word} {r : Reg} (h : readOnly r = true) : writeReg s v r = s := by
  cases r <;> cases h <;> rfl

theorem regAt_offsetOf (r : Reg) : regAt (offsetOf r) = some r := regAt_iff.2 rfl

/-! ### Accesses of the window -/

theorem windowAccessOk_word {off : BitVec 12} (h : off.toNat % 4 = 0) : windowAccessOk off .word = true :=
  windowAccessOk_iff.2 ⟨rfl, h⟩

theorem step_readReg {r : Reg} (hh : s.host = .readReg (offsetOf r) .word :: ts) (hr : s.pending = none ∨ r = .status) :
    step s = .next { s with host := ts, hostData := BitVec.ofNat 32 (shownValue s r) } := by
  have hreg := regAt_offsetOf r
  have hshown : readReg { s with host := ts } r = BitVec.ofNat 32 (shownValue s r) := readReg_shown { s with host := ts } r
  rw [step_host hh, takeTurn, hostReadReg, if_pos (regAt_aligned hreg), hreg]
  dsimp only
  rw [if_neg, hshown]
  rw [Bool.and_eq_true, bne_iff_ne]
  rintro ⟨hbusy, hne⟩
  exact hne (hr.resolve_left (busy_iff.1 hbusy))

theorem step_unlisted {off : BitVec 12} (ha : off.toNat % 4 = 0) (hoff : ∀ r, off ≠ offsetOf r) :
    (s.host = .readReg off .word :: ts → step s = .next { s with host := ts, hostData := 0 }) ∧
      ∀ v, s.host = .writeReg off .word v :: ts → step s = .next { s with host := ts } := by
  refine ⟨fun hh => ?_, fun v hh => ?_⟩
  · rw [step_host hh, takeTurn, hostReadReg, if_pos (windowAccessOk_word ha), regAt_none hoff]
  · rw [step_host hh, takeTurn, hostWriteReg, if_pos (windowAccessOk_word ha), regAt_none hoff]

/-! ### Accesses of DMEM -/

theorem lt_four {k : Nat} (hk : k < 4) : k = 0 ∨ k = 1 ∨ k = 2 ∨ k = 3 := by omega

theorem memWord_byte (m : Memory) (a : Nat) {k : Nat} (hk : k < 4) :
    (memWord m a).extractLsb' (8 * k) 8 = memByte m (a + k) := by
  have h0 := (memByte m a).isLt
  have h1 := (memByte m (a + 1)).isLt
  have h2 := (memByte m (a + 2)).isLt
  have h3 := (memByte m (a + 3)).isLt
  apply BitVec.eq_of_toNat_eq
  rw [BitVec.extractLsb'_toNat, Nat.shiftRight_eq_div_pow]
  simp only [memWord, toNat_append_eq]
  obtain rfl | rfl | rfl | rfl := lt_four hk
  · rw [Nat.mul_zero, Nat.pow_zero, Nat.div_one, show a + 0 = a from rfl]
    omega
  all_goals omega

/-- A word store, byte by byte. -/
theorem memByte_store32 {m : Memory} (hm : Memory.wf m) (a : Nat) (v : Word) (j : Nat) :
    memByte (memStore32 m a v) j = if a ≤ j ∧ j < a + 4 then v.extractLsb' (8 * (j - a)) 8 else memByte m j := by
  split
  next hj =>
    have hbyte := memWord_byte (memStore32 m a v) a (k := j - a) (by omega)
    rwa [memWord_store32 hm, Nat.add_sub_cancel' hj.1, eq_comm] at hbyte
  next hj => exact memByte_store32_outside hm a v (by omega)

/-- What a host write of `w` stores (R64), which `hostWriteMem_ok` ties to the model. -/
def hostStored (m : Memory) (a : Nat) (v : Word) : AccessWidth → Memory
  | .byte => memStore m a (v.extractLsb' 0 8)
  | .half => memStore16 m a (v.extractLsb' 0 16)
  | .word => memStore32 m a v

theorem memByte_hostStored {m : Memory} (hm : Memory.wf m) (a : Nat) (v : Word) (w : AccessWidth) (j : Nat) :
    memByte (hostStored m a v w) j =
      if a ≤ j ∧ j < a + w.bytes then v.extractLsb' (8 * (j - a)) 8 else memByte m j := by
  cases w with
  | byte =>
    rw [hostStored, memByte_store hm, AccessWidth.bytes]
    by_cases hj : j = a
    · subst hj
      simp
    · rw [if_neg hj, if_neg (by omega)]
  | half =>
    rw [hostStored, memByte_store16 hm, AccessWidth.bytes, BitVec.extractLsb'_extractLsb'_of_le (by decide),
      BitVec.extractLsb'_extractLsb'_of_le (by decide)]
    by_cases h0 : j = a
    · subst h0
      simp
    · by_cases h1 : j = a + 1
      · subst h1
        simp
      · rw [if_neg h0, if_neg h1, if_neg (by omega)]
  | word => exact memByte_store32 hm a v j

theorem hostWriteMem_ok {a : Word} {w : AccessWidth} (v : Word) (hp : s.pending = none)
    (hin : a.toNat + w.bytes ≤ s.params.dmemSize) :
    hostWriteMem a w v s = .next (s.setMem (hostStored s.mem a.toNat v w)) := by
  unfold hostWriteMem
  rw [if_neg (by rw [idle_iff.2 hp]; decide), if_pos (inDmem_iff.2 hin)]
  cases w <;> rfl

/-- Zero-extension, byte by byte. -/
theorem byte_setWidth {n : Nat} (x : BitVec n) (hn : n ≤ 32) (k : Nat) :
    ((x.setWidth 32).extractLsb' k 8).toNat = x.toNat / 2 ^ k % 256 := by
  rw [BitVec.extractLsb'_toNat, Nat.shiftRight_eq_div_pow, BitVec.toNat_setWidth_of_le hn]

/-- What a host read of `w` gets (R64), which `hostReadMem_ok` ties to the model. -/
def hostLoaded (m : Memory) (a : Nat) : AccessWidth → Word
  | .byte => (memByte m a).setWidth 32
  | .half => (memHalf m a).setWidth 32
  | .word => memWord m a

theorem hostLoaded_byte (m : Memory) (a : Nat) (w : AccessWidth) {k : Nat} (hk : k < 4) :
    (hostLoaded m a w).extractLsb' (8 * k) 8 = if k < w.bytes then memByte m (a + k) else 0#8 := by
  have h0 := (memByte m a).isLt
  have h1 := (memByte m (a + 1)).isLt
  cases w with
  | byte =>
    apply BitVec.eq_of_toNat_eq
    rw [hostLoaded, byte_setWidth _ (by decide), AccessWidth.bytes]
    obtain rfl | rfl | rfl | rfl := lt_four hk <;> simp <;> omega
  | half =>
    apply BitVec.eq_of_toNat_eq
    rw [hostLoaded, byte_setWidth _ (by decide), AccessWidth.bytes, memHalf, toNat_append_eq]
    obtain rfl | rfl | rfl | rfl := lt_four hk <;> simp <;> omega
  | word => rw [hostLoaded, memWord_byte m a hk, AccessWidth.bytes, if_pos hk]

theorem hostReadMem_ok {a : Word} {w : AccessWidth} (hp : s.pending = none)
    (hin : a.toNat + w.bytes ≤ s.params.dmemSize) :
    hostReadMem a w s = .next { s with hostData := hostLoaded s.mem a.toNat w } := by
  unfold hostReadMem
  rw [if_neg (by rw [idle_iff.2 hp]; decide), if_pos (inDmem_iff.2 hin)]
  cases w <;> rfl

/-- A host read changes what the host gets and the count of free values. -/
theorem step_read {u : State} (hh : (∃ off w, s.host = .readReg off w :: ts) ∨ (∃ a w, s.host = .readMem a w :: ts))
    (h : step s = .next u) : u = { s with host := ts, hostData := u.hostData, drawn := u.drawn } := by
  obtain ⟨off, w, hh⟩ | ⟨a, w, hh⟩ := hh
  · rw [step_host hh] at h
    exact hostReadReg_next h
  · rw [step_host hh] at h
    have hu := hostReadMem_next h
    rw [hu]

/-! ### Faults (60_exceptions.md R262) -/

theorem ite_fault_iff {p : Prop} [Decidable p] {x : Res} {r : Fault} (hx : ∀ f, x ≠ .fault f) :
    (∃ f, (if p then .fault r else x : Res) = .fault f) ↔ p := by
  split
  next hp => exact ⟨fun _ => hp, fun _ => ⟨r, rfl⟩⟩
  next hp => exact ⟨fun ⟨f, hf⟩ => absurd hf (hx f), fun h => absurd h hp⟩

theorem hostReadReg_fault {off : BitVec 12} {w : AccessWidth} :
    (∃ f, hostReadReg off w s = .fault f) ↔ Violates s (.readReg off w) := by
  rw [Violates, ← Classical.not_and_iff_not_or_not, ← windowAccessOk_iff, hostReadReg, ← ite_not, ite_fault_iff]
  intro f
  split
  · nofun
  · split <;> nofun

theorem writableWhileBusy_iff {r : Reg} : writableWhileBusy r = true ↔ r = .ctrl ∨ r = .status ∨ r = .irqEn := by
  cases r <;> simp [writableWhileBusy]

/-- A write that the protocol forbids while BUSY (R262 (a)). -/
theorem busy_not_writable_iff {r : Reg} :
    (s.busy && !writableWhileBusy r) = true ↔ s.pending ≠ none ∧ r ≠ .ctrl ∧ r ≠ .status ∧ r ≠ .irqEn := by
  rw [Bool.and_eq_true, busy_iff, Bool.not_eq_true', ← Bool.not_eq_true, writableWhileBusy_iff, not_or, not_or]

theorem hostWriteReg_fault {off : BitVec 12} {w : AccessWidth} {v : Word} :
    (∃ f, hostWriteReg off w v s = .fault f) ↔ Violates s (.writeReg off w v) := by
  rw [Violates, ← Classical.not_and_iff_not_or_not, ← windowAccessOk_iff]
  by_cases hok : windowAccessOk off w = true
  · rw [hostWriteReg, if_pos hok, or_iff_right (not_not_intro hok)]
    cases hr : regAt off with
    | none =>
      refine ⟨fun ⟨f, hf⟩ => (nomatch hf), ?_⟩
      rintro ⟨-, r, hr', -⟩
      cases hr'
    | some r =>
      dsimp only
      rw [ite_fault_iff, busy_not_writable_iff]
      · simp only [Option.some.injEq, exists_eq_left']
      · nofun
  · rw [hostWriteReg, if_neg hok]
    exact ⟨fun _ => .inl hok, fun _ => ⟨_, rfl⟩⟩

/-- The checks of a host access of DMEM, whatever it then does. -/
theorem hostMem_fault {n : Nat} {a : Word} {x : State} :
    (∃ f, (if s.busy then .fault .hostMemWhileBusy
        else if inDmem s.params a.toNat n then .next x else .fault .hostMemOutside : Res) = .fault f) ↔
      s.pending ≠ none ∨ s.params.dmemSize < a.toNat + n := by
  by_cases hb : s.busy = true
  · rw [if_pos hb]
    exact ⟨fun _ => .inl (busy_iff.1 hb), fun _ => ⟨_, rfl⟩⟩
  · rw [if_neg hb, ← ite_not, ite_fault_iff, inDmem_iff, Nat.not_le, ← busy_iff, or_iff_right hb]
    nofun

theorem hostReadMem_fault {a : Word} {w : AccessWidth} :
    (∃ f, hostReadMem a w s = .fault f) ↔ Violates s (.readMem a w) := hostMem_fault

theorem hostWriteMem_fault {a : Word} {w : AccessWidth} {v : Word} :
    (∃ f, hostWriteMem a w v s = .fault f) ↔ Violates s (.writeMem a w v) := hostMem_fault

theorem takeTurn_fault (t : HostTurn) : (∃ f, takeTurn exec t s = .fault f) ↔ Violates s t := by
  cases t with
  | wait =>
    obtain ⟨u, hu⟩ := sequencerTurn_next s
    exact ⟨fun ⟨f, hf⟩ => (nomatch hu.symm.trans hf), False.elim⟩
  | readReg off w => exact hostReadReg_fault
  | writeReg off w v => exact hostWriteReg_fault
  | readMem a w => exact hostReadMem_fault
  | writeMem a w v => exact hostWriteMem_fault

/-- No turn is refused. -/
theorem takeTurn_not_refused (t : HostTurn) (r : Refusal) : takeTurn exec t s ≠ .refused r := by
  cases t with
  | wait =>
    obtain ⟨u, hu⟩ := sequencerTurn_next s
    exact fun hr => (nomatch hu.symm.trans hr)
  | readReg off w =>
    change hostReadReg off w s ≠ .refused r
    unfold hostReadReg
    split
    · split
      · nofun
      · split <;> nofun
    · nofun
  | writeReg off w v =>
    change hostWriteReg off w v s ≠ .refused r
    unfold hostWriteReg
    split
    · split
      · nofun
      · split <;> nofun
    · nofun
  | readMem a w =>
    change hostReadMem a w s ≠ .refused r
    unfold hostReadMem
    split
    · nofun
    · split <;> nofun
  | writeMem a w v =>
    change hostWriteMem a w v s ≠ .refused r
    unfold hostWriteMem
    split
    · nofun
    · split <;> nofun

theorem step_no_host (hh : s.host = []) : step s = sequencerTurn exec s := by
  rw [step, stepWith, hh]

end Sys2Proof.Machine

namespace Sys2Proof.Proofs

open Sys2Proof.Machine Sys2Proof.Claim

/-- Settles O5: on its turn the sequencer executes the pending word, which no latched error discards, or waits. -/
theorem stepRunsCommand : Obligations.StepRunsCommand :=
  fun _ _ hu => ⟨fun _ _ hp he hd => step_decoded hu hp he hd, step_idle hu⟩

/-- Settles O6: the placed word is pending with no error latched, and the turn is the sequencer's. -/
theorem fetchWordRuns : Obligations.FetchWordRuns := by
  intro s w i h
  rw [State.withFetchWord, tableWord_32]
  exact step_decoded rfl rfl rfl (decode_of_table h)

/-- Settles O17: NOP is the completion alone. -/
theorem nopCompletes : Obligations.NopCompletes := fun s => execNop_eq s

/-- Settles O53: by evaluation of the reset state; with the host's list empty and nothing pending the sequencer waits. -/
theorem resetState : Obligations.ResetState :=
  fun p m => ⟨readReg_resetWith p m, fun _ => rfl, fun _ => rfl, rfl, rfl, rfl, step_idle rfl rfl⟩

/-- Settles O54: the write of CTRL is the soft reset, which leaves open the bytes of the abandoned command's regions alone. -/
theorem softReset : Obligations.SoftReset := by
  intro s v ts hh hv hwf
  refine ⟨memDrawnAll s.drawn (abandonedRegions s) s.mem, ?_, fun hp => ?_, fun a ha => ?_⟩
  · rw [step_writeReg .ctrl hh rfl (.inr rfl), writeReg, writeCtrl_softReset hv]
    rfl
  · rw [abandonedRegions_idle hp]
    rfl
  · exact memByte_drawnAll_outside _ hwf (abandonedRegions_stores ha)

/-- Settles O58: register by register, over the map of R50. -/
theorem registerReadBack : Obligations.RegisterReadBack := by
  refine ⟨fun _ _ => regAt_iff, fun s r v ts hp hh => ⟨fun bits hbits => ?_, fun hro => ?_⟩, fun s v ts hh => ?_,
    fun s r ts hh hr => step_readReg hh hr, fun s off ts ha hoff => step_unlisted ha hoff⟩
  · have hother : ∀ r', r' ≠ r → r' ∉ alsoCleared r →
        shownValue (writeReg { s with host := ts } v r) r' = shownValue s r' :=
      fun r' hne hclear => writeReg_other (s := { s with host := ts }) hbits hne hclear
    exact ⟨_, step_writeReg r hh (regAt_offsetOf r) (.inl (idle_iff.2 hp)), writeReg_stored hbits, hother,
      writeReg_frame hbits⟩
  · rw [step_writeReg r hh (regAt_offsetOf r) (.inl (idle_iff.2 hp)), writeReg_readOnly hro]
  · rw [step_writeReg .irqEn hh rfl (.inr rfl), writeReg, State.writeIrqEn, getLsbD_eq_decide, getLsbD_eq_decide]
    simp

/-- Settles O59: the window's writes are `writeReg`; the bytes of DMEM are those of `hostStored` and `hostLoaded`. -/
theorem hostAccess : Obligations.HostAccess := by
  refine ⟨fun s ts u hh h => step_read hh h, fun s ts v hp => ⟨fun c hh => ?_, fun c hh => ?_, fun hh => ?_, fun hh => ?_,
    fun a w hh hin hwf => ?_, fun a w hh hin => ?_⟩⟩
  · rw [step_writeReg (.rdPtr c) hh (by cases c <;> rfl) (.inl (idle_iff.2 hp))]
    cases c <;> rfl
  · rw [step_writeReg (.rdEnd c) hh (by cases c <;> rfl) (.inl (idle_iff.2 hp))]
    cases c <;> rfl
  · exact step_writeReg .brPtr hh rfl (.inl (idle_iff.2 hp))
  · exact step_writeReg .brEnd hh rfl (.inl (idle_iff.2 hp))
  · exact ⟨_, (step_host hh).trans (hostWriteMem_ok (s := { s with host := ts }) v hp hin),
      memByte_hostStored hwf a.toNat v w⟩
  · exact ⟨_, (step_host hh).trans (hostReadMem_ok (s := { s with host := ts }) hp hin),
      fun k hk => hostLoaded_byte s.mem a.toNat w hk⟩

/-- Settles O60: turn by turn; the sequencer's turn always answers a next state. -/
theorem hostViolations : Obligations.HostViolations := by
  refine ⟨fun s t ts hh => ?_, fun s f hh hf => ?_, fun s r hr => ?_⟩
  · rw [step_host hh]
    exact takeTurn_fault (s := { s with host := ts }) t
  · obtain ⟨u, hu⟩ := sequencerTurn_next s
    exact nomatch ((step_no_host hh).trans hu).symm.trans hf
  · cases hh : s.host with
    | nil =>
      obtain ⟨u, hu⟩ := sequencerTurn_next s
      exact nomatch ((step_no_host hh).trans hu).symm.trans hr
    | cons t ts => exact takeTurn_not_refused t r ((step_host hh).symm.trans hr)

end Sys2Proof.Proofs
end

section
/-! Proofs about errors and frames (60_exceptions.md R246 to R249): what a failed argument check does, what every command keeps
whether it succeeds or raises, and what a command that raised leaves. -/

namespace Sys2Proof.Machine

open Sys2Proof.Claim

variable {i : Instr} {s t u : State}

/-! ### Argument checks -/

theorem raiseError_eq (s : State) (op : Byte) (e : ErrKind) : s.raiseError op e = raised s e.code op := rfl

theorem withChecks_refuse {op : Byte} {ok : Bool} {p : Prop} (hp : ok = true ↔ p) (h : ¬ p) (run : Res) :
    withChecks op ok s run = .next (raised s 1#4 op) := by
  rw [← hp, Bool.not_eq_true] at h
  rw [h, withChecks_fail]
  rfl

/-- A command whose checks fail raises `InvalidArgument` and does nothing else. -/
theorem exec_refuse (h : ¬ ArgsOk s i) : exec i s = .next (raised s 1#4 i.op) := by
  cases i with
  | nop => exact absurd trivial h
  | rdInit c => exact withChecks_refuse rdInit_args h _
  | rdBool c p | rdUint c n | rdSint c n | rdTree c p => exact withChecks_refuse Iff.rfl h _
  | brPeek n | brSkip n | brRead n => exact withChecks_refuse br_args h _
  | xfIdctAdd => exact withChecks_refuse xfIdctAdd_args h _
  | xfIdct => exact withChecks_refuse xfIdct_args h _
  | xfIwht => exact withChecks_refuse xfIwht_args h _
  | cvConvert => exact withChecks_refuse cv_args h _
  | hfBuild k => exact withChecks_refuse hfBuild_args h _
  | hfDecode k => exact withChecks_refuse hfDecode_args h _
  | hfReadLengths => exact withChecks_refuse hfReadLengths_args h _
  | hfFree k => exact withChecks_refuse hfFree_args h _
  | pxDecode => exact withChecks_refuse px_args h _

/-! ### What a command keeps -/

/-- `u` is `s` but for what command `i` may write before it ends (the 'State written' of its rule and R249): the end then sets
ERR, ERR_OP, DONE and the pending word (`exec_kept`). -/
structure Kept (i : Instr) (s u : State) : Prop where
  fixed   : u.params = s.params ∧ u.doneIe = s.doneIe ∧ u.errIe = s.errIe ∧ u.rdTreeAddr = s.rdTreeAddr ∧
    u.rdProbAddr = s.rdProbAddr ∧ u.xf = s.xf ∧ u.hf = s.hf ∧ u.cv = s.cv ∧ u.host = s.host ∧ u.hostData = s.hostData
  error   : u.err = s.err ∧ u.errOp = s.errOp
  rdStop  : ∀ c, (u.rd c).stop = (s.rd c).stop
  brStop  : u.br.stop = s.br.stop
  br      : usesBr i = false → u.br = s.br
  slot    : Sparse.Canonical none s.slots → ∀ k, i ≠ .hfBuild k → i ≠ .hfFree k → u.slot k = s.slot k
  scratch : i ≠ .hfReadLengths → u.scratchCl = s.scratchCl
  pixels  : i ≠ .pxDecode → u.cache = s.cache ∧ u.px = s.px
  px      : { u.px with pos := s.px.pos } = s.px
  mem     : Memory.wf s.mem → ∀ a, ¬ StoresTo s a i → memByte u.mem a = memByte s.mem a

theorem Kept.refl (i : Instr) (s : State) : Kept i s s :=
  ⟨⟨rfl, rfl, rfl, rfl, rfl, rfl, rfl, rfl, rfl, rfl⟩, ⟨rfl, rfl⟩, fun _ => rfl, rfl, fun _ => rfl, fun _ _ _ _ => rfl,
    fun _ => rfl, fun _ => ⟨rfl, rfl⟩, rfl, fun _ _ _ => rfl⟩

theorem Kept.setRd (h : Kept i s u) {c : Ctx} {x : RdCtx} (hx : x.stop = (s.rd c).stop) : Kept i s (u.setRd c x) where
  fixed := by cases c <;> exact h.fixed
  error := by cases c <;> exact h.error
  rdStop k := by
    rw [State.setRd_rd]
    split
    next hk => rw [hx, hk]
    next => exact h.rdStop k
  brStop := by cases c <;> exact h.brStop
  br := by cases c <;> exact h.br
  slot := by cases c <;> exact h.slot
  scratch := by cases c <;> exact h.scratch
  pixels := by cases c <;> exact h.pixels
  px := by cases c <;> exact h.px
  mem := by cases c <;> exact h.mem

theorem Kept.setResult (h : Kept i s u) (v : Word) : Kept i s (u.setResult v) := { h with }

theorem Kept.countDraw (h : Kept i s u) : Kept i s u.countDraw := { h with }

theorem Kept.drawRd (h : Kept i s u) (c : Ctx) : Kept i s (u.drawRd c) := by
  unfold State.drawRd
  refine (h.setRd ?_).countDraw
  exact h.rdStop c

theorem Kept.setBr (h : Kept i s u) {b : BrRegs} (hi : usesBr i = true) (hb : b.stop = s.br.stop) : Kept i s (u.setBr b) :=
  { h with
    brStop := hb
    br := fun hn => absurd hi (by rw [hn]; decide) }

theorem Kept.drawBr (h : Kept i s u) (hi : usesBr i = true) : Kept i s u.drawBr := (h.setBr (b := u.br.drawn u.drawn) hi h.brStop).countDraw

theorem Kept.setMem (h : Kept i s u) {m : Memory}
    (hm : Memory.wf s.mem → ∀ a, ¬ StoresTo s a i → memByte m a = memByte s.mem a) : Kept i s (u.setMem m) :=
  { h with mem := hm }

/-- The slot that HF_BUILD or HF_FREE names. -/
theorem Kept.setSlot {k : Nat} (hi : i = .hfBuild k ∨ i = .hfFree k) (y : Option HCode) : Kept i s (s.setSlot k y) :=
  { Kept.refl i s with
    slot := fun hc j hb hf => by
      rw [State.setSlot_slot hc, if_neg]
      rintro rfl
      exact hi.elim hb hf }

/-! ### What each engine's stores leave alone -/

theorem xfIdctAdd_kept (wrap : Bool) (c : List Int) :
    Kept .xfIdctAdd s (s.setMem (xfAddPixels (xfPixAddr s) 0 (idctCore wrap c) s.mem)) := by
  refine (Kept.refl _ s).setMem fun hwf a ha => xfAddPixels_outside _ _ hwf fun j _ hj heq => ha ?_
  rw [idctCore_length] at hj
  exact ⟨j / 4, by omega, j % 4, by omega, heq⟩

theorem xfIdct_kept (wrap : Bool) (c : List Int) :
    Kept .xfIdct s
      (s.setMem (xfStoreHalves (fun i => s.xf.outAddr.toNat + 2 * i) 0 (idctCore wrap c) s.mem)) := by
  refine (Kept.refl _ s).setMem fun hwf a ha => xfStoreHalves_outside _ _ hwf fun j _ hj => ?_
  rw [idctCore_length] at hj
  exact ⟨fun heq => ha ⟨j, by omega, 0, by omega, heq⟩, fun heq => ha ⟨j, by omega, 1, by omega, heq⟩⟩

theorem xfIwht_kept (wrap : Bool) (c : List Int) :
    Kept .xfIwht s (s.setMem
      (xfStoreHalves (fun i => s.xf.outAddr.toNat + i * s.xf.outStride.toNat) 0 (iwhtCore wrap c) s.mem)) := by
  refine (Kept.refl _ s).setMem fun hwf a ha => xfStoreHalves_outside _ _ hwf fun j _ hj => ?_
  rw [iwhtCore_length] at hj
  exact ⟨fun heq => ha ⟨j, by omega, 0, by omega, heq⟩, fun heq => ha ⟨j, by omega, 1, by omega, heq⟩⟩

theorem lengths_stores {a : Nat} (ha : ¬ StoresTo s a .hfReadLengths) :
    a < s.hf.lenAddr.toNat ∨ s.hf.lenAddr.toNat + s.hf.alpha.toNat ≤ a := by
  apply Classical.byContradiction
  intro hin
  exact ha ⟨a - s.hf.lenAddr.toNat, by omega, by omega⟩

theorem drawLengths_kept :
    Kept .hfReadLengths s (s.drawLengths s.hf.lenAddr.toNat s.hf.alpha.toNat) :=
  { Kept.refl .hfReadLengths s with
    br := nofun
    scratch := fun h => absurd rfl h
    mem := fun hwf _ ha => memByte_drawn_outside hwf _ _ _ (lengths_stores ha) }

theorem readLengths_kept {l : HCode} {cl cl' : Option HCode} {b : BrRegs}
    (h : readLengthList s.mem s.hf.alpha.toNat s.br = .ok (l, cl, b)) :
    Kept .hfReadLengths s { s with
      mem := memStoreList s.mem s.hf.lenAddr.toNat (l.map (BitVec.ofNat 8)), br := b, scratchCl := cl' } := by
  obtain ⟨hlen, -, hstop⟩ := readLengthList_ok (BrKept.ofStop s.mem s.br.stop) rfl h
  exact {
    Kept.refl .hfReadLengths s with
    brStop := hstop
    br := nofun
    scratch := fun h => absurd rfl h
    mem := fun hwf a ha => by
      have hout := lengths_stores ha
      rw [memByte_storeList hwf, List.length_map, hlen, if_neg (by omega)] }

theorem drawPixels_kept :
    Kept .pxDecode s (s.drawPixels s.px.dstAddr.toNat (4 * (s.px.width.toNat * s.px.height.toNat))) :=
  { Kept.refl .pxDecode s with
    br := nofun
    pixels := fun h => absurd rfl h
    mem := fun hwf _ ha => memByte_drawn_outside hwf _ _ _ (px_stores ha) }

theorem pxDecode_kept {r : PxRun} {p v : Word}
    (h : pxLoop s.px s.slots (s.px.width.toNat * s.px.height.toNat) (pxStart s) = .ok r) :
    Kept .pxDecode s
      { s with mem := r.mem, cache := r.cache, br := r.br, px := { s.px with pos := p }, result := v } := by
  obtain ⟨hmoves, hpos⟩ := pxLoop_start h
  exact {
    Kept.refl .pxDecode s with
    brStop := hmoves.stop
    br := nofun
    pixels := fun h => absurd rfl h
    mem := fun hwf a ha => hmoves.outside hwf (hpos ▸ px_stores ha) }

/-! ### Every command -/

/-- A command ends in the state it has written, raising one of its codes of R246 or succeeding. -/
def EndsKept (i : Instr) (s t : State) : Prop :=
  ∃ u, Kept i s u ∧ ((∃ e : ErrKind, e.code ∈ codesOf i ∧ t = u.raiseError i.op e) ∨ t = u.complete)

theorem Kept.complete (h : Kept i s u) : EndsKept i s u.complete := ⟨u, h, .inr rfl⟩

theorem Kept.raises (h : Kept i s u) {e : ErrKind} (he : e.code ∈ codesOf i) : EndsKept i s (u.raiseError i.op e) :=
  ⟨u, h, .inl ⟨e, he, rfl⟩⟩

/-- A command that raises only in its argument checks. -/
theorem kept_of_checks {ok : Bool}
    (h : (ok = false ∧ t = s.raiseError i.op .invalidArgument) ∨ (ok = true ∧ t = u.complete)) (hi : 1 ∈ codesOf i)
    (hu : Kept i s u) : EndsKept i s t := by
  obtain ⟨-, rfl⟩ | ⟨-, rfl⟩ := h
  · exact (Kept.refl i s).raises hi
  · exact hu.complete

theorem rd_code_mem {e : ErrKind} (h : RdRaises e) : e.code ∈ [1, 4] := by
  obtain rfl | rfl := h <;> decide

theorem rdRead_codes {c : Ctx} (hi : RdRead i c) : codesOf i = [1, 4] := by
  have hc := hi.1
  cases i <;> cases hc <;> rfl

theorem rdRead_kept {c : Ctx} (hi : RdRead i c) (h : exec i s = .next t) : EndsKept i s t := by
  obtain ⟨read, hread, hraises, hkeeps⟩ := exec_rdRead hi h
  have hcodes := rdRead_codes hi
  obtain ⟨-, rfl⟩ | ⟨-, ⟨e, he, rfl⟩ | ⟨v, x, hx, rfl⟩⟩ := rdCommand_cases hread
  · exact (Kept.refl i s).raises (by rw [hcodes]; decide)
  · exact ((Kept.refl i s).drawRd c).raises (by rw [hcodes]; exact rd_code_mem (hraises e he))
  · have hstop : x.stop = (s.rd c).stop :=
      hkeeps (fun y => y.stop = (s.rd c).stop) (fun hy hb => (rdBool_sameEnd hb).1.trans hy) rfl hx
    exact (((Kept.refl i s).setRd hstop).setResult v).complete

theorem exec_kept (h : exec i s = .next t) : EndsKept i s t := by
  have hs := Kept.refl i s
  cases i with
  | nop =>
    cases h
    exact hs.complete
  | rdInit c =>
    obtain ⟨-, rfl⟩ | ⟨-, ⟨e, he, rfl⟩ | ⟨x, hx, rfl⟩⟩ := execRdInit_cases h
    · exact hs.raises (e := .invalidArgument) (.head _)
    · exact ((hs.setRd (x := { s.rd c with valid := false }) rfl).drawRd c).raises (rd_code_mem (rdLoad_raises he))
    · exact (hs.setRd (rdLoad_keeps hx).1).complete
  | rdBool c p => exact rdRead_kept (i := .rdBool c p) ⟨rfl, nofun⟩ h
  | rdUint c n => exact rdRead_kept (i := .rdUint c n) ⟨rfl, nofun⟩ h
  | rdSint c n => exact rdRead_kept (i := .rdSint c n) ⟨rfl, nofun⟩ h
  | rdTree c p => exact rdRead_kept (i := .rdTree c p) ⟨rfl, nofun⟩ h
  | brPeek n =>
    exact kept_of_checks (execBrPeek_cases h) (.head _) ((hs.setBr rfl (brFill_stop n s.br)).setResult _)
  | brSkip n =>
    obtain ⟨-, rfl⟩ | ⟨-, ⟨e, he, rfl⟩ | ⟨b, hb, rfl⟩⟩ := execBrSkip_cases h
    · exact hs.raises (e := .invalidArgument) (.head _)
    · cases brSkip_raises he
      exact (hs.drawBr rfl).raises (e := .invalidData) (.tail _ (.head _))
    · exact (hs.setBr rfl (brSkip_stop hb)).complete
  | brRead n =>
    obtain ⟨-, rfl⟩ | ⟨-, ⟨e, he, rfl⟩ | ⟨v, b, hb, rfl⟩⟩ := execBrRead_cases h
    · exact hs.raises (e := .invalidArgument) (.head _)
    · cases brRead_raises he
      exact (hs.drawBr rfl).raises (e := .invalidData) (.tail _ (.head _))
    · exact ((hs.setBr rfl (brRead_stop hb)).setResult _).complete
  | xfIdctAdd => exact kept_of_checks (execXfIdctAdd_cases h) (.head _) (xfIdctAdd_kept _ _)
  | xfIdct => exact kept_of_checks (execXfIdct_cases h) (.head _) (xfIdct_kept _ _)
  | xfIwht => exact kept_of_checks (execXfIwht_cases h) (.head _) (xfIwht_kept _ _)
  | cvConvert =>
    exact kept_of_checks (execCvConvert_cases h) (.head _) (hs.setMem fun hwf _ ha => cvRows_outside hwf ha)
  | hfBuild k =>
    obtain ⟨-, rfl⟩ | ⟨-, ⟨-, rfl⟩ | ⟨-, rfl⟩⟩ := execHfBuild_cases h
    · exact hs.raises (e := .invalidArgument) (.head _)
    · exact (Kept.setSlot (.inl rfl) _).raises (e := .invalidData) (.tail _ (.head _))
    · exact (Kept.setSlot (.inl rfl) _).complete
  | hfDecode k =>
    obtain ⟨-, rfl⟩ | ⟨-, ⟨e, he, rfl⟩ | ⟨v, b, hb, rfl⟩⟩ := execHfDecode_cases h
    · exact hs.raises (e := .invalidArgument) (.head _)
    · cases hfDecode_raises he
      exact (hs.drawBr rfl).raises (e := .invalidData) (.tail _ (.head _))
    · exact ((hs.setBr rfl (hfDecode_stop hb)).setResult _).complete
  | hfReadLengths =>
    obtain ⟨-, rfl⟩ | ⟨-, ⟨e, he, rfl⟩ | ⟨l, cl, b, hl, rfl⟩⟩ := execHfReadLengths_cases h
    · exact hs.raises (e := .invalidArgument) (.head _)
    · cases readLengthList_raises he
      exact drawLengths_kept.raises (e := .invalidData) (.tail _ (.head _))
    · exact (readLengths_kept hl).complete
  | hfFree k => exact kept_of_checks (execHfFree_cases h) (.head _) (Kept.setSlot (.inr rfl) _)
  | pxDecode =>
    obtain ⟨-, rfl⟩ | ⟨-, ⟨e, he, rfl⟩ | ⟨r, hr, rfl⟩⟩ := execPxDecode_cases h
    · exact hs.raises (e := .invalidArgument) (.head _)
    · obtain rfl | rfl := pxLoop_raises he
      · exact drawPixels_kept.raises (e := .invalidData) (.tail _ (.head _))
      · exact drawPixels_kept.raises (e := .unsupported) (.tail _ (.tail _ (.head _)))
    · exact (pxDecode_kept hr).complete

/-- ERR and ERR_OP are kept, or hold a code of the command and its OP. -/
theorem exec_error (h : exec i s = .next t) : (t.err = s.err ∧ t.errOp = s.errOp) ∨ (t.err ∈ codesOf i ∧ t.errOp = i.op) := by
  obtain ⟨u, hu, ⟨e, he, rfl⟩ | rfl⟩ := exec_kept h
  · exact .inr ⟨he, rfl⟩
  · exact .inl hu.error

theorem setRd_self (s : State) (c : Ctx) : s.setRd c (s.rd c) = s := by cases c <;> rfl

/-- A context that a command does not work on is kept: the command commutes with writing it. -/
theorem exec_rd_other {c : Ctx} (hi : ctxUsed i ≠ some c) (h : exec i s = .next t) : t.rd c = s.rd c := by
  have hcomm := exec_setRd (s := s) (x := s.rd c) hi
  rw [setRd_self, h] at hcomm
  have ht : t = t.setRd c (s.rd c) := Host.Outcome.next.inj hcomm
  rw [ht, State.setRd_rd, if_pos rfl]

/-! ### The state after a command that raised -/

/-- A command that succeeds keeps ERR, so one that latches an error from none has raised. -/
theorem not_complete (hs : u.err = s.err) (he : s.err = 0) (ht : u.complete.err ≠ 0) : False := ht (hs.trans he)

/-- VALID after a raise in any command but RD_INIT. -/
theorem raised_valid (hn : ∀ k, i ≠ .rdInit k) (he : s.err = 0) (h : exec i s = .next t) (ht : t.err ≠ 0) (c : Ctx) :
    (t.rd c).valid = (s.rd c).valid := by
  by_cases hi : ctxUsed i = some c
  · obtain ⟨read, hread, -, -⟩ := exec_rdRead ⟨hi, hn⟩ h
    obtain ⟨-, rfl⟩ | ⟨-, ⟨e, -, rfl⟩ | ⟨v, x, -, rfl⟩⟩ := rdCommand_cases hread
    · rfl
    · exact State.drawRd_valid s c c
    · exact (not_complete (by simp) he ht).elim
  · rw [exec_rd_other hi h]

/-- VALID after a raise in RD_INIT: kept by a failed check, and 0 after the end of the stream. -/
theorem rdInit_raised_valid {k : Ctx} (he : s.err = 0) (h : exec (.rdInit k) s = .next t) (ht : t.err ≠ 0) :
    (t.err = 1 → (t.rd k).valid = (s.rd k).valid) ∧ (t.err = 4 → (t.rd k).valid = false) := by
  obtain ⟨-, rfl⟩ | ⟨hok, ⟨e, hload, rfl⟩ | ⟨x, -, rfl⟩⟩ := execRdInit_cases h
  · exact ⟨fun _ => rfl, fun h4 => absurd h4 (show (1#4 : BitVec 4) ≠ 4 by decide)⟩
  · cases rdLoad_end (x := { s.rd k with valid := false }) (rdInit_args.1 hok) hload
    refine ⟨fun h1 => absurd h1 (show (4#4 : BitVec 4) ≠ 1 by decide), fun _ => ?_⟩
    exact (State.drawRd_valid _ k k).trans (by rw [State.setRd_rd, if_pos rfl])
  · exact (not_complete (by simp) he ht).elim

/-- HF_BUILD leaves its slot EMPTY after `InvalidData`. -/
theorem hfBuild_raised_slot {k : Nat} (hc : Sparse.Canonical none s.slots) (he : s.err = 0)
    (h : exec (.hfBuild k) s = .next t) (ht : t.err = 2) : t.slot k = none := by
  obtain ⟨-, rfl⟩ | ⟨-, ⟨-, rfl⟩ | ⟨-, rfl⟩⟩ := execHfBuild_cases h
  · exact absurd ht (show (1#4 : BitVec 4) ≠ 2 by decide)
  · exact (State.setSlot_slot hc k none k).trans (if_pos rfl)
  · exact absurd (he.symm.trans ht) (by decide)

/-- The commands whose only raise is a failed check. -/
def checksOnly : Instr → Bool
  | .xfIdctAdd | .xfIdct | .xfIwht | .cvConvert | .brPeek _ | .nop | .hfFree _ => true
  | _ => false

/-- They succeed when their checks pass. -/
theorem checksOnly_succeeds (hi : checksOnly i = true) (ha : ArgsOk s i) (h : exec i s = .next t) : t.err = s.err := by
  cases i <;> cases hi
  case nop => cases h; rfl
  case brPeek n =>
    obtain ⟨hok, -⟩ | ⟨-, rfl⟩ := execBrPeek_cases h
    · exact absurd (br_args.2 ha) (by rw [hok]; decide)
    · rfl
  case xfIdctAdd =>
    obtain ⟨hok, -⟩ | ⟨-, rfl⟩ := execXfIdctAdd_cases h
    · exact absurd (xfIdctAdd_args.2 ha) (by rw [hok]; decide)
    · rfl
  case xfIdct =>
    obtain ⟨hok, -⟩ | ⟨-, rfl⟩ := execXfIdct_cases h
    · exact absurd (xfIdct_args.2 ha) (by rw [hok]; decide)
    · rfl
  case xfIwht =>
    obtain ⟨hok, -⟩ | ⟨-, rfl⟩ := execXfIwht_cases h
    · exact absurd (xfIwht_args.2 ha) (by rw [hok]; decide)
    · rfl
  case cvConvert =>
    obtain ⟨hok, -⟩ | ⟨-, rfl⟩ := execCvConvert_cases h
    · exact absurd (cv_args.2 ha) (by rw [hok]; decide)
    · rfl
  case hfFree k =>
    obtain ⟨hok, -⟩ | ⟨-, rfl⟩ := execHfFree_cases h
    · exact absurd (hfFree_args.2 ha) (by rw [hok]; decide)
    · rfl

theorem checksOnly_raised (hi : checksOnly i = true) (he : s.err = 0) (h : exec i s = .next t) (ht : t.err ≠ 0) :
    t = raised s 1#4 i.op := by
  have ha : ¬ ArgsOk s i := fun ha => ht ((checksOnly_succeeds hi ha h).trans he)
  exact Host.Outcome.next.inj (h.symm.trans (exec_refuse ha))

end Sys2Proof.Machine

namespace Sys2Proof.Proofs

open Sys2Proof.Machine Sys2Proof.Claim

/-- Settles O11: an error latched from none is one of the command's own. -/
theorem errorEntry : Obligations.ErrorEntry := by
  intro i s t he h ht
  obtain ⟨hsame, -⟩ | ⟨hcode, hop⟩ := exec_error h
  · exact absurd (hsame.trans he) ht
  · exact ⟨hcode, hop.trans (encode_op i).symm, (exec_ends h).pending, (exec_ends h).done⟩

/-- Settles O12: command by command, the checks of `exec` are those of the rule. -/
theorem argumentChecks : Obligations.ArgumentChecks := by
  intro i s h
  rw [encode_op]
  exact exec_refuse h

/-- Settles O13: clause by clause, since a command that latches an error from none has not succeeded. -/
theorem failedCommand : Obligations.FailedCommand := by
  intro i s t hc he h ht
  refine ⟨(exec_ends h).result (.inr ⟨he, ht⟩), fun c hn => raised_valid hn he h ht c, fun c k hi hck => ?_,
    fun c hi h4 => ?_, fun k hi h2 => ?_, fun hi => ?_⟩
  · subst hi
    by_cases hk : c = k
    · subst hk
      exact (rdInit_raised_valid he h ht).1 (hck.resolve_left (not_not_intro rfl))
    · have hother : ctxUsed (.rdInit k) ≠ some c := fun hu => hk (Option.some.inj hu).symm
      rw [exec_rd_other hother h]
  · subst hi
    exact (rdInit_raised_valid he h ht).2 h4
  · subst hi
    exact hfBuild_raised_slot hc he h h2
  · have hchecks : checksOnly i = true := by
      obtain rfl | rfl | rfl | rfl | ⟨n, rfl⟩ | rfl | ⟨k, rfl⟩ := hi <;> rfl
    rw [encode_op]
    exact checksOnly_raised hchecks he h ht

/-- Settles O15: each command's updates are among those `Kept` allows it, and its end sets no register but STATUS. -/
theorem frame : Obligations.Frame := by
  intro i s t hwf hc h
  have herror := exec_error h
  rw [← encode_op] at herror
  have hother := fun c hi => exec_rd_other (c := c) hi h
  obtain ⟨u, hu, ⟨e, -, rfl⟩ | rfl⟩ := exec_kept h
  all_goals
    exact ⟨hu.fixed, fun c => ⟨hu.rdStop c, hother c⟩, ⟨hu.brStop, hu.br⟩, hu.slot hc, hu.scratch, hu.pixels, hu.px,
      herror, hu.mem hwf⟩

end Sys2Proof.Proofs
end

section
/-! Proofs about the range decoder (41_range_decoder.md): `RdBool` against its closed form, then RD_INIT and the four reads. -/

namespace Sys2Proof.Machine

open Sys2Proof.Claim

variable {p : Params} {m : Memory} {s t u : State} {c : Ctx} {x y : RdCtx}

/-! ### The next byte (R116) -/

theorem rdNextByte_stream (hs : x.stop.toNat ≤ p.dmemSize) (h : x.ptr.toNat < x.stop.toNat ∨ p.rdEof = .zeroFill) :
    rdNextByte p m x =
      .ok (BitVec.ofNat 8 (streamByte m x), { x with ptr := if x.ptr.toNat < x.stop.toNat then x.ptr + 1 else x.ptr }) := by
  by_cases hp : x.ptr.toNat < x.stop.toNat
  · rw [rdNextByte_inside hp hs, streamByte, if_pos hp, if_pos hp, BitVec.ofNat_toNat, BitVec.setWidth_eq]
  · rw [rdNextByte_zeroFill hp (h.resolve_left hp), streamByte, if_neg hp, if_neg hp]
    rfl

theorem streamByte_lt (m : Memory) (x : RdCtx) : streamByte m x < 256 := by
  unfold streamByte
  split
  · exact BitVec.isLt _
  · decide

theorem rdEof_fault (h : p.rdEof ≠ .zeroFill) : p.rdEof = .fault := by
  cases he : p.rdEof with
  | fault => rfl
  | zeroFill => exact absurd he h

/-! ### `RdBool` (R117) -/

theorem split_eq (r q : Nat) : split r q = 1 + (r - 1) * q / 256 := rfl

theorem narrowed_bounds (h : x.Window) (p8 : Byte) : 1 ≤ narrowed x p8 ∧ narrowed x p8 < 256 := by
  have hr := h.1
  have hlt := x.range.isLt
  have hsplit := split_bounds (by omega : 2 ≤ x.range.toNat) p8.isLt
  unfold narrowed
  rw [split_eq]
  split <;> omega

/-- The decision, as `readBit` and `narrowed` give it. -/
theorem rdDecide_closed (h : x.Window) (p8 : Byte) :
    rdDecide x p8 = (readBit x p8, { x with
      range := BitVec.ofNat 8 (narrowed x p8)
      value := BitVec.ofNat 16
        (if readBit x p8 then x.value.toNat - split x.range.toNat p8.toNat * 256 else x.value.toNat) }) := by
  have hr := h.1
  rw [rdDecide_eq x p8 (by omega), ← split_eq]
  by_cases hb : split x.range.toNat p8.toNat * 256 ≤ x.value.toNat
  · have hbit : readBit x p8 = true := decide_eq_true hb
    rw [if_pos hb, narrowed, hbit, if_pos rfl, if_pos rfl]
  · have hbit : readBit x p8 = false := decide_eq_false hb
    rw [if_neg hb, narrowed, hbit, if_neg Bool.false_ne_true, if_neg Bool.false_ne_true, BitVec.ofNat_toNat,
      BitVec.setWidth_eq]

theorem rdShifts_eq (h : x.Window) (p8 : Byte) : rdShifts x p8 = shiftsOf x p8 := by
  rw [rdShifts, shiftsOf, rdDecide_closed h, BitVec.toNat_ofNat, Nat.mod_eq_of_lt (narrowed_bounds h p8).2]

/-- The shifted context is the closed form, with the stream's byte where one is merged. -/
theorem shifted_closed (h : x.Window) (p8 : Byte) {byte : Nat} {ptr : Word}
    (hbyte : 8 ≤ x.bitcnt.toNat + shiftsOf x p8 → byte = streamByte m x)
    (hptr : ptr = if 8 ≤ x.bitcnt.toNat + shiftsOf x p8 ∧ x.ptr.toNat < x.stop.toNat then x.ptr + 1 else x.ptr) :
    (rdDecide x p8).2.shifted (shiftsOf x p8) byte ptr = afterBool m x p8 := by
  have hrange : (BitVec.ofNat 8 (narrowed x p8)).toNat = narrowed x p8 := by
    rw [BitVec.toNat_ofNat, Nat.mod_eq_of_lt (narrowed_bounds h p8).2]
  have hvalue : (BitVec.ofNat 16
      (if readBit x p8 then x.value.toNat - split x.range.toNat p8.toNat * 256 else x.value.toNat)).toNat =
      if readBit x p8 then x.value.toNat - split x.range.toNat p8.toNat * 256 else x.value.toNat := by
    rw [BitVec.toNat_ofNat, Nat.mod_eq_of_lt]
    have hv := x.value.isLt
    split <;> omega
  have hmerge : (if 8 ≤ x.bitcnt.toNat + shiftsOf x p8 then byte * 2 ^ (x.bitcnt.toNat + shiftsOf x p8 - 8) else 0) =
      if 8 ≤ x.bitcnt.toNat + shiftsOf x p8 then streamByte m x * 2 ^ (x.bitcnt.toNat + shiftsOf x p8 - 8) else 0 := by
    split
    next hn => rw [hbyte hn]
    next => rfl
  have hcount : BitVec.ofNat 3 (x.bitcnt.toNat + shiftsOf x p8) = BitVec.ofNat 3 ((x.bitcnt.toNat + shiftsOf x p8) % 8) := by
    apply BitVec.eq_of_toNat_eq
    rw [BitVec.toNat_ofNat, BitVec.toNat_ofNat, Nat.mod_mod]
  rw [rdDecide_closed h, RdCtx.shifted, afterBool]
  dsimp only
  rw [hrange, hvalue, hmerge, hcount, hptr]

/-- The byte that `RdBool(p8)` may need can be had (`ByteReady` of a context). -/
def BoolReady (p : Params) (x : RdCtx) (p8 : Byte) : Prop :=
  x.bitcnt.toNat + shiftsOf x p8 < 8 ∨ x.ptr.toNat < x.stop.toNat ∨ p.rdEof = .zeroFill

theorem rdBool_ready (h : x.Window) (hs : x.stop.toNat ≤ p.dmemSize) {p8 : Byte} (hb : BoolReady p x p8) :
    rdBool p m p8 x = .ok (readBit x p8, afterBool m x p8) := by
  have hbit : (rdDecide x p8).1 = readBit x p8 := by rw [rdDecide_closed h]
  rw [rdBool_closed p8 h, rdShifts_eq h, hbit]
  by_cases hn : x.bitcnt.toNat + shiftsOf x p8 < 8
  · rw [if_pos hn, shifted_closed h p8 (m := m) (fun h8 => absurd hn (by omega)) (by rw [if_neg (by omega)])]
  · rw [if_neg hn, rdNextByte_stream hs (hb.resolve_left hn)]
    dsimp only
    rw [shifted_closed h p8 (m := m)]
    · intro _
      rw [BitVec.toNat_ofNat, Nat.mod_eq_of_lt (streamByte_lt m x)]
    · simp only [Nat.le_of_not_lt hn, true_and]

theorem rdBool_notReady (h : x.Window) {p8 : Byte} (hb : ¬ BoolReady p x p8) : rdBool p m p8 x = .error .endOfInput := by
  obtain ⟨hn, hp, he⟩ := not_or.1 hb |>.imp_right not_or.1
  rw [rdBool_closed p8 h, rdShifts_eq h, if_neg hn, rdNextByte_fault hp (rdEof_fault he)]

/-- `RdBool` keeps the form of R125 and the stream's end. -/
theorem afterBool_window (h : x.Window) (hs : x.stop.toNat ≤ p.dmemSize) {p8 : Byte} (hb : BoolReady p x p8) :
    (afterBool m x p8).Window := (rdBool_keeps h (rdBool_ready (m := m) h hs hb)).1

theorem afterBool_stop (m : Memory) (x : RdCtx) (p8 : Byte) : (afterBool m x p8).stop = x.stop := rfl

/-! ### The ends of a read -/

/-- A read that raises keeps VALID and RESULT (R118; 60_exceptions.md R249). -/
theorem rdCommand_raised {op : Byte} {read : RdCtx → Except ErrKind (Word × RdCtx)} {e : ErrKind}
    (hv : (s.rd c).valid = true) (h : read (s.rd c) = .error e) :
    ∃ t, rdCommand op c s read = .next t ∧ t.err = e.code ∧ t.errOp = op ∧ (t.rd c).valid = true ∧ t.result = s.result :=
  ⟨_, rdCommand_error hv h, rfl, rfl, (State.drawRd_valid s c c).trans hv, State.drawRd_result s c⟩

theorem finished_setRd (s : State) (c : Ctx) (x : RdCtx) (v : Word) :
    ((s.setRd c x).setResult v).complete = finished { s.setRd c x with result := v } := rfl

theorem byteReady_iff {p8 : Byte} : ByteReady s c p8 ↔ BoolReady s.params (s.rd c) p8 := Iff.rfl

theorem ofNat_bool (b : Bool) : BitVec.ofNat 32 b.toNat = if b then 1#32 else 0#32 := by cases b <;> rfl

theorem execRdBool_ok {p8 : Byte} {b : Bool} (hv : (s.rd c).valid = true)
    (h : rdBool s.params s.mem p8 (s.rd c) = .ok (b, x)) :
    exec (.rdBool c p8) s = .next (finished { s.setRd c x with result := if b then 1#32 else 0#32 }) := by
  rw [← ofNat_bool, exec, execRdBool]
  exact rdCommand_ok hv (by rw [h])

theorem execRdBool_raised {p8 : Byte} {e : ErrKind} (hv : (s.rd c).valid = true)
    (h : rdBool s.params s.mem p8 (s.rd c) = .error e) :
    ∃ t, exec (.rdBool c p8) s = .next t ∧ t.err = e.code ∧ t.errOp = 0x02#8 ∧ (t.rd c).valid = true ∧
      t.result = s.result := by
  rw [exec, execRdBool]
  exact rdCommand_raised hv (by rw [h])

/-! ### RD_INIT (R119) -/

theorem ofNat_append (a : Nat) {b : Nat} (hb : b < 256) :
    BitVec.ofNat 8 a ++ BitVec.ofNat 8 b = BitVec.ofNat 16 (256 * a + b) := by
  apply BitVec.eq_of_toNat_eq
  simp only [toNat_append_eq, BitVec.toNat_ofNat]
  omega

/-- The `k`-th byte from RD_PTR on; past the end, the 0 of `ZERO_FILL`. -/
def windowByte (m : Memory) (x : RdCtx) (k : Nat) : Nat :=
  if x.ptr.toNat + k < x.stop.toNat then (memByte m (x.ptr.toNat + k)).toNat else 0

/-- RD_PTR past the next byte, if there is one. -/
def advanced (x : RdCtx) : RdCtx := { x with ptr := if x.ptr.toNat < x.stop.toNat then x.ptr + 1 else x.ptr }

theorem advanced_ptr (x : RdCtx) : (advanced x).ptr.toNat = x.ptr.toNat + min 1 (x.stop.toNat - x.ptr.toNat) := by
  unfold advanced
  dsimp only
  split
  next h => rw [ptr_add_one h]; omega
  next h => omega

theorem streamByte_advanced (m : Memory) (x : RdCtx) : streamByte m (advanced x) = windowByte m x 1 := by
  have hstop : (advanced x).stop = x.stop := rfl
  unfold streamByte windowByte
  rw [advanced_ptr, hstop]
  by_cases h : x.ptr.toNat < x.stop.toNat
  · rw [show min 1 (x.stop.toNat - x.ptr.toNat) = 1 by omega]
  · rw [if_neg (by omega), if_neg (by omega)]

theorem rdLoad_ok (hs : x.stop.toNat ≤ p.dmemSize) (h : x.ptr.toNat + 2 ≤ x.stop.toNat ∨ p.rdEof = .zeroFill) :
    rdLoad p m x = .ok { x with
      ptr := BitVec.ofNat 32 (x.ptr.toNat + min 2 (x.stop.toNat - x.ptr.toNat))
      value := BitVec.ofNat 16 (256 * windowByte m x 0 + windowByte m x 1)
      range := 255, bitcnt := 0, valid := true } := by
  have hptr := advanced_ptr x
  have hptr' := advanced_ptr (advanced x)
  rw [show (advanced x).stop = x.stop from rfl] at hptr'
  have hbyte0 : streamByte m x = windowByte m x 0 := rfl
  have hsecond : (advanced x).ptr.toNat < (advanced x).stop.toNat ∨ p.rdEof = .zeroFill := by
    rw [hptr]
    exact h.imp_left fun h => by change _ < x.stop.toNat; omega
  have hlast : (advanced (advanced x)).ptr = BitVec.ofNat 32 (x.ptr.toNat + min 2 (x.stop.toNat - x.ptr.toNat)) := by
    apply BitVec.eq_of_toNat_eq
    have hlt := (advanced (advanced x)).ptr.isLt
    rw [BitVec.toNat_ofNat]
    omega
  rw [rdLoad, rdNextByte_stream hs (h.imp_left fun h => by omega)]
  dsimp only
  rw [show { x with ptr := if x.ptr.toNat < x.stop.toNat then x.ptr + 1 else x.ptr } = advanced x from rfl,
    rdNextByte_stream (x := advanced x) hs hsecond]
  dsimp only
  rw [ofNat_append _ (streamByte_lt m _), streamByte_advanced, hbyte0, ← hlast]
  rfl

theorem rdLoad_short (hs : x.stop.toNat ≤ p.dmemSize) (h : x.stop.toNat < x.ptr.toNat + 2) (he : p.rdEof = .fault) :
    rdLoad p m x = .error .endOfInput := by
  rw [rdLoad]
  by_cases hp : x.ptr.toNat < x.stop.toNat
  · rw [rdNextByte_inside hp hs]
    dsimp only
    rw [rdNextByte_fault _ he]
    dsimp only
    rw [ptr_add_one hp]
    omega
  · rw [rdNextByte_fault hp he]

/-- RD_INIT leaves VALUE below RANGE × 256 exactly when its first byte is not FF (log entry 7). -/
theorem rdLoad_below (h : rdLoad p m x = .ok y) (hp : x.ptr.toNat < x.stop.toNat) :
    y.Below ↔ memByte m x.ptr.toNat ≠ 255#8 := by
  unfold rdLoad at h
  cases h1 : rdNextByte p m x with
  | error e => rw [h1] at h; cases h
  | ok bz =>
    obtain ⟨hi, z⟩ := bz
    have hhi : hi = memByte m x.ptr.toNat := by
      rw [rdNextByte, if_pos hp] at h1
      unfold memReadChecked at h1
      split at h1
      next => cases h1
      next b hb =>
        cases h1
        split at hb <;> cases hb
        rfl
    rw [h1] at h
    dsimp only at h
    split at h <;> cases h
    next lo z' _ =>
      have hlo := lo.isLt
      have hhilt := hi.isLt
      change (hi ++ lo).toNat < 255 * 256 ↔ _
      rw [← hhi, ne_eq, ← BitVec.toNat_inj, toNat_append_eq, BitVec.toNat_ofNat]
      omega

/-! ### RD_UINT and RD_SINT (R121, R122) -/

/-- A flag of probability 128 leaves a range of 64 or more, so it shifts once at most. -/
theorem shiftsOf_flag (h : x.Window) : shiftsOf x 128#8 ≤ 1 := by
  have hr := h.1
  have hlt := x.range.isLt
  have hn : 2 ^ 6 ≤ narrowed x 128#8 := by
    have hsplit : split x.range.toNat (128#8 : Byte).toNat = 1 + (x.range.toNat - 1) * 128 / 256 := rfl
    unfold narrowed
    rw [hsplit]
    split <;> omega
  have hlog := (Nat.le_log2 (by omega)).2 hn
  unfold shiftsOf
  omega

/-- `k` bytes are left, or `ZERO_FILL` gives them. -/
def BytesLeft (p : Params) (x : RdCtx) (k : Nat) : Prop :=
  k = 0 ∨ x.ptr.toNat + k ≤ x.stop.toNat ∨ p.rdEof = .zeroFill

/-- A flag is ready where the bytes that `n + 1` shifts can need are left, and leaves those that `n` shifts can need. -/
theorem flag_ready {n : Nat} (h : x.Window) (hb : BytesLeft p x ((x.bitcnt.toNat + (n + 1)) / 8)) :
    BoolReady p x 128#8 ∧
      BytesLeft p (afterBool m x 128#8) (((afterBool m x 128#8).bitcnt.toNat + n) / 8) := by
  have hk := shiftsOf_flag h
  have hbc := x.bitcnt.isLt
  have hcount : (afterBool m x 128#8).bitcnt.toNat = (x.bitcnt.toNat + shiftsOf x 128#8) % 8 := by
    change (BitVec.ofNat 3 _).toNat = _
    rw [BitVec.toNat_ofNat, Nat.mod_mod]
  have hptr : (afterBool m x 128#8).ptr =
      if 8 ≤ x.bitcnt.toNat + shiftsOf x 128#8 ∧ x.ptr.toNat < x.stop.toNat then x.ptr + 1 else x.ptr := rfl
  unfold BytesLeft BoolReady at *
  rw [hcount, hptr, afterBool_stop]
  by_cases he : p.rdEof = .zeroFill
  · exact ⟨.inr (.inr he), .inr (.inr he)⟩
  · simp only [he, or_false] at hb ⊢
    by_cases h8 : 8 ≤ x.bitcnt.toNat + shiftsOf x 128#8
    · have hp : x.ptr.toNat < x.stop.toNat := by omega
      rw [if_pos ⟨h8, hp⟩, ptr_add_one hp]
      omega
    · rw [if_neg (by omega)]
      omega

/-- Flags complete where the bytes that their shifts can need are left; those of `j` more flags are left after them. -/
theorem rdBits_completes (m : Memory) (j : Nat) : ∀ (n v : Nat) {x : RdCtx}, x.Window → x.stop.toNat ≤ p.dmemSize →
    BytesLeft p x ((x.bitcnt.toNat + (n + j)) / 8) →
    ∃ w y, rdBits p m n v x = .ok (w, y) ∧ y.Window ∧ y.stop = x.stop ∧ BytesLeft p y ((y.bitcnt.toNat + j) / 8) := by
  intro n
  induction n with
  | zero =>
    intro v x h _ hb
    rw [Nat.zero_add] at hb
    exact ⟨v, x, rfl, h, rfl, hb⟩
  | succ n ih =>
    intro v x h hs hb
    rw [Nat.add_right_comm] at hb
    obtain ⟨hready, hleft⟩ := flag_ready (m := m) h hb
    rw [rdBits, rdBool_ready h hs hready]
    exact ih _ (afterBool_window h hs hready) hs hleft

/-- How RD_UINT can end, by what its flags give. -/
theorem execRdUint_cases {n : Nat} (h : exec (.rdUint c n) s = .next t) :
    ((s.rd c).valid = false ∧ t = s.raiseError 0x03#8 .invalidArgument) ∨
      (s.rd c).valid = true ∧
        ((∃ e, rdBits s.params s.mem n 0 (s.rd c) = .error e ∧ t = (s.drawRd c).raiseError 0x03#8 e) ∨
          ∃ v x, rdBits s.params s.mem n 0 (s.rd c) = .ok (v, x) ∧
            t = ((s.setRd c x).setResult (BitVec.ofNat 32 v)).complete) := by
  rw [exec, execRdUint] at h
  obtain hbad | ⟨hv, ⟨e, he, rfl⟩ | ⟨v, x, hx, rfl⟩⟩ := rdCommand_cases h
  · exact .inl hbad
  · split at he <;> cases he
    next he => exact .inr ⟨hv, .inl ⟨_, he, rfl⟩⟩
  · split at hx <;> cases hx
    next hx => exact .inr ⟨hv, .inr ⟨_, _, hx, rfl⟩⟩

theorem execRdUint_ok {n v : Nat} (hv : (s.rd c).valid = true)
    (h : rdBits s.params s.mem n 0 (s.rd c) = .ok (v, x)) :
    exec (.rdUint c n) s = .next ((s.setRd c x).setResult (BitVec.ofNat 32 v)).complete := by
  rw [exec, execRdUint]
  exact rdCommand_ok hv (by rw [h])

theorem execRdUint_error {n : Nat} {e : ErrKind} (hv : (s.rd c).valid = true)
    (h : rdBits s.params s.mem n 0 (s.rd c) = .error e) :
    exec (.rdUint c n) s = .next ((s.drawRd c).raiseError 0x03#8 e) := by
  rw [exec, execRdUint]
  exact rdCommand_error hv (by rw [h])

theorem execRdSint_ok {n : Nat} {v : Int} (hv : (s.rd c).valid = true)
    (h : rdSigned s.params s.mem n (s.rd c) = .ok (v, x)) :
    exec (.rdSint c n) s = .next ((s.setRd c x).setResult (BitVec.ofInt 32 v)).complete := by
  rw [exec, execRdSint]
  exact rdCommand_ok hv (by rw [h])

theorem execRdSint_error {n : Nat} {e : ErrKind} (hv : (s.rd c).valid = true)
    (h : rdSigned s.params s.mem n (s.rd c) = .error e) :
    exec (.rdSint c n) s = .next ((s.drawRd c).raiseError 0x04#8 e) := by
  rw [exec, execRdSint]
  exact rdCommand_error hv (by rw [h])

/-- The state after a raise in a flag, whose stream ends in DMEM or not (60_exceptions.md R249). -/
theorem flag_raised {op : Byte} {e : ErrKind} (hv : (s.rd c).valid = true) (hstop : x.stop = (s.rd c).stop)
    (h : rdBool s.params s.mem 128#8 x = .error e) :
    ((s.rd c).stop.toNat ≤ s.params.dmemSize → ((s.drawRd c).raiseError op e).err = 4) ∧
      (((s.drawRd c).raiseError op e).rd c).valid = true ∧ ((s.drawRd c).raiseError op e).result = s.result := by
  refine ⟨fun hs => ?_, (State.drawRd_valid s c c).trans hv, State.drawRd_result s c⟩
  rw [rdBool_end (hstop ▸ hs) h]
  rfl

/-- What a successful RD_UINT has read. -/
theorem execRdUint_inv {n : Nat} (h : exec (.rdUint c n) s = .next t) (ht : t.err = 0) :
    (s.rd c).valid = true ∧ ∃ v x, rdBits s.params s.mem n 0 (s.rd c) = .ok (v, x) ∧ x.valid = true ∧
      x.stop = (s.rd c).stop ∧ t = ((s.setRd c x).setResult (BitVec.ofNat 32 v)).complete := by
  obtain ⟨-, rfl⟩ | ⟨hv, ⟨e, -, rfl⟩ | ⟨v, x, hx, rfl⟩⟩ := execRdUint_cases h
  · exact absurd ht (code_ne_zero .invalidArgument)
  · exact absurd ht (code_ne_zero e)
  · obtain ⟨hstop, hvalid⟩ := rdBits_induct (P := (s.rd c).SameEnd) (fun hx hb => hx.trans (rdBool_sameEnd hb)) ⟨rfl, rfl⟩ hx
    exact ⟨hv, v, x, hx, hvalid.trans hv, hstop, rfl⟩

/-- A flag read after a number of `n` flags: the flag's own context, and the ends of the flag. -/
theorem execRdBool_after {n : Nat} (h : exec (.rdUint c n) s = .next t) (ht : t.err = 0)
    (hu : exec (.rdBool c 128#8) t = .next u) :
    (s.rd c).valid = true ∧ ∃ v x, rdBits s.params s.mem n 0 (s.rd c) = .ok (v, x) ∧ t.result = BitVec.ofNat 32 v ∧
      x.stop = (s.rd c).stop ∧
      ((∃ e, rdBool s.params s.mem 128#8 x = .error e ∧ u.err = e.code) ∨
        ∃ b y, rdBool s.params s.mem 128#8 x = .ok (b, y) ∧ u.err = 0 ∧
          u = ((s.setRd c y).setResult (BitVec.ofNat 32 b.toNat)).complete) := by
  obtain ⟨hv, v, x, hx, hxv, hstop, rfl⟩ := execRdUint_inv h ht
  have hrd : ((s.setRd c x).setResult (BitVec.ofNat 32 v)).complete.rd c = x := by
    cases c <;> rfl
  refine ⟨hv, v, x, hx, rfl, hstop, ?_⟩
  rw [exec, execRdBool] at hu
  obtain ⟨hbad, -⟩ | ⟨-, ⟨e, he, rfl⟩ | ⟨w, y, hy, rfl⟩⟩ := rdCommand_cases hu
  · rw [hrd, hxv] at hbad
    cases hbad
  · rw [hrd] at he
    split at he <;> cases he
    next he =>
      refine .inl ⟨_, ?_, rfl⟩
      cases c <;> exact he
  · rw [hrd] at hy
    split at hy <;> cases hy
    next b hb =>
      refine .inr ⟨b, y, ?_, ?_, ?_⟩
      · cases c <;> exact hb
      · cases c <;> exact ht
      · cases c <;> rfl

theorem ofNat_shift_in (w : Nat) (b : Bool) :
    BitVec.ofNat 32 (2 * w + b.toNat) = 2#32 * BitVec.ofNat 32 w + BitVec.ofNat 32 b.toNat := by
  rw [BitVec.ofNat_add, BitVec.ofNat_mul]

/-- RD_SINT's value where the magnitude is read and its sign flag fails. -/
theorem rdSigned_error {n v : Nat} {e : ErrKind} (h : rdBits p m n 0 x = .ok (v, y)) (hs : rdBool p m 128#8 y = .error e) :
    rdSigned p m n x = .error e := by
  simp only [rdSigned, h, hs]

/-- RD_SINT's value where the magnitude and its sign flag are read. -/
theorem rdSigned_ok {n v : Nat} {sign : Bool} {z : RdCtx} (h : rdBits p m n 0 x = .ok (v, y))
    (hs : rdBool p m 128#8 y = .ok (sign, z)) :
    rdSigned p m n x = .ok (if sign then -(v : Int) else (v : Int), z) := by
  simp only [rdSigned, h, hs]

theorem ofInt_signed (v : Nat) (b : Bool) :
    BitVec.ofInt 32 (if b then -(v : Int) else (v : Int)) =
      if BitVec.ofNat 32 b.toNat = 1 then -BitVec.ofNat 32 v else BitVec.ofNat 32 v := by
  cases b with
  | false => exact BitVec.ofInt_natCast 32 v
  | true => exact BitVec.ofInt_neg.trans (congrArg _ (BitVec.ofInt_natCast 32 v))

/-- A ready context after a read that keeps its end. -/
theorem setRd_ready (hv : (s.rd c).valid = true) (hx : x.Window) (hsame : (s.rd c).SameEnd x) (v : Word) :
    ((((s.setRd c x).setResult v).complete).rd c).valid = true ∧
      ((((s.setRd c x).setResult v).complete).rd c).Window := by
  have hrd : (((s.setRd c x).setResult v).complete).rd c = x := by cases c <;> rfl
  rw [hrd]
  exact ⟨hsame.2.trans hv, hx⟩

theorem rdBits_sameEnd {n v w : Nat} (h : rdBits p m n v x = .ok (w, y)) : x.SameEnd y :=
  rdBits_induct (P := x.SameEnd) (fun hx hb => hx.trans (rdBool_sameEnd hb)) ⟨rfl, rfl⟩ h

/-! ### RD_TREE (R123, R124) -/

theorem memReadChecked_outside {a : Nat} (h : p.dmemSize ≤ a) : memReadChecked p m a = .error .invalidArgument := by
  unfold memReadChecked
  rw [if_neg]
  rw [inDmem_iff]
  omega

theorem treeEntry_eq (s : State) (q : Nat × RdCtx) :
    treeEntry s q = s.rdTreeAddr.toNat + q.1 + (readBit q.2 (memByte s.mem (treeProb s q))).toNat := by
  unfold treeEntry
  cases readBit q.2 (memByte s.mem (treeProb s q)) <;> rfl

theorem flagReady_iff {q : Nat × RdCtx} :
    FlagReady s c q ↔ BoolReady s.params q.2 (memByte s.mem (treeProb s q)) := by
  cases c <;> exact Iff.rfl

/-- The walk of RD_TREE with the addresses of `s`. -/
def treeReads (s : State) (k : Nat) (q : Nat × RdCtx) : Except ErrKind (Nat × RdCtx) :=
  rdTreeWalk s.params s.mem s.rdTreeAddr.toNat s.rdProbAddr.toNat k q.1 q.2

/-- The index and the context after a read of `q` that finds an inner node. -/
def treeNext (s : State) (q : Nat × RdCtx) : Nat × RdCtx :=
  ((memByte s.mem (treeEntry s q)).toNat, afterBool s.mem q.2 (memByte s.mem (treeProb s q)))

/-- A read of the tree is about a context as R125 leaves it whose stream ends in DMEM. -/
structure TreeAt (s : State) (q : Nat × RdCtx) : Prop where
  window : q.2.Window
  inside : q.2.stop.toNat ≤ s.params.dmemSize

section Read

variable {k : Nat} {q : Nat × RdCtx}

theorem treeReads_prob_outside (h : s.params.dmemSize ≤ treeProb s q) :
    treeReads s (k + 1) q = .error .invalidArgument := by
  rw [treeReads, rdTreeWalk, show s.rdProbAddr.toNat + q.1 / 2 = treeProb s q from rfl, memReadChecked_outside h]

theorem treeReads_notReady (hq : TreeAt s q) (hp : treeProb s q < s.params.dmemSize) (hf : ¬ FlagReady s c q) :
    treeReads s (k + 1) q = .error .endOfInput := by
  rw [treeReads, rdTreeWalk, show s.rdProbAddr.toNat + q.1 / 2 = treeProb s q from rfl, memReadChecked_ok hp]
  dsimp only
  rw [rdBool_notReady hq.window (fun hx => hf (flagReady_iff.2 hx))]

/-- A read whose flag can be had goes by its entry. -/
theorem treeReads_ready (hq : TreeAt s q) (hp : treeProb s q < s.params.dmemSize) (hf : FlagReady s c q) :
    treeReads s (k + 1) q =
      match memReadChecked s.params s.mem (treeEntry s q) with
      | .error e => .error e
      | .ok e =>
        if e.toInt ≤ 0 then .ok ((-e.toInt).toNat, (treeNext s q).2)
        else treeReads s k (e.toNat, (treeNext s q).2) := by
  rw [treeReads, rdTreeWalk, show s.rdProbAddr.toNat + q.1 / 2 = treeProb s q from rfl, memReadChecked_ok hp]
  dsimp only
  rw [rdBool_ready hq.window hq.inside (flagReady_iff.1 hf)]
  dsimp only
  rw [← treeEntry_eq]
  rfl

theorem treeReads_inner (hq : TreeAt s q) (hi : InnerRead s q) (hf : FlagReady s c q) :
    treeReads s (k + 1) q = treeReads s k (treeNext s q) := by
  obtain ⟨hp, he, hpos⟩ := hi
  rw [treeReads_ready hq hp hf, memReadChecked_ok he]
  exact if_neg (by omega)

theorem treeReads_leaf (hq : TreeAt s q) (hp : treeProb s q < s.params.dmemSize) (hf : FlagReady s c q)
    (he : treeEntry s q < s.params.dmemSize) (hleaf : (memByte s.mem (treeEntry s q)).toInt ≤ 0) :
    treeReads s (k + 1) q = .ok ((-(memByte s.mem (treeEntry s q)).toInt).toNat, (treeNext s q).2) := by
  rw [treeReads_ready hq hp hf, memReadChecked_ok he]
  exact if_pos hleaf

theorem treeReads_entry_outside (hq : TreeAt s q) (hp : treeProb s q < s.params.dmemSize) (hf : FlagReady s c q)
    (he : s.params.dmemSize ≤ treeEntry s q) : treeReads s (k + 1) q = .error .invalidArgument := by
  rw [treeReads_ready hq hp hf, memReadChecked_outside he]

end Read

/-- `n` reads of inner nodes are steps of `treeWalk`. -/
theorem treeReads_walk {start : Nat} (hx : TreeAt s (start, x)) : ∀ {n : Nat},
    (∀ k < n, InnerRead s (treeWalk s start x k) ∧ FlagReady s c (treeWalk s start x k)) →
    TreeAt s (treeWalk s start x n) ∧ ∀ j, treeReads s (n + j) (start, x) = treeReads s j (treeWalk s start x n) := by
  intro n
  induction n with
  | zero => exact fun _ => ⟨hx, fun j => by rw [Nat.zero_add]; rfl⟩
  | succ n ih =>
    intro hreads
    obtain ⟨hat, hwalk⟩ := ih fun k hk => hreads k (Nat.lt_succ_of_lt hk)
    obtain ⟨hinner, hflag⟩ := hreads n (Nat.lt_succ_self n)
    refine ⟨⟨afterBool_window hat.window hat.inside (flagReady_iff.1 hflag), hat.inside⟩, fun j => ?_⟩
    rw [Nat.add_right_comm, Nat.add_assoc, hwalk, treeReads_inner hat hinner hflag]
    rfl

theorem execRdTree_ok {start : Byte} {v : Nat} (hv : (s.rd c).valid = true)
    (h : treeReads s 255 (start.toNat, s.rd c) = .ok (v, x)) :
    exec (.rdTree c start) s = .next (finished { s.setRd c x with result := BitVec.ofNat 32 v }) := by
  rw [treeReads] at h
  rw [exec, execRdTree]
  exact rdCommand_ok hv (by rw [show Config.treeReadMax = 255 from rfl, h])

theorem execRdTree_raised {start : Byte} {e : ErrKind} (hv : (s.rd c).valid = true)
    (h : treeReads s 255 (start.toNat, s.rd c) = .error e) :
    ∃ t, exec (.rdTree c start) s = .next t ∧ t.err = e.code ∧ t.errOp = 0x05#8 ∧ (t.rd c).valid = true ∧
      t.result = s.result := by
  rw [treeReads] at h
  rw [exec, execRdTree]
  exact rdCommand_raised hv (by rw [show Config.treeReadMax = 255 from rfl, h])

theorem ofNat_toNat_of_nonneg {v : Int} (h : 0 ≤ v) : BitVec.ofNat 32 v.toNat = BitVec.ofInt 32 v := by
  rw [← BitVec.ofInt_natCast, Int.toNat_of_nonneg h]

/-- The walk of RD_TREE from a ready context: where it stands after the inner reads, and what 255 reads of it give. -/
theorem treeWalk_ready {start : Byte} {n : Nat} (h : RdReady s c 0) (hn : n ≤ 255)
    (hreads : ∀ k < n, InnerRead s (treeWalk s start.toNat (s.rd c) k) ∧
      FlagReady s c (treeWalk s start.toNat (s.rd c) k)) :
    TreeAt s (treeWalk s start.toNat (s.rd c) n) ∧
      treeReads s 255 (start.toNat, s.rd c) = treeReads s (255 - n) (treeWalk s start.toNat (s.rd c) n) := by
  obtain ⟨hat, hwalk⟩ := treeReads_walk (x := s.rd c) ⟨h.window, h.inside⟩ hreads
  exact ⟨hat, by rw [← hwalk, Nat.add_sub_cancel' hn]⟩

/-- RD_TREE to its leaf after `n` inner nodes. -/
theorem execRdTree_leaf {start : Byte} {n : Nat} (h : RdReady s c 0) (hn : n < 255)
    (hreads : ∀ k < n, InnerRead s (treeWalk s start.toNat (s.rd c) k) ∧
      FlagReady s c (treeWalk s start.toNat (s.rd c) k))
    (hp : treeProb s (treeWalk s start.toNat (s.rd c) n) < s.params.dmemSize)
    (hf : FlagReady s c (treeWalk s start.toNat (s.rd c) n))
    (he : treeEntry s (treeWalk s start.toNat (s.rd c) n) < s.params.dmemSize)
    (hleaf : (memByte s.mem (treeEntry s (treeWalk s start.toNat (s.rd c) n))).toInt ≤ 0) :
    exec (.rdTree c start) s = .next (finished
      { s.setRd c (treeWalk s start.toNat (s.rd c) (n + 1)).2 with
        result := BitVec.ofInt 32 (-(memByte s.mem (treeEntry s (treeWalk s start.toNat (s.rd c) n))).toInt) }) := by
  obtain ⟨hat, h255⟩ := treeWalk_ready h (Nat.le_of_lt hn) hreads
  rw [show 255 - n = (254 - n) + 1 by omega, treeReads_leaf hat hp hf he hleaf] at h255
  rw [← ofNat_toNat_of_nonneg (by omega)]
  exact execRdTree_ok h.valid h255

/-! ### The window between commands (R125) -/

theorem exec_window {i : Instr} (hs : (s.rd c).valid = true → (s.rd c).Window)
    (h : exec i s = .next t) (ht : t.err = 0) :
    ((t.rd c).valid = true → (t.rd c).Window) ∧
      (i ≠ .rdInit c → (s.rd c).valid = true → (s.rd c).Below → (t.rd c).Below) := by
  by_cases hi : ctxUsed i = some c
  · by_cases hn : ∀ k, i ≠ .rdInit k
    · obtain ⟨read, hread, -, hkeeps⟩ := exec_rdRead ⟨hi, hn⟩ h
      obtain ⟨-, rfl⟩ | ⟨hv, ⟨e, -, rfl⟩ | ⟨v, x, hx, rfl⟩⟩ := rdCommand_cases hread
      · exact absurd ht (code_ne_zero .invalidArgument)
      · exact absurd ht (code_ne_zero e)
      · have hrd : (((s.setRd c x).setResult v).complete).rd c = x := by cases c <;> rfl
        rw [hrd]
        refine ⟨fun _ => hkeeps _ (fun hy hb => (rdBool_keeps hy hb).1) (hs hv) hx, fun _ _ hbelow => ?_⟩
        exact (hkeeps (fun y => y.Window ∧ y.Below)
          (fun hy hb => ⟨(rdBool_keeps hy.1 hb).1, (rdBool_keeps hy.1 hb).2 hy.2⟩) ⟨hs hv, hbelow⟩ hx).2
    · obtain ⟨k, hk⟩ := Classical.not_forall.1 hn
      obtain rfl := Classical.not_not.1 hk
      cases hi
      obtain ⟨-, rfl⟩ | ⟨-, ⟨e, -, rfl⟩ | ⟨x, hx, rfl⟩⟩ := execRdInit_cases h
      · exact absurd ht (code_ne_zero .invalidArgument)
      · exact absurd ht (code_ne_zero e)
      · obtain ⟨-, -, -, -, hwindow⟩ := rdLoad_keeps hx
        have hrd : ((s.setRd c x).complete).rd c = x := by cases c <;> rfl
        rw [hrd]
        exact ⟨fun _ => hwindow, fun hne => absurd rfl hne⟩
  · rw [exec_rd_other hi h]
    exact ⟨hs, fun _ _ hb => hb⟩

theorem execRdInit_below (h : exec (.rdInit c) s = .next t) (ht : t.err = 0)
    (hp : (s.rd c).ptr.toNat < (s.rd c).stop.toNat) :
    (t.rd c).Below ↔ memByte s.mem (s.rd c).ptr.toNat ≠ 255#8 := by
  obtain ⟨-, rfl⟩ | ⟨-, ⟨e, -, rfl⟩ | ⟨x, hx, rfl⟩⟩ := execRdInit_cases h
  · exact absurd ht (code_ne_zero .invalidArgument)
  · exact absurd ht (code_ne_zero e)
  · have hrd : ((s.setRd c x).complete).rd c = x := by cases c <;> rfl
    rw [hrd]
    exact rdLoad_below (x := { s.rd c with valid := false }) hx hp

theorem rdSplit_bounds (h : x.Window) (p8 : Byte) :
    1 ≤ rdSplit x.range p8 ∧ rdSplit x.range p8 ≤ x.range.toNat - 1 := by
  have hr := h.1
  have hb := split_bounds (by omega : 2 ≤ x.range.toNat) p8.isLt
  rw [rdSplit_eq p8 (by omega)]
  omega

end Sys2Proof.Machine

namespace Sys2Proof.Proofs

open Sys2Proof.Machine Sys2Proof.Claim

/-- Settles O18: the two byte fetches, which advance RD_PTR past the bytes there are. -/
theorem rdInit : Obligations.RdInit := by
  intro s c hs
  refine ⟨fun h => ?_, fun h he => ?_⟩
  · rw [exec, execRdInit, rdInit_args.2 hs, withChecks_ok, rdLoad_ok (x := { s.rd c with valid := false }) hs h]
    rfl
  · rw [exec, execRdInit, rdInit_args.2 hs, withChecks_ok,
      rdLoad_short (x := { s.rd c with valid := false }) hs h he]
    refine ⟨_, rfl, rfl, rfl, (State.drawRd_valid _ c c).trans ?_, ?_⟩
    · rw [State.setRd_rd, if_pos rfl]
    · exact (State.drawRd_result _ c).trans (State.setRd_result s c _)

/-- Settles O19: `RdBool` in closed form where its byte can be had, and the end of the stream where it cannot. -/
theorem rdBool : Obligations.RdBool := by
  intro s c p hv hw hs
  exact ⟨fun hb => execRdBool_ok hv (rdBool_ready hw hs hb), fun hb => execRdBool_raised hv (rdBool_notReady hw hb)⟩

/-- Settles O20: `n + 1` flags are `n` flags and one more (`rdBits_succ`), and every flag shifts once at most. -/
theorem rdUint : Obligations.RdUint := by
  refine ⟨fun s c hv => ?_, fun s c n t u _ h ht hu => ?_, fun s c n t he h ht => ?_, fun s c n hr hn => ?_⟩
  · rw [execRdUint_ok hv rfl, setRd_self]
    rfl
  · obtain ⟨hv, w, x, hx, hres, hstop, ⟨e, hflag, hue⟩ | ⟨b, y, hflag, hue, rfl⟩⟩ := execRdBool_after h ht hu
    · refine ⟨fun h0 => absurd (hue.symm.trans h0) (code_ne_zero e), fun _ => ?_⟩
      have hbits : rdBits s.params s.mem (n + 1) 0 (s.rd c) = .error e := by rw [rdBits_succ, hx]; simp only [hflag]
      exact ⟨_, execRdUint_error hv hbits, hue.symm, rfl, flag_raised hv hstop hflag⟩
    · refine ⟨fun _ => ?_, fun h0 => absurd hue h0⟩
      have hbits : rdBits s.params s.mem (n + 1) 0 (s.rd c) = .ok (2 * w + b.toNat, y) := by
        rw [rdBits_succ, hx]; simp only [hflag]
      rw [execRdUint_ok hv hbits, ofNat_shift_in, hres]
      rfl
  · obtain ⟨hv, rfl⟩ | ⟨hv, ⟨e, hx, rfl⟩ | ⟨v, x, -, rfl⟩⟩ := execRdUint_cases h
    · exact exec_refuse (i := .rdUint c (n + 1)) (by rw [ArgsOk, hv]; decide)
    · exact execRdUint_error hv (by rw [rdBits_succ, hx])
    · exact (not_complete (by simp) he ht).elim
  · obtain ⟨w, y, hx, hw, -, -⟩ := rdBits_completes s.mem 0 n 0 hr.window hr.inside hr.bytes
    have hlt := rdBits_lt hx
    refine ⟨_, execRdUint_ok hr.valid hx, by simp, ?_, setRd_ready hr.valid hw (rdBits_sameEnd hx) _⟩
    change (BitVec.ofNat 32 w).toNat < 2 ^ n
    rw [BitVec.toNat_ofNat]
    exact Nat.lt_of_le_of_lt (Nat.mod_le _ _) (by omega)

/-- Settles O21: the magnitude is RD_UINT's number, and the sign is one more flag. -/
theorem rdSint : Obligations.RdSint := by
  refine ⟨fun s c n t u _ h ht hu => ?_, fun s c n t he h ht => ?_, fun s c n hr hn => ?_⟩
  · obtain ⟨hv, w, x, hx, hres, hstop, ⟨e, hflag, hue⟩ | ⟨b, y, hflag, hue, rfl⟩⟩ := execRdBool_after h ht hu
    · refine ⟨fun h0 => absurd (hue.symm.trans h0) (code_ne_zero e), fun _ => ?_⟩
      have hsigned : rdSigned s.params s.mem n (s.rd c) = .error e := rdSigned_error hx hflag
      exact ⟨_, execRdSint_error hv hsigned, hue.symm, rfl, flag_raised hv hstop hflag⟩
    · refine ⟨fun _ => ?_, fun h0 => absurd hue h0⟩
      rw [execRdSint_ok hv (rdSigned_ok hx hflag), ofInt_signed, hres]
      rfl
  · obtain ⟨hv, rfl⟩ | ⟨hv, ⟨e, hx, rfl⟩ | ⟨v, x, -, rfl⟩⟩ := execRdUint_cases h
    · exact exec_refuse (i := .rdSint c n) (by rw [ArgsOk, hv]; decide)
    · exact execRdSint_error hv (by rw [rdSigned, hx])
    · exact (not_complete (by simp) he ht).elim
  · obtain ⟨w, y, hx, hw, hstop, hleft⟩ := rdBits_completes s.mem 1 n 0 hr.window hr.inside hr.bytes
    have hs : y.stop.toNat ≤ s.params.dmemSize := hstop ▸ hr.inside
    have hready := (flag_ready (n := 0) (m := s.mem) hw hleft).1
    have hflag := rdBool_ready (m := s.mem) hw hs hready
    exact ⟨_, execRdSint_ok hr.valid (rdSigned_ok hx hflag), by simp,
      setRd_ready hr.valid (afterBool_window hw hs hready) ((rdBits_sameEnd hx).trans (rdBool_sameEnd hflag)) _⟩

/-- Settles O23: the inner reads are steps of `treeWalk`; the last read goes by its flag and its entry. -/
theorem rdTreeNode : Obligations.RdTreeNode := by
  intro s c start n h hn walk hreads hp
  refine ⟨fun hf he hleaf => execRdTree_leaf h hn hreads hp hf he hleaf, fun hf => ?_⟩
  obtain ⟨hat, h255⟩ := treeWalk_ready h (Nat.le_of_lt hn) hreads
  rw [show 255 - n = (254 - n) + 1 by omega, treeReads_notReady hat hp hf] at h255
  exact execRdTree_raised h.valid h255

/-- Settles O22: the walk whose first read finds a leaf. -/
theorem rdTreeLeaf : Obligations.RdTreeLeaf := by
  intro s c start h prob p entry hb hp he hleaf
  have hf : FlagReady s c (start.toNat, s.rd c) := flagReady_iff.2 hb
  exact execRdTree_leaf (n := 0) h (by decide) nofun hp hf he hleaf

/-- Settles O24: the reads run out, or a byte of the next read lies outside DMEM. -/
theorem rdTreeCyclic : Obligations.RdTreeCyclic := by
  intro s c start n h walk hreads hend
  have hn : n ≤ 255 := by omega
  obtain ⟨hat, h255⟩ := treeWalk_ready h hn hreads
  refine execRdTree_raised (e := .invalidArgument) h.valid (h255.trans ?_)
  obtain rfl | ⟨hlt, hout⟩ := hend
  · rfl
  · rw [show 255 - n = (254 - n) + 1 by omega]
    by_cases hp : treeProb s (walk n) < s.params.dmemSize
    · obtain ⟨hf, he⟩ := hout.resolve_left (by omega)
      exact treeReads_entry_outside hat hp hf he
    · exact treeReads_prob_outside (Nat.le_of_not_lt hp)

/-- Settles O25: `RdBool` keeps the window and the bound, RD_INIT sets the window from two bytes. -/
theorem rdWindowKept : Obligations.RdWindowKept :=
  ⟨fun _ _ _ hw _ h ht => ⟨fun c => (exec_window (hw c) h ht).1, fun c => (exec_window (hw c) h ht).2⟩,
    fun _ _ _ _ h ht hp => execRdInit_below h ht hp, fun _ p hw => rdSplit_bounds hw p⟩

end Sys2Proof.Proofs
end

section
/-! Proofs about the bit reader's commands (42_bit_reader.md R137 to R143) and its accumulator (10_state.md R37). -/

namespace Sys2Proof.Machine

open Sys2Proof.Claim

variable {s t : State} {n : Nat} {b : BrRegs}

/-! ### Ends, from what the read gives -/

theorem execBrPeek_eq (h : BrReady s) (n : Nat) :
    exec (.brPeek n) s = .next (finished { s with
      br := (brPeek s.mem n s.br).2, result := BitVec.ofNat 32 (brPeek s.mem n s.br).1 }) := by
  rw [exec, execBrPeek, br_args.2 h.inside]
  rfl

theorem execBrSkip_ok (h : BrReady s) (hb : brSkip s.mem n s.br = .ok b) :
    exec (.brSkip n) s = .next (finished { s with br := b }) := by
  rw [exec, execBrSkip, br_args.2 h.inside, withChecks_ok, hb]
  rfl

theorem execBrSkip_error {e : ErrKind} (h : BrReady s) (he : brSkip s.mem n s.br = .error e) :
    exec (.brSkip n) s = .next (s.drawBr.raiseError 0x11#8 e) := by
  rw [exec, execBrSkip, br_args.2 h.inside, withChecks_ok, he]
  rfl

theorem execBrRead_ok {v : Nat} (h : BrReady s) (hb : brRead s.mem n s.br = .ok (v, b)) :
    exec (.brRead n) s = .next (finished { s with br := b, result := BitVec.ofNat 32 v }) := by
  rw [exec, execBrRead, br_args.2 h.inside, withChecks_ok, hb]
  rfl

theorem execBrRead_error {e : ErrKind} (h : BrReady s) (he : brRead s.mem n s.br = .error e) :
    exec (.brRead n) s = .next (s.drawBr.raiseError 0x12#8 e) := by
  rw [exec, execBrRead, br_args.2 h.inside, withChecks_ok, he]
  rfl

/-! ### The accumulator between commands (R37) -/

/-- A command that does not read the bit stream keeps the bit reader. -/
theorem exec_br_kept {i : Instr} (hi : usesBr i = false) (h : exec i s = .next t) : t.br = s.br := by
  obtain ⟨u, hu, ⟨e, -, rfl⟩ | rfl⟩ := exec_kept h
  · exact hu.br hi
  · exact hu.br hi

/-- A command that reads the bit stream and succeeds keeps the accumulator's form. -/
theorem exec_br_acc {i : Instr} (hu : usesBr i = true) (hi : i.WellFormed = true) (ha : s.br.AccOk)
    (h : exec i s = .next t) (ht : t.err = 0) : t.br.AccOk := by
  cases i <;> cases hu
  case brPeek n =>
    obtain ⟨-, rfl⟩ | ⟨-, rfl⟩ := execBrPeek_cases h
    · exact absurd ht (code_ne_zero .invalidArgument)
    · exact (brFill_spec (of_decide_eq_true hi) ha).acc
  case brSkip n =>
    obtain ⟨-, rfl⟩ | ⟨-, ⟨e, -, rfl⟩ | ⟨b, hb, rfl⟩⟩ := execBrSkip_cases h
    · exact absurd ht (code_ne_zero .invalidArgument)
    · exact absurd ht (code_ne_zero _)
    · exact brSkip_acc (of_decide_eq_true hi) ha hb
  case brRead n =>
    obtain ⟨-, rfl⟩ | ⟨-, ⟨e, -, rfl⟩ | ⟨v, b, hb, rfl⟩⟩ := execBrRead_cases h
    · exact absurd ht (code_ne_zero .invalidArgument)
    · exact absurd ht (code_ne_zero _)
    · exact brRead_acc (of_decide_eq_true hi) ha hb
  case hfDecode k =>
    obtain ⟨-, rfl⟩ | ⟨-, ⟨e, -, rfl⟩ | ⟨v, b, hb, rfl⟩⟩ := execHfDecode_cases h
    · exact absurd ht (code_ne_zero .invalidArgument)
    · exact absurd ht (code_ne_zero _)
    · exact hfDecode_acc ha hb
  case hfReadLengths =>
    obtain ⟨-, rfl⟩ | ⟨-, ⟨e, -, rfl⟩ | ⟨l, cl, b, hl, rfl⟩⟩ := execHfReadLengths_cases h
    · exact absurd ht (code_ne_zero .invalidArgument)
    · exact absurd ht (code_ne_zero _)
    · exact (readLengthList_ok (BrKept.ofAcc s.mem) ha hl).2.2
  case pxDecode =>
    obtain ⟨-, rfl⟩ | ⟨-, ⟨e, -, rfl⟩ | ⟨r, hr, rfl⟩⟩ := execPxDecode_cases h
    · exact absurd ht (code_ne_zero .invalidArgument)
    · exact absurd ht (code_ne_zero _)
    · exact pxLoop_acc (r := pxStart s) ha hr

end Sys2Proof.Machine

namespace Sys2Proof.Proofs

open Sys2Proof.Machine Sys2Proof.Claim

/-- Settles O26: a fill keeps the stream and consumes none of it. -/
theorem brPeek : Obligations.BrPeek := by
  intro s n h hn
  have hfill := brFill_spec (m := s.mem) hn h.acc
  refine ⟨_, ?_, hfill.consume_zero⟩
  rw [execBrPeek_eq h, ← hfill.low (Nat.le_refl n)]
  rfl

/-- Settles O27: a skip consumes where the stream has the bits, and raises where it has fewer. -/
theorem brSkip : Obligations.BrSkip := by
  intro s n h hn
  refine ⟨fun hav => ?_, fun hav => ?_⟩
  · obtain ⟨b, hb, hcons⟩ := brSkip_ok hn h.acc hav
    exact ⟨b, execBrSkip_ok h hb, hcons⟩
  · exact ⟨_, execBrSkip_error h (brSkip_error hn h.acc hav), rfl, rfl, rfl⟩

/-- Settles O28: a read is a peek and a skip. -/
theorem brRead : Obligations.BrRead := by
  intro s n h hn
  refine ⟨fun hav => ?_, fun hav => ?_⟩
  · obtain ⟨b, hb, hcons⟩ := brRead_ok hn h.acc hav
    exact ⟨b, execBrRead_ok h hb, hcons⟩
  · exact ⟨_, execBrRead_error h (brRead_error hn h.acc hav), rfl, rfl, rfl⟩

/-- Settles O29: each reader of the bit stream keeps the accumulator's form, and the other commands the bit reader. -/
theorem brAccKept : Obligations.BrAccKept := by
  intro i s t hi ha _ h ht
  cases hu : usesBr i with
  | false => rwa [exec_br_kept hu h]
  | true => exact exec_br_acc hu hi ha h ht

end Sys2Proof.Proofs
end

section
/-! Proofs about the inverse transforms (43_inverse_transforms.md R150 to R158): what each command stores, DC-only blocks, and
the two settings of `XF_WRAP16`. -/

namespace Sys2Proof.Machine

open Sys2Proof.Claim

/-! ### Stores -/

/-- The values of a block with their indexes. -/
theorem zipIdx_map_range (f : Nat → Int) (n : Nat) :
    ((List.range n).map f).zipIdx = (List.range n).map fun i => (f i, i) := by
  exact List.ext_getElem (by simp) fun i _ _ => by simp

theorem xfAddPixels_bytes {s : State} (hwf : Memory.wf s.mem) (o : Nat → Int) (a : Nat) :
    memByte (xfAddPixels (xfPixAddr s) 0 ((List.range 16).map o) s.mem) a = addedByte s o a := by
  rw [memByte_xfAddPixels _ _ _ _ hwf, zipIdx_map_range, List.foldl_map]
  rfl

theorem xfStoreHalves_bytes {m : Memory} (hwf : Memory.wf m) (addr : Nat → Nat) (o : Nat → Int) (a : Nat) :
    memByte (xfStoreHalves addr 0 ((List.range 16).map o) m) a = storedByte m addr o a := by
  rw [memByte_xfStoreHalves _ _ _ _ hwf, zipIdx_map_range, List.foldl_map]
  rfl

theorem clamp255_byte (b : Byte) : clamp255 b.toNat = b := by
  have hb := b.isLt
  rw [clamp255, Int.max_eq_left (by omega), Int.min_eq_left (by omega)]
  exact (BitVec.ofInt_natCast 8 _).trans (by rw [BitVec.ofNat_toNat, BitVec.setWidth_eq])

/-- Residuals of 0 leave every pixel as it is. -/
theorem xfAddPixels_zero (addr : Nat → Nat → Nat) {m : Memory} (hwf : Memory.wf m) :
    ∀ n i, xfAddPixels addr i (List.replicate n 0) m = m := by
  intro n
  induction n with
  | zero => exact fun _ => rfl
  | succ n ih =>
    intro i
    rw [List.replicate_succ, xfAddPixels, Int.add_zero, clamp255_byte, memStore_same hwf]
    exact ih (i + 1)

/-! ### `W` on values that fit -/

theorem xfW_small (wrap : Bool) {v : Int} (h1 : -32768 ≤ v) (h2 : v ≤ 32767) : xfW wrap v = v := by
  cases wrap with
  | false => rfl
  | true =>
    change wrap16 v = v
    rw [wrap16_eq]
    omega

/-! ### DC-only blocks (R157) -/

/-- Four values of which only the first may differ from 0. -/
def dcQuad (v : Int) : Quad := { x0 := v, x1 := 0, x2 := 0, x3 := 0 }

/-- The same value four times. -/
def flatQuad (v : Int) : Quad := { x0 := v, x1 := v, x2 := v, x3 := v }

theorem idctQuad_dc (v : Int) : idctQuad (dcQuad v) = flatQuad v := by
  simp [idctQuad, dcQuad, flatQuad, mulC1, mulC2]

theorem iwhtQuad_dc (v : Int) : iwhtQuad (dcQuad v) = flatQuad v := by
  simp [iwhtQuad, dcQuad, flatQuad]

/-- A butterfly that spreads a first value spreads a block's first coefficient over the block. -/
theorem xfTwoPass_dc {f : Quad → Quad} (hf : ∀ v, f (dcQuad v) = flatQuad v) (wrap : Bool) {r c0 : Int}
    (h1 : -32768 ≤ c0) (h2 : c0 ≤ 32767) (hr : 0 ≤ r ∧ r ≤ 4) :
    xfTwoPass f r wrap (c0 :: List.replicate 15 0) = List.replicate 16 ((c0 + r) / 8) := by
  have hcol0 : (f (colQuad (c0 :: List.replicate 15 0) 0)).map (xfW wrap) = flatQuad c0 := by
    rw [show colQuad (c0 :: List.replicate 15 0) 0 = dcQuad c0 from rfl, hf]
    simp only [flatQuad, Quad.map, xfW_small wrap h1 h2]
  have hcol : ∀ k, k < 4 → k ≠ 0 → (f (colQuad (c0 :: List.replicate 15 0) k)).map (xfW wrap) = flatQuad 0 := by
    intro k hk hk0
    have hdc : colQuad (c0 :: List.replicate 15 0) k = dcQuad 0 := by
      obtain rfl | rfl | rfl : k = 1 ∨ k = 2 ∨ k = 3 := by omega
      all_goals rfl
    rw [hdc, hf]
    simp only [flatQuad, Quad.map, xfW_small wrap (v := 0) (by decide) (by decide)]
  have hrow : ∀ i, rowOfCols (flatQuad c0) (flatQuad 0) (flatQuad 0) (flatQuad 0) i = dcQuad c0 := by
    intro i
    unfold rowOfCols
    split <;> rfl
  have hround : xfW wrap ((c0 + r) / 8) = (c0 + r) / 8 := xfW_small wrap (by omega) (by omega)
  have hflat : (flatQuad c0).map (fun v => xfW wrap ((v + r) / 8)) = flatQuad ((c0 + r) / 8) := by
    simp only [flatQuad, Quad.map, hround]
  unfold xfTwoPass
  simp only [hcol0, hcol 1 (by decide) (by decide), hcol 2 (by decide) (by decide), hcol 3 (by decide) (by decide), hrow,
    hf, hflat]
  rfl

theorem idctCore_dc (wrap : Bool) {c0 : Int} (h1 : -32768 ≤ c0) (h2 : c0 ≤ 32767) :
    idctCore wrap (c0 :: List.replicate 15 0) = List.replicate 16 ((c0 + 4) / 8) :=
  xfTwoPass_dc idctQuad_dc wrap h1 h2 (by decide)

theorem iwhtCore_dc (wrap : Bool) {c0 : Int} (h1 : -32768 ≤ c0) (h2 : c0 ≤ 32767) :
    iwhtCore wrap (c0 :: List.replicate 15 0) = List.replicate 16 ((c0 + 3) / 8) :=
  xfTwoPass_dc iwhtQuad_dc wrap h1 h2 (by decide)

theorem xfCoefs_zero {s : State} (h : ∀ i < 16, coef s i = 0) : xfCoefs s = 0 :: List.replicate 15 0 := by
  rw [xfCoefs_eq, List.map_congr_left (g := fun _ => 0) fun i hi => h i (List.mem_range.1 hi)]
  rfl

/-! ### The two settings of `XF_WRAP16` (R158) -/

/-- Every one of the four lies in -B .. B. -/
structure Quad.Within (b : Int) (q : Quad) : Prop where
  x0 : -b ≤ q.x0 ∧ q.x0 ≤ b
  x1 : -b ≤ q.x1 ∧ q.x1 ≤ b
  x2 : -b ≤ q.x2 ∧ q.x2 ≤ b
  x3 : -b ≤ q.x3 ∧ q.x3 ≤ b

/-- `idctQuad` gives values at most four times as large, from a bound of 64 on. -/
theorem idctQuad_within {b : Int} (hb : 64 ≤ b) {q : Quad} (h : q.Within b) : (idctQuad q).Within (4 * b) := by
  obtain ⟨h0, h1, h2, h3⟩ := h
  constructor <;> simp only [idctQuad, mulC1, mulC2] <;> omega

theorem iwhtQuad_within {b : Int} {q : Quad} (h : q.Within b) : (iwhtQuad q).Within (4 * b) := by
  obtain ⟨h0, h1, h2, h3⟩ := h
  constructor <;> simp only [iwhtQuad] <;> omega

theorem Quad.map_congr {f g : Int → Int} {b : Int} (hfg : ∀ v, -b ≤ v → v ≤ b → f v = g v) {q : Quad} (h : q.Within b) :
    q.map f = q.map g := by
  obtain ⟨h0, h1, h2, h3⟩ := h
  simp only [Quad.map, hfg _ h0.1 h0.2, hfg _ h1.1 h1.2, hfg _ h2.1 h2.2, hfg _ h3.1 h3.2]

theorem Quad.map_id_within {f : Int → Int} {b : Int} (hf : ∀ v, -b ≤ v → v ≤ b → f v = v) {q : Quad} (h : q.Within b) :
    q.map f = q := Quad.map_congr (g := id) hf h

theorem getD_of_lt {α : Type} {l : List α} {i : Nat} (h : i < l.length) (d : α) : l.getD i d = l[i] := by
  rw [List.getD_eq_getElem?_getD, List.getElem?_eq_getElem h, Option.getD_some]

theorem getD_of_ge {α : Type} {l : List α} {i : Nat} (h : l.length ≤ i) (d : α) : l.getD i d = d := by
  rw [List.getD_eq_getElem?_getD, List.getElem?_eq_none h, Option.getD_none]

theorem blockAt_within {c : List Int} {b : Int} (hb : 0 ≤ b) (h : ∀ v ∈ c, -b ≤ v ∧ v ≤ b) (k : Nat) :
    -b ≤ blockAt c k ∧ blockAt c k ≤ b := by
  unfold blockAt
  by_cases hk : k < c.length
  · rw [getD_of_lt hk]
    exact h _ (List.getElem_mem hk)
  · rw [getD_of_ge (by omega)]
    omega

theorem rowOfCols_within {b : Int} {q0 q1 q2 q3 : Quad} (h0 : q0.Within b) (h1 : q1.Within b) (h2 : q2.Within b)
    (h3 : q3.Within b) (i : Nat) : (rowOfCols q0 q1 q2 q3 i).Within b := by
  unfold rowOfCols
  split
  · exact ⟨h0.x0, h1.x0, h2.x0, h3.x0⟩
  · exact ⟨h0.x1, h1.x1, h2.x1, h3.x1⟩
  · exact ⟨h0.x2, h1.x2, h2.x2, h3.x2⟩
  · exact ⟨h0.x3, h1.x3, h2.x3, h3.x3⟩

/-- With coefficients of at most 2048, `W` changes nothing: the first pass gives at most 8192, the second at most 32768
before its shift by 3. -/
theorem xfTwoPass_wrap {f : Quad → Quad} (hf : ∀ b : Int, 64 ≤ b → ∀ q : Quad, q.Within b → (f q).Within (4 * b)) {r : Int}
    (hr : 0 ≤ r ∧ r ≤ 4) {c : List Int} (hc : ∀ v ∈ c, -2048 ≤ v ∧ v ≤ 2048) :
    xfTwoPass f r true c = xfTwoPass f r false c := by
  have hcol : ∀ k, (f (colQuad c k)).Within 8192 := fun k =>
    hf 2048 (by decide) _ ⟨blockAt_within (by decide) hc _, blockAt_within (by decide) hc _,
      blockAt_within (by decide) hc _, blockAt_within (by decide) hc _⟩
  have hmap : ∀ wrap k, (f (colQuad c k)).map (xfW wrap) = f (colQuad c k) := fun wrap k =>
    Quad.map_id_within (fun v h1 h2 => xfW_small wrap (by omega) (by omega)) (hcol k)
  have hrow : ∀ i, (f (rowOfCols (f (colQuad c 0)) (f (colQuad c 1)) (f (colQuad c 2)) (f (colQuad c 3)) i)).Within 32768 :=
    fun i => hf 8192 (by decide) _ (rowOfCols_within (hcol 0) (hcol 1) (hcol 2) (hcol 3) i)
  have hround : ∀ v : Int, -32768 ≤ v → v ≤ 32768 → xfW true ((v + r) / 8) = xfW false ((v + r) / 8) := by
    intro v h1 h2
    rw [xfW_small true (by omega) (by omega), xfW_small false (by omega) (by omega)]
  unfold xfTwoPass
  simp only [hmap, Quad.map_congr hround (hrow _)]

end Sys2Proof.Machine

namespace Sys2Proof.Proofs

open Sys2Proof.Machine Sys2Proof.Claim

/-- Settles O30: the residuals are those of the coefficients as they were, added pixel after pixel. -/
theorem xfIdctAdd : Obligations.XfIdctAdd := by
  intro s ha hwf
  refine ⟨xfAddPixels (xfPixAddr s) 0 (idctCore s.params.xfWrap16 (xfCoefs s)) s.mem, ?_, fun a => ?_⟩
  · rw [exec, execXfIdctAdd, xfIdctAdd_args.2 ha]
    rfl
  · rw [xfCoefs_eq, idctCore_eq]
    exact xfAddPixels_bytes hwf _ a

/-- Settles O31: the residuals stored halfword after halfword. -/
theorem xfIdct : Obligations.XfIdct := by
  intro s ha hwf
  refine ⟨xfStoreHalves (fun i => s.xf.outAddr.toNat + 2 * i) 0 (idctCore s.params.xfWrap16 (xfCoefs s)) s.mem, ?_,
    fun a => ?_⟩
  · rw [exec, execXfIdct, xfIdct_args.2 ha]
    rfl
  · rw [xfCoefs_eq, idctCore_eq]
    exact xfStoreHalves_bytes hwf _ _ a

/-- Settles O32: the outputs stored halfword after halfword, a stride apart. -/
theorem xfIwht : Obligations.XfIwht := by
  intro s ha hwf
  refine ⟨xfStoreHalves (fun i => s.xf.outAddr.toNat + i * s.xf.outStride.toNat) 0
    (iwhtCore s.params.xfWrap16 (xfCoefs s)) s.mem, ?_, fun a => ?_⟩
  · rw [exec, execXfIwht, xfIwht_args.2 ha]
    rfl
  · rw [xfCoefs_eq, iwhtCore_eq]
    exact xfStoreHalves_bytes hwf _ _ a

/-- Settles O33: both butterflies spread a DC value; an all-zero block adds 0 to every pixel. -/
theorem xfDcOnly : Obligations.XfDcOnly := by
  refine ⟨fun wrap c0 h1 h2 => ⟨idctCore_dc wrap h1 h2, iwhtCore_dc wrap h1 h2⟩, fun s ha hwf h0 => ?_⟩
  rw [exec, execXfIdctAdd, xfIdctAdd_args.2 ha, withChecks_ok, xfCoefs_zero h0, idctCore_dc _ (by decide) (by decide),
    show ((0 : Int) + 4) / 8 = 0 from rfl, xfAddPixels_zero _ hwf]
  rfl

/-- Settles O34: the values of both passes fit 16 bits. -/
theorem xfWrapAgrees : Obligations.XfWrapAgrees := by
  intro c _ hc
  have hc' : ∀ v ∈ c, -2048 ≤ v ∧ v ≤ 2048 := fun v hv => ⟨(hc v hv).1, by have := (hc v hv).2; omega⟩
  exact ⟨xfTwoPass_wrap (fun _ hb _ => idctQuad_within hb) (by decide) hc',
    xfTwoPass_wrap (fun _ _ _ => iwhtQuad_within) (by decide) hc'⟩

end Sys2Proof.Proofs
end

section
/-! Proofs about CV_CONVERT (44_color_convert.md R170 to R174): pixel by pixel in raster order, and what the image holds when
the output lies apart from its samples. -/

namespace Sys2Proof.Machine

open Sys2Proof.Claim

/-- One pixel's bytes are stored one after the other. -/
theorem cvStep_eq (v : CvRegs) (y x : Nat) (m : Memory) : cvStep v y x m =
    (List.range 4).foldl (fun m' k => memStore m' (dstAt v x y + k) (rgba v m x y k)) m := by
  rw [cvStep, cvOutput_eq]
  generalize rgba v m x y = f
  rfl

theorem mem_raster {w h x y : Nat} : (x, y) ∈ raster w h ↔ x < w ∧ y < h := by
  unfold raster
  rw [List.mem_flatMap]
  constructor
  · rintro ⟨y', hy', hmem⟩
    obtain ⟨x', hx', heq⟩ := List.mem_map.1 hmem
    obtain ⟨rfl, rfl⟩ := Prod.mk.inj heq
    exact ⟨List.mem_range.1 hx', List.mem_range.1 hy'⟩
  · rintro ⟨hx, hy⟩
    exact ⟨y, List.mem_range.2 hy, List.mem_map.2 ⟨x, List.mem_range.2 hx, rfl⟩⟩

/-- The chroma samples that pixel (x, y) reads lie in their plane, so equal planes give equal chroma. -/
theorem chroma_congr {v : CvRegs} {m m' : Memory} {base x y : Nat} (hx : x < v.width.toNat) (hy : y < v.height.toNat)
    (h : ∀ j < (v.height.toNat + 1) / 2, ∀ i < (v.width.toNat + 1) / 2,
      memByte m (base + j * v.uvStride.toNat + i) = memByte m' (base + j * v.uvStride.toNat + i)) :
    chroma v m base x y = chroma v m' base x y := by
  have hp : ∀ i j, i < (v.width.toNat + 1) / 2 → j < (v.height.toNat + 1) / 2 →
      (memByte m (base + j * v.uvStride.toNat + i)).toNat = (memByte m' (base + j * v.uvStride.toNat + i)).toNat :=
    fun i j hi hj => by rw [h j hj i hi]
  have hi0 : x / 2 < (v.width.toNat + 1) / 2 := by omega
  have hj0 : y / 2 < (v.height.toNat + 1) / 2 := by omega
  have hi1 : min (x / 2 + x % 2) ((v.width.toNat + 1) / 2 - 1) < (v.width.toNat + 1) / 2 := by omega
  have hj1 : min (y / 2 + y % 2) ((v.height.toNat + 1) / 2 - 1) < (v.height.toNat + 1) / 2 := by omega
  simp only [chroma, hp _ _ hi0 hj0, hp _ _ hi1 hj0, hp _ _ hi0 hj1, hp _ _ hi1 hj1]

/-- Pixel (x, y) depends on the samples only. -/
theorem rgba_congr {v : CvRegs} {m m' : Memory} (h : ∀ a, IsSample v a → memByte m a = memByte m' a) {x y : Nat}
    (hx : x < v.width.toNat) (hy : y < v.height.toNat) (k : Nat) : rgba v m x y k = rgba v m' x y k := by
  have hu : chroma v m v.uAddr.toNat x y = chroma v m' v.uAddr.toNat x y :=
    chroma_congr hx hy fun j hj i hi => h _ (.inr ⟨j, hj, i, hi, .inl rfl⟩)
  have hv : chroma v m v.vAddr.toNat x y = chroma v m' v.vAddr.toNat x y :=
    chroma_congr hx hy fun j hj i hi => h _ (.inr ⟨j, hj, i, hi, .inr rfl⟩)
  simp only [rgba, hu, hv, h _ (.inl ⟨y, hy, x, hx, rfl⟩)]

/-- With rows apart, no byte of a pixel stands in a later row. -/
theorem dstAt_row_lt {v : CvRegs} (hr : v.height = 1 ∨ 4 * v.width.toNat ≤ v.dstStride.toNat) {x y x' y' : Nat}
    (hx : x < v.width.toNat) (hy' : y' < v.height.toNat) (hyy : y < y') : dstAt v x y + 4 ≤ dstAt v x' y' := by
  obtain h1 | hs := hr
  · rw [h1] at hy'
    exact absurd (show y' < 1 from hy') (by omega)
  · have hrow : (y + 1) * v.dstStride.toNat ≤ y' * v.dstStride.toNat := Nat.mul_le_mul_right _ hyy
    rw [Nat.add_mul] at hrow
    unfold dstAt
    omega

/-- With rows apart, a byte belongs to one pixel. -/
theorem dstAt_pixel {v : CvRegs} (hr : v.height = 1 ∨ 4 * v.width.toNat ≤ v.dstStride.toNat) {x y x' y' k : Nat}
    (hx : x < v.width.toNat) (hy : y < v.height.toNat) (hx' : x' < v.width.toNat) (hy' : y' < v.height.toNat) (hk : k < 4)
    (h : dstAt v x' y' ≤ dstAt v x y + k ∧ dstAt v x y + k < dstAt v x' y' + 4) : x = x' ∧ y = y' := by
  obtain hlt | rfl | hgt := Nat.lt_trichotomy y y'
  · have := dstAt_row_lt (x' := x') hr hx hy' hlt
    omega
  · unfold dstAt at h
    omega
  · have := dstAt_row_lt (x' := x) hr hx' hy hgt
    omega

/-- What holds of the memory `m` after the pixels `qs`: nothing else is stored, and each of them holds the conversion of the
samples as they stood in `s`. -/
structure Converted (s : State) (qs : List (Nat × Nat)) (m : Memory) : Prop where
  wf     : Memory.wf m
  kept   : ∀ a, ¬ StoresTo s a .cvConvert → memByte m a = memByte s.mem a
  pixels : ∀ x y, (x, y) ∈ qs → ∀ k < 4, memByte m (dstAt s.cv x y + k) = rgba s.cv s.mem x y k

/-- One more pixel is converted, and the ones before keep their values. -/
theorem Converted.step {s : State} (ha : CvApart s) {qs : List (Nat × Nat)} {m : Memory} (h : Converted s qs m)
    (hin : ∀ x y, (x, y) ∈ qs → x < s.cv.width.toNat ∧ y < s.cv.height.toNat) {x y : Nat} (hx : x < s.cv.width.toNat)
    (hy : y < s.cv.height.toNat) : Converted s (qs ++ [(x, y)]) (cvStep s.cv y x m) := by
  have hrgba : ∀ k, rgba s.cv m x y k = rgba s.cv s.mem x y k :=
    rgba_congr (fun a hs => h.kept a (ha.samples a hs)) hx hy
  refine ⟨cvStep_wf h.wf, fun a hout => ?_, fun x' y' hq k hk => ?_⟩
  · rw [memByte_cvStep h.wf, if_neg, h.kept a hout]
    intro hc
    exact hout ⟨y, hy, x, hx, a - dstAt s.cv x y, by omega, by unfold dstAt at hc ⊢; omega⟩
  · rw [memByte_cvStep h.wf]
    split
    next hc =>
      have hin' : x' < s.cv.width.toNat ∧ y' < s.cv.height.toNat := by
        obtain hq | hq := List.mem_append.1 hq
        · exact hin x' y' hq
        · obtain ⟨rfl, rfl⟩ := Prod.mk.inj (List.mem_singleton.1 hq)
          exact ⟨hx, hy⟩
      obtain ⟨rfl, rfl⟩ := dstAt_pixel ha.rows hin'.1 hin'.2 hx hy hk hc
      rw [Nat.add_sub_cancel_left, hrgba]
    next hc =>
      obtain hq | hq := List.mem_append.1 hq
      · exact h.pixels x' y' hq k hk
      · obtain ⟨rfl, rfl⟩ := Prod.mk.inj (List.mem_singleton.1 hq)
        exact absurd ⟨Nat.le_add_right _ _, Nat.add_lt_add_left hk _⟩ hc

/-- More pixels of the image, converted one after the other. -/
theorem Converted.fold {s : State} (ha : CvApart s) (qs : List (Nat × Nat)) : ∀ {ps : List (Nat × Nat)} {m : Memory},
    Converted s ps m → (∀ x y, (x, y) ∈ ps ++ qs → x < s.cv.width.toNat ∧ y < s.cv.height.toNat) →
    Converted s (ps ++ qs) (qs.foldl (fun m q => cvStep s.cv q.2 q.1 m) m) := by
  induction qs with
  | nil =>
    intro ps m h _
    rwa [List.append_nil]
  | cons q qs ih =>
    intro ps m h hin
    obtain ⟨hx, hy⟩ := hin q.1 q.2 (List.mem_append_right _ List.mem_cons_self)
    have hnext := h.step ha (fun x y hq => hin x y (List.mem_append_left _ hq)) hx hy
    rw [List.append_cons] at hin ⊢
    exact ih hnext hin

theorem Converted.nil {s : State} (hwf : Memory.wf s.mem) : Converted s [] s.mem := ⟨hwf, fun _ _ => rfl, nofun⟩

end Sys2Proof.Machine

namespace Sys2Proof.Proofs

open Sys2Proof.Machine Sys2Proof.Claim

/-- Settles O35: the rows are a fold over the pixels in raster order. -/
theorem cvRaster : Obligations.CvRaster := by
  intro s ha
  rw [exec, execCvConvert, cv_args.2 ha, withChecks_ok, cvRows_eq]
  simp only [cvStep_eq]
  rfl

/-- Settles O36: no pixel changes a sample or a pixel converted before it. -/
theorem cvPixels : Obligations.CvPixels := by
  intro s ha hwf hap
  have hdone : Converted s (raster s.cv.width.toNat s.cv.height.toNat) (cvRows s.cv s.cv.height.toNat s.mem) := by
    rw [cvRows_eq]
    exact Converted.fold hap _ (Converted.nil hwf) fun x y h => mem_raster.1 h
  refine ⟨cvRows s.cv s.cv.height.toNat s.mem, ?_, fun y hy x hx k hk => ?_, hdone.kept⟩
  · rw [exec, execCvConvert, cv_args.2 ha]
    rfl
  · exact hdone.pixels x y (mem_raster.2 ⟨hx, hy⟩) k hk

end Sys2Proof.Proofs
end

section
/-! Proofs about canonical codes and the slots (45_huffman.md R186 to R195): building and freeing a slot, the assignment of
codes, and decoding one symbol. -/

namespace Sys2Proof.Machine

open Sys2Proof.Claim

/-! ### The order of the codes (R188) -/

theorem count_take_succ {l : List Nat} {i : Nat} (hi : i < l.length) (n : Nat) :
    (l.take (i + 1)).count n = (l.take i).count n + if l.getD i 0 = n then 1 else 0 := by
  rw [List.take_add_one, List.getElem?_eq_getElem hi, Option.toList_some, List.count_append, List.count_singleton,
    getD_of_lt hi]
  simp only [beq_iff_eq]

/-- From one symbol of a length to the next symbol of that length the count grows by one. -/
theorem count_take_next {l : List Nat} {y : Nat} : ∀ {z : Nat}, y < z → z ≤ l.length →
    (∀ x, y < x → x < z → l.getD x 0 ≠ l.getD y 0) → (l.take z).count (l.getD y 0) = (l.take y).count (l.getD y 0) + 1 := by
  intro z
  induction z with
  | zero => exact fun hyz => absurd hyz (Nat.not_lt_zero y)
  | succ z ih =>
    intro hyz hl hne
    by_cases hz : y = z
    · subst hz
      rw [count_take_succ (by omega), if_pos rfl]
    · rw [count_take_succ (by omega), if_neg (hne z (by omega) (by omega)),
        ih (by omega) (by omega) fun x h1 h2 => hne x h1 (by omega)]

/-- A bound on every length bounds the length of any symbol. -/
theorem getD_le {l : List Nat} {b : Nat} (h : ∀ x ∈ l, x ≤ b) (i : Nat) : l.getD i 0 ≤ b := by
  by_cases hi : i < l.length
  · rw [getD_of_lt hi]
    exact h _ (List.getElem_mem hi)
  · rw [getD_of_ge (by omega)]
    exact Nat.zero_le b

theorem codeOf_next {l : HCode} {y z : Nat} (hyz : y < z) (hz : z < l.length) (hlen : l.getD y 0 = l.getD z 0)
    (hne : ∀ x, y < x → x < z → l.getD x 0 ≠ l.getD y 0) : codeOf l z = codeOf l y + 1 := by
  rw [codeOf_eq, codeOf_eq, ← hlen, count_take_next hyz (by omega) hne, Nat.add_assoc]

/-- A code, continued to the length of a longer one, lies below it. -/
theorem codeOf_shorter {l : HCode} {y z : Nat} (hy : 0 < l.getD y 0) (hyz : l.getD y 0 < l.getD z 0) :
    (codeOf l y + 1) * 2 ^ (l.getD z 0 - l.getD y 0) ≤ codeOf l z := by
  obtain ⟨k, hk⟩ : ∃ k, l.getD z 0 = l.getD y 0 + k + 1 := ⟨l.getD z 0 - l.getD y 0 - 1, by omega⟩
  have hz := (codeOf_lt_end (l := l) (y := z) (by omega)).1
  rw [hk] at hz
  rw [hk, show l.getD y 0 + k + 1 - l.getD y 0 = k + 1 by omega]
  calc (codeOf l y + 1) * 2 ^ (k + 1)
      ≤ codeEnd l (l.getD y 0) * 2 ^ (k + 1) := Nat.mul_le_mul_right _ (codeOf_lt_end hy).2
    _ ≤ firstCode l (l.getD y 0 + k + 1) := codeEnd_le_firstCode l _ k
    _ ≤ codeOf l z := hz

/-- In a valid code of two or more symbols every code fits its length, and no length is above 15. -/
theorem codeOf_fits {l : HCode} (hv : lensValid l = true) (hm : ManySymbols l) {y : Nat} (hy : 0 < l.getD y 0) :
    l.getD y 0 ≤ 15 ∧ codeOf l y < 2 ^ l.getD y 0 := by
  obtain ⟨hle, hk⟩ := complete_of_valid hv (singleSymbol_none hm)
  have h15 : l.getD y 0 ≤ 15 := getD_le hle y
  exact ⟨h15, Nat.lt_of_lt_of_le (codeOf_lt_end hy).2 (codeEnd_le hle (Nat.le_of_eq hk) h15)⟩

/-- In a valid code of two or more symbols the search finds the symbol whose code is ahead. -/
theorem hfMatch_ahead {l : HCode} (hv : lensValid l = true) (hm : ManySymbols l) {y v : Nat} (hy : 0 < l.getD y 0)
    (ha : CodeAhead l y (l.getD y 0) v) : hfMatch l v 15 1 0 = some (l.getD y 0, y) :=
  have hfit := codeOf_fits hv hm hy
  hfMatch_code hy hfit.1 ((pfx_eq_iff hfit.2).2 ha)

/-- With 15 bits left a valid code gives a symbol that occurs; with two or more symbols its code is ahead. -/
theorem hfDecode_total {l : HCode} (hv : lensValid l = true) (m : Memory) {b : BrRegs} (hb : b.AccOk) (h15 : 15 ≤ avail b) :
    ∃ y b', hfDecode l m b = .ok (y, b') ∧ y < l.length ∧ 0 < l.getD y 0 ∧
      (ManySymbols l → CodeAhead l y (l.getD y 0) (stream m b)) := by
  cases hs : singleSymbol l with
  | some y =>
    have honly := singleSymbol_some.1 hs
    obtain ⟨hlt, hpos⟩ := onlySymbol_lt honly
    refine ⟨y, b, hfDecode_single honly b, hlt, hpos, fun hm => ?_⟩
    rw [singleSymbol_none hm] at hs
    cases hs
  | none =>
    obtain ⟨hle, hk⟩ := complete_of_valid hv hs
    obtain ⟨len, y, hmatch, hpos, hlen, hlt, hy, hcode⟩ := hfMatch_complete hle hk (stream m b)
    obtain ⟨b', hdec, _⟩ := (hfDecode_many hs hb hlen hmatch).1 (by omega)
    subst hy
    refine ⟨y, b', hdec, hlt, hpos, fun hm => ?_⟩
    exact (pfx_eq_iff (codeOf_fits hv hm hpos).2).1 hcode

/-! ### The commands -/

theorem hfDecode_ready {s : State} {t : Nat} {l : HCode} (hin : s.br.stop.toNat ≤ s.params.dmemSize) (ht : t < 1280)
    (hl : s.slot t = some l) : ArgsOk s (.hfDecode t) := ⟨ht, by rw [hl]; exact Option.some_ne_none l, hin⟩

/-- HF_DECODE where the decoding gives a symbol. -/
theorem exec_hfDecode_ok {s : State} {t v : Nat} {l : HCode} {b : BrRegs} (ha : ArgsOk s (.hfDecode t))
    (hl : s.slot t = some l) (h : hfDecode l s.mem s.br = .ok (v, b)) :
    exec (.hfDecode t) s = .next (finished { s with br := b, result := BitVec.ofNat 32 v }) := by
  rw [exec, execHfDecode, hfDecode_args.2 ha, withChecks_ok, hl, Option.getD_some, h]
  rfl

/-- HF_DECODE where the decoding fails. -/
theorem exec_hfDecode_error {s : State} {t : Nat} {l : HCode} {e : ErrKind} (ha : ArgsOk s (.hfDecode t))
    (hl : s.slot t = some l) (h : hfDecode l s.mem s.br = .error e) : exec (.hfDecode t) s = failed 0x41#8 e s.drawBr := by
  rw [exec, execHfDecode, hfDecode_args.2 ha, withChecks_ok, hl, Option.getD_some, h]

end Sys2Proof.Machine

namespace Sys2Proof.Proofs

open Sys2Proof.Machine Sys2Proof.Claim

/-- Settles O37: `lensValid` is R190, and only the command's slot is set. -/
theorem hfBuild : Obligations.HfBuild := by
  intro s t ha hcan
  have hset : ∀ v k, Sparse.get none (Sparse.set none s.slots t v) k = if k = t then v else s.slot k :=
    fun v k => Sparse.get_set hcan t v k
  by_cases hv : lensValid (lensAt s.mem s.hf.lenAddr.toNat s.hf.alpha.toNat) = true
  · refine ⟨Sparse.set none s.slots t (some (lensAt s.mem s.hf.lenAddr.toNat s.hf.alpha.toNat)), ?_, ?_, ?_⟩
    · exact fun k hk => (hset _ k).trans (if_neg hk)
    · refine fun _ => ⟨?_, (hset _ t).trans (if_pos rfl)⟩
      rw [exec, execHfBuild, hfBuild_args.2 ha, withChecks_ok, if_pos (show lensValid (lenArray s) = true from hv)]
      rfl
    · exact fun hn => absurd (lensValid_iff.1 hv) hn
  · refine ⟨Sparse.set none s.slots t none, ?_, ?_, ?_⟩
    · exact fun k hk => (hset _ k).trans (if_neg hk)
    · exact fun h => absurd (lensValid_iff.2 h) hv
    · refine fun _ => ⟨?_, (hset _ t).trans (if_pos rfl)⟩
      rw [exec, execHfBuild, hfBuild_args.2 ha, withChecks_ok, if_neg (show ¬ lensValid (lenArray s) = true from hv)]
      rfl

/-- Settles O38: only the command's slot is set. -/
theorem hfFree : Obligations.HfFree := by
  intro s t ht hcan
  refine ⟨Sparse.set none s.slots t none, ?_, ?_, fun k hk => ?_⟩
  · rw [exec, execHfFree, hfFree_args.2 (show ArgsOk s (.hfFree t) from ht)]
    rfl
  · rw [Sparse.get_set hcan, if_pos rfl]
  · exact (Sparse.get_set hcan t none k).trans (if_neg hk)

/-- Settles O39: a code counts the symbols before it of its length, from twice the end of the codes one shorter. -/
theorem canonicalCodes : Obligations.CanonicalCodes := fun _ =>
  ⟨fun _ _ hyz hz hlen hne => codeOf_next hyz hz hlen hne, fun _ _ hy hyz => codeOf_shorter hy hyz,
    fun hv hm _ hy => (codeOf_fits (lensValid_iff.2 hv) hm hy).2⟩

/-- Settles O40: the search finds the code ahead, and only its bits are consumed. -/
theorem hfDecode : Obligations.HfDecode := by
  intro s t l y hready ht hl hcode hm hy ha
  obtain ⟨hok, hend⟩ := hfDecode_many (singleSymbol_none hm) hready.acc (codeOf_fits hcode.1 hm hy).1
    (hfMatch_ahead hcode.1 hm hy ha)
  have hargs := hfDecode_ready hready.inside ht hl
  refine ⟨fun hbits => ?_, fun hbits => ?_⟩
  · obtain ⟨b, hdec, hcons⟩ := hok hbits
    exact ⟨b, exec_hfDecode_ok hargs hl hdec, hcons⟩
  · exact ⟨_, exec_hfDecode_error hargs hl (hend hbits), rfl, rfl, rfl⟩

/-- Settles O41: a single-symbol code is decoded without the stream. -/
theorem hfDecodeSingle : Obligations.HfDecodeSingle := by
  intro s t l y hin ht hl honly
  exact exec_hfDecode_ok (hfDecode_ready hin ht hl) hl (hfDecode_single honly s.br)

/-- Settles O42: a complete code matches any 15 bits. -/
theorem hfDecodeTotal : Obligations.HfDecodeTotal := by
  intro s t l hready ht hl hcode h15
  obtain ⟨y, b, hdec, hlt, hpos, hahead⟩ := hfDecode_total hcode.1 s.mem hready.acc h15
  exact ⟨_, y, exec_hfDecode_ok (hfDecode_ready hready.inside ht hl) hl hdec, rfl, rfl, hlt, hpos, hahead⟩

end Sys2Proof.Proofs
end

section
/-! Proofs about HF_READ_LENGTHS (45_huffman.md R196 to R199): simple lists, normal lists, and the range of the lengths. -/

namespace Sys2Proof.Machine

open Sys2Proof.Claim

variable {m : Memory} {b0 b : BrRegs} {s : State}

/-! ### What the command stores -/

theorem memByte_lengths (hm : Memory.wf m) {a : Nat} {l : HCode} {k : Nat} (hk : k < l.length) :
    memByte (memStoreList m a (l.map (BitVec.ofNat 8))) (a + k) = BitVec.ofNat 8 (l.getD k 0) := by
  rw [memByte_storeList hm, List.length_map, if_pos (by omega), Nat.add_sub_cancel_left,
    getD_of_lt (by rwa [List.length_map]), List.getElem_map, getD_of_lt hk]

theorem memByte_lengths_outside {l : HCode} (hm : Memory.wf s.mem) (hl : l.length = s.hf.alpha.toNat) {a : Nat}
    (ha : ¬ StoresTo s a .hfReadLengths) :
    memByte (memStoreList s.mem s.hf.lenAddr.toNat (l.map (BitVec.ofNat 8))) a = memByte s.mem a := by
  have hout := lengths_stores ha
  rw [memByte_storeList hm, List.length_map, hl, if_neg (by omega)]

theorem readLengthList_length {a : Nat} {l : HCode} {cl : Option HCode} (h : readLengthList m a b = .ok (l, cl, b0)) :
    l.length = a ∧ ∀ x ∈ l, x ≤ 15 :=
  have hl := readLengthList_ok (BrKept.ofStop m b.stop) rfl h
  ⟨hl.1, hl.2.1⟩

/-- HF_READ_LENGTHS where a list is read. -/
theorem exec_hfReadLengths_ok {l : HCode} {cl : Option HCode} (ha : ArgsOk s .hfReadLengths)
    (h : readLengthList s.mem s.hf.alpha.toNat s.br = .ok (l, cl, b)) :
    exec .hfReadLengths s = .next (finished { s with
      mem := memStoreList s.mem s.hf.lenAddr.toNat (l.map (BitVec.ofNat 8)), br := b, scratchCl := cl.or s.scratchCl }) := by
  rw [exec, execHfReadLengths, hfReadLengths_args.2 ha, withChecks_ok, h]
  rfl

/-- HF_READ_LENGTHS where the list is refused. -/
theorem exec_hfReadLengths_error {e : ErrKind} (ha : ArgsOk s .hfReadLengths)
    (h : readLengthList s.mem s.hf.alpha.toNat s.br = .error e) :
    ∃ t, exec .hfReadLengths s = .next t ∧ t.err = 2 ∧ t.errOp = 0x42#8 ∧ t.result = s.result := by
  obtain rfl := readLengthList_raises h
  rw [exec, execHfReadLengths, hfReadLengths_args.2 ha, withChecks_ok, h]
  exact ⟨_, rfl, rfl, rfl, rfl⟩

/-! ### Simple lists (R197) over the stream as a number -/

/-- How many bits the first symbol of a simple list has. -/
def simpleWidth (v : Nat) : Nat := if v / 4 % 2 = 1 then 8 else 1

/-- The first symbol of a simple list. -/
def simpleFirst (v : Nat) : Nat := v / 8 % 2 ^ simpleWidth v

/-- The second symbol of a simple list that has two. -/
def simpleSecond (v : Nat) : Nat := v / 2 ^ (3 + simpleWidth v) % 256

/-- How many bits a simple list has, its flag among them. -/
def simpleBits (v : Nat) : Nat := 3 + simpleWidth v + if v / 2 % 2 = 1 then 8 else 0

/-- The lengths that a simple list gives an alphabet of `a` symbols. -/
def simpleLens (a v : Nat) : HCode :=
  if v / 2 % 2 = 1 then ((List.replicate a 0).set (simpleFirst v) 1).set (simpleSecond v) 1
  else (List.replicate a 0).set (simpleFirst v) 1

/-- A stream of `n` bits holds all of the simple list, whose symbols lie in the alphabet. -/
def SimpleOk (a v n : Nat) : Prop := simpleBits v ≤ n ∧ simpleFirst v < a ∧ (v / 2 % 2 = 1 → simpleSecond v < a)

theorem simpleLens_getD {a v k : Nat} (hk : k < a) :
    (simpleLens a v).getD k 0 = if k = simpleFirst v ∨ (v / 2 % 2 = 1 ∧ k = simpleSecond v) then 1 else 0 := by
  have hset : ∀ (l : HCode) (i : Nat), k < l.length → (l.set i 1).getD k 0 = if k = i then 1 else l.getD k 0 := by
    intro l i hl
    rw [getD_of_lt (by rwa [List.length_set]), List.getElem_set, getD_of_lt hl]
    simp only [eq_comm]
  have hrep : (List.replicate a 0).getD k 0 = 0 := by
    rw [getD_of_lt (by rwa [List.length_replicate]), List.getElem_replicate]
  unfold simpleLens
  split
  next htwo =>
    rw [hset _ _ (by rwa [List.length_set, List.length_replicate]), hset _ _ (by rwa [List.length_replicate]), hrep]
    grind
  next hone =>
    rw [hset _ _ (by rwa [List.length_replicate]), hrep]
    simp only [hone, false_and, or_false]

/-- One number of the stream, its place and fill being the same. -/
theorem brRead_at {n p : Nat} (hn : n < 32) (h : StandsAt m b0 b ⟨p, p⟩) :
    (avail b0 < p + n ∧ brRead m n b = .error .invalidData) ∨
      (p + n ≤ avail b0 ∧
        ∃ b', brRead m n b = .ok (stream m b0 / 2 ^ p % 2 ^ n, b') ∧ StandsAt m b0 b' ⟨p + n, p + n⟩) := by
  have hr := brRead_agrees hn h
  rw [bitsAt] at hr
  split at hr
  next hp =>
    rw [show max p (p + n) = p + n from Nat.max_eq_right (Nat.le_add_right p n)] at hr
    exact .inr ⟨hp, hr⟩
  next hp => exact .inl ⟨Nat.lt_of_not_le hp, hr⟩

theorem simpleWidth_le (v : Nat) : 1 ≤ simpleWidth v ∧ simpleWidth v ≤ 8 := by
  unfold simpleWidth
  split <;> decide

theorem simpleBits_ge (v : Nat) : 3 + simpleWidth v ≤ simpleBits v := Nat.le_add_right _ _

theorem simpleBits_one {v : Nat} (h : v / 2 % 2 ≠ 1) : simpleBits v = 3 + simpleWidth v := by
  rw [simpleBits, if_neg h, Nat.add_zero]

theorem simpleBits_two {v : Nat} (h : v / 2 % 2 = 1) : simpleBits v = 3 + simpleWidth v + 8 := by
  rw [simpleBits, if_pos h]

/-- `readSimple` after the list's flag: the lengths, or `InvalidData` where the stream or the alphabet is too small. -/
theorem readSimple_at (a : Nat) (h : StandsAt m b0 b ⟨1, 1⟩) :
    (SimpleOk a (stream m b0) (avail b0) ∧ ∃ b', readSimple m a b = .ok (simpleLens a (stream m b0), b') ∧
        StandsAt m b0 b' ⟨simpleBits (stream m b0), simpleBits (stream m b0)⟩) ∨
      (¬ SimpleOk a (stream m b0) (avail b0) ∧ readSimple m a b = .error .invalidData) := by
  have hw := simpleWidth_le (stream m b0)
  have hbits := simpleBits_ge (stream m b0)
  rw [readSimple]
  obtain ⟨hlt, h1⟩ | ⟨-, b1, h1, s1⟩ := brRead_at (n := 1) (by decide) h
  · exact .inr ⟨fun hc => absurd hc.1 (by omega), by rw [h1]⟩
  obtain ⟨hlt, h2⟩ | ⟨-, b2, h2, s2⟩ := brRead_at (n := 1) (by decide) s1
  · exact .inr ⟨fun hc => absurd hc.1 (by omega), by rw [h1]; dsimp only; rw [h2]⟩
  have hread : brRead m (if stream m b0 / 2 ^ (1 + 1) % 2 ^ 1 = 1 then 8 else 1) b2 =
    brRead m (simpleWidth (stream m b0)) b2 := rfl
  simp only [h1, h2, hread]
  obtain ⟨hlt, h3⟩ | ⟨hle, b3, h3, s3⟩ := brRead_at (n := simpleWidth (stream m b0)) (by omega) s2
  · exact .inr ⟨fun hc => absurd hc.1 (by omega), by rw [h3]⟩
  have hfirst : stream m b0 / 2 ^ (1 + 1 + 1) % 2 ^ simpleWidth (stream m b0) = simpleFirst (stream m b0) := rfl
  have htwo : stream m b0 / 2 ^ 1 % 2 ^ 1 = stream m b0 / 2 % 2 := rfl
  simp only [h3, hfirst, htwo]
  by_cases hin : a ≤ simpleFirst (stream m b0)
  · exact .inr ⟨fun hc => absurd hc.2.1 (by omega), if_pos hin⟩
  rw [if_neg hin]
  by_cases hone : stream m b0 / 2 % 2 = 0
  · have hb := simpleBits_one (v := stream m b0) (by omega)
    rw [SimpleOk, simpleLens, hb, if_pos hone, if_neg (by omega)]
    exact .inl ⟨⟨by omega, by omega, fun hc => absurd hc (by omega)⟩, b3, rfl, s3⟩
  rw [if_neg hone]
  have hb := simpleBits_two (v := stream m b0) (by omega)
  obtain ⟨hlt, h4⟩ | ⟨hle4, b4, h4, s4⟩ := brRead_at (n := 8) (by decide) s3
  · exact .inr ⟨fun hc => absurd hc.1 (by omega), by rw [h4]⟩
  have hsecond : stream m b0 / 2 ^ (1 + 1 + 1 + simpleWidth (stream m b0)) % 2 ^ 8 = simpleSecond (stream m b0) := rfl
  simp only [h4, hsecond]
  by_cases hin2 : a ≤ simpleSecond (stream m b0)
  · exact .inr ⟨fun hc => absurd (hc.2.2 (by omega)) (by omega), if_pos hin2⟩
  rw [if_neg hin2, SimpleOk, simpleLens, hb, if_pos (by omega)]
  exact .inl ⟨⟨by omega, by omega, fun _ => by omega⟩, b4, rfl, s4⟩

/-- A whole simple list, from its flag on. -/
theorem readLengthList_simple (a : Nat) (hb : b.AccOk) (hv : stream m b % 2 = 1) :
    (SimpleOk a (stream m b) (avail b) ∧ ∃ b', readLengthList m a b = .ok (simpleLens a (stream m b), none, b') ∧
        Consumed m b b' (simpleBits (stream m b)) (simpleBits (stream m b))) ∨
      (¬ SimpleOk a (stream m b) (avail b) ∧ readLengthList m a b = .error .invalidData) := by
  have hbits := simpleBits_ge (stream m b)
  rw [readLengthList]
  obtain ⟨hlt, h1⟩ | ⟨-, b1, h1, s1⟩ := brRead_at (n := 1) (by decide) (StandsAt.start (m := m) hb)
  · exact .inr ⟨fun hc => absurd hc.1 (by omega), by rw [h1]⟩
  simp only [h1]
  rw [if_pos (show stream m b / 2 ^ 0 % 2 ^ 1 = 1 by omega)]
  obtain ⟨hok, b2, h2, s2⟩ | ⟨hbad, h2⟩ := readSimple_at a s1
  · exact .inl ⟨hok, b2, by rw [h2], s2.here⟩
  · exact .inr ⟨hbad, by rw [h2]⟩

theorem bitsAt_value {v : Src} {n x : Nat} {q q' : Place} (h : bitsAt v n q = some (x, q')) : x = v.num / 2 ^ q.pos % 2 ^ n := by
  rw [bitsAt] at h
  split at h <;> cases h
  rfl

/-- A normal list, once its flag is read. -/
theorem readLengthList_normal {a flag : Nat} {b1 : BrRegs} (h : brRead m 1 b = .ok (flag, b1)) (hf : flag ≠ 1) :
    (∀ l cl b2, readNormal m a b1 = .ok (l, cl, b2) → readLengthList m a b = .ok (l, some cl, b2)) ∧
      ∀ e, readNormal m a b1 = .error e → readLengthList m a b = .error e := by
  refine ⟨fun l cl b2 hn => ?_, fun e hn => ?_⟩ <;> simp only [readLengthList, h, if_neg hf, hn]

end Sys2Proof.Machine

namespace Sys2Proof.Proofs

open Sys2Proof.Machine Sys2Proof.Claim

/-- Settles O43: the list's fields read one after the other, each from the bits after the last. -/
theorem hfReadSimple : Obligations.HfReadSimple := by
  intro s ha hready hwf v two n0 s0 s1 n hv
  obtain ⟨hok, b, hread, hcons⟩ | ⟨hbad, hread⟩ := readLengthList_simple s.hf.alpha.toNat hready.acc hv
  · refine ⟨fun _ _ _ => ⟨_, b, exec_hfReadLengths_ok ha hread, fun k hk => ?_, fun a hout => ?_, hcons⟩, fun hbad => ?_⟩
    · rw [memByte_lengths hwf (by rwa [(readLengthList_length hread).1]), simpleLens_getD hk]
      exact apply_ite (BitVec.ofNat 8) _ _ _
    · exact memByte_lengths_outside hwf (readLengthList_length hread).1 hout
    · obtain ⟨hn, h0, h1⟩ := hok
      obtain hlt | h0' | ⟨h2, h1'⟩ := hbad
      · exact absurd hn (Nat.not_le.2 hlt)
      · exact absurd h0 (Nat.not_lt.2 h0')
      · exact absurd (h1 h2) (Nat.not_lt.2 h1')
  · exact ⟨fun hn h0 h1 => absurd ⟨hn, h0, h1⟩ hbad, fun _ => exec_hfReadLengths_error ha hread⟩

/-- Settles O44: the reader's list is that of the stream as a number, read after its flag. -/
theorem hfReadNormal : Obligations.HfReadNormal := by
  intro s ha hready hwf hv
  have hflag := brRead_agrees (n := 1) (by decide) (StandsAt.start (m := s.mem) hready.acc)
  obtain ⟨hnone, herr⟩ | ⟨flag, q, b, hsome, hread, hplace⟩ := hflag.elim
  · rw [show bitsAt (srcOf s) 1 ⟨0, 0⟩ = none from hnone]
    exact exec_hfReadLengths_error ha (e := .invalidData) (by rw [readLengthList, herr])
  · rw [show bitsAt (srcOf s) 1 ⟨0, 0⟩ = some (flag, q) from hsome, Option.bind_some]
    have hne : flag ≠ 1 := by
      rw [bitsAt_value hsome]
      show stream s.mem s.br / 1 % 2 ≠ 1
      omega
    obtain ⟨hgood, hfail⟩ := readLengthList_normal (a := s.hf.alpha.toNat) hread hne
    have hn := readNormal_agrees s.hf.alpha.toNat hplace
    dsimp only
    cases hnormal : normalAt (srcOf s) s.hf.alpha.toNat q with
    | none =>
      rw [show normalAt (srcAt s.mem s.br) s.hf.alpha.toNat q = none from hnormal] at hn
      exact exec_hfReadLengths_error ha (hfail _ hn)
    | some r =>
      rw [show normalAt (srcAt s.mem s.br) s.hf.alpha.toNat q = some r from hnormal] at hn
      obtain ⟨b', hlist, hend⟩ := hn
      have hl := hgood _ _ _ hlist
      have hlen := (readLengthList_length hl).1
      refine ⟨_, b', exec_hfReadLengths_ok ha hl, fun k hk => ?_, fun a hout => ?_, hend.here⟩
      · exact memByte_lengths hwf (by rwa [hlen])
      · exact memByte_lengths_outside hwf hlen hout

/-- Settles O45: every list that is read holds lengths of at most 15, and the command stores that list. -/
theorem hfReadLengthsRange : Obligations.HfReadLengthsRange := by
  intro s t hwf he h ht k hk
  by_cases ha : ArgsOk s .hfReadLengths
  · cases hread : readLengthList s.mem s.hf.alpha.toNat s.br with
    | error e =>
      obtain ⟨u, hu, hue, -⟩ := exec_hfReadLengths_error ha hread
      cases hu.symm.trans h
      rw [hue] at ht
      exact absurd ht (by decide)
    | ok r =>
      obtain ⟨l, cl, b⟩ := r
      obtain ⟨hlen, hmax⟩ := readLengthList_length hread
      cases (exec_hfReadLengths_ok ha hread).symm.trans h
      show (memByte (memStoreList s.mem _ (l.map (BitVec.ofNat 8))) _).toNat ≤ 15
      rw [memByte_lengths hwf (by rwa [hlen]), BitVec.toNat_ofNat]
      exact Nat.le_trans (Nat.mod_le _ _) (getD_le hmax k)
  · cases (exec_refuse ha).symm.trans h
    exact absurd ht (code_ne_zero .invalidArgument)

end Sys2Proof.Proofs
end

section
/-! Proofs about PX_DECODE (46_lz77_pixel.md R215 to R228): images of single-symbol literals, any image whose output lies apart
from what it reads, backward copies, the values of `Prefix`, and the colour cache. -/

namespace Sys2Proof.Machine

open Sys2Proof.Claim

variable {s : State}

/-! ### The command's ends -/

/-- PX_DECODE where the loop ends. -/
theorem exec_pxDecode_ok {r : PxRun} (ha : ArgsOk s .pxDecode)
    (h : pxLoop s.px s.slots (s.px.width.toNat * s.px.height.toNat) (pxStart s) = .ok r) :
    exec .pxDecode s = .next (finished { s with
      mem := r.mem, cache := r.cache, br := r.br
      px := { s.px with pos := BitVec.ofNat 32 (s.px.width.toNat * s.px.height.toNat) }
      result := BitVec.ofNat 32 (s.px.width.toNat * s.px.height.toNat) }) := by
  rw [exec, execPxDecode, px_args.2 ha, withChecks_ok]
  dsimp only
  rw [h]
  rfl

/-- PX_DECODE where the loop fails. -/
theorem exec_pxDecode_error {e : ErrKind} (ha : ArgsOk s .pxDecode)
    (h : pxLoop s.px s.slots (s.px.width.toNat * s.px.height.toNat) (pxStart s) = .error e) :
    ∃ t, exec .pxDecode s = .next t ∧ t.err = e.code ∧ t.errOp = 0x50#8 ∧ t.result = s.result := by
  rw [exec, execPxDecode, px_args.2 ha, withChecks_ok]
  dsimp only
  rw [h]
  exact ⟨_, rfl, rfl, rfl, rfl⟩

/-! ### Images of single-symbol literals -/

/-- A table that holds a single-symbol code gives its symbol and leaves the run as it is. -/
theorem pxDecodeWith_single {g t y : Nat} (h : SingleIn s (s.px.groupBase.toNat + 5 * g + t) y) (r : PxRun) :
    pxDecodeWith s.px s.slots g t r = .ok (y, r) := by
  obtain ⟨l, hl, honly⟩ := h
  rw [pxDecodeWith, show Sparse.get none s.slots (pxSlot s.px g t) = some l from hl, Option.getD_some, hfDecode_single honly]

/-- The huffman-image word of a pixel, read from a memory that still holds the huffman image. -/
theorem himgWord_kept {m : Memory} {pos : Nat} (hpos : pos < s.px.width.toNat * s.px.height.toNat)
    (h : ∀ a, s.px.himgAddr.toNat ≤ a → a < s.px.himgAddr.toNat + 4 *
        ((s.px.width.toNat + 2 ^ s.px.hbits.toNat - 1) / 2 ^ s.px.hbits.toNat *
          ((s.px.height.toNat + 2 ^ s.px.hbits.toNat - 1) / 2 ^ s.px.hbits.toNat)) → memByte m a = memByte s.mem a) :
    memWord m (s.px.himgAddr.toNat + 4 * (pos / s.px.width.toNat / 2 ^ s.px.hbits.toNat *
        himgWords s.px.hbits.toNat s.px.width.toNat + pos % s.px.width.toNat / 2 ^ s.px.hbits.toNat)) =
      himgWord s (pos % s.px.width.toNat) (pos / s.px.width.toNat) := by
  have hw : 0 < s.px.width.toNat := Nat.pos_of_mul_pos_right (Nat.zero_lt_of_lt hpos)
  have hi := himg_index (b := s.px.hbits.toNat) (Nat.mod_lt pos hw)
    (show pos / s.px.width.toNat < s.px.height.toNat by rwa [Nat.div_lt_iff_lt_mul hw, Nat.mul_comm])
  refine memWord_congr fun a h1 h2 => ?_
  unfold himgWords at h1 h2
  exact h a (by omega) (by omega)

/-- The group of a pixel whose block names one. -/
theorem pxGroup_named {m : Memory} {pos : Nat}
    (hword : s.px.hen = true → memWord m (s.px.himgAddr.toNat + 4 * (pos / s.px.width.toNat / 2 ^ s.px.hbits.toNat *
        himgWords s.px.hbits.toNat s.px.width.toNat + pos % s.px.width.toNat / 2 ^ s.px.hbits.toNat)) =
      himgWord s (pos % s.px.width.toNat) (pos / s.px.width.toNat))
    (hname : s.px.hen = true → (himgWord s (pos % s.px.width.toNat) (pos / s.px.width.toNat)).toNat / 2 ^ 16 % 256 = 0 ∧
      groupAt s pos < s.px.numGroups.toNat) : pxGroup s.px m pos = .ok (groupAt s pos) := by
  unfold pxGroup
  cases hh : s.px.hen with
  | false => rw [groupAt, hh]; rfl
  | true =>
    obtain ⟨hred, hlt⟩ := hname hh
    unfold groupAt at hlt ⊢
    dsimp only
    rw [hh, if_pos rfl] at hlt ⊢
    rw [if_pos rfl, hword hh]
    generalize himgWord s (pos % s.px.width.toNat) (pos / s.px.width.toNat) = w at hred hlt
    have h16 : w.extractLsb' 16 8 = 0 := by
      rw [← BitVec.toNat_inj]; simpa [Nat.shiftRight_eq_div_pow] using hred
    have h8 : (w.extractLsb' 8 8).toNat = w.toNat / 2 ^ 8 % 256 := by simp [Nat.shiftRight_eq_div_pow]
    rw [if_neg (Classical.not_not.2 h16), h8, if_neg (Nat.not_le.2 hlt)]

/-- The pixel that the tables of the group of `pos` give. -/
def solidWord (s : State) (col : Nat → Nat → Nat) (pos : Nat) : Word :=
  argb (col (groupAt s pos) 3) (col (groupAt s pos) 1) (col (groupAt s pos) 0) (col (groupAt s pos) 2)

/-- The run has emitted the pixels up to its position and has not read the stream. -/
structure SolidRun (s : State) (col : Nat → Nat → Nat) (r : PxRun) : Prop where
  short   : r.pos ≤ s.px.width.toNat * s.px.height.toNat
  wf      : Memory.wf r.mem
  br      : r.br = s.br
  outside : ∀ a, a < s.px.dstAddr.toNat ∨ s.px.dstAddr.toNat + 4 * (s.px.width.toNat * s.px.height.toNat) ≤ a →
    memByte r.mem a = memByte s.mem a
  pixels  : ∀ i < r.pos, memWord r.mem (s.px.dstAddr.toNat + 4 * i) = solidWord s col i

variable {col : Nat → Nat → Nat} {r : PxRun}

theorem groupAt_lt (ha : ArgsOk s .pxDecode) (hs : Solid s col) {pos : Nat}
    (hpos : pos < s.px.width.toNat * s.px.height.toNat) : groupAt s pos < s.px.numGroups.toNat := by
  cases hh : s.px.hen with
  | true => exact (hs.groups pos hpos hh).2
  | false =>
    rw [groupAt, hh]
    simp only [ArgsOk] at ha
    exact (by omega : 0 < s.px.numGroups.toNat)

/-- One main symbol emits the pixel of its group. -/
theorem SolidRun.pixel (ha : ArgsOk s .pxDecode) (hs : Solid s col) (h : SolidRun s col r)
    (hn : r.pos < s.px.width.toNat * s.px.height.toNat) :
    pxPixel s.px s.slots r = .ok (pxEmit s.px (solidWord s col r.pos) r) := by
  have hg : pxGroup s.px r.mem r.pos = .ok (groupAt s r.pos) := by
    refine pxGroup_named (fun hh => himgWord_kept hn fun a h1 h2 => h.outside a ?_) (hs.groups r.pos hn)
    have hap := hs.apart hh
    rw [Nat.mul_assoc] at hap
    omega
  have htab : ∀ t < 4, pxDecodeWith s.px s.slots (groupAt s r.pos) t r = .ok (col (groupAt s r.pos) t, r) ∧
      col (groupAt s r.pos) t < 256 := fun t ht =>
    have htable := hs.tables _ (groupAt_lt ha hs hn) t ht
    ⟨pxDecodeWith_single htable.1 r, htable.2⟩
  obtain ⟨h0, c0⟩ := htab 0 (by decide)
  obtain ⟨h1, c1⟩ := htab 1 (by decide)
  obtain ⟨h2, c2⟩ := htab 2 (by decide)
  obtain ⟨h3, c3⟩ := htab 3 (by decide)
  simp only [pxPixel, pxLiteral, hg, h0, h1, h2, h3, if_pos c0]
  rw [if_neg (by omega)]
  rfl

theorem SolidRun.emit (h : SolidRun s col r) (hn : r.pos < s.px.width.toNat * s.px.height.toNat) :
    SolidRun s col (pxEmit s.px (solidWord s col r.pos) r) := by
  refine ⟨hn, memStore32_wf h.wf _ _, h.br, fun a ha => ?_, fun i hi => ?_⟩
  · rw [← h.outside a ha]
    exact memByte_store32_outside h.wf _ _ (by omega)
  · show memWord (memStore32 r.mem (s.px.dstAddr.toNat + 4 * r.pos) (solidWord s col r.pos)) _ = _
    have hi : i < r.pos + 1 := hi
    by_cases hc : i = r.pos
    · rw [hc, memWord_store32 h.wf]
    · rw [memWord_store32_outside h.wf _ _ (by omega), h.pixels i (by omega)]

/-- The loop emits every pixel. -/
theorem SolidRun.loop (ha : ArgsOk s .pxDecode) (hs : Solid s col) : ∀ {k : Nat} {r : PxRun}, SolidRun s col r →
    s.px.width.toNat * s.px.height.toNat ≤ r.pos + k →
    ∃ r', pxLoop s.px s.slots k r = .ok r' ∧ SolidRun s col r' ∧ r'.pos = s.px.width.toNat * s.px.height.toNat := by
  intro k
  induction k with
  | zero => exact fun {r} h hk => ⟨r, rfl, h, Nat.le_antisymm h.short hk⟩
  | succ k ih =>
    intro r h hk
    rw [pxLoop]
    by_cases hn : r.pos < s.px.width.toNat * s.px.height.toNat
    · rw [if_pos hn, h.pixel ha hs hn]
      exact ih (h.emit hn) (by rw [pxEmit_pos]; omega)
    · rw [if_neg hn]
      exact ⟨r, rfl, h, Nat.le_antisymm h.short (Nat.le_of_not_lt hn)⟩

theorem SolidRun.start (hwf : Memory.wf s.mem) : SolidRun s col (pxStart s) :=
  ⟨Nat.zero_le _, hwf, rfl, fun _ _ => rfl, fun i hi => absurd hi (Nat.not_lt_zero i)⟩

theorem argb_toNat {a r g b : Nat} (ha : a < 256) (hr : r < 256) (hg : g < 256) (hb : b < 256) :
    (argb a r g b).toNat = 2 ^ 24 * a + 2 ^ 16 * r + 2 ^ 8 * g + b := by
  rw [argb_eq ha hr hg hb, BitVec.toNat_ofNat, Nat.mod_eq_of_lt (by omega)]

theorem solidWord_toNat (ha : ArgsOk s .pxDecode) (hs : Solid s col) {pos : Nat}
    (hpos : pos < s.px.width.toNat * s.px.height.toNat) : (solidWord s col pos).toNat =
      2 ^ 24 * col (groupAt s pos) 3 + 2 ^ 16 * col (groupAt s pos) 1 + 2 ^ 8 * col (groupAt s pos) 0 +
        col (groupAt s pos) 2 := by
  have hlt : ∀ t < 4, col (groupAt s pos) t < 256 := fun t ht => (hs.tables _ (groupAt_lt ha hs hpos) t ht).2
  exact argb_toNat (hlt 3 (by decide)) (hlt 1 (by decide)) (hlt 0 (by decide)) (hlt 2 (by decide))

/-! ### Backward copies (R224) -/

/-- After a copy, each pixel emitted equals the one `dist` before it. -/
theorem pxCopy_repeats {v : PxRegs} {dist : Nat} (hd : 1 ≤ dist) : ∀ {n : Nat} {r : PxRun}, dist ≤ r.pos → Memory.wf r.mem →
    ∀ j < n, memWord (pxCopy v dist n r).mem (v.dstAddr.toNat + 4 * (r.pos + j)) =
      memWord (pxCopy v dist n r).mem (v.dstAddr.toNat + 4 * (r.pos + j - dist)) := by
  intro n
  induction n with
  | zero => exact fun _ _ j hj => absurd hj (Nat.not_lt_zero j)
  | succ n ih =>
    intro r hr hwf j hj
    rw [pxCopy]
    generalize hp : memWord r.mem (v.dstAddr.toNat + 4 * (r.pos - dist)) = p
    have hmoves := pxCopy_moves v dist n (pxEmit v p r)
    have hwf' := (pxEmit_moves v p r).memWf hwf
    cases j with
    | zero =>
      have hkept : ∀ i < r.pos + 1, memWord (pxCopy v dist n (pxEmit v p r)).mem (v.dstAddr.toNat + 4 * i) =
          memWord (pxEmit v p r).mem (v.dstAddr.toNat + 4 * i) := fun i hi =>
        memWord_congr fun a h1 h2 => hmoves.outside hwf' (.inl (by rw [pxEmit_pos]; omega))
      rw [Nat.add_zero, hkept _ (by omega), hkept _ (by omega)]
      show memWord (memStore32 r.mem (v.dstAddr.toNat + 4 * r.pos) p) _ =
        memWord (memStore32 r.mem (v.dstAddr.toNat + 4 * r.pos) p) _
      rw [memWord_store32 hwf, memWord_store32_outside hwf _ _ (by omega), hp]
    | succ j =>
      have hnext := ih (r := pxEmit v p r) (by rw [pxEmit_pos]; omega) hwf' j (by omega)
      rwa [pxEmit_pos, Nat.add_assoc, Nat.add_comm 1 j] at hnext

/-! ### The values of `Prefix` (R220) and the colour cache -/

/-- The bits of a code of `e` extra bits keep it below twice the power above them. -/
theorem prefix_value_le {c e x b : Nat} (he : e ≤ b) (hx : x < 2 ^ e) : (2 + c % 2) * 2 ^ e + x + 1 ≤ 4 * 2 ^ b := by
  have hpow : 2 ^ e ≤ 2 ^ b := Nat.pow_le_pow_right (by decide) he
  have hmul : (2 + c % 2) * 2 ^ e ≤ 3 * 2 ^ e := Nat.mul_le_mul_right _ (by omega)
  omega

/-- The cache after an emitted pixel. -/
theorem cacheEntry_emit {v : PxRegs} {p : Word} {r : PxRun} (hc : Sparse.Canonical 0#32 r.cache) (hb : v.ccBits ≠ 0) (i : Nat) :
    cacheEntry (pxEmit v p r).cache i = if i = pxHash p v.ccBits.toNat then p else cacheEntry r.cache i := by
  show cacheEntry (if v.ccBits = 0 then r.cache else cacheStore r.cache (pxHash p v.ccBits.toNat) p) i = _
  rw [if_neg hb, cacheEntry, cacheStore, Sparse.get_set hc]
  rfl

/-! ### What is refused at the first pixel -/

/-- The first pixel of an image without a huffman image is of group 0. -/
theorem pxPixel_first {y : Nat} (hen : s.px.hen = false) (h : SingleIn s s.px.groupBase.toNat y) :
    pxPixel s.px s.slots (pxStart s) =
      if y < 256 then pxLiteral s.px s.slots 0 y (pxStart s)
      else if y < 280 then pxBackward s.px s.slots 0 (y - 256) (pxStart s) else pxCached s.px (y - 280) (pxStart s) := by
  have hg : pxGroup s.px (pxStart s).mem (pxStart s).pos = .ok 0 := by
    rw [pxGroup, hen]
    rfl
  rw [pxPixel, hg]
  dsimp only
  rw [pxDecodeWith_single (y := y) h]

theorem pxDecodeWith_error {v : PxRegs} {slots : Sparse (Option HCode)} {g t : Nat} {r : PxRun} {e : ErrKind}
    (h : pxDecodeWith v slots g t r = .error e) : e = .invalidData := by
  unfold pxDecodeWith at h
  split at h <;> cases h
  exact hfDecode_raises ‹_›

/-- A first pixel that fails makes the loop fail. -/
theorem pxLoop_first {e : ErrKind} (ha : ArgsOk s .pxDecode) (h : pxPixel s.px s.slots (pxStart s) = .error e) :
    pxLoop s.px s.slots (s.px.width.toNat * s.px.height.toNat) (pxStart s) = .error e := by
  have hn : 0 < s.px.width.toNat * s.px.height.toNat := by
    simp only [ArgsOk] at ha
    exact Nat.mul_pos (by omega) (by omega)
  obtain ⟨k, hk⟩ := Nat.exists_eq_add_of_lt hn
  rw [Nat.zero_add] at hk
  rw [hk, pxLoop, if_pos (show (pxStart s).pos < _ from hn), h]

/-- No copy at the first pixel succeeds: every distance is 1 or more. -/
theorem pxBackward_start {v : PxRegs} {slots : Sparse (Option HCode)} {g c : Nat} {r : PxRun} (hr : r.pos = 0) :
    pxBackward v slots g c r = .error .invalidData := by
  rw [pxBackward]
  cases hlen : pxPrefix r.mem c r.br with
  | error e => obtain rfl := pxPrefix_raises hlen; rfl
  | ok x =>
    obtain ⟨len, b⟩ := x
    dsimp only
    cases hsym : pxDecodeWith v slots g 4 { r with br := b } with
    | error e => obtain rfl := pxDecodeWith_error hsym; rfl
    | ok x =>
      obtain ⟨dsym, r2⟩ := x
      have hpos := (pxDecodeWith_moves hsym).2
      dsimp only
      split
      · rfl
      · cases hdist : pxPrefix r2.mem dsym r2.br with
        | error e => obtain rfl := pxPrefix_raises hdist; rfl
        | ok x =>
          have hp := pxPlane_pos v.width.toNat x.1
          exact if_pos (.inl (by rw [hpos]; exact (show r.pos < _ by omega)))

end Sys2Proof.Machine

namespace Sys2Proof.Proofs

open Sys2Proof.Machine Sys2Proof.Claim

/-- Settles O46: each main symbol emits the pixel of its group and reads nothing of the stream. -/
theorem pxSolid : Obligations.PxSolid := by
  intro s col ha hwf hs n
  obtain ⟨r, hrun, hfill, hpos⟩ := (SolidRun.start hwf).loop ha hs (k := n) (Nat.le_add_left _ _)
  refine ⟨r.mem, r.cache, ?_, fun pos hlt => ?_, fun a hout => hfill.outside a (px_stores hout)⟩
  · rw [exec_pxDecode_ok ha hrun, hfill.br]
  · rw [hfill.pixels pos (by rw [hpos]; exact hlt)]
    exact solidWord_toNat ha hs hlt

/-- Settles O47: the loop keeps the picture of `imageOf`; a copy reads each pixel when it emits it. -/
theorem pxPixels : Obligations.PxPixels := by
  refine ⟨?_, ?_⟩
  · intro s pix q hs himg n
    have hloop := (Shows.start hs).loop hs (k := n) (Nat.le_add_left _ _)
    rw [show imageAt s (srcOf s) n [] ⟨0, 0⟩ = .ok (pix, q) from himg] at hloop
    obtain ⟨r, hrun, hshow, hlen⟩ := hloop
    refine ⟨r.mem, r.cache, r.br, exec_pxDecode_ok hs.args hrun, hlen, fun pos hlt => ?_, fun a hout => ?_, hshow.cache,
      hshow.place.here⟩
    · exact hshow.pixels pos (by rw [hlen]; exact hlt)
    · exact hshow.outside a (px_stores hout)
  · intro v dist n r hd hr hwf r'
    have hpos := pxCopy_pos v dist n r
    refine ⟨hpos, pxCopy_repeats hd hr hwf, fun a hout => ?_⟩
    exact (pxCopy_moves v dist n r).outside hwf (by rw [hpos]; exact hout)

/-- Settles O48: the extra bits are the next of the stream, and bound the value. -/
theorem pxPrefix : Obligations.PxPrefix := by
  refine ⟨fun w d _ => ⟨pxPlane_eq w d, pxPlane_pos w d⟩, fun m b c hacc hc hbits => ?_⟩
  by_cases h4 : c < 4
  · refine ⟨c + 1, b, by rw [Machine.pxPrefix, if_pos h4], fun _ => ⟨rfl, rfl⟩, fun h => absurd h4 (Nat.not_lt.2 h), ?_⟩
    omega
  · have he : (c - 2) / 2 = c / 2 - 1 := by omega
    obtain ⟨b', hread, hcons⟩ := brRead_ok (m := m) (by omega) hacc hbits
    have hx : stream m b % 2 ^ (c / 2 - 1) < 2 ^ (c / 2 - 1) := Nat.mod_lt _ (Nat.two_pow_pos _)
    refine ⟨_, b', ?_, fun h => absurd h h4, fun _ => ⟨rfl, hcons⟩, by omega, fun h => ?_, ?_⟩
    · rw [Machine.pxPrefix, if_neg h4, he, hread]
    · exact prefix_value_le (b := 10) (by omega) hx
    · exact prefix_value_le (b := 18) (by omega) hx

/-- Settles O49: an emitted pixel is stored at its hash. -/
theorem pxCache : Obligations.PxCache := by
  intro v p r hcan
  refine ⟨fun h0 => if_pos h0, fun hb h11 => ⟨?_, fun i => cacheEntry_emit hcan hb i⟩⟩
  exact pxHash_lt p (by omega)

/-- Settles O50: the loop raises the error of `imageOf`; a first pixel has nothing before it, and no cache to look in. -/
theorem pxRefuses : Obligations.PxRefuses := by
  refine ⟨fun s e hs himg => ?_, fun s y ha hen hsingle hy => ?_⟩
  · have hloop := (Shows.start hs).loop hs (k := s.px.width.toNat * s.px.height.toNat) (Nat.le_add_left _ _)
    rw [show imageAt s (srcOf s) (s.px.width.toNat * s.px.height.toNat) [] ⟨0, 0⟩ = .error e from himg] at hloop
    obtain ⟨k, hrun, rfl⟩ := hloop
    exact exec_pxDecode_error hs.args hrun
  · have hpix : pxPixel s.px s.slots (pxStart s) = .error .invalidData := by
      rw [pxPixel_first hen hsingle]
      obtain ⟨h1, h2⟩ | ⟨h1, h2⟩ := hy
      · rw [if_neg (by omega), if_pos h2]
        exact pxBackward_start rfl
      · rw [if_neg (by omega), if_neg (by omega), pxCached, if_pos (.inl h2)]
    exact exec_pxDecode_error (e := .invalidData) ha (pxLoop_first ha hpix)

end Sys2Proof.Proofs
end
